-- ==== Sys2Proof/Word.lean ====
section
/-! DEFINITION. The word type, the numbering types of `00_scope.md` ("Numbering of things") and the two
plain operations on a bank of numbered things: reading one and changing one. -/

namespace Sys2Proof

/-- One byte as it crosses a port. -/
abbrev Byte := BitVec 8

/-- An auditorium, 0 to 15 (its cue port, show clock, FRAME and RUN inputs carry the same number). -/
abbrev Aud := Fin 16

/-- A stream slot of an auditorium, 0 to 5. -/
abbrev Slot := Fin 6

/-- A stream table entry: auditorium × 6 + slot, 0 to 95. -/
abbrev StreamNo := Fin 96

/-- A patron link port, 0 to 3; the acceptance filters of a port are numbered alike. -/
abbrev Port := Fin 4

/-- A receiver table index, 0 to 1,023. -/
abbrev RxIndex := Fin 1024

/-- A staging buffer of a link port, 0 to 2. -/
abbrev BufNo := Fin 3

/-- A cue's sequence number, 16 bits on the wire. -/
abbrev Seq := BitVec 16

/-- Entry `i` of a bank of `n` like things. -/
def pick {α : Type} {n : Nat} (v : Vector α n) (i : Fin n) : α := v[i.val]'i.isLt

/-- The bank with entry `i` changed by `f` and every other entry as it was. -/
def change {α : Type} {n : Nat} (v : Vector α n) (i : Fin n) (f : α → α) : Vector α n :=
  v.set i.val (f (pick v i)) i.isLt

@[simp] theorem pick_change_same {α : Type} {n : Nat} (v : Vector α n) (i : Fin n) (f : α → α) :
    pick (change v i f) i = f (pick v i) := by
  simp [pick, change]

theorem pick_change_of_ne {α : Type} {n : Nat} (v : Vector α n) (i j : Fin n) (f : α → α) (h : i ≠ j) :
    pick (change v i f) j = pick v j := by
  have hv : i.val ≠ j.val := fun e => h (Fin.ext e)
  simp [pick, change, hv]

theorem pick_change {α : Type} {n : Nat} (v : Vector α n) (i j : Fin n) (f : α → α) :
    pick (change v i f) j = if i = j then f (pick v j) else pick v j := by
  by_cases h : i = j
  · subst h; simp
  · simp [h, pick_change_of_ne v i j f h]

/-- Two banks that hold the same entries are the same bank. -/
theorem bank_ext {α : Type} {n : Nat} {v w : Vector α n} (h : ∀ i, pick v i = pick w i) : v = w := by
  apply Vector.ext
  intro i hi
  exact h ⟨i, hi⟩

end Sys2Proof
end

