-- ==== Sys2Proof/Syntax.lean ====
section
/-! DEFINITION. The commands of the part: one constructor for each row of `spec/opcode_table.json`.

Four senders put commands (`00_scope.md`, The outside parties): the board (`deviceReset`), a playback server with
its FRAME, RUN and CUE_RX lines, a baseband, and the venue controller. The rows that name an instant of the time base
(a threshold reached, a timer expired, a step ended) are commands too: the idle part puts them into its own queue
when they fall due (log entries 1 and 2).

A management command carries its argument bytes as they stand in the frame (10.6), so that the length check of R163
and the value checks of R174 are part of the model. A cue record carries its field characters (10.2). -/

namespace Sys2Proof

/-- One reception report entry of a REPORT (R145; 10.5). -/
structure ReportEntry where
  receiver : BitVec 32
  auditorium : Byte
  slot : Byte
  missed : Byte
  deriving DecidableEq, Repr

inductive Instr where
  /-- RESET_N low (R22, R24, R60, R122, R148, R169). -/
  | deviceReset
  /-- A rising edge on FRAMEa (R5). -/
  | strobe (a : Aud)
  /-- `e` reaches the next sub-frame threshold (R9). -/
  | subStep (a : Aud)
  /-- `e` reaches 1.5 periods in RUNNING (R12). -/
  | strobeLoss (a : Aud)
  /-- `e` reaches the period in use in COASTING (R13). -/
  | syntheticStrobe (a : Aud)
  /-- The pause count reaches the stale limit (R20). -/
  | staleEvent (a : Aud)
  /-- The RUNa input takes a level (R27). -/
  | runChange (a : Aud) (high : Bool)
  /-- The stop-bit sample of a character on CUE_RXa, with the samples taken (R46): eight data bits, the parity sample (read
  only with parity even or odd) and the stop-bit sample. -/
  | character (a : Aud) (value : Byte) (parityBit stopBit : Bool)
  /-- The stop-bit sample of a break: every sample low (R46). -/
  | lineBreak (a : Aud)
  /-- CUE_RXa returns high (R46, R49). -/
  | lineReturnsHigh (a : Aud)
  /-- The gap timer reaches four character times (R49). -/
  | gap (a : Aud)
  /-- The last intake pause has ended and the assembler goes on (R53). -/
  | assemblerResumes (a : Aud)
  /-- A damaged record ends; `kind` is its kind character where that was taken without error (R52). -/
  | damagedRecord (a : Aud) (kind : Option Byte)
  /-- A record whose kind character is none of the six (R63). -/
  | unknownKind (a : Aud) (kind : Byte) (fields : List Byte)
  /-- A MARK record with its field characters (R29). -/
  | mark (a : Aud) (fields : List Byte)
  /-- A HEAD record (R67). -/
  | head (a : Aud) (fields : List Byte)
  /-- A BODY record (R73). -/
  | body (a : Aud) (payload : List Byte)
  /-- A WITHDRAW record (R79). -/
  | withdraw (a : Aud) (fields : List Byte)
  /-- An END record (R35). -/
  | endRecord (a : Aud) (fields : List Byte)
  /-- A QUERY record (R80). -/
  | query (a : Aud) (fields : List Byte)
  /-- The sorted insertion walk ends (R75). -/
  | insertionPlaces (a : Aud)
  /-- The freeing unit finishes a cell (R91). -/
  | cellFreed (a : Aud)
  /-- A purge walk step ends (R93). -/
  | purgeStep (a : Aud)
  /-- The transmission of a reply on CUE_TXa ends (R58). -/
  | replySent (a : Aud)
  /-- A fill's time has passed (R133). -/
  | fillEnds (p : Port)
  /-- PULL with its slot number (R135). -/
  | pull (p : Port) (slot : BitVec 16)
  /-- DONE SENT (R137). -/
  | doneSent (p : Port)
  /-- DONE ABORTED (R138). -/
  | doneAborted (p : Port)
  /-- REPORT with its entries (R145). -/
  | report (p : Port) (entries : List ReportEntry)
  /-- LINK-QUERY (R146). -/
  | linkQuery (p : Port)
  /-- ALIGN-START (R142). -/
  | alignStart (p : Port)
  /-- PROBE-WRITE with its bytes (R143). -/
  | probeWrite (p : Port) (bytes : List Byte)
  /-- PROBE-READ (R143). -/
  | probeRead (p : Port)
  /-- ALIGN-END with verdict PASS (R144). -/
  | alignEndPass (p : Port)
  /-- ALIGN-END with verdict FAIL (R144). -/
  | alignEndFail (p : Port)
  /-- A link transaction of unknown code or wrong arguments (R123, R174). -/
  | malformed (p : Port) (code : Byte) (args : List Byte)
  /-- The silence timer reaches its limit (R127). -/
  | silenceTimerExpires (p : Port)
  /-- The beacon timer expires (R139). -/
  | beaconTimerExpires (p : Port)
  /-- The second timer expires (R154). -/
  | secondTimerExpires
  /-- FETCH (R164). -/
  | fetch
  /-- A command write whose code names no command (R163). -/
  | unknownCommand (code : Byte) (args : List Byte)
  | configureAuditorium (args : List Byte)
  | arm (args : List Byte)
  | disarm (args : List Byte)
  | setGate (args : List Byte)
  | openStream (args : List Byte)
  | closeStream (args : List Byte)
  | setCuePort (args : List Byte)
  | resetCuePort (args : List Byte)
  | setFilter (args : List Byte)
  | setLink (args : List Byte)
  | resetLinkPort (args : List Byte)
  | registerReceiver (args : List Byte)
  | releaseReceiver (args : List Byte)
  | readReceiver (args : List Byte)
  | setReceiverPolicy (args : List Byte)
  | takeLost (args : List Byte)
  | readAuditorium (args : List Byte)
  | readStream (args : List Byte)
  | readLink (args : List Byte)
  | readCounters (args : List Byte)
  | readAttention (args : List Byte)
  | ackAttention (args : List Byte)
  | setAttentionEnable (args : List Byte)
  /-- A falling edge on an idle CUE_RXa; `breakBegins` says whether it is the beginning of a break (R46, R49). -/
  | candidateStartBit (a : Aud) (breakBegins : Bool)
  deriving DecidableEq, Repr

end Sys2Proof
end

