-- ==== Sys2Proof/Decode.lean ====
section
/-! DEFINITION. From bytes to commands. The rows of the opcode table give no bits, so no word spells a command; what a port
does read is a transaction or a record, whose layout 10.2, 10.5 and 10.6 give. -/

namespace Sys2Proof

/-- The command a word spells by the table's bits: the table gives no row any bits (log entry 23). -/
def decodeTableWord (_nbits _w : Nat) : Option Instr := none

/-! ### Link port transactions (10.5, R123, R174) -/

/-- The report entries that 7 bytes each spell: receiver id (4), auditorium, slot, missed count. -/
def reportEntries : List Byte → Option (List ReportEntry)
  | [] => some []
  | i3 :: i2 :: i1 :: i0 :: a :: k :: m :: rest =>
    (reportEntries rest).map (fun es =>
      { receiver := i3 ++ i2 ++ i1 ++ i0, auditorium := a, slot := k, missed := m } :: es)
  | _ => none

/-- A REPORT's entries where its count, 1 to 16, agrees with its length of 1 + 7 times the count (R174). -/
def reportOf : List Byte → Option (List ReportEntry)
  | [] => none
  | c :: rest =>
    if decide (1 ≤ c.toNat) && decide (c.toNat ≤ 16) && decide (rest.length = 7 * c.toNat) then reportEntries rest
    else none

/-- The command of a transaction with its code and its argument bytes; MALFORMED where the code is unknown, the length is
wrong or a value is outside its codes (R123, R174). -/
def linkTransaction (p : Port) (code : Byte) (args : List Byte) : Instr :=
  match code.toNat, args with
  | 1, [n1, n0] => .pull p (n1 ++ n0)
  | 2, [v] =>
    match v.toNat with
    | 1 => .doneSent p
    | 2 => .doneAborted p
    | _ => .malformed p code args
  | 3, _ =>
    match reportOf args with
    | some es => .report p es
    | none => .malformed p code args
  | 4, [] => .linkQuery p
  | 5, [] => .alignStart p
  | 6, _ => if args.length = 64 then .probeWrite p args else .malformed p code args
  | 7, [] => .probeRead p
  | 8, [v] =>
    match v.toNat with
    | 1 => .alignEndPass p
    | 2 => .alignEndFail p
    | _ => .malformed p code args
  | _, _ => .malformed p code args

/-! ### Management frames (10.6, R163) -/

/-- The command of a management transaction: FETCH for a first byte of 0, else the command write of that code. -/
def managementFrame (code : Byte) (args : List Byte) : Instr :=
  match code.toNat with
  | 0 => .fetch
  | 1 => .configureAuditorium args
  | 2 => .arm args
  | 3 => .disarm args
  | 4 => .setGate args
  | 5 => .openStream args
  | 6 => .closeStream args
  | 7 => .setCuePort args
  | 8 => .resetCuePort args
  | 9 => .setFilter args
  | 10 => .setLink args
  | 11 => .resetLinkPort args
  | 12 => .registerReceiver args
  | 13 => .releaseReceiver args
  | 14 => .readReceiver args
  | 15 => .setReceiverPolicy args
  | 16 => .takeLost args
  | 17 => .readAuditorium args
  | 18 => .readStream args
  | 19 => .readLink args
  | 20 => .readCounters args
  | 21 => .readAttention args
  | 22 => .ackAttention args
  | 23 => .setAttentionEnable args
  | _ => .unknownCommand code args

/-! ### Cue records (10.2) -/

/-- The command of a whole cue record with its kind character and its field characters. -/
def cueRecord (a : Aud) (kind : Byte) (fields : List Byte) : Instr :=
  match kind.toNat with
  | 1 => .mark a fields
  | 2 => .head a fields
  | 3 => .body a fields
  | 4 => .withdraw a fields
  | 5 => .endRecord a fields
  | 6 => .query a fields
  | _ => .unknownKind a kind fields

end Sys2Proof
end

