-- ==== Sys2Proof/Config.lean ====
section
/-! DEFINITION. What every part of this kind fixes (the figures of `00_scope.md` and of the rules), and the
two free values: constants without a body, of which nothing can be proved. -/

namespace Sys2Proof

/-- The last position, ten hours less one tick (`00_scope.md`, Time; R3). -/
def Config.maxPosition : Nat := 43199999

/-- Base counts per tick (R1). -/
def Config.tick : Nat := 12288

/-- Base counts per second of the time base (R1, R154). -/
def Config.second : Nat := 14745600

/-- Where the elapsed and window counters saturate (R3). -/
def Config.maxElapsed : Nat := 4294967295

/-- Where a pause count saturates, in ticks (R3). -/
def Config.maxPause : Nat := 16777215

/-- Where every counter saturates (`00_scope.md`, Counters). -/
def Config.maxCounter : Nat := 65535

/-- Where an attention record's repeat count saturates (R170). -/
def Config.maxRepeats : Nat := 255

/-- Cells in the cue store (R88). -/
def Config.cells : Nat := 8192

/-- Base counts the freeing unit takes for one cell (R91). -/
def Config.cellTime : Nat := 16

/-- Base counts of one step of a purge walk (R93) or of a sorted insertion (R75). -/
def Config.walkStep : Nat := 200

/-- Base counts of a fill for each byte of its frame (R133). -/
def Config.fillPerByte : Nat := 4

/-- Ticks of one narration block (`00_scope.md`, Time). -/
def Config.block : Nat := 24

/-- The choice the part makes where the manual lets two things of one instant be taken in either order:
the `k`-th choice of a run, among `n` candidates. DESIGN CHOICE (log entry 3): a free value, no body. -/
opaque Config.tie : Nat → Nat → Nat

/-- A byte the manual gives no value to (log entries 16 and 42), fresh at each use: a free value, no body. -/
opaque Config.freeByte : Nat → BitVec 8

end Sys2Proof
end

