-- ==== Sys2Proof/Machine/State.lean ====
section
/-! DEFINITION. The state of the part as plain data, and the part right after device reset.

One field for each block's state (`00_scope.md`, Block diagram): a bank of sixteen, ninety-six, four or 1,024 like
things where the manual numbers them. Every instant is a number of base counts since the end of device reset, and an
elapsed count is the difference to `now` (log entry 5). -/

namespace Sys2Proof.Machine

/-- No command stops the part: every row of the table has an effect, if only an answer, so there is no fault. -/
inductive Fault where
  deriving DecidableEq, Repr

/-- The refusals of `exec`. -/
inductive Refusal where
  /-- A row of the opcode table without a meaning; no arm of `exec` raises it. Safe: the model stops. -/
  | notModelled (mnemonic : String)
  deriving DecidableEq, Repr

/-! ### The show clock (R3) -/

/-- The six rate codes (R2). -/
inductive Rate where
  | r24 | r25 | r30 | r48 | r50 | r60
  deriving DecidableEq, Repr

/-- The position part of a show clock (R3): what strobes, marks, ARM and DISARM write. -/
structure Clock where
  rate : Option Rate := none
  /-- Window size W. -/
  windowSize : Nat := 16
  /-- Stale limit L in ticks, 0 for off. -/
  staleLimit : Nat := 0
  /-- The reference instant. -/
  ref : Nat := 0
  /-- Last hold H. -/
  lastHold : Nat := 0
  /-- Period in use E_u. -/
  period : Nat := 0
  /-- Base position B. -/
  base : Nat := 0
  /-- Sub-frame offset. -/
  sub : Nat := 0
  deriving DecidableEq, Repr

/-- The measurement window (R6): `opened s start` counted `s` strobes since the strobe at `start`. -/
inductive Window where
  | closed
  | opened (strobes start : Nat)
  deriving DecidableEq, Repr

/-- The running part of a show clock (R3): what entering and leaving the auditorium states write. -/
structure ShowRun where
  window : Window := .closed
  subFrozen : Bool := true
  /-- The instant the pause count started, or idle. -/
  pauseStart : Option Nat := none
  /-- Pause hold in ticks. -/
  pauseHold : Nat := 0
  staleMark : Bool := false
  /-- The base count at which a strobe, real or synthetic, last advanced B: the model's own field, for R34's two orders of a strobe and
  a mark of one base count (log entry 35). -/
  strobedAt : Option Nat := none
  deriving DecidableEq, Repr

/-! ### The session (R24) -/

inductive AudState where
  | dark | armed | paused | running | coasting | ended
  deriving DecidableEq, Repr

structure Session where
  state : AudState := .dark
  /-- The ending mark. -/
  ending : Bool := false
  /-- The house gate. -/
  gate : Bool := false
  deriving DecidableEq, Repr

/-- The twelve counters of an auditorium (R167), in the order READ-COUNTERS returns them. -/
structure AudCounters where
  rateFault : Nat := 0
  strobeLoss : Nat := 0
  slip : Nat := 0
  jump : Nat := 0
  lineFault : Nat := 0
  refused : Nat := 0
  accepted : Nat := 0
  expired : Nat := 0
  late : Nat := 0
  unrouted : Nat := 0
  skip : Nat := 0
  resent : Nat := 0
  deriving DecidableEq, Repr

/-! ### The cue port (chapter 3) -/

inductive Parity where
  | none | even | odd
  deriving DecidableEq, Repr

inductive EntryItem where
  | brk
  | char (value : Byte)
  deriving DecidableEq, Repr

/-- An entry of the receive queue with its four marks (R47). -/
structure Entry where
  item : EntryItem
  parityError : Bool := false
  framingError : Bool := false
  overrun : Bool := false
  gap : Bool := false
  deriving DecidableEq, Repr

/-- What the line receiver is doing (R46). -/
inductive LineReceiver where
  /-- The line is high and a falling edge is awaited. -/
  | idle
  /-- A start bit is being received. -/
  | receiving
  /-- The line must return high first; `afterBreak` after a break. -/
  | waitHigh (afterBreak : Bool)
  deriving DecidableEq, Repr

/-- A running gap timer: when it started and the four character times it runs (R49). -/
structure GapTimer where
  start : Nat
  length : Nat
  deriving DecidableEq, Repr

/-- The framing state of the record assembler (R50). `kindOk` says that the kind character carried no error mark;
`lost` that the length character carried one, so that the record has no trusted end (R52). -/
inductive Framing where
  | between
  | kind
  | length (kind : Byte) (kindOk lost : Bool)
  | fields (kind : Byte) (kindOk : Bool) (left : Nat) (taken : List Byte)
  deriving DecidableEq, Repr

/-- The reasons of a REFUSE (10.3). -/
inductive Reason where
  | notArmed | ending | streamClosed | kindMismatch | badField | duplicate | overlap | truncated | tooLate
  | storeFull | badMark | brokenCue | orphanBody | bodySize | unknownKind | lineError
  deriving DecidableEq, Repr

/-- A reply of the reply queue (R57). -/
inductive Reply where
  | refuse (kind : Byte) (seq : Seq) (reason : Reason)
  | jumpSeen (oldBase newBase : Nat)
  | status (state : AudState) (position used quota : Nat) (ending : Bool)
  deriving DecidableEq, Repr

/-- A reply of the flow-control place (R56). -/
inductive FlowReply where
  | hold | resume
  deriving DecidableEq, Repr

/-- What the transmitter sends (R58). -/
inductive Sent where
  | flow (f : FlowReply)
  | reply (r : Reply)
  deriving DecidableEq, Repr

/-- A transmission in progress (R58): `left` characters remain from the character boundary `boundary` on, at the
settings given; the break at its start, or the character in progress, ends at the boundary. -/
structure Transmission where
  sent : Sent
  boundary : Nat
  left : Nat
  divisor : Nat
  parity : Parity
  deriving DecidableEq, Repr

structure CuePort where
  /-- Baud divisor d and parity (R44). -/
  divisor : Nat := 8
  parity : Parity := .none
  /-- The settings in force on the receive line, taken at the start bit (R45). -/
  lineDivisor : Nat := 8
  lineParity : Parity := .none
  receiver : LineReceiver := .idle
  gapTimer : Option GapTimer := none
  /-- The receive queue, head first (R47). -/
  queue : List Entry := []
  framing : Framing := .between
  /-- The damaged flag of the record in progress (R50). -/
  damaged : Bool := false
  /-- Hold outstanding (R54). -/
  holdOutstanding : Bool := false
  /-- The flow-control place (R56). -/
  flowPlace : Option FlowReply := none
  /-- The reply queue, head first (R57). -/
  replies : List Reply := []
  transmission : Option Transmission := none
  deriving DecidableEq, Repr

/-! ### Cues and the intake (chapter 4) -/

inductive CueKind where
  | caption | narration
  deriving DecidableEq, Repr

inductive Life where
  | assembling | queued | due | onAir | playing
  deriving DecidableEq, Repr

/-- The due record of a DUE caption or of the current block of a PLAYING narration cue (R103). -/
structure DueRecord where
  number : Byte
  /-- The pending link set. -/
  pending : List Port
  /-- The staged mark. -/
  staged : Bool
  deriving DecidableEq, Repr

/-- The cue record of a head cell with its body list (R71, R92). An entry of `bodies` is a held body cell with its
payload, or spent. -/
structure Cue where
  stream : StreamNo
  seq : Seq
  kind : CueKind
  /-- Start time T. -/
  start : Nat
  /-- D of a caption (clamped), n of a narration cue. -/
  length : Nat
  bodyCount : Nat
  bodies : List (Option (List Byte)) := []
  life : Life := .assembling
  /-- The block cursor. -/
  cursor : Nat := 0
  due : Option DueRecord := none
  /-- The resend mark. -/
  resend : Bool := false
  deriving DecidableEq, Repr

/-- The sorted insertion (R75): the cues not yet examined from the tail on, the cue under examination (none while the
placing step runs) and when the present step began. -/
structure Walk where
  todo : List Seq
  current : Option Seq
  stepStart : Nat
  deriving DecidableEq, Repr

/-- The assembly context (R62). -/
inductive Context where
  | idle
  | opened (cue : Cue) (owed : Nat)
  /-- A count, or `none` for the open-ended mark. -/
  | skipping (count : Option Nat)
  | inserting (cue : Cue) (walk : Walk)
  deriving DecidableEq, Repr

/-- A record as the assembler hands it to the intake (R53). -/
inductive Record where
  | framed (kind : Byte) (fields : List Byte)
  | damaged (kind : Option Byte)
  | truncated (kind : Option Byte)
  deriving DecidableEq, Repr

/-- The rest of a record's taking that waits for a freeing request (R91). -/
inductive Deferred where
  | record (r : Record)
  | skip (count : Nat)
  deriving DecidableEq, Repr

structure Intake where
  context : Context := .idle
  deferred : List Deferred := []
  deriving DecidableEq, Repr

/-! ### Streams and the cue store (chapter 5) -/

/-- A stream table entry (R82), with the stream's clear number (R103). -/
structure Stream where
  isOpen : Bool := false
  kind : CueKind := .caption
  language : BitVec 16 := 0
  lead : Nat := 0
  /-- The queue of cues, head first. -/
  queue : List Cue := []
  /-- The degraded-subscriber count. -/
  degraded : Nat := 0
  /-- The clear-owed set. -/
  clearOwed : List Port := []
  frameSeq : Byte := 0
  clearNumber : Byte := 0
  deriving DecidableEq, Repr

/-- Who waits for a freeing request (R91, R93, R59): the intake, with the rest of a record's taking; a purge; RESET-CUE-PORT. -/
inductive FreeTag where
  | none | intake | purge | resetPort
  deriving DecidableEq, Repr

/-- A freeing request: the cells still to be returned (R91). -/
structure FreeRequest where
  cells : Nat
  tag : FreeTag
  deriving DecidableEq, Repr

/-- The kinds of purge (section 5.5). -/
inductive PurgeKind where
  | forward (target : Nat)
  | backward (target : Nat)
  | withdraw (slot : Slot) (fromTime : Nat)
  | close (slot : Slot)
  | saturation
  | teardown
  deriving DecidableEq, Repr

/-- A purge that runs (R93): the cues not yet examined in walk order, the cue whose step runs, when the step began, and
whether the walk waits for the freeing unit. -/
structure Purge where
  kind : PurgeKind
  todo : List (Slot × Seq)
  current : Option (Slot × Seq)
  stepStart : Nat
  waiting : Bool
  deriving DecidableEq, Repr

/-- The store's state of one auditorium. -/
structure Store where
  quota : Nat := 0
  used : Nat := 0
  /-- The freeing unit's requests, the one being served first (R91). -/
  freeing : List FreeRequest := []
  /-- When the cell being returned began. -/
  cellStart : Nat := 0
  purge : Option Purge := none
  /-- Saturation owed (R93). -/
  saturationOwed : Bool := false
  /-- A CLOSE-STREAM that waits for an insertion or for a saturation purge (R84). -/
  closeWaiting : Option Slot := none
  /-- Stale resume waiting, with the handed position (R103). -/
  staleWaiting : Option Nat := none
  deriving DecidableEq, Repr

/-! ### The patron link ports (chapter 7) -/

inductive LinkState where
  | down | aligning | serving | stalled
  deriving DecidableEq, Repr

/-- An acceptance filter (R129): bit `a` of `auditoriums` for auditorium `a`, bit 0 of `kinds` for CAPTION and bit 1 for
NARRATION; `language` is `none` for ANY. -/
structure Filter where
  auditoriums : BitVec 16 := 0
  kinds : Byte := 0
  language : Option (BitVec 16) := none
  deriving DecidableEq, Repr

inductive ItemKind where
  | caption | narration | clear
  deriving DecidableEq, Repr

/-- A caption, narration or clear frame (R133, 10.4). -/
structure ItemFrame where
  kind : ItemKind
  stream : StreamNo
  number : Byte
  language : BitVec 16
  /-- S and X. -/
  start : Nat
  finish : Nat
  payload : List Byte
  /-- Copy number 2 (else 1). -/
  secondCopy : Bool
  /-- Copy count 2 (else 1). -/
  twoCopies : Bool
  robust : Bool
  late : Bool
  /-- The filter number, or no filter. -/
  filter : Option Port
  deriving DecidableEq, Repr

/-- An entry of a beacon or filler (R140). -/
structure BeaconEntry where
  auditorium : Aud
  state : AudState
  position : Nat
  rate : Option Rate
  deriving DecidableEq, Repr

inductive Frame where
  | item (f : ItemFrame)
  | beacon (entries : List BeaconEntry)
  | filler (entries : List BeaconEntry)
  | notServing
  deriving DecidableEq, Repr

/-- A staging buffer (R134); a fill carries the instant it ends. -/
inductive Buffer where
  | empty
  | filling (frame : Frame) (ends : Nat)
  | ready (frame : Frame)
  | sending (frame : Frame)
  deriving DecidableEq, Repr

inductive Exchange where
  | closed
  | buffer (b : BufNo)
  | direct
  | void
  deriving DecidableEq, Repr

/-- The probe ring (R142): a slot is written with 64 bytes, or unwritten. -/
structure Probe where
  slots : Vector (Option (List Byte)) 4 := Vector.replicate 4 none
  writePtr : Fin 4 := 0
  readPtr : Fin 4 := 0
  writeCount : Nat := 0
  deriving DecidableEq, Repr

structure LinkPort where
  state : LinkState := .down
  filters : Vector Filter 4 := Vector.replicate 4 {}
  buffers : Vector Buffer 3 := Vector.replicate 3 .empty
  /-- The READY queue, head first. -/
  readyQueue : List BufNo := []
  exchange : Exchange := .closed
  lastSlot : BitVec 16 := 0
  /-- Beacon period in ticks. -/
  beaconPeriod : Nat := 120
  /-- The instant the beacon timer expires, or stopped. -/
  beaconDue : Option Nat := none
  beaconOwed : Bool := false
  /-- Silence limit in ticks, 0 for off. -/
  silenceLimit : Nat := 0
  /-- The instant the silence timer started, or stopped. -/
  silenceStart : Option Nat := none
  probe : Probe := {}
  /-- The bytes of the last answer on LNK_DOUT (10.5). -/
  answer : List Byte := []
  deriving DecidableEq, Repr

/-- The ten counters of a link port (R147, R167). -/
structure LinkCounters where
  sent : Nat := 0
  filler : Nat := 0
  repull : Nat := 0
  abort : Nat := 0
  dropped : Nat := 0
  discarded : Nat := 0
  missedBeacon : Nat := 0
  protocol : Nat := 0
  reports : Nat := 0
  lapsed : Nat := 0
  deriving DecidableEq, Repr

/-! ### The receiver table (chapter 8) -/

inductive RxState where
  | free | good | degraded | lost
  deriving DecidableEq, Repr

/-- A receiver table entry (R148); bit `s` of `slots` for slot `s`. -/
structure Receiver where
  state : RxState := .free
  id : BitVec 32 := 0
  auditorium : Aud := 0
  slots : Byte := 0
  health : Nat := 0
  cleanRun : Nat := 0
  /-- Report age in seconds. -/
  age : Nat := 0
  deriving DecidableEq, Repr

/-- What the receiver table holds device-wide (R148). -/
structure RxTable where
  /-- Report silence limit in seconds, 0 for off. -/
  silenceLimit : Nat := 0
  /-- The instant the second timer last restarted. -/
  secondStart : Nat := 0
  /-- The lost list, oldest first. -/
  lost : List RxIndex := []
  /-- The overflow flag. -/
  overflow : Bool := false
  /-- The unknown-report and mismatch counters. -/
  unknown : Nat := 0
  mismatch : Nat := 0
  deriving DecidableEq, Repr

/-! ### Attention and the management port (chapter 9) -/

/-- An attention record (R169): the pending set as the kind set byte of 10.6, and the repeat count. -/
structure AttnRecord where
  pending : Byte := 0
  repeats : Nat := 0
  deriving DecidableEq, Repr

structure Attention where
  auds : Vector AttnRecord 16 := Vector.replicate 16 {}
  links : Vector AttnRecord 4 := Vector.replicate 4 {}
  table : AttnRecord := {}
  /-- The three enable sets (R171). -/
  audEnable : Byte := 0
  linkEnable : Byte := 0
  tableEnable : Byte := 0
  deriving DecidableEq, Repr

inductive RespCode where
  | done | working | busy | refusedState | refusedRange | refusedFull | refusedUnknown | refusedDuplicate
  deriving DecidableEq, Repr

/-- A held response (R162): its code, the command's code and its fields. -/
structure Response where
  code : RespCode
  command : Byte
  fields : List Byte
  deriving DecidableEq, Repr

/-- The command in flight, with the auditorium whose work it waits for (R163; log entry 25). -/
inductive Work where
  | disarm (a : Aud)
  | closeStream (a : Aud)
  | resetCuePort (a : Aud)
  deriving DecidableEq, Repr

/-- The transport state (R162). -/
inductive Transport where
  | idle
  | working (w : Work)
  | held (r : Response)
  deriving DecidableEq, Repr

structure Mgmt where
  transport : Transport := .idle
  /-- The bytes the port shifted out in its last transaction: a write answer or a response. -/
  out : List Byte := []
  deriving DecidableEq, Repr

/-! ### The part -/

structure State where
  /-- Base counts since the end of device reset (R1). -/
  now : Nat
  /-- How many free choices have been drawn: the model's own field (log entry 3). -/
  draws : Nat
  /-- The RUN inputs (the model's own field: the manual does not store them, R24; log entry 4). -/
  runPins : Vector Bool 16
  /-- The levels of the CUE_RX inputs (log entry 4). -/
  rxPins : Vector Bool 16
  clocks : Vector Clock 16
  runs : Vector ShowRun 16
  sessions : Vector Session 16
  audCounters : Vector AudCounters 16
  cuePorts : Vector CuePort 16
  intakes : Vector Intake 16
  streams : Vector Stream 96
  stores : Vector Store 16
  /-- The free count (R88). -/
  freeCells : Nat
  links : Vector LinkPort 4
  linkCounters : Vector LinkCounters 4
  receivers : Vector Receiver 1024
  table : RxTable
  attention : Attention
  mgmt : Mgmt
  /-- The commands that wait, first in, first out: the model's own field. -/
  pending : List Instr
  deriving DecidableEq, Repr

/-- The part right after device reset (R3, R24, R60, R62, R82, R88, R122, R148, R162, R169), RUN inputs low and receive
lines high (log entry 4), no command waiting. -/
def State.reset : State where
  now := 0
  draws := 0
  runPins := Vector.replicate 16 false
  rxPins := Vector.replicate 16 true
  clocks := Vector.replicate 16 {}
  runs := Vector.replicate 16 {}
  sessions := Vector.replicate 16 {}
  audCounters := Vector.replicate 16 {}
  cuePorts := Vector.replicate 16 {}
  intakes := Vector.replicate 16 {}
  streams := Vector.replicate 96 {}
  stores := Vector.replicate 16 {}
  freeCells := Config.cells
  links := Vector.replicate 4 {}
  linkCounters := Vector.replicate 4 {}
  receivers := Vector.replicate 1024 {}
  table := {}
  attention := {}
  mgmt := {}
  pending := []

end Sys2Proof.Machine
end

