-- ==== Sys2Proof/Machine/Operands.lean ====
section
/-! DEFINITION. The byte layouts of chapter 10: numbers from bytes and bytes from numbers, the code values of 10.1 and
what each operand byte names. -/

namespace Sys2Proof.Machine

/-! ### Numbers (00_scope, Numbers: most significant byte first) -/

/-- The number that bytes spell, the first the most significant. -/
def number : List Byte → Nat
  | [] => 0
  | b :: rest => b.toNat * 256 ^ rest.length + number rest

/-- One byte of a field. -/
def byte1 (n : Nat) : List Byte := [BitVec.ofNat 8 n]

/-- A two-byte field. -/
def byte2 (n : Nat) : List Byte := [BitVec.ofNat 8 (n / 256), BitVec.ofNat 8 n]

/-- A four-byte field. -/
def byte4 (n : Nat) : List Byte :=
  [BitVec.ofNat 8 (n / 16777216), BitVec.ofNat 8 (n / 65536), BitVec.ofNat 8 (n / 256), BitVec.ofNat 8 n]

/-- A yes-or-no field (10.1). -/
def byteFlag (b : Bool) : List Byte := [if b then 1 else 0]

/-- A counter one higher, stopping at its stated maximum (00_scope, Counters). -/
def saturate (limit n : Nat) : Nat := if n < limit then n + 1 else n

/-! ### Rate codes (00_scope, Time; R2) -/

/-- Frames per second; the code of the rate (10.1). -/
def Rate.fps : Rate → Nat
  | .r24 => 24 | .r25 => 25 | .r30 => 30 | .r48 => 48 | .r50 => 50 | .r60 => 60

/-- Ticks per frame: 1200 divided by the rate. -/
def Rate.tpf (r : Rate) : Nat := 1200 / r.fps

/-- Nominal frame period N: 14,745,600 divided by the rate. -/
def Rate.nominal (r : Rate) : Nat := Config.second / r.fps

/-- The rate code a byte names (R26). -/
def rateOf (b : Byte) : Option Rate :=
  match b.toNat with
  | 24 => some .r24 | 25 => some .r25 | 30 => some .r30
  | 48 => some .r48 | 50 => some .r50 | 60 => some .r60
  | _ => none

/-- The code of a rate, 0 for none (10.1). -/
def rateCode : Option Rate → Nat
  | none => 0
  | some r => r.fps

/-! ### What a byte names -/

/-- An auditorium number, 0 to 15 (R163, check 3). -/
def audOf (b : Byte) : Option Aud := if h : b.toNat < 16 then some ⟨b.toNat, h⟩ else none

/-- A stream slot, 0 to 5. -/
def slotOf (b : Byte) : Option Slot := if h : b.toNat < 6 then some ⟨b.toNat, h⟩ else none

/-- A link port or a filter number, 0 to 3. -/
def portOf (b : Byte) : Option Port := if h : b.toNat < 4 then some ⟨b.toNat, h⟩ else none

/-- A receiver table index, 0 to 1,023 (R160). -/
def indexOf (n : Nat) : Option RxIndex := if h : n < 1024 then some ⟨n, h⟩ else none

/-- A yes-or-no byte, 0 or 1 (10.1, R174). -/
def flagOf (b : Byte) : Option Bool :=
  match b.toNat with
  | 0 => some false
  | 1 => some true
  | _ => none

/-- A cue or stream kind, 1 or 2 (10.1). -/
def kindOf (b : Byte) : Option CueKind :=
  match b.toNat with
  | 1 => some .caption
  | 2 => some .narration
  | _ => none

/-- A parity, 0 to 2 (10.1). -/
def parityOf (b : Byte) : Option Parity :=
  match b.toNat with
  | 0 => some .none
  | 1 => some .even
  | 2 => some .odd
  | _ => none

/-- The stream of a slot of an auditorium: auditorium × 6 + slot (00_scope). -/
def streamOf (a : Aud) (k : Slot) : StreamNo := ⟨a.val * 6 + k.val, by omega⟩

/-- The auditorium of a stream. -/
def audOfStream (n : StreamNo) : Aud := ⟨n.val / 6, by omega⟩

/-- The slot of a stream. -/
def slotOfStream (n : StreamNo) : Slot := ⟨n.val % 6, by omega⟩

/-- The six slots, the four ports and the ninety-six streams, in order. -/
def slots : List Slot := List.finRange 6

def ports : List Port := List.finRange 4

def auds : List Aud := List.finRange 16

def streamNos : List StreamNo := List.finRange 96

/-! ### Codes (10.1, 10.3) -/

def AudState.code : AudState → Nat
  | .dark => 0 | .armed => 1 | .paused => 2 | .running => 3 | .coasting => 4 | .ended => 5

def LinkState.code : LinkState → Nat
  | .down => 0 | .aligning => 1 | .serving => 2 | .stalled => 3

def RxState.code : RxState → Nat
  | .free => 0 | .good => 1 | .degraded => 2 | .lost => 3

def Buffer.code : Buffer → Nat
  | .empty => 0 | .filling _ _ => 1 | .ready _ => 2 | .sending _ => 3

def Exchange.code : Exchange → Nat
  | .closed => 0 | .buffer _ => 1 | .direct => 2 | .void => 3

def CueKind.code : CueKind → Nat
  | .caption => 1 | .narration => 2

/-- The reason codes of a REFUSE (10.3). -/
def Reason.code : Reason → Nat
  | .notArmed => 1 | .ending => 2 | .streamClosed => 3 | .kindMismatch => 4 | .badField => 5 | .duplicate => 6
  | .overlap => 7 | .truncated => 8 | .tooLate => 9 | .storeFull => 10 | .badMark => 11 | .brokenCue => 12
  | .orphanBody => 13 | .bodySize => 14 | .unknownKind => 15 | .lineError => 16

/-- The response codes (10.6). -/
def RespCode.code : RespCode → Nat
  | .done => 1 | .working => 2 | .busy => 3 | .refusedState => 4 | .refusedRange => 5 | .refusedFull => 6
  | .refusedUnknown => 7 | .refusedDuplicate => 8

/-- The kind characters of the six records (10.2). -/
def markCode : Byte := 1
def headCode : Byte := 2
def bodyCode : Byte := 3
def withdrawCode : Byte := 4
def endCode : Byte := 5
def queryCode : Byte := 6

/-- The answer codes of a link port (10.5). -/
def answerTaken : List Byte := [1, 0]
def answerNoFrame : List Byte := [2, 0]
def answerWrongState : List Byte := [3, 0]
def answerUnbalanced : List Byte := [4, 0]
def answerMalformed : List Byte := [5, 0]

/-- An answer that carries data: its code, the length byte and the data (10.5). -/
def answerData (code : Byte) (data : List Byte) : List Byte := code :: BitVec.ofNat 8 data.length :: data

/-! ### Replies on the wire (10.3, R58) -/

def FlowReply.bytes : FlowReply → List Byte
  | .hold => [17, 0]
  | .resume => [18, 0]

/-- Kind character, length character and fields of a reply. -/
def Reply.bytes : Reply → List Byte
  | .refuse kind seq reason => [19, 4, kind] ++ byte2 seq.toNat ++ byte1 reason.code
  | .jumpSeen oldBase newBase => [20, 8] ++ byte4 oldBase ++ byte4 newBase
  | .status state position used quota ending =>
      [21, 10] ++ byte1 state.code ++ byte4 position ++ byte2 used ++ byte2 quota ++ byteFlag ending

def Sent.bytes : Sent → List Byte
  | .flow f => f.bytes
  | .reply r => r.bytes

/-! ### Air frames (10.4) -/

/-- The flags byte: copy number, copy count, robust, late, filter number or 7, and a 0. -/
def ItemFrame.flags (f : ItemFrame) : Nat :=
  (if f.secondCopy then 1 else 0) + (if f.twoCopies then 2 else 0) + (if f.robust then 4 else 0)
    + (if f.late then 8 else 0) + 16 * (match f.filter with | some k => k.val | none => 7)

def ItemKind.code : ItemKind → Nat
  | .caption => 1 | .narration => 2 | .clear => 3

def ItemFrame.bytes (f : ItemFrame) : List Byte :=
  byte1 f.kind.code ++ byte1 f.stream.val ++ [f.number] ++ byte1 f.flags ++ byte4 f.start ++ byte4 f.finish
    ++ byte2 f.language.toNat ++ byte1 f.payload.length ++ f.payload

def BeaconEntry.bytes (e : BeaconEntry) : List Byte :=
  byte1 e.auditorium.val ++ byte1 e.state.code ++ byte4 e.position ++ byte1 (rateCode e.rate)

def Frame.kindCode : Frame → Nat
  | .item f => f.kind.code
  | .beacon _ => 4
  | .filler _ => 5
  | .notServing => 6

def Frame.bytes : Frame → List Byte
  | .item f => f.bytes
  | .beacon es => byte1 4 ++ byte1 es.length ++ es.flatMap BeaconEntry.bytes
  | .filler es => byte1 5 ++ byte1 es.length ++ es.flatMap BeaconEntry.bytes
  | .notServing => byte1 6

/-! ### Management responses (10.6) -/

/-- The code of the command in flight (10.6). -/
def Work.code : Work → Byte
  | .disarm _ => 3
  | .closeStream _ => 6
  | .resetCuePort _ => 8

/-- The bytes of a FETCH answer: response code, command code, length and fields. -/
def Response.bytes (r : Response) : List Byte :=
  byte1 r.code.code ++ [r.command] ++ byte1 r.fields.length ++ r.fields

end Sys2Proof.Machine
end

