-- ==== Sys2Proof/Machine/Ops.lean ====
section
/-! DEFINITION. The named operations over the state: one reader and one changer for each bank, the free choice among
things of one instant, and the counters. -/

namespace Sys2Proof.Machine

/-! ### Readers -/

def State.clock (s : State) (a : Aud) : Clock := pick s.clocks a
def State.showRun (s : State) (a : Aud) : ShowRun := pick s.runs a
def State.session (s : State) (a : Aud) : Session := pick s.sessions a
def State.audCounter (s : State) (a : Aud) : AudCounters := pick s.audCounters a
def State.cuePort (s : State) (a : Aud) : CuePort := pick s.cuePorts a
def State.intake (s : State) (a : Aud) : Intake := pick s.intakes a
def State.stream (s : State) (n : StreamNo) : Stream := pick s.streams n
def State.store (s : State) (a : Aud) : Store := pick s.stores a
def State.link (s : State) (p : Port) : LinkPort := pick s.links p
def State.linkCounter (s : State) (p : Port) : LinkCounters := pick s.linkCounters p
def State.rx (s : State) (i : RxIndex) : Receiver := pick s.receivers i
def State.runHigh (s : State) (a : Aud) : Bool := pick s.runPins a
def State.rxHigh (s : State) (a : Aud) : Bool := pick s.rxPins a

/-! ### Changers -/

def State.onClock (s : State) (a : Aud) (f : Clock → Clock) : State := { s with clocks := change s.clocks a f }
def State.onRun (s : State) (a : Aud) (f : ShowRun → ShowRun) : State := { s with runs := change s.runs a f }
def State.onSession (s : State) (a : Aud) (f : Session → Session) : State := { s with sessions := change s.sessions a f }
def State.onCounters (s : State) (a : Aud) (f : AudCounters → AudCounters) : State :=
  { s with audCounters := change s.audCounters a f }
def State.onPort (s : State) (a : Aud) (f : CuePort → CuePort) : State := { s with cuePorts := change s.cuePorts a f }
def State.onIntake (s : State) (a : Aud) (f : Intake → Intake) : State := { s with intakes := change s.intakes a f }
def State.onStream (s : State) (n : StreamNo) (f : Stream → Stream) : State := { s with streams := change s.streams n f }
def State.onStore (s : State) (a : Aud) (f : Store → Store) : State := { s with stores := change s.stores a f }
def State.onLink (s : State) (p : Port) (f : LinkPort → LinkPort) : State := { s with links := change s.links p f }
def State.onLinkCounters (s : State) (p : Port) (f : LinkCounters → LinkCounters) : State :=
  { s with linkCounters := change s.linkCounters p f }
def State.onRx (s : State) (i : RxIndex) (f : Receiver → Receiver) : State := { s with receivers := change s.receivers i f }
def State.onTable (s : State) (f : RxTable → RxTable) : State := { s with table := f s.table }
def State.onAttention (s : State) (f : Attention → Attention) : State := { s with attention := f s.attention }
def State.onMgmt (s : State) (f : Mgmt → Mgmt) : State := { s with mgmt := f s.mgmt }
def State.onFree (s : State) (f : Nat → Nat) : State := { s with freeCells := f s.freeCells }
def State.onDraws (s : State) (f : Nat → Nat) : State := { s with draws := f s.draws }
def State.setRunPin (s : State) (a : Aud) (v : Bool) : State := { s with runPins := change s.runPins a (fun _ => v) }
def State.setRxPin (s : State) (a : Aud) (v : Bool) : State := { s with rxPins := change s.rxPins a (fun _ => v) }

/-! ### The free choice (R1; log entry 3) -/

/-- `l` in an order drawn by the free value, from draw `k` on: the head goes to a free place among the others. -/
def anyOrder {α : Type} (k : Nat) : List α → List α
  | [] => []
  | [x] => [x]
  | x :: y :: rest =>
      let tail := anyOrder (k + 1) (y :: rest)
      tail.insertIdx (Config.tie k (tail.length + 1) % (tail.length + 1)) x

/-- One of `l`, the choice free where there are two or more. -/
def anyOne {α : Type} (k : Nat) (l : List α) : Option α := (anyOrder k l).head?

/-- The draws that ordering `l` uses. -/
def drawsOf {α : Type} (l : List α) : Nat := l.length - 1

/-! ### Counters -/

/-- A counter's next value (00_scope, Counters). -/
def bump (n : Nat) : Nat := saturate Config.maxCounter n

/-- The instant has come: a deadline at or before now. -/
def State.reached (s : State) (deadline : Nat) : Bool := decide (deadline ≤ s.now)

/-! ### Cues by sequence number -/

/-- The cue of a queue with this sequence (R69: at most one). -/
def findCue (seq : Seq) (q : List Cue) : Option Cue := q.find? (fun c => c.seq == seq)

/-- The queue with that cue changed. -/
def changeCue (seq : Seq) (f : Cue → Cue) (q : List Cue) : List Cue := q.map (fun c => if c.seq == seq then f c else c)

/-- The queue without that cue. -/
def dropCue (seq : Seq) (q : List Cue) : List Cue := q.filter (fun c => !(c.seq == seq))

def State.findCue (s : State) (n : StreamNo) (seq : Seq) : Option Cue := Machine.findCue seq (s.stream n).queue

def State.onCue (s : State) (n : StreamNo) (seq : Seq) (f : Cue → Cue) : State :=
  s.onStream n (fun st => { st with queue := changeCue seq f st.queue })

/-- The sequences of a queue, head first. -/
def seqs (q : List Cue) : List Seq := q.map Cue.seq

/-- Body cells a cue still holds (R92). -/
def Cue.heldBodies (c : Cue) : Nat := (c.bodies.filter Option.isSome).length

/-- All the cells a cue holds: its head cell and its held body cells (R91). -/
def Cue.cells (c : Cue) : Nat := 1 + c.heldBodies

/-- The end of a cue: T + D, or T + 24n (R95). -/
def Cue.finish (c : Cue) : Nat :=
  match c.kind with
  | .caption => c.start + c.length
  | .narration => c.start + Config.block * c.length

/-- Start and end of the current block (R113). -/
def Cue.blockStart (c : Cue) : Nat := c.start + Config.block * c.cursor
def Cue.blockEnd (c : Cue) : Nat := c.start + Config.block * (c.cursor + 1)

end Sys2Proof.Machine
end

