-- ==== Sys2Proof/Machine/Flags.lean ====
section
/-! DEFINITION. The part's flags: attention kinds and records (R169 to R173), the ATTENTION line (R171) and the counters
that stand beside a raise. -/

namespace Sys2Proof.Machine

/-- The bits of the auditorium class (10.6). -/
def kindRateFault : Byte := 1
def kindStrobeLoss : Byte := 2
def kindStale : Byte := 4
def kindJump : Byte := 8
def kindEnded : Byte := 16
def kindLineFault : Byte := 32
def kindStorePressure : Byte := 64

/-- The bits of the link class. -/
def kindStalled : Byte := 1
def kindAlignFail : Byte := 2
def kindProtocol : Byte := 4

/-- The bits of the receiver table class. -/
def kindLost : Byte := 1
def kindLostOverflow : Byte := 2

/-- The kinds each class has (10.6). -/
def audKinds : Byte := 127
def linkKinds : Byte := 7
def tableKinds : Byte := 3

/-- Raising a kind on a record: it joins the pending set, or, already pending, raises the repeat count (R170). -/
def AttnRecord.raise (r : AttnRecord) (kind : Byte) : AttnRecord :=
  if r.pending &&& kind = 0 then { r with pending := r.pending ||| kind }
  else { r with repeats := saturate Config.maxRepeats r.repeats }

/-- Acknowledging kinds on a record: they leave the pending set, and the count is cleared with the set (R173). -/
def AttnRecord.acknowledge (r : AttnRecord) (kinds : Byte) : AttnRecord :=
  let left := r.pending &&& ~~~ kinds
  { pending := left, repeats := if left = 0 then 0 else r.repeats }

def State.raiseAud (s : State) (a : Aud) (kind : Byte) : State :=
  s.onAttention (fun t => { t with auds := change t.auds a (·.raise kind) })

def State.raiseLink (s : State) (p : Port) (kind : Byte) : State :=
  s.onAttention (fun t => { t with links := change t.links p (·.raise kind) })

def State.raiseTable (s : State) (kind : Byte) : State :=
  s.onAttention (fun t => { t with table := t.table.raise kind })

/-- The ATTENTION output: some record has a pending kind its class enables (R171). -/
def State.attentionLine (s : State) : Bool :=
  auds.any (fun a => (pick s.attention.auds a).pending &&& s.attention.audEnable != 0)
    || ports.any (fun p => (pick s.attention.links p).pending &&& s.attention.linkEnable != 0)
    || (s.attention.table.pending &&& s.attention.tableEnable != 0)

/-- A count on the line-fault counter and attention LINE-FAULT, as for a stray character (R50). -/
def State.lineFault (s : State) (a : Aud) : State :=
  (s.onCounters a (fun c => { c with lineFault := bump c.lineFault })).raiseAud a kindLineFault

/-- A count on a link port's protocol counter and attention PROTOCOL (R123, R138). -/
def State.protocolError (s : State) (p : Port) : State :=
  (s.onLinkCounters p (fun c => { c with protocol := bump c.protocol })).raiseLink p kindProtocol

end Sys2Proof.Machine
end

