-- ==== Sys2Proof/Machine/Position.lean ====
section
/-! DEFINITION. The show clock's arithmetic: elapsed counts, the sub-frame offset, the position, the period estimate and
the pause count (chapter 1). -/

namespace Sys2Proof.Machine

/-- Elapsed base counts since an instant, saturating (R3, R4). -/
def State.since (s : State) (start : Nat) : Nat := min (s.now - start) Config.maxElapsed

/-- Elapsed e of a show clock (R4). -/
def State.elapsed (s : State) (a : Aud) : Nat := s.since (s.clock a).ref

/-- Ticks per frame of an auditorium's rate code; 0 with no rate code (R2). -/
def Clock.tpf (c : Clock) : Nat :=
  match c.rate with
  | some r => r.tpf
  | none => 0

/-- The value R9 computes: floor(e × tpf / E_u), limited to tpf − 1. -/
def Clock.subTarget (c : Clock) (e : Nat) : Nat := min (e * c.tpf / c.period) (c.tpf - 1)

/-- R9's raise: sub becomes the larger of its value and the computed one. -/
def Clock.raiseSub (c : Clock) (e : Nat) : Clock := { c with sub := max c.sub (c.subTarget e) }

/-- B advanced by one frame, saturating, with sub 0 (R8, R10, R12, R13). -/
def Clock.advance (c : Clock) : Clock :=
  { c with base := min (c.base + c.tpf) Config.maxPosition, sub := 0 }

/-- B set to a mark's M, with sub 0 (R29, R30, R31). -/
def Clock.place (c : Clock) (m : Nat) : Clock := { c with base := m, sub := 0 }

/-- The position: min(B + sub, 43,199,999) (R11). -/
def Clock.position (c : Clock) : Nat := min (c.base + c.sub) Config.maxPosition

def State.position (s : State) (a : Aud) : Nat := (s.clock a).position

/-- RUNNING or COASTING (R25). -/
def AudState.isRunning : AudState → Bool
  | .running | .coasting => true
  | _ => false

/-- ARMED, PAUSED, RUNNING or COASTING: the states a show can end from (R36, R37). -/
def AudState.isActive : AudState → Bool
  | .armed | .paused | .running | .coasting => true
  | _ => false

/-- PAUSED, RUNNING or COASTING: the states release makes items due in (R25, R104). -/
def AudState.isReleasing : AudState → Bool
  | .paused | .running | .coasting => true
  | _ => false

/-- The show clock reports saturation (R11). -/
def State.saturated (s : State) (a : Aud) : Bool :=
  (s.session a).state.isActive && s.position a == Config.maxPosition

/-- Sub may advance: RUNNING or COASTING, and not frozen (R9). -/
def State.subMoves (s : State) (a : Aud) : Bool :=
  (s.session a).state.isRunning && !(s.showRun a).subFrozen

/-- R9 applied at once, where sub may advance. -/
def State.settleSub (s : State) (a : Aud) : State :=
  if s.subMoves a then s.onClock a (fun c => c.raiseSub (s.elapsed a)) else s

/-- The period estimate of a hold: H over W, rounded with halves up (R7). -/
def estimate (hold w : Nat) : Nat := (hold + w / 2) / w

/-- R7's test: |E − N| × 1000 ≤ N. -/
def acceptable (e nominal : Nat) : Bool := decide (((e - nominal) + (nominal - e)) * 1000 ≤ nominal)

/-- The loss threshold, floor(3 × E_u / 2) (R12). -/
def Clock.lossThreshold (c : Clock) : Nat := 3 * c.period / 2

/-- Half a period, floor(E_u / 2) (R14). -/
def Clock.halfPeriod (c : Clock) : Nat := c.period / 2

/-- The pause count in ticks, saturating; none while idle (R18). -/
def State.pauseCount (s : State) (a : Aud) : Option Nat :=
  (s.showRun a).pauseStart.map (fun start => min ((s.now - start) / Config.tick) Config.maxPause)

end Sys2Proof.Machine
end

