-- ==== Sys2Proof/Machine/Replies.lean ====
section
/-! DEFINITION. A cue port's reply side: line times (R44), the transmitter (R58), the reply queue (R57), refusals (R63) and
flow control (R54 to R56). -/

namespace Sys2Proof.Machine

/-- One bit time: 16 × d base counts (R44). -/
def bitTime (d : Nat) : Nat := 16 * d

/-- The character time: ten bit times without parity, eleven with it (R44). -/
def charTime (d : Nat) : Parity → Nat
  | .none => 160 * d
  | .even | .odd => 176 * d

/-- A transmission begun now: a break of one character time and one bit time, then the characters (R58). -/
def State.transmission (s : State) (p : CuePort) (x : Sent) : Transmission where
  sent := x
  boundary := s.now + charTime p.divisor p.parity + bitTime p.divisor
  left := x.bytes.length
  divisor := p.divisor
  parity := p.parity

/-- When a transmission ends (R58). -/
def Transmission.ends (t : Transmission) : Nat := t.boundary + t.left * charTime t.divisor t.parity

/-- A transmission under new line settings: the unit in progress ends at the old ones, the characters after it run at the
new ones (R45; log entry 19). -/
def Transmission.retime (t : Transmission) (now d : Nat) (parity : Parity) : Transmission :=
  let old := charTime t.divisor t.parity
  let begun := if now < t.boundary then 0 else min t.left ((now - t.boundary) / old + 1)
  { t with boundary := t.boundary + begun * old, left := t.left - begun, divisor := d, parity := parity }

/-- An idle transmitter begins the next reply, the flow-control place first; the reply leaves its place (R56 to R58). -/
def State.transmit (s : State) (a : Aud) : State :=
  let p := s.cuePort a
  match p.transmission, p.flowPlace, p.replies with
  | none, some f, _ => s.onPort a (fun q => { q with transmission := some (s.transmission p (.flow f)), flowPlace := none })
  | none, none, r :: rest =>
      s.onPort a (fun q => { q with transmission := some (s.transmission p (.reply r)), replies := rest })
  | _, _, _ => s

/-- Placing a reply: dropped from a full queue of eight, else appended and sent in its turn (R57). -/
def State.placeReply (s : State) (a : Aud) (r : Reply) : State :=
  if (s.cuePort a).replies.length < 8 then
    (s.onPort a (fun q => { q with replies := q.replies ++ [r] })).transmit a
  else s

/-- A REFUSE: the refused counter increments whether the reply is placed or dropped (R57, R63). -/
def State.refuse (s : State) (a : Aud) (kind : Byte) (seq : Seq) (reason : Reason) : State :=
  (s.onCounters a (fun c => { c with refused := bump c.refused })).placeReply a (.refuse kind seq reason)

/-- The queue cause: 24 or more entries (R54). -/
def State.queueCause (s : State) (a : Aud) : Bool := decide (24 ≤ (s.cuePort a).queue.length)

/-- The quota cause: not DARK, and 32 cells or fewer remain (R54). -/
def State.quotaCause (s : State) (a : Aud) : Bool :=
  !((s.session a).state == .dark) && decide ((s.store a).quota - (s.store a).used ≤ 32)

/-- Room to resume: 8 entries or fewer, and DARK or 96 cells or more remain (R55). -/
def State.mayResume (s : State) (a : Aud) : Bool :=
  decide ((s.cuePort a).queue.length ≤ 8)
    && ((s.session a).state == .dark || decide (96 ≤ (s.store a).quota - (s.store a).used))

/-- One evaluation of flow control (R54, R55). DESIGN CHOICE (log entry 44): a HOLD placed for the quota cause raises STORE-PRESSURE at the
evaluations of ARM and RESET-CUE-PORT too, which R26 and R169 say leave the attention record. -/
def State.flow (s : State) (a : Aud) : State :=
  if (s.cuePort a).holdOutstanding then
    if s.mayResume a then
      (s.onPort a (fun p => { p with flowPlace := some .resume, holdOutstanding := false })).transmit a
    else s
  else if s.queueCause a || s.quotaCause a then
    let held := (s.onPort a (fun p => { p with flowPlace := some .hold, holdOutstanding := true })).transmit a
    if s.quotaCause a then held.raiseAud a kindStorePressure else held
  else s

end Sys2Proof.Machine
end

