-- ==== Sys2Proof/Machine/Store.lean ====
section
/-! DEFINITION. The cue store and what a cue's leaving brings about: acceptance filters (R129), clears owed (R116), entry
into ENDED (R38), the freeing unit (R91), leaving a queue (R92) and the end test (R36). -/

namespace Sys2Proof.Machine

/-! ### Which ports carry a stream -/

/-- A filter accepts a stream of this auditorium, kind and language (R129). -/
def Filter.accepts (f : Filter) (a : Aud) (st : Stream) : Bool :=
  f.auditoriums.getLsbD a.val
    && (match st.kind with | .caption => f.kinds.getLsbD 0 | .narration => f.kinds.getLsbD 1)
    && (match f.language with | none => true | some l => l == st.language)

/-- The filters of a port that accept a stream, lowest number first (R129). -/
def State.acceptingFilters (s : State) (p : Port) (n : StreamNo) : List Port :=
  ports.filter (fun k => (pick (s.link p).filters k).accepts (audOfStream n) (s.stream n))

/-- The port accepts the stream: any of its four filters does (R129). -/
def State.accepts (s : State) (p : Port) (n : StreamNo) : Bool := !(s.acceptingFilters p n).isEmpty

/-- The link ports SERVING whose filters accept the stream (R105, R116). -/
def State.carriers (s : State) (n : StreamNo) : List Port :=
  ports.filter (fun p => (s.link p).state == .serving && s.accepts p n)

/-! ### Clears owed (R85, R116) -/

/-- A clear frame becomes owed on a stream: the ports that carry it join the clear-owed set, and if one is new the stream's
frame sequence is taken as the clear number. -/
def State.oweClear (s : State) (n : StreamNo) : State :=
  let fresh := (s.carriers n).filter (fun p => !(s.stream n).clearOwed.contains p)
  if fresh.isEmpty then s
  else s.onStream n (fun st =>
    { st with clearOwed := st.clearOwed ++ fresh, clearNumber := st.frameSeq, frameSeq := st.frameSeq + 1 })

/-- A clear frame becomes owed on the stream where it is an open caption stream. -/
def State.oweClearIfCaption (s : State) (n : StreamNo) : State :=
  if (s.stream n).isOpen && (s.stream n).kind == .caption then s.oweClear n else s

/-- A clear frame becomes owed on every open caption stream of the auditorium (R116). -/
def State.oweClears (s : State) (a : Aud) : State :=
  slots.foldl (fun t k => t.oweClearIfCaption (streamOf a k)) s

/-! ### Entry into ENDED (R38) -/

/-- The pause as it ends, captured as the pause hold where the count runs (R19). -/
def State.captureHold (s : State) (a : Aud) : Nat := (s.pauseCount a).getD (s.showRun a).pauseHold

/-- The auditorium enters ENDED: the clock is frozen, a running pause count is captured, a stale mark is cleared, clears
become owed and attention ENDED is raised (R16, R19, R20, R38). -/
def State.enterEnded (s : State) (a : Aud) : State :=
  let s1 := s.onRun a (fun r => { r with window := .closed, subFrozen := true, pauseHold := s.captureHold a,
                                         pauseStart := none, staleMark := false })
  let s2 := s1.onSession a (fun x => { x with state := .ended })
  (s2.oweClears a).raiseAud a kindEnded

/-- All six stream queues of the auditorium are empty (R36). -/
def State.queuesEmpty (s : State) (a : Aud) : Bool := slots.all (fun k => (s.stream (streamOf a k)).queue.isEmpty)

/-- R36's test: ending mark set, a state a show ends from, no purge running, all queues empty. -/
def State.endTest (s : State) (a : Aud) : State :=
  if (s.session a).ending && (s.session a).state.isActive && (s.store a).purge.isNone && s.queuesEmpty a
  then s.enterEnded a else s

/-! ### The freeing unit (R91) -/

/-- A freeing request joins the auditorium's freeing unit; an empty unit begins its first cell now. -/
def State.requestFree (s : State) (a : Aud) (cells : Nat) (tag : FreeTag) : State :=
  s.onStore a (fun st =>
    { st with freeing := st.freeing ++ [{ cells := cells, tag := tag }],
              cellStart := if st.freeing.isEmpty then s.now else st.cellStart })

/-- One cell is allocated for the auditorium, and flow control is evaluated (R71, R73, R90). -/
def State.allocate (s : State) (a : Aud) : State :=
  ((s.onStore a (fun st => { st with used := st.used + 1 })).onFree (fun n => n - 1)).flow a

/-- One cell joins the free pool, and flow control is evaluated (R54, R91), before what the cell's return brings about is taken (DESIGN CHOICE:
log entry 47). -/
def State.returnCell (s : State) (a : Aud) : State :=
  ((s.onStore a (fun st => { st with used := st.used - 1 })).onFree (fun n => n + 1)).flow a

/-! ### The sorted insertion's walk (R75, R76) -/

/-- The next cue of the walk still in the queue, and those after it. -/
def nextInQueue (q : List Cue) : List Seq → Option (Seq × List Seq)
  | [] => none
  | x :: rest => if (findCue x q).isSome then some (x, rest) else nextInQueue q rest

/-- The walk brought up to `now`: each examining step that has ended is taken. A cue with T at or below the new cue's stops
the walk; one that has left the queue is passed over at its step's end (R76). -/
def Walk.catchUp (now start : Nat) (q : List Cue) : Nat → Walk → Walk
  | 0, w => w
  | fuel + 1, w =>
    match w.current with
    | none => w
    | some x =>
      if w.stepStart + Config.walkStep ≤ now then
        let ended := w.stepStart + Config.walkStep
        match findCue x q with
        | some c =>
          if c.start ≤ start then { w with current := none, stepStart := ended }
          else match nextInQueue q w.todo with
            | some (y, rest) => Walk.catchUp now start q fuel { todo := rest, current := some y, stepStart := ended }
            | none => { todo := [], current := none, stepStart := ended }
        | none =>
          match nextInQueue q w.todo with
          | some (y, rest) => Walk.catchUp now start q fuel { todo := rest, current := some y, stepStart := ended }
          | none => { todo := [], current := none, stepStart := ended }
      else w

/-- The auditorium's insertion, if one walks this stream, brought up to now. DESIGN CHOICE (log entry 39): a step that ends at this very
base count is taken as ended before the cue leaves. -/
def State.catchUpWalk (s : State) (a : Aud) (n : StreamNo) : State :=
  match (s.intake a).context with
  | .inserting c w =>
    if c.stream = n then
      let walked := Walk.catchUp s.now c.start (s.stream n).queue (w.todo.length + 1) w
      s.onIntake a (fun i => { i with context := .inserting c walked })
    else s
  | _ => s

/-! ### Leaving a queue (R92) -/

/-- A cue leaves its queue at this instant, a walk under way having been brought up to it. -/
def State.leaveQueue (s : State) (n : StreamNo) (seq : Seq) : State :=
  (s.catchUpWalk (audOfStream n) n).onStream n (fun st => { st with queue := dropCue seq st.queue })

/-- A cue is freed whole: it leaves its queue, a freeing request for its cells is placed, and R36 is tested. -/
def State.freeCue (s : State) (n : StreamNo) (c : Cue) (tag : FreeTag) : State :=
  ((s.leaveQueue n c.seq).requestFree (audOfStream n) c.cells tag).endTest (audOfStream n)

/-- Each port of `l` is charged with a lapsed item (R112). -/
def State.chargePorts (s : State) (l : List Port) : State :=
  l.foldl (fun t p => t.onLinkCounters p (fun c => { c with lapsed := bump c.lapsed })) s

/-- The ports outstanding in a cue's due record. -/
def Cue.outstanding (c : Cue) : List Port :=
  match c.due with
  | some d => d.pending
  | none => []

/-- A cue is expired with its outstanding ports charged (R111, R112). -/
def State.expireCue (s : State) (n : StreamNo) (c : Cue) : State :=
  ((s.onCounters (audOfStream n) (fun k => { k with expired := bump k.expired })).chargePorts c.outstanding).freeCue n c .none

end Sys2Proof.Machine
end

