-- ==== Sys2Proof/Machine/Release.lean ====
section
/-! DEFINITION. The release engine (chapter 6): captions falling due and ending, narration block by block, re-release after a
stale pause, and ports that owe no more. -/

namespace Sys2Proof.Machine

/-- Release makes items of the auditorium due: PAUSED, RUNNING or COASTING, and no purge running (R104). At the instant P
saturates it makes nothing due: ENDED and the saturation purge belong to that instant (R37, R120; log entry 12). -/
def State.releases (s : State) (a : Aud) : Bool :=
  (s.session a).state.isReleasing && (s.store a).purge.isNone && !s.saturated a

/-- The stream's next frame number is taken: the frame sequence advances by one, wrapping (R86). -/
def State.takeNumber (s : State) (n : StreamNo) : State := s.onStream n (fun st => { st with frameSeq := st.frameSeq + 1 })

/-- A QUEUED caption falls due: a frame number, the ports that carry the stream as pending set, no copy staged; unrouted and
ON-AIR at once with no port to carry it (R105, R107). -/
def State.captionFallsDue (s : State) (n : StreamNo) (seq : Seq) : State :=
  let ps := s.carriers n
  let num := (s.stream n).frameSeq
  if ps.isEmpty then
    ((s.onCue n seq (fun c => { c with life := .onAir })).takeNumber n).onCounters (audOfStream n)
      (fun k => { k with unrouted := bump k.unrouted })
  else
    (s.onCue n seq (fun c => { c with life := .due, due := some { number := num, pending := ps, staged := false } })).takeNumber n

/-- An ON-AIR caption is made due again by a stale resume; with no port to carry it, it stays ON-AIR (R118). -/
def State.reRelease (s : State) (n : StreamNo) (seq : Seq) : State :=
  let ps := s.carriers n
  let num := (s.stream n).frameSeq
  if ps.isEmpty then s
  else
    ((s.onCue n seq (fun c =>
        { c with life := .due, resend := true, due := some { number := num, pending := ps, staged := false } })).takeNumber n).onCounters
      (audOfStream n) (fun k => { k with resent := bump k.resent })

/-! ### Narration (R113, R114) -/

/-- The body cell of the current block is still held (R92). -/
def Cue.blockHeld (c : Cue) : Bool := ((c.bodies[c.cursor]?).getD none).isSome

/-- The cue with its current block finished with: no due record, the body entry spent, the cursor one on (R114). -/
def Cue.finishBlock (c : Cue) : Cue :=
  { c with due := none, bodies := c.bodies.set c.cursor none, cursor := c.cursor + 1 }

/-- A block is finished with: its cell is freed, the skip counter counts it where `skipped`, the cursor advances; after the
last block the cue leaves its queue and its head cell is freed in the same request (R114). -/
def State.finishBlock (s : State) (n : StreamNo) (c : Cue) (skipped : Bool) : State :=
  let a := audOfStream n
  let s1 := if skipped then s.onCounters a (fun k => { k with skip := bump k.skip }) else s
  if c.length ≤ c.cursor + 1 then s1.freeCue n c .none
  else
    let s2 := s1.onCue n c.seq Cue.finishBlock
    if c.blockHeld then s2.requestFree a 1 .none else s2

/-- The current block of a narration cue has reached its release time: P + lead has reached its start (R113). A block that starts beyond
43,199,999 never has, for it cannot fall due (R68). DESIGN CHOICE (log entry 41): R113 alone would let a lead above 0 reach it. -/
def State.blockReached (s : State) (n : StreamNo) (c : Cue) : Bool :=
  decide (c.blockStart ≤ s.position (audOfStream n) + (s.stream n).lead) && decide (c.blockStart ≤ Config.maxPosition)

/-- Release looks at the current block of a narration cue (R113), and again after each block skipped or unrouted, until a
block waits for its release time or holds a due record. -/
def State.lookAtBlocks (n : StreamNo) (seq : Seq) : Nat → State → State
  | 0, s => s
  | fuel + 1, s =>
    if !s.releases (audOfStream n) then s
    else match s.findCue n seq with
    | none => s
    | some c =>
      let p := s.position (audOfStream n)
      if c.kind == .narration && c.due.isNone && (c.life == .queued || c.life == .playing)
          && s.blockReached n c then
        let s1 := s.onCue n seq (fun x => { x with life := .playing })
        let c1 := { c with life := .playing }
        if !c.blockHeld || decide (c.blockEnd ≤ p) then
          State.lookAtBlocks n seq fuel (s1.finishBlock n c1 true)
        else
          let ps := s1.carriers n
          let num := (s1.stream n).frameSeq
          if ps.isEmpty then
            let s2 := (s1.takeNumber n).onCounters (audOfStream n) (fun k => { k with unrouted := bump k.unrouted })
            State.lookAtBlocks n seq fuel (s2.finishBlock n c1 false)
          else
            (s1.onCue n seq (fun x => { x with due := some { number := num, pending := ps, staged := false } })).takeNumber n
      else s

/-- More looks than a cue has blocks (n is at most 250, R68). -/
def lookFuel : Nat := 256

/-! ### One cue at an instant of release -/

/-- A QUEUED caption whose release time has come falls due, or is expired if it is over; an ON-AIR caption that a stale
resume covers is made due again; a narration cue's current block is looked at (R105, R113, R118). -/
def State.releaseCue (stale : Option Nat) (n : StreamNo) (s : State) (seq : Seq) : State :=
  match s.findCue n seq with
  | none => s
  | some c =>
    let p := s.position (audOfStream n)
    match c.kind, c.life with
    | .caption, .queued =>
      if c.start ≤ p + (s.stream n).lead then
        if c.finish ≤ p then s.expireCue n c else s.captionFallsDue n seq
      else s
    | .caption, .onAir =>
      match stale with
      | some h => if c.start ≤ h && decide (h < c.finish) then s.reRelease n seq else s
      | none => s
    | .narration, _ => State.lookAtBlocks n seq lookFuel s
    | _, _ => s

/-- A stale resume acted on for one cue, with nothing else made due (R118). -/
def State.staleCue (h : Nat) (n : StreamNo) (s : State) (seq : Seq) : State :=
  match s.findCue n seq with
  | some c =>
    if c.kind == .caption && c.life == .onAir && c.start ≤ h && decide (h < c.finish) then s.reRelease n seq else s
  | none => s

/-- What the position ends: an ON-AIR caption at its end, a DUE caption at its end with ports outstanding, a due block at its
end (R110, R111, R114). The look at the block after an ended one is release's own, so at a saturating P it makes nothing due (log
entry 12). -/
def State.endCue (n : StreamNo) (s : State) (seq : Seq) : State :=
  match s.findCue n seq with
  | none => s
  | some c =>
    let p := s.position (audOfStream n)
    match c.kind, c.life with
    | .caption, .onAir => if c.finish ≤ p then s.freeCue n c .none else s
    | .caption, .due => if c.finish ≤ p then s.expireCue n c else s
    | .narration, .playing =>
      match c.due with
      | some d =>
        if c.blockEnd ≤ p then
          State.lookAtBlocks n seq lookFuel ((s.chargePorts d.pending).finishBlock n c (!d.staged))
        else s
      | none => s
    | _, _ => s

/-- `f` on every cue of a stream, from head to tail, as the queue stood at the beginning. -/
def State.eachCue (s : State) (n : StreamNo) (f : StreamNo → State → Seq → State) : State :=
  (seqs (s.stream n).queue).foldl (f n) s

/-- `f` on every cue of the auditorium's six streams. -/
def State.eachCueOf (s : State) (a : Aud) (f : StreamNo → State → Seq → State) : State :=
  slots.foldl (fun t k => t.eachCue (streamOf a k) f) s

/-- Release at an instant of R104, together with a stale resume where one is handed in (R93, R118). -/
def State.release (s : State) (a : Aud) (stale : Option Nat) : State :=
  if s.releases a then s.eachCueOf a (State.releaseCue stale) else s

/-- Release ends items by position (R104), in any auditorium state and whether or not a purge runs. -/
def State.endByPosition (s : State) (a : Aud) : State := s.eachCueOf a State.endCue

/-- A stale resume handed on: acted on at once, or kept with its position while a purge runs (R40, R118). -/
def State.handStale (s : State) (a : Aud) (h : Nat) : State :=
  if (s.store a).purge.isNone then s.eachCueOf a (State.staleCue h)
  else s.onStore a (fun st => { st with staleWaiting := some h })

/-! ### Ports that owe no more (R106, R108, R114) -/

/-- Port `p` leaves the pending set of a cue's due record, by staging a copy or by leaving SERVING. An emptied set puts a
caption ON-AIR and finishes a narration block with. -/
def State.settleDue (s : State) (p : Port) (staging : Bool) (n : StreamNo) (seq : Seq) : State :=
  match s.findCue n seq with
  | none => s
  | some c =>
    match c.due with
    | none => s
    | some d =>
      if d.pending.contains p then
        let d1 : DueRecord := { d with pending := d.pending.filter (fun q => !(q == p)), staged := d.staged || staging }
        if d1.pending.isEmpty then
          match c.kind with
          | .caption => s.onCue n seq (fun x => { x with life := .onAir, due := none, resend := false })
          | .narration => State.lookAtBlocks n seq lookFuel (s.finishBlock n c (!d1.staged))
        else s.onCue n seq (fun x => { x with due := some d1 })
      else s

/-- Port `p` leaves every clear-owed set and every pending set of every auditorium (R126). -/
def State.portOwesNothing (s : State) (p : Port) : State :=
  streamNos.foldl (fun t n =>
    (t.onStream n (fun st => { st with clearOwed := st.clearOwed.filter (fun q => !(q == p)) })).eachCue n
      (fun m u seq => u.settleDue p false m seq)) s

end Sys2Proof.Machine
end

