-- ==== Sys2Proof/Machine/Arbiter.lean ====
section
/-! DEFINITION. The slot arbiters and the staging rings (R131 to R134, R140): candidates and their order, frames as they are
formed, fills, expiry of a frame, and a port's entry into and leaving of SERVING (R125, R126). -/

namespace Sys2Proof.Machine

/-! ### Candidates (R132) -/

inductive Candidate where
  | beacon
  | clear (n : StreamNo)
  | item (n : StreamNo) (seq : Seq)
  deriving DecidableEq, Repr

/-- The auditorium of a stream is not DARK: a DARK auditorium's items and clears are no candidates (R117, R132). -/
def State.lit (s : State) (n : StreamNo) : Bool := !((s.session (audOfStream n)).state == .dark)

/-- The cue owes port `p` a copy: it holds a due record whose pending set names the port. -/
def Cue.owedTo (c : Cue) (p : Port) : Bool := c.outstanding.contains p

/-- The first of the least by a measure: an entry replaces the one held if its measure is smaller. -/
def leastBy {α : Type} (f : α → Nat) : List α → Option α
  | [] => none
  | x :: rest =>
    match leastBy f rest with
    | none => some x
    | some y => if f x ≤ f y then some x else some y

/-- The cues of kind `k` and life `l` that owe port `p` a copy, by stream number and, within a stream, from the head. -/
def State.owing (s : State) (p : Port) (k : CueKind) (l : Life) : List (StreamNo × Cue) :=
  (streamNos.filter s.lit).flatMap (fun n =>
    ((s.stream n).queue.filter (fun c => c.kind == k && c.life == l && c.owedTo p)).map (fun c => (n, c)))

/-- The streams whose clear-owed set names the port, lowest number first. -/
def State.clearsOwedTo (s : State) (p : Port) : List StreamNo :=
  streamNos.filter (fun n => s.lit n && (s.stream n).clearOwed.contains p)

/-- The candidate the arbiter prefers: beacon, clear, narration by block start, caption by T (R132). -/
def State.candidate (s : State) (p : Port) : Option Candidate :=
  if (s.link p).beaconOwed then some .beacon
  else match s.clearsOwedTo p with
  | n :: _ => some (.clear n)
  | [] =>
    match leastBy (fun x => x.2.blockStart) (s.owing p .narration .playing) with
    | some x => some (.item x.1 x.2.seq)
    | none =>
      match leastBy (fun x => x.2.start) (s.owing p .caption .due) with
      | some x => some (.item x.1 x.2.seq)
      | none => none

/-! ### Frames (R109, R115, R117, R133, R140) -/

/-- A stream of the auditorium is open and accepted by the port (R140). -/
def State.lists (s : State) (p : Port) (a : Aud) : Bool :=
  !((s.session a).state == .dark)
    && slots.any (fun k => (s.stream (streamOf a k)).isOpen && s.accepts p (streamOf a k))

/-- The entries of a beacon or filler formed now (R140). -/
def State.beaconEntries (s : State) (p : Port) : List BeaconEntry :=
  (auds.filter (s.lists p)).map (fun a =>
    { auditorium := a, state := (s.session a).state, position := s.position a, rate := (s.clock a).rate })

/-- The filter number of a frame: the lowest-numbered filter that accepts its stream (R129). -/
def State.filterNumber (s : State) (p : Port) (n : StreamNo) : Option Port := (s.acceptingFilters p n).head?

/-- A stream has a struggling subscriber (R87). -/
def State.struggling (s : State) (n : StreamNo) : Bool := decide (0 < (s.stream n).degraded)

/-- A clear frame (R117, R133). DESIGN CHOICE (log entry 46): its robust and late flags, to which no rule gives a value, are clear. -/
def State.clearFrame (s : State) (p : Port) (n : StreamNo) : Frame :=
  .item { kind := .clear, stream := n, number := (s.stream n).clearNumber, language := (s.stream n).language,
          start := s.position (audOfStream n), finish := s.position (audOfStream n), payload := [],
          secondCopy := false, twoCopies := false, robust := false, late := false, filter := s.filterNumber p n }

/-- A caption's text: its payloads joined (R73). -/
def Cue.text (c : Cue) : List Byte := c.bodies.flatMap (fun b => b.getD [])

/-- The late flag of a caption fill: after its start, and not a re-release (R109). -/
def Cue.lateAt (c : Cue) (p : Nat) : Bool := decide (c.start < p) && !c.resend

def State.itemFrame (s : State) (p : Port) (n : StreamNo) (c : Cue) (d : DueRecord) : Frame :=
  let pos := s.position (audOfStream n)
  match c.kind with
  | .caption =>
    .item { kind := .caption, stream := n, number := d.number, language := (s.stream n).language,
            start := max c.start pos, finish := c.finish, payload := c.text,
            secondCopy := false, twoCopies := s.struggling n, robust := false, late := c.lateAt pos,
            filter := s.filterNumber p n }
  | .narration =>
    .item { kind := .narration, stream := n, number := d.number, language := (s.stream n).language,
            start := c.blockStart, finish := c.blockEnd, payload := ((c.bodies[c.cursor]?).getD none).getD [],
            secondCopy := false, twoCopies := false, robust := s.struggling n, late := false,
            filter := s.filterNumber p n }

/-! ### Buffers and the READY queue (R134) -/

def Buffer.frame : Buffer → Option Frame
  | .empty => none
  | .filling f _ => some f
  | .ready f => some f
  | .sending f => some f

def Buffer.isFilling : Buffer → Bool
  | .filling _ _ => true
  | _ => false

def Buffer.isReady : Buffer → Bool
  | .ready _ => true
  | _ => false

def bufNos : List BufNo := List.finRange 3

/-- The lowest-numbered EMPTY buffer (R131). -/
def LinkPort.emptyBuffer (l : LinkPort) : Option BufNo := bufNos.find? (fun b => pick l.buffers b == .empty)

/-- The buffer a fill is in progress for. -/
def LinkPort.fillingBuffer (l : LinkPort) : Option BufNo := bufNos.find? (fun b => (pick l.buffers b).isFilling)

def LinkPort.setBuffer (l : LinkPort) (b : BufNo) (x : Buffer) : LinkPort :=
  { l with buffers := change l.buffers b (fun _ => x) }

/-- A buffer becomes EMPTY and leaves the READY queue. -/
def LinkPort.emptyOut (l : LinkPort) (b : BufNo) : LinkPort :=
  { l.setBuffer b .empty with readyQueue := l.readyQueue.filter (fun x => !(x == b)) }

/-- A frame is expired: its auditorium is DARK, or it is a caption or narration frame with X at or before P (R135). -/
def State.frameExpired (s : State) (f : Frame) : Bool :=
  match f with
  | .item i =>
    !s.lit i.stream
      || (match i.kind with
          | .clear => false
          | .caption | .narration => decide (i.finish ≤ s.position (audOfStream i.stream)))
  | _ => false

/-! ### Fills (R131, R133) -/

/-- Whether the port's arbiter may begin a fill now (R131). -/
def State.mayFill (s : State) (p : Port) : Bool :=
  (s.link p).state == .serving && (s.link p).fillingBuffer.isNone && (s.link p).emptyBuffer.isSome
    && (s.candidate p).isSome

/-- The fill of a frame begins: the buffer becomes FILLING for 4 base counts a byte (R133). -/
def State.startFill (s : State) (p : Port) (b : BufNo) (f : Frame) : State :=
  s.onLink p (fun l => l.setBuffer b (.filling f (s.now + Config.fillPerByte * f.bytes.length)))

/-- The arbiter of a port begins a fill: the candidate is staged and its frame formed (R131, R133). -/
def State.fill (s : State) (p : Port) : State :=
  match (s.link p).emptyBuffer, s.candidate p with
  | some b, some .beacon =>
    (s.startFill p b (.beacon (s.beaconEntries p))).onLink p (fun l => { l with beaconOwed := false })
  | some b, some (.clear n) =>
    (s.startFill p b (s.clearFrame p n)).onStream n (fun st => { st with clearOwed := st.clearOwed.filter (fun q => !(q == p)) })
  | some b, some (.item n seq) =>
    match s.findCue n seq with
    | none => s
    | some c =>
      match c.due with
      | none => s
      | some d =>
        let s1 := s.startFill p b (s.itemFrame p n c d)
        let s2 := if c.kind == .caption && c.lateAt (s.position (audOfStream n)) then
            s1.onCounters (audOfStream n) (fun k => { k with late := bump k.late })
          else s1
        s2.settleDue p true n seq
  | _, _ => s

/-- Fills begun at once, port after port, the port free where several may begin (R131; log entry 26). A port that has begun
one has a fill in progress, so four rounds are enough. -/
def State.settleFillsFuel : Nat → State → State
  | 0, s => s
  | fuel + 1, s =>
    let able := ports.filter s.mayFill
    match anyOne s.draws able with
    | none => s
    | some p => State.settleFillsFuel fuel ((s.onDraws (· + drawsOf able)).fill p)

def State.settleFills (s : State) : State := State.settleFillsFuel 4 s

/-! ### Entering and leaving SERVING -/

/-- Entry into SERVING: beacon owed, the beacon timer loaded, the silence timer started where there is a limit (R125). -/
def State.enterServing (s : State) (p : Port) : State :=
  s.onLink p (fun l => { l with
    state := .serving
    beaconOwed := true
    beaconDue := some (s.now + l.beaconPeriod * Config.tick)
    silenceStart := if l.silenceLimit = 0 then none else some s.now })

/-- Frames a port holds. -/
def LinkPort.frameCount (l : LinkPort) : Nat := (bufNos.filter (fun b => (pick l.buffers b).frame.isSome)).length

/-- A counter raised `k` times. -/
def bumpBy : Nat → Nat → Nat
  | 0, n => n
  | k + 1, n => bumpBy k (bump n)

/-- Leaving SERVING: every frame is discarded and counted, a BUFFER exchange becomes VOID, the port leaves every set, beacon
owed is cleared and the timers stop (R126). -/
def State.leaveServing (s : State) (p : Port) (dest : LinkState) : State :=
  let lost := (s.link p).frameCount
  let s1 := s.onLinkCounters p (fun c => { c with discarded := bumpBy lost c.discarded })
  let s2 := s1.onLink p (fun l => { l with
    state := dest
    buffers := Vector.replicate 3 .empty
    readyQueue := []
    exchange := match l.exchange with | .buffer _ => .void | x => x
    beaconOwed := false
    beaconDue := none
    silenceStart := none })
  s2.portOwesNothing p

end Sys2Proof.Machine
end

