-- ==== Sys2Proof/Machine/PurgeWalk.lean ====
section
/-! DEFINITION. Purges (section 5.5): beginning one, its walk cue by cue, its end and what follows it, and position
saturation (R37). -/

namespace Sys2Proof.Machine

/-- The transport holds DONE for the work that has ended (R163). -/
def State.finishWork (s : State) (w : Work) : State :=
  if s.mgmt.transport = .working w then
    s.onMgmt (fun m => { m with transport := .held { code := .done, command := w.code, fields := [] } })
  else s

/-- The cues of a stream's queue as places of a walk, head first. -/
def State.walkOf (s : State) (a : Aud) (k : Slot) : List (Slot × Seq) :=
  (seqs (s.stream (streamOf a k)).queue).map (fun x => (k, x))

/-- The cues a purge examines, in its order (R93). -/
def State.purgeOrder (s : State) (a : Aud) : PurgeKind → List (Slot × Seq)
  | .withdraw k _ => (s.walkOf a k).reverse
  | .close k => s.walkOf a k
  | .forward _ | .backward _ | .saturation | .teardown => slots.flatMap (s.walkOf a)

/-- A DISARM teardown or a saturation purge removes the cue in progress: its cells go to the freeing unit, REFUSE
BROKEN-CUE is placed, and the context skips the bodies still owed (R77). -/
def State.removeInProgress (s : State) (a : Aud) : State :=
  match (s.intake a).context with
  | .opened c owed =>
    ((s.requestFree a c.cells .purge).refuse a headCode c.seq .brokenCue).onIntake a
      (fun i => { i with context := .skipping (some owed) })
  | .inserting c _ =>
    ((s.requestFree a c.cells .purge).refuse a headCode c.seq .brokenCue).onIntake a (fun i => { i with context := .idle })
  | .idle | .skipping _ => s

/-- The intake holds a cue in ASSEMBLING or INSERTING. -/
def State.cueInProgress (s : State) (a : Aud) : Bool :=
  match (s.intake a).context with
  | .opened _ _ | .inserting _ _ => true
  | .idle | .skipping _ => false

/-- The kind removes the cue in progress and lasts until the freeing unit is empty (R90, R100, R101). -/
def PurgeKind.isTotal : PurgeKind → Bool
  | .saturation | .teardown => true
  | _ => false

/-- A purge begins: clears are owed for a jump, the cue in progress is removed for a saturation or a teardown (R95, R96, R100,
R101). The walk starts with `runPurge`. -/
def State.beginPurge (s : State) (a : Aud) (kind : PurgeKind) : State :=
  let s1 := match kind with
    | .forward _ | .backward _ => s.oweClears a
    | .saturation | .teardown => s.removeInProgress a
    | .withdraw _ _ | .close _ => s
  let p : Purge := { kind := kind, todo := s.purgeOrder a kind, current := none, stepStart := s.now,
                     waiting := kind.isTotal && s.cueInProgress a }
  s1.onStore a (fun st => { st with purge := some p })

/-- The next place of a walk whose cue is still in its queue, and the places after it. -/
def State.nextPlace (s : State) (a : Aud) : List (Slot × Seq) → Option ((Slot × Seq) × List (Slot × Seq))
  | [] => none
  | x :: rest => if (s.findCue (streamOf a x.1) x.2).isSome then some (x, rest) else s.nextPlace a rest

/-- What happens when a purge ends, before another begins: CLOSE-STREAM closes its stream, the command in flight is DONE,
release evaluates the streams with any waiting stale resume, and R36 is tested (R93, R119). DESIGN CHOICE (log entry 36): the stream is
closed first, so a show that ends here owes no clear on it. -/
def State.endPurge (s : State) (a : Aud) (kind : PurgeKind) : State :=
  let s1 := s.onStore a (fun st => { st with purge := none })
  let s2 := match kind with
    | .close k => (s1.onStream (streamOf a k) (fun st => { st with isOpen := false })).finishWork (.closeStream a)
    | .teardown => s1.finishWork (.disarm a)
    | _ => s1
  let s3 := (s2.release a (s2.store a).staleWaiting).onStore a (fun st => { st with staleWaiting := none })
  s3.endTest a

/-- What begins when a purge has ended: an owed saturation purge, else a CLOSE-STREAM that waits (R93, R84). -/
def State.nextPurge (s : State) (a : Aud) : State :=
  if (s.store a).saturationOwed then
    (s.onStore a (fun st => { st with saturationOwed := false })).beginPurge a .saturation
  else match (s.store a).closeWaiting with
  | some k => (s.onStore a (fun st => { st with closeWaiting := none })).beginPurge a (.close k)
  | none => s

/-- The walk goes on where no step runs and nothing is waited for: the next cue's step begins, or the purge ends, and the
purge that follows it is run in turn. A teardown or a saturation purge ends when the freeing unit is empty (log entry 13). -/
def State.runPurge (a : Aud) : Nat → State → State
  | 0, s => s
  | fuel + 1, s =>
    match (s.store a).purge with
    | none => s
    | some p =>
      if p.waiting || p.current.isSome then s
      else match s.nextPlace a p.todo with
      | some (x, rest) =>
        s.onStore a (fun st => { st with purge := some { p with todo := rest, current := some x, stepStart := s.now } })
      | none =>
        if p.kind.isTotal && !(s.store a).freeing.isEmpty then
          s.onStore a (fun st => { st with purge := some { p with todo := [], waiting := true } })
        else State.runPurge a fuel ((s.endPurge a p.kind).nextPurge a)

/-- The purge in hand, an owed saturation purge and a waiting CLOSE-STREAM: at most three end at one instant. -/
def purgeFuel : Nat := 4

/-- A purge begins and its walk starts. -/
def State.startPurge (s : State) (a : Aud) (kind : PurgeKind) : State :=
  State.runPurge a purgeFuel (s.beginPurge a kind)

/-! ### One step of a walk (R95 to R101) -/

/-- What a purge does with the cue it has examined. -/
inductive Ruling where
  | leave
  | remove
  | toQueued
  | rewind (block : Nat)
  deriving DecidableEq, Repr

/-- A purge's ruling on a cue in the life state it finds (R95 to R101). -/
def PurgeKind.ruling (k : PurgeKind) (c : Cue) : Ruling :=
  match k with
  | .forward target => if c.finish ≤ target then .remove else .leave
  | .backward target =>
    match c.kind, c.life with
    | .caption, .due | .caption, .onAir => if target < c.start then .toQueued else .leave
    | .narration, .playing =>
      if target < c.start then .toQueued
      else if target < c.finish && decide ((target - c.start) / Config.block < c.cursor) then
        .rewind ((target - c.start) / Config.block)
      else .leave
    | _, _ => .leave
  | .withdraw _ fromTime => if fromTime ≤ c.start then .remove else .leave
  | .close _ | .saturation | .teardown => .remove

/-- The removal of an ON-AIR caption owes a clear frame: WITHDRAW and CLOSE-STREAM (R116). -/
def PurgeKind.owesClear (k : PurgeKind) (c : Cue) : Bool :=
  match k with
  | .withdraw _ _ | .close _ => c.kind == .caption && c.life == .onAir
  | _ => false

/-- The removed cue is counted as expired: a forward jump purge (R95, R112). -/
def PurgeKind.countsExpired : PurgeKind → Bool
  | .forward _ => true
  | _ => false

/-- A purge removes a cue: it leaves its queue, its request goes to the freeing unit, and the walk waits for it (R93). -/
def State.purgeRemove (s : State) (a : Aud) (n : StreamNo) (kind : PurgeKind) (c : Cue) : State :=
  let s1 := if kind.owesClear c then s.oweClear n else s
  let s2 := if kind.countsExpired then s1.onCounters a (fun k => { k with expired := bump k.expired }) else s1
  (s2.freeCue n c .purge).onStore a (fun st =>
    { st with purge := st.purge.map (fun p => { p with current := none, waiting := true }) })

/-- A WITHDRAW walk stops after the first cue below the from-time (R98). -/
def PurgeKind.stopsAt (k : PurgeKind) (c : Cue) : Bool :=
  match k with
  | .withdraw _ fromTime => decide (c.start < fromTime)
  | _ => false

/-- The end of a walk step: the purge acts on the cue it examined, if that cue is still in its queue, and the walk goes on
(R93, R94). -/
def State.purgeStep (s : State) (a : Aud) (p : Purge) (x : Slot × Seq) : State :=
  let n := streamOf a x.1
  let move (t : State) (todo : List (Slot × Seq)) : State :=
    State.runPurge a purgeFuel (t.onStore a (fun st => { st with purge := some { p with todo := todo, current := none } }))
  match s.findCue n x.2 with
  | none => move s p.todo
  | some c =>
    match p.kind.ruling c with
    | .remove => s.purgeRemove a n p.kind c
    | .leave => move s (if p.kind.stopsAt c then [] else p.todo)
    | .toQueued =>
      move (s.onCue n x.2 (fun y => { y with life := .queued, due := none, resend := false, cursor := 0 })) p.todo
    | .rewind b => move (s.onCue n x.2 (fun y => { y with cursor := b, due := none })) p.todo

/-! ### Position saturation and every change of P -/

/-- The auditorium's position has taken 43,199,999: it enters ENDED, and the saturation purge begins, or is owed to the purge
that runs (R37). -/
def State.saturatePosition (s : State) (a : Aud) : State :=
  let s1 := s.enterEnded a
  if (s1.store a).purge.isSome then s1.onStore a (fun st => { st with saturationOwed := true })
  else s1.startPurge a .saturation

/-- What a change of P brings about: release ends items by position; a saturated position ends the show; else release makes
items due (R104, R37; log entry 12). -/
def State.positionChanged (s : State) (a : Aud) : State :=
  let s1 := s.endByPosition a
  if s1.saturated a then s1.saturatePosition a else s1.release a none

end Sys2Proof.Machine
end

