-- ==== Sys2Proof/Machine/SessionMoves.lean ====
section
/-! DEFINITION. The session's moves (chapter 2): entering RUNNING and PAUSED, marks, END, arming and disarming. -/

namespace Sys2Proof.Machine

/-- Entry into RUNNING from ARMED or PAUSED: the reference instant, the window closed, a running pause captured, and a stale
resume handed on with P where the stale mark is set (R15, R19, R20, R40). -/
def State.enterRunning (s : State) (a : Aud) : State :=
  let stale := (s.showRun a).staleMark
  let s1 := s.onRun a (fun r => { r with window := .closed, pauseHold := s.captureHold a, pauseStart := none,
                                         staleMark := false })
  let s2 := s1.onClock a (fun c => { c with ref := s.now })
  let s3 := s2.onSession a (fun x => { x with state := .running })
  if stale then s3.handStale a (s3.position a) else s3

/-- RUNNING or COASTING to PAUSED: the window closed, sub frozen, the pause count started (R16, R18). -/
def State.enterPaused (s : State) (a : Aud) : State :=
  (s.onRun a (fun r => { r with window := .closed, subFrozen := true, pauseStart := some s.now, staleMark := false })).onSession a
    (fun x => { x with state := .paused })

/-- A change of RUN or of the gate to "both true" or to "not both" (R27). -/
def State.runOrGate (s : State) (a : Aud) : State :=
  let both := s.runHigh a && (s.session a).gate
  match (s.session a).state with
  | .paused => if both then (s.enterRunning a).settleFills else s
  | .running | .coasting => if both then s else s.enterPaused a
  | .dark | .armed | .ended => s

/-! ### Marks (R29 to R31) -/

/-- The first mark: B becomes M, sub stays 0 and frozen, and the auditorium enters RUNNING or PAUSED (R29). -/
def State.firstMark (s : State) (a : Aud) (m : Nat) : State :=
  let s1 := s.onClock a (·.place m)
  let s2 := if s.runHigh a && (s.session a).gate then s1.enterRunning a
    else s1.onSession a (fun x => { x with state := .paused })
  (s2.positionChanged a).settleFills

/-- B after a correction to M: M (R30), or, in RUNNING and COASTING, M + tpf, saturating, where a strobe that advanced B has been taken at
this very base count, so that B ends as it does when the mark is taken first (R34). DESIGN CHOICE (log entry 35): for that case R30 says M and
R34 says M + tpf; R34, the rule for it, is followed, for err = 0 too. In PAUSED, of which R34 does not speak where the strobe was taken
before the pause, R30 is followed. -/
def State.correctedBase (s : State) (a : Aud) (m : Nat) : Nat :=
  if (s.session a).state.isRunning = true ∧ (s.showRun a).strobedAt = some s.now then min (m + (s.clock a).tpf) Config.maxPosition else m

/-- A correction (R30, R34): B and sub, the slip counter where err is not 0, and nothing at all where err is 0 and B stands. -/
def State.correction (s : State) (a : Aud) (m : Nat) : State :=
  let old := (s.clock a).base
  let new := s.correctedBase a m
  if m = old ∧ new = old then s
  else
    let s1 := s.onClock a (·.place new)
    let s2 := if m = old then s1 else s1.onCounters a (fun c => { c with slip := bump c.slip })
    ((s2.settleSub a).positionChanged a).settleFills

/-- A jump (R31, R32, R37, R120): the counter, JUMP-SEEN and attention JUMP; then the purge begins with its target, release
ends what the new position ends, and the walk starts. A saturated position has its saturation purge in place of the
jump purge. -/
def State.jump (s : State) (a : Aud) (m : Nat) : State :=
  let old := (s.clock a).base
  let s1 := (s.onClock a (·.place m)).onCounters a (fun c => { c with jump := bump c.jump })
  let s2 := ((s1.settleSub a).placeReply a (.jumpSeen old m)).raiseAud a kindJump
  if s2.saturated a then (s2.positionChanged a).settleFills
  else
    let s3 := s2.beginPurge a (if old < m then .forward m else .backward m)
    (State.runPurge a purgeFuel (s3.endByPosition a)).settleFills

/-- A MARK of correct length handed to the session (R29). -/
def State.takeMark (s : State) (a : Aud) (m : Nat) : State :=
  match (s.session a).state with
  | .dark => s.refuse a markCode 0 .notArmed
  | .ended => s.refuse a markCode 0 .ending
  | .armed => if Config.maxPosition < m then s.refuse a markCode 0 .badMark else s.firstMark a m
  | .paused | .running | .coasting =>
    if Config.maxPosition < m then s.refuse a markCode 0 .badMark
    else
      let b := (s.clock a).base
      if (m - b) + (b - m) ≤ 2 * (s.clock a).tpf then s.correction a m
      else s.jump a m

/-! ### END (R35) -/

def State.takeEnd (s : State) (a : Aud) : State :=
  match (s.session a).state with
  | .dark => s.refuse a endCode 0 .notArmed
  | .ended => s.refuse a endCode 0 .ending
  | _ => ((s.onSession a (fun x => { x with ending := true })).endTest a).settleFills

/-! ### ARM and DISARM -/

/-- What an accepted ARM does (R21, R26). DESIGN CHOICE (log entry 44): its flow-control evaluation may raise STORE-PRESSURE. -/
def State.armSession (s : State) (a : Aud) (r : Rate) : State :=
  let s1 := s.onClock a (fun c =>
    { c with rate := some r, period := r.nominal, lastHold := 0, base := 0, sub := 0 })
  let s2 := s1.onRun a (fun _ => { window := .closed, subFrozen := true, pauseStart := none, pauseHold := 0, staleMark := false })
  (s2.onSession a (fun x => { x with state := .armed, ending := false })).flow a

/-- A frame is of the auditorium's streams. -/
def Frame.isOf (f : Frame) (a : Aud) : Bool :=
  match f with
  | .item i => audOfStream i.stream == a
  | _ => false

/-- A READY or FILLING frame of the auditorium (R134). -/
def Buffer.tornDown (x : Buffer) (a : Aud) : Bool :=
  match x with
  | .filling f _ | .ready f => f.isOf a
  | .empty | .sending _ => false

/-- The teardown takes the auditorium's READY and FILLING frames out of a port's ring, each counted as discarded (R101, R134). -/
def State.tearRing (a : Aud) (s : State) (p : Port) : State :=
  let gone := bufNos.filter (fun b => (pick (s.link p).buffers b).tornDown a)
  (s.onLink p (fun l => gone.foldl LinkPort.emptyOut l)).onLinkCounters p
    (fun c => { c with discarded := bumpBy gone.length c.discarded })

/-- What DISARM does at the instant it is taken, before its teardown (R22, R41). -/
def State.clearSession (s : State) (a : Aud) : State :=
  let s1 := s.onClock a (fun c => { c with rate := none, period := 0, lastHold := 0, base := 0, sub := 0 })
  let s2 := s1.onRun a (fun _ => { window := .closed, subFrozen := true, pauseStart := none, pauseHold := 0, staleMark := false })
  let s3 := s2.onSession a (fun x => { x with state := .dark, ending := false })
  let s4 := slots.foldl (fun t k => t.onStream (streamOf a k) (fun st => { st with clearOwed := [] })) s3
  s4.onStore a (fun st => { st with saturationOwed := false, staleWaiting := none })

/-- An accepted DISARM: the session cleared, the rings torn down, and the teardown purge begun (R41, R101). DESIGN CHOICE (log entry 45): a
fill that a freed buffer lets begin can end another auditorium's show and raise ENDED there, though R169 says that the command leaves the
attention records. DESIGN CHOICE (log entry 47): the flow control of the change into DARK is evaluated before REFUSE BROKEN-CUE is placed. -/
def State.disarmSession (s : State) (a : Aud) : State :=
  ((ports.foldl (State.tearRing a) ((s.clearSession a).flow a)).startPurge a .teardown).settleFills

end Sys2Proof.Machine
end

