-- ==== Sys2Proof/Machine/IntakeOps.lean ====
section
/-! DEFINITION. The intake (chapter 4): pairing, the HEAD checks, bodies, sorted insertion, WITHDRAW and QUERY, and the intake
pauses (R53). -/

namespace Sys2Proof.Machine

/-- An insertion or a purge of the auditorium is in progress (R53). -/
def State.storeWalks (s : State) (a : Aud) : Bool :=
  (match (s.intake a).context with | .inserting _ _ => true | _ => false) || (s.store a).purge.isSome

/-- An intake pause is in progress: an insertion, a purge, or a request in the freeing unit (R53, R91). -/
def State.paused (s : State) (a : Aud) : Bool := s.storeWalks a || !(s.store a).freeing.isEmpty

/-- The rest of a record's taking waits: the request that the intake placed in its course has not been served (R91), or an insertion or a
purge makes the intake wait (R32, R53). -/
def State.takingWaits (s : State) (a : Aud) : Bool := s.storeWalks a || (s.store a).freeing.any (fun r => r.tag == .intake)

def State.setContext (s : State) (a : Aud) (x : Context) : State := s.onIntake a (fun i => { i with context := x })

/-! ### HEAD (R67 to R72) -/

/-- A HEAD's fields (10.2). -/
structure HeadFields where
  slot : Byte
  kind : Byte
  seq : Seq
  start : Nat
  length : Nat
  bodyCount : Nat
  deriving DecidableEq, Repr

/-- The eleven field characters of a HEAD; none for another length (R63). -/
def headFields : List Byte → Option HeadFields
  | [k, ck, s1, s0, t3, t2, t1, t0, d1, d0, n] =>
    some { slot := k, kind := ck, seq := BitVec.ofNat 16 (number [s1, s0]), start := number [t3, t2, t1, t0],
           length := number [d1, d0], bodyCount := n.toNat }
  | _ => none

/-- R68's table. -/
def HeadFields.inRange (h : HeadFields) (k : CueKind) : Bool :=
  decide (h.start ≤ Config.maxPosition)
    && (match k with
        | .caption => decide (1 ≤ h.bodyCount) && decide (h.bodyCount ≤ 4) && decide (1 ≤ h.length)
        | .narration => decide (h.bodyCount = h.length) && decide (1 ≤ h.length) && decide (h.length ≤ 250))

/-- D clamped in two steps for a caption; n as it stands for a narration cue (R68). -/
def HeadFields.clamped (h : HeadFields) (k : CueKind) : Nat :=
  match k with
  | .caption => min (min h.length 36000) (Config.maxPosition + 1 - h.start)
  | .narration => h.length

/-- The cue record an accepted HEAD lays down (R71). -/
def HeadFields.cue (h : HeadFields) (n : StreamNo) (k : CueKind) : Cue :=
  { stream := n, seq := h.seq, kind := k, start := h.start, length := h.clamped k, bodyCount := h.bodyCount }

/-- Two spans overlap when each starts before the other ends (R69). -/
def Cue.overlaps (c d : Cue) : Bool := decide (c.start < d.finish) && decide (d.start < c.finish)

/-- Checks 1 to 9 of a HEAD, in order: the first that fails, or the cue it opens (R67 to R70). -/
def State.checkHead (s : State) (a : Aud) (h : HeadFields) : Except Reason Cue :=
  let x := s.session a
  if x.state == .dark then .error .notArmed
  else if x.ending || x.state == .ended then .error .ending
  else match slotOf h.slot with
  | none => .error .streamClosed
  | some k =>
    let st := s.stream (streamOf a k)
    if !st.isOpen then .error .streamClosed
    else if !(kindOf h.kind == some st.kind) then .error .kindMismatch
    else if !h.inRange st.kind then .error .badField
    else
      let c := h.cue (streamOf a k) st.kind
      if (Machine.findCue h.seq st.queue).isSome then .error .duplicate
      else if st.kind == .narration && st.queue.any (fun d => d.kind == .narration && c.overlaps d) then .error .overlap
      else if x.state.isReleasing && decide (c.finish ≤ s.position a) then .error .tooLate
      else if decide ((s.store a).quota < (s.store a).used + 1 + h.bodyCount) then .error .storeFull
      else .ok c

/-- A skipping context with a count; a count of 0 is IDLE (R66, R72). -/
def skipContext : Nat → Context
  | 0 => .idle
  | n + 1 => .skipping (some (n + 1))

/-- A HEAD of either length taken with the context IDLE (R63, R67, R71, R72). -/
def State.takeHead (s : State) (a : Aud) (fields : List Byte) : State :=
  match headFields fields with
  | none => (s.refuse a headCode 0 .badField).setContext a (.skipping none)
  | some h =>
    match s.checkHead a h with
    | .error r => (s.refuse a headCode h.seq r).setContext a (skipContext h.bodyCount)
    | .ok c => (s.allocate a).setContext a (.opened c h.bodyCount)

/-! ### Bodies (R66, R73, R74) -/

/-- The payload range of a body (R73). -/
def bodyInRange (k : CueKind) (size : Nat) : Bool :=
  match k with
  | .caption => decide (1 ≤ size) && decide (size ≤ 60)
  | .narration => decide (8 ≤ size) && decide (size ≤ 60)

/-- The sorted insertion begins: the walk starts at the tail; an empty queue has its placing step only (R75). -/
def State.beginInsertion (s : State) (a : Aud) (c : Cue) : State :=
  let w : Walk := match (seqs (s.stream c.stream).queue).reverse with
    | [] => { todo := [], current := none, stepStart := s.now }
    | x :: rest => { todo := rest, current := some x, stepStart := s.now }
  s.setContext a (.inserting c w)

/-- A BODY taken with a cue open (R73, R74). -/
def State.takeOpenBody (s : State) (a : Aud) (c : Cue) (owed : Nat) (payload : List Byte) : State :=
  if bodyInRange c.kind payload.length then
    let c1 := { c with bodies := c.bodies ++ [some payload] }
    let s1 := s.allocate a
    if owed ≤ 1 then s1.beginInsertion a c1 else s1.setContext a (.opened c1 (owed - 1))
  else
    ((s.requestFree a c.cells .intake).refuse a bodyCode c.seq .bodySize).onIntake a (fun i =>
      { context := .idle, deferred := .skip (owed - 1) :: i.deferred })

/-- A BODY in each context (R64). -/
def State.takeBody (s : State) (a : Aud) (payload : List Byte) : State :=
  match (s.intake a).context with
  | .idle => s.refuse a bodyCode 0 .orphanBody
  | .opened c owed => s.takeOpenBody a c owed payload
  | .skipping (some n) => s.setContext a (skipContext (n - 1))
  | .skipping none => s
  | .inserting _ _ => s

/-! ### WITHDRAW, END, QUERY (R79, R80) -/

/-- A WITHDRAW (R63, R79). -/
def State.takeWithdraw (s : State) (a : Aud) (fields : List Byte) : State :=
  match fields with
  | [k, t3, t2, t1, t0] =>
    let x := (s.session a).state
    if x == .dark then s.refuse a withdrawCode 0 .notArmed
    else if x == .ended then s.refuse a withdrawCode 0 .ending
    else match slotOf k with
    | none => s.refuse a withdrawCode 0 .streamClosed
    | some slot =>
      if !(s.stream (streamOf a slot)).isOpen then s.refuse a withdrawCode 0 .streamClosed
      else if Config.maxPosition < number [t3, t2, t1, t0] then s.refuse a withdrawCode 0 .badField
      else (s.startPurge a (.withdraw slot (number [t3, t2, t1, t0]))).settleFills
  | _ => s.refuse a withdrawCode 0 .badField

/-- An END (R63, R80). -/
def State.takeEndRecord (s : State) (a : Aud) (fields : List Byte) : State :=
  if fields.isEmpty then s.takeEnd a else s.refuse a endCode 0 .badField

/-- The STATUS reply (R80). -/
def State.statusReply (s : State) (a : Aud) : Reply :=
  .status (s.session a).state (s.position a) (s.store a).used (s.store a).quota (s.session a).ending

/-- A QUERY (R63, R80). -/
def State.takeQuery (s : State) (a : Aud) (fields : List Byte) : State :=
  if fields.isEmpty then s.placeReply a (s.statusReply a) else s.refuse a queryCode 0 .badField

/-- A MARK (R63, R78). -/
def State.takeMarkRecord (s : State) (a : Aud) (fields : List Byte) : State :=
  match fields with
  | [m3, m2, m1, m0] => s.takeMark a (number [m3, m2, m1, m0])
  | _ => s.refuse a markCode 0 .badField

/-! ### Pairing (R64, R65) -/

/-- A damaged or truncated record, discarded with its refusal (R51, R52). -/
def State.discardDamaged (s : State) (a : Aud) (kind : Option Byte) : State :=
  (s.refuse a (kind.getD 0) 0 .lineError).lineFault a

def State.discardTruncated (s : State) (a : Aud) (kind : Option Byte) : State := s.refuse a (kind.getD 0) 0 .truncated

/-- A record other than BODY and MARK, with no cue open and no context to close, taken by the rules for its kind (R63, R64). -/
def State.takeOther (s : State) (a : Aud) (r : Record) : State :=
  match r with
  | .framed kind fields =>
    if kind = headCode then s.takeHead a fields
    else if kind = withdrawCode then s.takeWithdraw a fields
    else if kind = endCode then s.takeEndRecord a fields
    else if kind = queryCode then s.takeQuery a fields
    else s.refuse a kind 0 .unknownKind
  | .damaged kind => s.discardDamaged a kind
  | .truncated kind => s.discardTruncated a kind

/-- The open cue is broken: its cells go to the freeing unit and REFUSE BROKEN-CUE is placed; the breaking record waits for
the cells (R65, R91). -/
def State.breakCue (s : State) (a : Aud) (c : Cue) (r : Record) : State :=
  ((s.requestFree a c.cells .intake).refuse a headCode c.seq .brokenCue).onIntake a (fun i =>
    { context := .idle, deferred := .record r :: i.deferred })

/-- A record handed to the intake, paired with the assembly context (R64). -/
def State.pairRecord (s : State) (a : Aud) (r : Record) : State :=
  match r with
  | .framed kind fields =>
    if kind = markCode then s.takeMarkRecord a fields
    else if kind = bodyCode then s.takeBody a fields
    else match (s.intake a).context with
    | .opened c _ => s.breakCue a c r
    | .skipping _ => (s.setContext a .idle).takeOther a r
    | .idle | .inserting _ _ => s.takeOther a r
  | .damaged _ | .truncated _ =>
    match (s.intake a).context with
    | .opened c _ => s.breakCue a c r
    | .skipping _ => (s.setContext a .idle).takeOther a r
    | .idle | .inserting _ _ => s.takeOther a r

/-- A record handed to the intake (R53): behind what waits already, else taken at once. DESIGN CHOICE (log entry 43): a record that a gap
from the timer truncates while the rest of an earlier record's taking waits joins behind it, its REFUSE with it. -/
def State.handRecord (s : State) (a : Aud) (r : Record) : State :=
  if (s.intake a).deferred.isEmpty then s.pairRecord a r
  else s.onIntake a (fun i => { i with deferred := i.deferred ++ [.record r] })

/-- The rest of a record's taking (R91): the breaking record, or the skipping context of a BODY-SIZE. -/
def State.takeDeferred (s : State) (a : Aud) (d : Deferred) : State :=
  match d with
  | .record r => s.pairRecord a r
  | .skip n => s.setContext a (skipContext n)

/-- What waits is taken, in order, once the intake's own request has been served, whatever requests stand behind it (R91; log entry 8). -/
def State.runDeferred (a : Aud) : Nat → State → State
  | 0, s => s
  | fuel + 1, s =>
    match (s.intake a).deferred with
    | [] => s
    | d :: rest =>
      if s.takingWaits a then s
      else State.runDeferred a fuel ((s.onIntake a (fun i => { i with deferred := rest })).takeDeferred a d)

/-- Everything that waits now. -/
def State.resumeDeferred (s : State) (a : Aud) : State := State.runDeferred a (s.intake a).deferred.length s

/-! ### The placing (R75, R76) -/

/-- The queue with the new cue directly behind the last cue that starts at or before it: where the walk from the tail stops,
or at the head (R75). -/
def placeCue (c : Cue) : List Cue → List Cue
  | [] => [c]
  | d :: rest => if rest.any (fun e => decide (e.start ≤ c.start)) || decide (d.start ≤ c.start)
      then d :: placeCue c rest else c :: d :: rest

/-- The insertion's placing step has ended. -/
def Walk.placed (w : Walk) (now : Nat) : Bool := w.current.isNone && decide (w.stepStart + Config.walkStep ≤ now)

/-- The insertion of the auditorium, its walk brought up to now, if its placing is due (R75). -/
def State.placingDue (s : State) (a : Aud) : Option Cue :=
  match (s.intake a).context with
  | .inserting c w =>
    if (Walk.catchUp s.now c.start (s.stream c.stream).queue (w.todo.length + 1) w).placed s.now then some c else none
  | _ => none

/-- The placing: the cue joins its queue as QUEUED, the accepted counter increments, the context becomes IDLE; a waiting
CLOSE-STREAM begins its purge, else release looks (R75, R76, R104). DESIGN CHOICE: release does not look before a purge that begins here
(log entry 38), and the cue joins its queue even where its stream has been closed meanwhile (log entry 40). -/
def State.placeInserted (s : State) (a : Aud) (c : Cue) : State :=
  let s1 := s.onStream c.stream (fun st => { st with queue := placeCue { c with life := .queued } st.queue })
  let s2 := (s1.onCounters a (fun k => { k with accepted := bump k.accepted })).setContext a .idle
  match (s2.store a).closeWaiting with
  | some k => (s2.onStore a (fun st => { st with closeWaiting := none })).startPurge a (.close k)
  | none => s2.release a none

end Sys2Proof.Machine
end

