-- ==== Sys2Proof/Machine/Assembler.lean ====
section
/-! DEFINITION. The line side of a cue port: what the line receiver makes of its samples (R46), the receive queue and its
overrun (R47, R48), the gap timer (R49) and the record assembler (R50 to R53). -/

namespace Sys2Proof.Machine

/-! ### The line receiver's outcome (R44, R46) -/

/-- How many of the eight data bits are ones. -/
def onesOf (v : Byte) : Nat := ((List.range 8).filter v.getLsbD).length

/-- The parity sample is right: with even parity the ones among data and parity bit are even, with odd parity odd (R44). -/
def parityRight (p : Parity) (v : Byte) (parityBit : Bool) : Bool :=
  let ones := onesOf v + (if parityBit then 1 else 0)
  match p with
  | .none => true
  | .even => ones % 2 == 0
  | .odd => ones % 2 == 1

/-- Every sample from the start bit to the stop bit is low (R46). -/
def allLow (p : Parity) (v : Byte) (parityBit stopBit : Bool) : Bool :=
  v == 0 && !stopBit && (match p with | .none => true | .even | .odd => !parityBit)

/-- The entry that the samples make (R46's table). -/
def outcome (p : Parity) (v : Byte) (parityBit stopBit : Bool) : Entry :=
  if stopBit then { item := .char v, parityError := !parityRight p v parityBit }
  else if allLow p v parityBit stopBit then { item := .brk }
  else { item := .char v, framingError := true }

/-! ### The receive queue (R47, R48) -/

/-- The last entry of a queue changed. -/
def changeLast (f : Entry → Entry) : List Entry → List Entry
  | [] => []
  | [e] => [f e]
  | e :: rest => e :: changeLast f rest

/-- A completion: appended at the tail, or lost from a full queue with the overrun mark on the tail entry and LINE-FAULT. -/
def State.appendEntry (s : State) (a : Aud) (e : Entry) : State :=
  if (s.cuePort a).queue.length < 32 then
    (s.onPort a (fun p => { p with queue := p.queue ++ [e] })).flow a
  else
    (s.onPort a (fun p => { p with queue := changeLast (fun x => { x with overrun := true }) p.queue })).raiseAud a kindLineFault

/-! ### The gap timer (R49) -/

/-- Four character times at the settings in force on the receive line. -/
def CuePort.gapLength (p : CuePort) : Nat := 4 * charTime p.lineDivisor p.lineParity

def State.startGapTimer (s : State) (a : Aud) : State :=
  s.onPort a (fun p => { p with gapTimer := some { start := s.now, length := p.gapLength } })

def State.stopGapTimer (s : State) (a : Aud) : State := s.onPort a (fun p => { p with gapTimer := none })

/-! ### The record assembler (R50 to R52) -/

def State.setFraming (s : State) (a : Aud) (f : Framing) (damaged : Bool) : State :=
  s.onPort a (fun p => { p with framing := f, damaged := damaged })

/-- The kind character of the record in progress, where one was taken without an error mark. -/
def Framing.kindOf : Framing → Option Byte
  | .length k true _ => some k
  | .fields k true _ _ => some k
  | _ => none

/-- The record in progress is abandoned: handed on as damaged or as truncated; `f` and `damaged` are the framing state after
it (R51, R52). -/
def State.abandon (s : State) (a : Aud) (f : Framing) (damaged : Bool) : State :=
  let p := s.cuePort a
  let r : Record := if p.damaged then .damaged p.framing.kindOf else .truncated p.framing.kindOf
  (s.setFraming a f damaged).handRecord a r

/-- A record ends at its length: handed on whole, or as damaged (R50, R52). -/
def State.completeRecord (s : State) (a : Aud) (kind : Byte) (kindOk damaged : Bool) (fields : List Byte) : State :=
  (s.setFraming a .between false).handRecord a
    (if damaged then .damaged (if kindOk then some kind else none) else .framed kind fields)

/-- An entry taken with an error mark (R52). -/
def Entry.isError (e : Entry) : Bool := e.parityError || e.framingError || e.overrun

/-- A break marker taken: a record in progress is abandoned, and a new one begins, damaged where the marker carries the overrun
mark (R50, R51, R52). -/
def State.takeBreak (s : State) (a : Aud) (overrun : Bool) : State :=
  match (s.cuePort a).framing with
  | .between => s.setFraming a .kind overrun
  | _ => s.abandon a .kind overrun

/-- A character taken (R50, R52). -/
def State.takeChar (s : State) (a : Aud) (v : Byte) (error : Bool) : State :=
  let p := s.cuePort a
  let bad := p.damaged || error
  match p.framing with
  | .between => s.lineFault a
  | .kind => s.setFraming a (.length v (!error) false) bad
  | .length k ok lost =>
    if lost || error then s.setFraming a (.length k ok true) true
    else if v.toNat = 0 then s.completeRecord a k ok bad []
    else s.setFraming a (.fields k ok v.toNat []) bad
  | .fields k ok left taken =>
    if left ≤ 1 then s.completeRecord a k ok bad (taken ++ [v])
    else s.setFraming a (.fields k ok (left - 1) (taken ++ [v])) bad

/-- A gap acted on: a record in progress is abandoned (R51). -/
def State.actOnGap (s : State) (a : Aud) : State :=
  match (s.cuePort a).framing with
  | .between => s
  | _ => s.abandon a .between false

/-- The assembler takes an entry that has left the queue, then acts on its gap mark (R50). -/
def State.takeEntry (s : State) (a : Aud) (e : Entry) : State :=
  let s1 := match e.item with
    | .brk => s.takeBreak a e.overrun
    | .char v => s.takeChar a v e.isError
  if e.gap then s1.actOnGap a else s1

/-- Entries are taken from the head, one after another, until the queue is empty or a pause begins (R50, R53); each take
changes the queue count, on which flow control is evaluated (R54). DESIGN CHOICE (log entry 47): it is evaluated before the assembler does what
the entry brings about, so that on an idle line a RESUME begins before the reply of the record the entry completes. -/
def State.drainFuel (a : Aud) : Nat → State → State
  | 0, s => s
  | fuel + 1, s =>
    if s.paused a then s
    else match (s.cuePort a).queue with
    | [] => s
    | e :: rest =>
      State.drainFuel a fuel (((s.onPort a (fun p => { p with queue := rest })).flow a).takeEntry a e)

def State.drain (s : State) (a : Aud) : State := State.drainFuel a (s.cuePort a).queue.length s

/-- A completion on the line and what the assembler makes of it at that instant. -/
def State.receive (s : State) (a : Aud) (e : Entry) : State := (s.appendEntry a e).drain a

/-! ### A whole record from the line -/

/-- The line side is at rest: no record in progress, nothing queued, no pause, nothing waiting. -/
def State.atRest (s : State) (a : Aud) : Bool :=
  (s.cuePort a).framing == .between && (s.cuePort a).queue.isEmpty && !s.paused a && (s.intake a).deferred.isEmpty

/-- The entries of a record: a break, the kind character, the length character and the fields (10.2). -/
def recordEntries (kind : Byte) (fields : List Byte) : List Entry :=
  { item := .brk } :: (kind :: BitVec.ofNat 8 fields.length :: fields).map (fun v => { item := .char v })

/-- A whole record from the playback server: handed to the intake where the line side is at rest, else received entry by
entry, so that it waits in the receive queue as its characters would (log entry 7). -/
def State.recordArrives (s : State) (a : Aud) (kind : Byte) (fields : List Byte) : State :=
  if s.atRest a then s.handRecord a (.framed kind fields)
  else (recordEntries kind fields).foldl (fun t e => t.receive a e) s

/-- The entries of a shortest damaged record (R52, 10.2): with a kind character of the given value taken without error and a field in
parity error, or with a kind character in parity error and no field. -/
def damagedEntries : Option Byte → List Entry
  | some kind => [{ item := .brk }, { item := .char kind }, { item := .char 1 }, { item := .char 0, parityError := true }]
  | none => [{ item := .brk }, { item := .char 0, parityError := true }, { item := .char 0 }]

/-- A damaged record from the playback server: discarded at once where the line side is at rest, else received entry by entry, as
other records are (R52; log entries 7 and 33). -/
def State.damagedArrives (s : State) (a : Aud) (kind : Option Byte) : State :=
  if s.atRest a then s.handRecord a (.damaged kind)
  else (damagedEntries kind).foldl (fun t e => t.receive a e) s

end Sys2Proof.Machine
end

