-- ==== Sys2Proof/Machine/ReceiverOps.lean ====
section
/-! DEFINITION. The receiver table's operations (chapter 8): matching a report entry, health, LOST and the lost list, report
age. -/

namespace Sys2Proof.Machine

def rxIndexes : List RxIndex := List.finRange 1024

/-- The entry, not FREE, that holds an id; no entry holds id 0 (R151). -/
def State.findReceiver (s : State) (id : BitVec 32) : Option RxIndex :=
  if id = 0 then none else rxIndexes.find? (fun i => !((s.rx i).state == .free) && (s.rx i).id == id)

/-- The degraded-subscriber counts of the receiver's streams changed together (R87, R157). -/
def State.onDegraded (s : State) (r : Receiver) (f : Nat → Nat) : State :=
  (slots.filter (fun k => r.slots.getLsbD k.val)).foldl
    (fun t k => t.onStream (streamOf r.auditorium k) (fun st => { st with degraded := f st.degraded })) s

/-- An index offered to the lost list (R158). -/
def State.offerLost (s : State) (i : RxIndex) : State :=
  if s.table.lost.contains i then s
  else if s.table.lost.length < 16 then
    let s1 := s.onTable (fun t => { t with lost := t.lost ++ [i] })
    if s.table.lost.isEmpty then s1.raiseTable kindLost else s1
  else (s.onTable (fun t => { t with overflow := true })).raiseTable kindLostOverflow

/-- Entry into LOST: out of the degraded counts, health frozen, clean run 0, the index offered (R153). -/
def State.loseReceiver (s : State) (i : RxIndex) : State :=
  let r := s.rx i
  let s1 := if r.state == .degraded then s.onDegraded r (· - 1) else s
  (s1.onRx i (fun x => { x with state := .lost, cleanRun := 0 })).offerLost i

/-- The state a GOOD or DEGRADED receiver takes with a new health (R152); 255 is LOST for a DEGRADED receiver. -/
def State.applyHealth (s : State) (i : RxIndex) (health : Nat) : State :=
  let r := s.rx i
  let s1 := s.onRx i (fun x => { x with health := health })
  if r.state == .degraded && health == 255 then s1.loseReceiver i
  else if r.state == .degraded && decide (health ≤ 127) then
    (s1.onRx i (fun x => { x with state := .good })).onDegraded r (· - 1)
  else if r.state == .good && decide (128 ≤ health) then
    (s1.onRx i (fun x => { x with state := .degraded })).onDegraded r (· + 1)
  else s1

/-- A matched missed count applied (R151, R152, R156). -/
def State.applyReport (s : State) (i : RxIndex) (missed : Nat) : State :=
  let s1 := s.onRx i (fun x => { x with age := 0 })
  let r := s1.rx i
  match r.state with
  | .free => s1
  | .good | .degraded =>
    if missed = 0 then s1.applyHealth i (r.health - 1) else s1.applyHealth i (min (r.health + 8) 255)
  | .lost =>
    if missed = 0 then
      if 16 ≤ r.cleanRun + 1 then s1.onRx i (fun x => { x with state := .good, health := 0, cleanRun := 0 })
      else s1.onRx i (fun x => { x with cleanRun := x.cleanRun + 1 })
    else s1.onRx i (fun x => { x with cleanRun := 0 })

/-- The entry names the receiver's auditorium and one of its slots (R151). -/
def Receiver.matchesEntry (r : Receiver) (e : ReportEntry) : Bool :=
  decide (e.auditorium.toNat = r.auditorium.val)
    && (match slotOf e.slot with | some k => r.slots.getLsbD k.val | none => false)

/-- One reception report entry: unknown, mismatched or matched (R151). -/
def State.reportEntry (s : State) (e : ReportEntry) : State :=
  match s.findReceiver e.receiver with
  | none => s.onTable (fun t => { t with unknown := bump t.unknown })
  | some i =>
    if (s.rx i).matchesEntry e then s.applyReport i e.missed.toNat
    else s.onTable (fun t => { t with mismatch := bump t.mismatch })

/-! ### Report age and silence (R154, R155) -/

/-- The receiver's age advances at this second: in use, and its auditorium RUNNING or COASTING. -/
def State.ages (s : State) (i : RxIndex) : Bool :=
  !((s.rx i).state == .free) && (s.session (s.rx i).auditorium).state.isRunning

/-- A report age one second on, saturating at 255. -/
def Receiver.older (r : Receiver) : Receiver := { r with age := saturate 255 r.age }

/-- Every receiver whose age advances, one second older. -/
def State.ageAll (s : State) : State :=
  { s with receivers := Vector.ofFn (fun i => if s.ages i then (s.rx i).older else s.rx i) }

/-- The receivers the silence test makes LOST, of those whose age advanced in `s` (R155). -/
def State.silenced (s : State) : List RxIndex :=
  if s.table.silenceLimit = 0 then []
  else rxIndexes.filter (fun i => s.ages i && ((s.rx i).state == .good || (s.rx i).state == .degraded)
      && decide (s.table.silenceLimit ≤ (s.rx i).older.age))

/-- The second timer's expiry (R154, R155). Several receivers silenced at one second go LOST in a free order (log entry 3). -/
def State.secondPasses (s : State) : State :=
  let gone := s.silenced
  let s1 := (s.onTable (fun t => { t with secondStart := s.now })).ageAll
  (anyOrder s.draws gone).foldl State.loseReceiver (s1.onDraws (· + drawsOf gone))

end Sys2Proof.Machine
end

