-- ==== Sys2Proof/Machine/ClockCommands.lean ====
section
/-! DEFINITION. The show clock's and the session's events: STROBE, SUB_STEP, STROBE_LOSS, SYNTHETIC_STROBE, STALE_EVENT and
RUN_CHANGE. A command that names an instant changes nothing where the instant has not come (log entry 2). -/

namespace Sys2Proof.Machine

/-! ### STROBE -/

/-- A completed window: H is captured, and the estimate is accepted or rejected (R6, R7). -/
def State.completeWindow (s : State) (a : Aud) (hold : Nat) : State :=
  let e := estimate hold (s.clock a).windowSize
  let s1 := s.onClock a (fun c => { c with lastHold := hold })
  match (s.clock a).rate with
  | none => s1
  | some r =>
    if acceptable e r.nominal then s1.onClock a (fun c => { c with period := e })
    else (s1.onCounters a (fun k => { k with rateFault := bump k.rateFault })).raiseAud a kindRateFault

/-- The measurement window at a real strobe of RUNNING (R6). -/
def State.countStrobe (s : State) (a : Aud) : State :=
  match (s.showRun a).window with
  | .closed => s.onRun a (fun r => { r with window := .opened 0 s.now })
  | .opened k start =>
    if (s.clock a).windowSize ≤ k + 1 then
      (s.completeWindow a (s.since start)).onRun a (fun r => { r with window := .opened 0 s.now })
    else s.onRun a (fun r => { r with window := .opened (k + 1) start })

/-- A normal strobe taken in RUNNING (R4, R6, R8). -/
def State.strobeRunning (s : State) (a : Aud) : State :=
  let s1 := s.countStrobe a
  let s2 := s1.onClock a (fun c => { c.advance with ref := s.now })
  ((s2.onRun a (fun r => { r with subFrozen := false, strobedAt := some s.now })).positionChanged a).settleFills

/-- A real strobe taken in COASTING: a normal strobe, or the late edge of a frame supplied already; RUNNING again, with a new
window; the strobe of a frozen sub clears the flag (R10, R14). -/
def State.strobeCoasting (s : State) (a : Aud) : State :=
  let s1 := if s.elapsed a < (s.clock a).halfPeriod then s.onClock a (fun c => { c with ref := s.now })
    else (s.onClock a (fun c => { c.advance with ref := s.now })).onRun a (fun r => { r with strobedAt := some s.now })
  let s2 := (s1.onRun a (fun r => { r with window := .opened 0 s.now, subFrozen := false })).onSession a (fun x => { x with state := .running })
  (s2.positionChanged a).settleFills

/-- STROBE (R5). -/
def execStrobe (a : Aud) (s : State) : Host.Outcome State Fault Refusal :=
  match (s.session a).state with
  | .dark | .armed | .paused | .ended => .next (s.onClock a (fun c => { c with ref := s.now }))
  | .running => .next (s.strobeRunning a)
  | .coasting => .next (s.strobeCoasting a)

/-! ### SUB_STEP -/

/-- e has reached the next sub-frame threshold (R9). -/
def State.subStepDue (s : State) (a : Aud) : Bool :=
  s.subMoves a && decide ((s.clock a).sub < (s.clock a).subTarget (s.elapsed a))

/-- SUB_STEP (R9, R11). -/
def execSubStep (a : Aud) (s : State) : Host.Outcome State Fault Refusal :=
  if s.subStepDue a then .next (((s.settleSub a).positionChanged a).settleFills) else .next s

/-! ### STROBE_LOSS and SYNTHETIC_STROBE -/

/-- e has reached the loss threshold in RUNNING (R12). -/
def State.lossDue (s : State) (a : Aud) : Bool :=
  (s.session a).state == .running && decide (0 < (s.clock a).period)
    && decide ((s.clock a).lossThreshold ≤ s.elapsed a)

/-- A synthetic strobe: the reference instant moves forward by the period in use, B advances, sub starts afresh and is placed
from the new e (R4, R12, R13). -/
def State.synthetic (s : State) (a : Aud) : State :=
  let s1 := s.onClock a (fun c => { c.advance with ref := c.ref + c.period })
  (s1.onRun a (fun r => { r with subFrozen := false, strobedAt := some s.now })).settleSub a

/-- STROBE_LOSS (R12). -/
def execStrobeLoss (a : Aud) (s : State) : Host.Outcome State Fault Refusal :=
  if s.lossDue a then
    let s1 := (s.onSession a (fun x => { x with state := .coasting })).onRun a (fun r => { r with window := .closed })
    let s2 := (s1.onCounters a (fun k => { k with strobeLoss := bump k.strobeLoss })).raiseAud a kindStrobeLoss
    .next (((s2.synthetic a).positionChanged a).settleFills)
  else .next s

/-- e has reached the period in use in COASTING (R13). -/
def State.syntheticDue (s : State) (a : Aud) : Bool :=
  (s.session a).state == .coasting && decide (0 < (s.clock a).period) && decide ((s.clock a).period ≤ s.elapsed a)

/-- SYNTHETIC_STROBE (R13). -/
def execSyntheticStrobe (a : Aud) (s : State) : Host.Outcome State Fault Refusal :=
  if s.syntheticDue a then .next (((s.synthetic a).positionChanged a).settleFills) else .next s

/-! ### STALE_EVENT -/

/-- The pause count has reached the stale limit, for the first time in this pause (R20). -/
def State.staleDue (s : State) (a : Aud) : Bool :=
  (s.session a).state == .paused && !((s.clock a).staleLimit == 0) && !(s.showRun a).staleMark
    && (match s.pauseCount a with | some t => decide ((s.clock a).staleLimit ≤ t) | none => false)

/-- STALE_EVENT (R20). -/
def execStaleEvent (a : Aud) (s : State) : Host.Outcome State Fault Refusal :=
  if s.staleDue a then
    .next ((((s.onRun a (fun r => { r with staleMark := true })).raiseAud a kindStale).oweClears a).settleFills)
  else .next s

/-! ### RUN_CHANGE -/

/-- RUN_CHANGE (R24, R27): a level the input already has is no change. -/
def execRunChange (a : Aud) (high : Bool) (s : State) : Host.Outcome State Fault Refusal :=
  if s.runHigh a = high then .next s else .next ((s.setRunPin a high).runOrGate a)

end Sys2Proof.Machine
end

