-- ==== Sys2Proof/Machine/DeviceCommands.lean ====
section
/-! DEFINITION. DEVICE_RESET. -/

namespace Sys2Proof.Machine

/-- DEVICE_RESET (R3, R22, R24, R42, R60, R62, R82, R88, R91, R93, R103, R122, R128, R148, R162, R167, R169, R171): every
block in its stated reset state, time counted afresh from the end of reset. The inputs keep their levels, a receive line
that is low must first go high (R60), and the queue and the count of free choices are the model's own (log entry 20). -/
def execDeviceReset (s : State) : Host.Outcome State Fault Refusal :=
  .next { State.reset with
    draws := s.draws
    runPins := s.runPins
    rxPins := s.rxPins
    cuePorts := Vector.ofFn (fun a => { receiver := if s.rxHigh a then .idle else .waitHigh false })
    pending := s.pending }

end Sys2Proof.Machine
end

