-- ==== Sys2Proof/Machine/LineCommands.lean ====
section
/-! DEFINITION. The events of a cue port's two lines: CANDIDATE_START_BIT, CHARACTER, BREAK, LINE_RETURNS_HIGH, GAP,
ASSEMBLER_RESUMES and REPLY_SENT (chapter 3). -/

namespace Sys2Proof.Machine

/-- The port's settings come into force on the receive line at a start bit (R45). -/
def CuePort.latchLine (p : CuePort) : CuePort := { p with lineDivisor := p.divisor, lineParity := p.parity }

/-- A start bit that no CANDIDATE_START_BIT has announced is detected with the character itself (log entry 17). -/
def State.latchIfIdle (s : State) (a : Aud) : State :=
  if (s.cuePort a).receiver == .idle then s.onPort a CuePort.latchLine else s

/-- The stop-bit sample (R46): the outcome's entry is received; the gap timer restarts after a character and is stopped by a
break; after a break or a framing error the line must return high. -/
def State.completeOnLine (s : State) (a : Aud) (v : Byte) (parityBit stopBit : Bool) : State :=
  let s1 := s.latchIfIdle a
  let e := outcome (s1.cuePort a).lineParity v parityBit stopBit
  let s2 := s1.setRxPin a stopBit
  match e.item with
  | .brk => ((s2.stopGapTimer a).onPort a (fun p => { p with receiver := .waitHigh true })).receive a e
  | .char _ =>
    ((s2.startGapTimer a).onPort a (fun p =>
      { p with receiver := if e.framingError then .waitHigh false else .idle })).receive a e

/-- The receiver waits for the line to return high: nothing can complete (R46). -/
def State.waitsHigh (s : State) (a : Aud) : Bool :=
  match (s.cuePort a).receiver with
  | .waitHigh _ => true
  | _ => false

/-- CHARACTER (R44, R46 to R54). -/
def execCharacter (a : Aud) (v : Byte) (parityBit stopBit : Bool) (s : State) : Host.Outcome State Fault Refusal :=
  if s.waitsHigh a then .next s else .next (s.completeOnLine a v parityBit stopBit)

/-- BREAK (R46 to R54): every sample low. -/
def execLineBreak (a : Aud) (s : State) : Host.Outcome State Fault Refusal :=
  if s.waitsHigh a then .next s else .next (s.completeOnLine a 0 false false)

/-- LINE_RETURNS_HIGH (R46, R49): the gap timer starts where the line returns high after a break. -/
def execLineReturnsHigh (a : Aud) (s : State) : Host.Outcome State Fault Refusal :=
  let s1 := s.setRxPin a true
  match (s.cuePort a).receiver with
  | .waitHigh true => .next ((s1.onPort a (fun p => { p with receiver := .idle })).startGapTimer a)
  | .waitHigh false => .next (s1.onPort a (fun p => { p with receiver := .idle }))
  | .idle | .receiving => .next s1

/-- The gap timer has reached its length (R49). -/
def State.gapDue (s : State) (a : Aud) : Bool :=
  match (s.cuePort a).gapTimer with
  | some t => s.reached (t.start + t.length)
  | none => false

/-- GAP (R49): the gap mark on the tail entry, or the gap to the assembler at once; the timer stays stopped. -/
def execGap (a : Aud) (s : State) : Host.Outcome State Fault Refusal :=
  if s.gapDue a then
    let s1 := s.stopGapTimer a
    if (s.cuePort a).queue.isEmpty then .next (s1.actOnGap a)
    else .next (s1.onPort a (fun p => { p with queue := changeLast (fun e => { e with gap := true }) p.queue }))
  else .next s

/-- An entry waits with no pause in progress (R53), or the rest of a record's taking with its request served (R91). -/
def State.resumeDue (s : State) (a : Aud) : Bool :=
  (!s.paused a && !(s.cuePort a).queue.isEmpty) || (!s.takingWaits a && !(s.intake a).deferred.isEmpty)

/-- ASSEMBLER_RESUMES (R53). -/
def execAssemblerResumes (a : Aud) (s : State) : Host.Outcome State Fault Refusal :=
  if s.resumeDue a then .next ((s.resumeDeferred a).drain a) else .next s

/-- The transmission in progress has ended (R58). -/
def State.replyDue (s : State) (a : Aud) : Bool :=
  match (s.cuePort a).transmission with
  | some t => s.reached t.ends
  | none => false

/-- REPLY_SENT (R58): the transmitter begins the next waiting reply, the flow-control place first. -/
def execReplySent (a : Aud) (s : State) : Host.Outcome State Fault Refusal :=
  if s.replyDue a then .next ((s.onPort a (fun p => { p with transmission := none })).transmit a) else .next s

/-- CANDIDATE_START_BIT (R45, R46, R49): a start bit begins; the beginning of a break stops a running gap timer. A receiver that
still waits for the line to be high takes no start bit. -/
def execCandidateStartBit (a : Aud) (breakBegins : Bool) (s : State) : Host.Outcome State Fault Refusal :=
  if s.waitsHigh a then .next s
  else
    let s1 := (s.setRxPin a false).onPort a (fun p => { p.latchLine with receiver := .receiving })
    if breakBegins then .next (s1.stopGapTimer a) else .next s1

end Sys2Proof.Machine
end

