-- ==== Sys2Proof/Machine/LinkCommands.lean ====
section
/-! DEFINITION. A patron link port's transactions and timers (chapter 7). -/

namespace Sys2Proof.Machine

/-- The bytes of an answer on LNK_DOUT (R123, 10.5). -/
def State.answer (s : State) (p : Port) (bytes : List Byte) : State := s.onLink p (fun l => { l with answer := bytes })

/-- The answer to a PULL: FRAME with one air frame (10.5). -/
def State.answerFrame (s : State) (p : Port) (f : Frame) : State := s.answer p (answerData 6 f.bytes)

/-- A transaction answered MALFORMED (R123). -/
def State.answerMalformedTo (s : State) (p : Port) : State := (s.protocolError p).answer p answerMalformed

/-! ### FILL_ENDS (R133) -/

/-- The buffer whose fill has had its time. -/
def State.fillDue (s : State) (p : Port) : Option (BufNo × Frame) :=
  match (s.link p).fillingBuffer with
  | some b =>
    match pick (s.link p).buffers b with
    | .filling f ends => if s.reached ends then some (b, f) else none
    | _ => none
  | none => none

/-- FILL_ENDS (R131, R133, R134). -/
def execFillEnds (p : Port) (s : State) : Host.Outcome State Fault Refusal :=
  match s.fillDue p with
  | some (b, f) =>
    .next ((s.onLink p (fun l => { l.setBuffer b (.ready f) with readyQueue := l.readyQueue ++ [b] })).settleFills)
  | none => .next s

/-! ### PULL (R135, R136) -/

/-- Expired frames at the head of the READY queue are dropped and counted (R135). -/
def State.dropExpired (p : Port) : List BufNo → State → State
  | [], s => s
  | b :: rest, s =>
    match (pick (s.link p).buffers b).frame with
    | some f =>
      if s.frameExpired f then
        State.dropExpired p rest
          ((s.onLink p (fun l => l.emptyOut b)).onLinkCounters p (fun c => { c with dropped := bump c.dropped }))
      else s
    | none => s

/-- The first READY frame and its buffer. -/
def LinkPort.firstReady (l : LinkPort) : Option (BufNo × Frame) :=
  match l.readyQueue with
  | b :: _ => (pick l.buffers b).frame.map (fun f => (b, f))
  | [] => none

/-- A PULL with no frame outstanding: the first READY frame that is not expired, else a beacon where one is owed, else a FILLER
(R135). -/
def State.pullFresh (s : State) (p : Port) : State :=
  let s0 := s.onLink p (fun l => { l with exchange := .closed })
  let s1 := State.dropExpired p (s0.link p).readyQueue s0
  match (s1.link p).firstReady with
  | some (b, f) =>
    (s1.onLink p (fun l => { l.setBuffer b (.sending f) with
      readyQueue := l.readyQueue.filter (fun x => !(x == b)), exchange := .buffer b })).answerFrame p f
  | none =>
    if (s1.link p).beaconOwed then
      (s1.onLink p (fun l => { l with beaconOwed := false, exchange := .direct })).answerFrame p (.beacon (s1.beaconEntries p))
    else
      ((s1.onLink p (fun l => { l with exchange := .direct })).onLinkCounters p (fun c => { c with filler := bump c.filler })).answerFrame
        p (.filler (s1.beaconEntries p))

/-- The frame the baseband holds: the SENDING buffer of a BUFFER exchange. -/
def LinkPort.heldFrame (l : LinkPort) : Option (BufNo × Frame) :=
  match l.exchange with
  | .buffer b =>
    match pick l.buffers b with
    | .sending f => some (b, f)
    | _ => none
  | _ => none

/-- A PULL taken while SERVING: the slot recorded, the silence timer restarted, then a re-pull or a fresh answer (R127, R135,
R136). -/
def State.pullServing (s : State) (p : Port) (slot : BitVec 16) : State :=
  let s1 := s.onLink p (fun l => { l with
    lastSlot := slot, silenceStart := if l.silenceLimit = 0 then none else some s.now })
  match (s.link p).heldFrame with
  | some (_, f) => (s1.onLinkCounters p (fun c => { c with repull := bump c.repull })).answerFrame p f
  | none => s1.pullFresh p

/-- PULL (R124, R125, R135, R136). -/
def execPull (p : Port) (slot : BitVec 16) (s : State) : Host.Outcome State Fault Refusal :=
  match (s.link p).state with
  | .down | .aligning => .next ((s.onLink p (fun l => { l with lastSlot := slot, exchange := .direct })).answerFrame p .notServing)
  | .serving => .next ((s.pullServing p slot).settleFills)
  | .stalled => .next (((s.enterServing p).pullServing p slot).settleFills)

/-! ### DONE (R137, R138) -/

/-- A DONE that finds the exchange CLOSED (R138). -/
def State.noFrame (s : State) (p : Port) : State := (s.protocolError p).answer p answerNoFrame

/-- A DONE that closes a DIRECT or VOID exchange (R137). -/
def State.closeExchange (s : State) (p : Port) : State :=
  (s.onLink p (fun l => { l with exchange := .closed })).answer p answerTaken

/-- The frame sent as copy 1 of 2 that is owed a second copy (R137). -/
def State.secondCopy (s : State) (f : Frame) : Option Frame :=
  match f with
  | .item i =>
    if i.kind == .caption && i.twoCopies && !i.secondCopy && !s.frameExpired f then some (.item { i with secondCopy := true })
    else none
  | _ => none

/-- DONE SENT (R137, R138). -/
def execDoneSent (p : Port) (s : State) : Host.Outcome State Fault Refusal :=
  match (s.link p).exchange with
  | .closed => .next (s.noFrame p)
  | .direct | .void => .next (s.closeExchange p)
  | .buffer b =>
    let s1 := s.onLinkCounters p (fun c => { c with sent := bump c.sent })
    let again := ((pick (s.link p).buffers b).frame).bind s.secondCopy
    let s2 := match again with
      | some f => s1.onLink p (fun l => { l.setBuffer b (.ready f) with readyQueue := l.readyQueue ++ [b] })
      | none => s1.onLink p (fun l => l.emptyOut b)
    .next ((s2.closeExchange p).settleFills)

/-- DONE ABORTED (R138). -/
def execDoneAborted (p : Port) (s : State) : Host.Outcome State Fault Refusal :=
  match (s.link p).exchange with
  | .closed => .next (s.noFrame p)
  | .direct | .void => .next (s.closeExchange p)
  | .buffer b =>
    let s1 := s.onLinkCounters p (fun c => { c with abort := bump c.abort })
    let s2 := match (pick (s.link p).buffers b).frame with
      | some f =>
        if s.frameExpired f then
          (s1.onLink p (fun l => l.emptyOut b)).onLinkCounters p (fun c => { c with dropped := bump c.dropped })
        else s1.onLink p (fun l => { l.setBuffer b (.ready f) with readyQueue := b :: l.readyQueue })
      | none => s1
    .next ((s2.closeExchange p).settleFills)

/-! ### REPORT and LINK-QUERY (R145, R146) -/

/-- REPORT (R145, R151, R174): its entries go to the receiver table in order; 0 or more than 16 entries are malformed. -/
def execReport (p : Port) (entries : List ReportEntry) (s : State) : Host.Outcome State Fault Refusal :=
  if decide (1 ≤ entries.length) && decide (entries.length ≤ 16) then
    let s1 := s.onLinkCounters p (fun c => { c with reports := bumpBy entries.length c.reports })
    .next ((entries.foldl State.reportEntry s1).answer p answerTaken)
  else .next (s.answerMalformedTo p)

/-- The ten counters in the order of R147, two bytes each. -/
def LinkCounters.bytes (c : LinkCounters) : List Byte :=
  byte2 c.sent ++ byte2 c.filler ++ byte2 c.repull ++ byte2 c.abort ++ byte2 c.dropped ++ byte2 c.discarded
    ++ byte2 c.missedBeacon ++ byte2 c.protocol ++ byte2 c.reports ++ byte2 c.lapsed

/-- The number of READY buffers. -/
def LinkPort.readyCount (l : LinkPort) : Nat := (bufNos.filter (fun b => (pick l.buffers b).isReady)).length

/-- The data of a LINK-STATE answer (R146, 10.5). -/
def State.linkRecord (s : State) (p : Port) : List Byte :=
  byte1 (s.link p).state.code ++ byte1 (s.link p).readyCount ++ byteFlag (s.link p).beaconOwed ++ (s.linkCounter p).bytes

/-- LINK-QUERY (R146). -/
def execLinkQuery (p : Port) (s : State) : Host.Outcome State Fault Refusal :=
  .next (s.answer p (answerData 8 (s.linkRecord p)))

/-! ### Alignment (R142 to R144) -/

/-- ALIGN-START (R124, R126, R142). -/
def execAlignStart (p : Port) (s : State) : Host.Outcome State Fault Refusal :=
  let s1 := if (s.link p).state == .serving then (s.leaveServing p .aligning).settleFills
    else s.onLink p (fun l => { l with state := .aligning })
  .next ((s1.onLink p (fun l => { l with probe := {} })).answer p answerTaken)

/-- A pointer of the probe ring one on, from 3 to 0 (R143). -/
def nextPtr (i : Fin 4) : Fin 4 := i + 1

/-- A write at the write pointer (R143). -/
def Probe.write (r : Probe) (bytes : List Byte) : Probe :=
  { r with slots := change r.slots r.writePtr (fun _ => some bytes), writePtr := nextPtr r.writePtr,
           writeCount := bump r.writeCount }

/-- The filler pattern of an unwritten slot (R143). -/
def probeFiller : List Byte := (List.range 64).map (fun k => BitVec.ofNat 8 (255 - k))

/-- The bytes a read returns (R143). -/
def Probe.read (r : Probe) : List Byte := (pick r.slots r.readPtr).getD probeFiller

/-- PROBE-WRITE (R123, R143): other than 64 bytes are malformed. -/
def execProbeWrite (p : Port) (bytes : List Byte) (s : State) : Host.Outcome State Fault Refusal :=
  if bytes.length = 64 then
    if (s.link p).state == .aligning then
      .next ((s.onLink p (fun l => { l with probe := l.probe.write bytes })).answer p answerTaken)
    else .next (s.answer p answerWrongState)
  else .next (s.answerMalformedTo p)

/-- PROBE-READ (R143). -/
def execProbeRead (p : Port) (s : State) : Host.Outcome State Fault Refusal :=
  if (s.link p).state == .aligning then
    .next ((s.onLink p (fun l => { l with probe := { l.probe with readPtr := nextPtr l.probe.readPtr } })).answer p
      (answerData 7 (s.link p).probe.read))
  else .next (s.answer p answerWrongState)

/-- The ring is balanced (R144). -/
def Probe.balanced (r : Probe) : Bool := decide (1 ≤ r.writeCount) && r.readPtr == r.writePtr

/-- ALIGN-END PASS (R124, R125, R144). -/
def execAlignEndPass (p : Port) (s : State) : Host.Outcome State Fault Refusal :=
  if (s.link p).state == .aligning then
    if (s.link p).probe.balanced then .next (((s.enterServing p).answer p answerTaken).settleFills)
    else .next (s.answer p answerUnbalanced)
  else .next (s.answer p answerWrongState)

/-- ALIGN-END FAIL (R124, R144). -/
def execAlignEndFail (p : Port) (s : State) : Host.Outcome State Fault Refusal :=
  if (s.link p).state == .aligning then
    if (s.link p).probe.balanced then
      .next (((s.onLink p (fun l => { l with probe := {} })).raiseLink p kindAlignFail).answer p answerTaken)
    else .next (s.answer p answerUnbalanced)
  else .next (s.answer p answerWrongState)

/-- MALFORMED (R123, R174). -/
def execMalformed (p : Port) (_code : Byte) (_args : List Byte) (s : State) : Host.Outcome State Fault Refusal :=
  .next (s.answerMalformedTo p)

/-! ### Timers (R127, R139) -/

/-- The silence timer has reached its limit (R127). -/
def State.silenceDue (s : State) (p : Port) : Bool :=
  (s.link p).state == .serving && !((s.link p).silenceLimit == 0)
    && (match (s.link p).silenceStart with
        | some start => s.reached (start + (s.link p).silenceLimit * Config.tick)
        | none => false)

/-- SILENCE_TIMER_EXPIRES (R126, R127). -/
def execSilenceTimerExpires (p : Port) (s : State) : Host.Outcome State Fault Refusal :=
  if s.silenceDue p then .next (((s.leaveServing p .stalled).raiseLink p kindStalled).settleFills) else .next s

/-- The beacon timer has run down (R139). -/
def State.beaconDue (s : State) (p : Port) : Bool :=
  (s.link p).state == .serving && (match (s.link p).beaconDue with | some t => s.reached t | none => false)

/-- BEACON_TIMER_EXPIRES (R139): the timer reloads; beacon owed is set, or a beacon is missed. -/
def execBeaconTimerExpires (p : Port) (s : State) : Host.Outcome State Fault Refusal :=
  if s.beaconDue p then
    let s1 := s.onLink p (fun l => { l with beaconDue := some (s.now + l.beaconPeriod * Config.tick), beaconOwed := true })
    if (s.link p).beaconOwed then .next ((s1.onLinkCounters p (fun c => { c with missedBeacon := bump c.missedBeacon })).settleFills)
    else .next s1.settleFills
  else .next s

end Sys2Proof.Machine
end

