-- ==== Sys2Proof/Machine/MgmtCommands.lean ====
section
/-! DEFINITION. The management port (chapter 9): FETCH, UNKNOWN_COMMAND and the 23 commands, each with its checks in the order
of R163 and of its owning rule, its effect and its response. -/

namespace Sys2Proof.Machine

/-! ### The transport (R162, R163) -/

/-- The response code and fields of a command that ends at the instant it is taken. -/
structure Answer where
  code : RespCode
  fields : List Byte := []
  deriving DecidableEq, Repr

/-- The transport holds a response (R163). -/
def State.hold (s : State) (command : Byte) (a : Answer) : State :=
  s.onMgmt (fun m => { m with transport := .held { code := a.code, command := command, fields := a.fields } })

/-- The write answer of a command write: BUSY in WORKING, and nothing else; else TAKEN, and the command is taken (R162). -/
def State.write (s : State) (taken : State → State) : Host.Outcome State Fault Refusal :=
  match s.mgmt.transport with
  | .working _ => .next (s.onMgmt (fun m => { m with out := [2] }))
  | .idle | .held _ => .next (taken (s.onMgmt (fun m => { m with out := [1] })))

/-- A command refused: nothing changes but the response held (R163). -/
def State.reject (s : State) (command : Byte) (code : RespCode) : State := s.hold command { code := code }

/-- A command answered DONE with fields. -/
def State.done (s : State) (command : Byte) (fields : List Byte := []) : State := s.hold command { code := .done, fields := fields }

/-- A command whose work takes time: the transport becomes WORKING (R163). -/
def State.work (s : State) (w : Work) : State := s.onMgmt (fun m => { m with transport := .working w })

/-- FETCH (R164, 10.6): the response of the last command, as the transport stands. -/
def execFetch (s : State) : Host.Outcome State Fault Refusal :=
  let bytes := match s.mgmt.transport with
    | .idle => Response.bytes { code := .done, command := 0, fields := [] }
    | .working w => Response.bytes { code := .working, command := w.code, fields := [] }
    | .held r => r.bytes
  .next (s.onMgmt (fun m => { m with out := bytes }))

/-- UNKNOWN_COMMAND (R163, check 1). -/
def execUnknownCommand (code : Byte) (_args : List Byte) (s : State) : Host.Outcome State Fault Refusal :=
  s.write (fun t => t.reject code .refusedUnknown)

/-! ### Auditorium commands -/

/-- The sum of the sixteen quotas with one replaced (R89). -/
def State.quotaSum (s : State) (a : Aud) (quota : Nat) : Nat :=
  (auds.map (fun b => if b = a then quota else (s.store b).quota)).sum

/-- CONFIGURE-AUDITORIUM after its length check (R89). -/
def State.configure (s : State) (a : Aud) (quota w l : Nat) : State :=
  if !((s.session a).state == .dark) then s.reject 1 .refusedState
  else if (s.store a).purge.isSome then s.reject 1 .busy
  else if decide (Config.cells < quota) || !(w == 8 || w == 16 || w == 32 || w == 64) then s.reject 1 .refusedRange
  else if Config.cells < s.quotaSum a quota then s.reject 1 .refusedFull
  else
    (((s.onStore a (fun st => { st with quota := quota })).onClock a (fun c =>
      { c with windowSize := w, staleLimit := l })).flow a).done 1

/-- CONFIGURE_AUDITORIUM (R89, R163). -/
def execConfigureAuditorium (args : List Byte) (s : State) : Host.Outcome State Fault Refusal :=
  s.write (fun t =>
    match args with
    | [b, q1, q0, w, l1, l0] =>
      match audOf b with
      | some a => t.configure a (number [q1, q0]) w.toNat (number [l1, l0])
      | none => t.reject 1 .refusedRange
    | _ => t.reject 1 .refusedRange)

/-- ARM (R21, R26, R163): the state test before the rate code. -/
def execArm (args : List Byte) (s : State) : Host.Outcome State Fault Refusal :=
  s.write (fun t =>
    match args with
    | [b, r] =>
      match audOf b with
      | some a =>
        if !((t.session a).state == .dark) then t.reject 2 .refusedState
        else match rateOf r with
        | some rate => (t.armSession a rate).done 2
        | none => t.reject 2 .refusedRange
      | none => t.reject 2 .refusedRange
    | _ => t.reject 2 .refusedRange)

/-- DISARM (R41, R42, R101, R163): WORKING until the teardown ends. -/
def execDisarm (args : List Byte) (s : State) : Host.Outcome State Fault Refusal :=
  s.write (fun t =>
    match args with
    | [b] =>
      match audOf b with
      | some a =>
        if (t.session a).state == .dark then t.reject 3 .refusedState
        else if (t.store a).purge.isSome then t.reject 3 .busy
        else (t.work (.disarm a)).disarmSession a
      | none => t.reject 3 .refusedRange
    | _ => t.reject 3 .refusedRange)

/-- SET-GATE's effect: a value the gate has already changes nothing (R27). -/
def State.setGate (s : State) (a : Aud) (on : Bool) : State :=
  if (s.session a).gate = on then s else (s.onSession a (fun x => { x with gate := on })).runOrGate a

/-- SET_GATE (R24, R27, R163, R174). -/
def execSetGate (args : List Byte) (s : State) : Host.Outcome State Fault Refusal :=
  s.write (fun t =>
    match args with
    | [b, v] =>
      match audOf b, flagOf v with
      | some a, some on => (t.setGate a on).done 4
      | _, _ => t.reject 4 .refusedRange
    | _ => t.reject 4 .refusedRange)

/-! ### Stream commands -/

/-- OPEN-STREAM's effect on its entry (R83). DESIGN CHOICE: the queue stands, where a cue was placed in it while the slot was closed
(log entry 40). -/
def Stream.opened (st : Stream) (k : CueKind) (language : BitVec 16) (lead : Nat) : Stream :=
  { st with isOpen := true, kind := k, language := language, lead := lead, frameSeq := 0, clearOwed := [] }

/-- OPEN_STREAM (R83, R163, R174). -/
def execOpenStream (args : List Byte) (s : State) : Host.Outcome State Fault Refusal :=
  s.write (fun t =>
    match args with
    | [b, sl, k, g1, g0, d1, d0] =>
      match audOf b, slotOf sl with
      | some a, some slot =>
        if (t.store a).purge.isSome then t.reject 5 .busy
        else if (t.stream (streamOf a slot)).isOpen then t.reject 5 .refusedState
        else match kindOf k with
        | none => t.reject 5 .refusedRange
        | some kind =>
          if 2400 < number [d1, d0] then t.reject 5 .refusedRange
          else (t.onStream (streamOf a slot)
            (fun st => st.opened kind (BitVec.ofNat 16 (number [g1, g0])) (number [d1, d0]))).done 5
      | _, _ => t.reject 5 .refusedRange
    | _ => t.reject 5 .refusedRange)

/-- A sorted insertion of the auditorium is in progress (R84). -/
def State.insertionRuns (s : State) (a : Aud) : Bool :=
  match (s.intake a).context with
  | .inserting _ _ => true
  | _ => false

/-- CLOSE-STREAM taken: its purge begins at once, or when the insertion in progress has placed its cue (R76, R84, R99). DESIGN
CHOICE: a cue still OPEN for the stream stays open (log entry 40). -/
def State.closeSlot (s : State) (a : Aud) (slot : Slot) : State :=
  if s.insertionRuns a then s.onStore a (fun st => { st with closeWaiting := some slot })
  else (s.startPurge a (.close slot)).settleFills

/-- CLOSE_STREAM (R84, R163): WORKING until its purge ends. -/
def execCloseStream (args : List Byte) (s : State) : Host.Outcome State Fault Refusal :=
  s.write (fun t =>
    match args with
    | [b, sl] =>
      match audOf b, slotOf sl with
      | some a, some slot =>
        if (t.store a).purge.isSome then t.reject 6 .busy
        else if !(t.stream (streamOf a slot)).isOpen then t.reject 6 .refusedState
        else (t.work (.closeStream a)).closeSlot a slot
      | _, _ => t.reject 6 .refusedRange
    | _ => t.reject 6 .refusedRange)

/-! ### Cue port commands -/

/-- The new line settings: the receive line takes them at its next start bit, the reply line at its next character (R45). -/
def CuePort.configure (p : CuePort) (now d : Nat) (parity : Parity) : CuePort :=
  { p with divisor := d, parity := parity, transmission := p.transmission.map (fun t => t.retime now d parity) }

/-- SET_CUE_PORT (R45, R163, R174): the state test before the settings. -/
def execSetCuePort (args : List Byte) (s : State) : Host.Outcome State Fault Refusal :=
  s.write (fun t =>
    match args with
    | [b, d, q] =>
      match audOf b with
      | some a =>
        if !((t.session a).state == .dark) then t.reject 7 .refusedState
        else match parityOf q with
        | some parity =>
          if d.toNat = 0 then t.reject 7 .refusedRange
          else (t.onPort a (fun p => p.configure t.now d.toNat parity)).done 7
        | none => t.reject 7 .refusedRange
      | none => t.reject 7 .refusedRange
    | _ => t.reject 7 .refusedRange)

/-- RESET-CUE-PORT's effect on the port (R59): what a reset leaves of it. DESIGN CHOICE: a completed break whose line is still low is
forgotten, so the line's return to high starts no gap timer (log entry 37). -/
def CuePort.cleared (p : CuePort) (lineHigh : Bool) : CuePort :=
  { p with queue := [], replies := [], flowPlace := none, holdOutstanding := false, gapTimer := none,
           receiver := if lineHigh then .idle else .waitHigh false, framing := .between, damaged := false }

/-- RESET-CUE-PORT (R59, R91): the context is closed; an open cue is abandoned and its cells returned; an insertion goes on. DESIGN CHOICE
(log entry 44): its flow-control evaluation may raise STORE-PRESSURE. -/
def State.resetPort (s : State) (a : Aud) : State :=
  let s1 := s.onPort a (fun p => p.cleared (s.rxHigh a))
  match (s.intake a).context with
  | .opened c _ =>
    (((s1.onIntake a (fun _ => { context := .idle, deferred := [] })).requestFree a c.cells .resetPort).flow a).work (.resetCuePort a)
  | .skipping _ | .idle => ((s1.onIntake a (fun _ => { context := .idle, deferred := [] })).flow a).done 8
  | .inserting _ _ => ((s1.onIntake a (fun i => { i with deferred := [] })).flow a).done 8

/-- RESET_CUE_PORT (R59, R163): WORKING until the abandoned cue's cells are back. -/
def execResetCuePort (args : List Byte) (s : State) : Host.Outcome State Fault Refusal :=
  s.write (fun t =>
    match args with
    | [b] =>
      match audOf b with
      | some a => t.resetPort a
      | none => t.reject 8 .refusedRange
    | _ => t.reject 8 .refusedRange)

/-! ### Link port commands -/

/-- SET_FILTER (R130, R163, R174). -/
def execSetFilter (args : List Byte) (s : State) : Host.Outcome State Fault Refusal :=
  s.write (fun t =>
    match args with
    | [b, k, a1, a0, ks, any, l1, l0] =>
      match portOf b, portOf k, flagOf any with
      | some p, some f, some isAny =>
        if 3 < ks.toNat then t.reject 9 .refusedRange
        else
          let filter : Filter :=
            { auditoriums := BitVec.ofNat 16 (number [a1, a0]), kinds := ks,
              language := if isAny then none else some (BitVec.ofNat 16 (number [l1, l0])) }
          (t.onLink p (fun l => { l with filters := change l.filters f (fun _ => filter) })).done 9
      | _, _, _ => t.reject 9 .refusedRange
    | _ => t.reject 9 .refusedRange)

/-- SET-LINK's effect (R141): both values, and the timers of a SERVING port. -/
def LinkPort.configure (l : LinkPort) (now period limit : Nat) : LinkPort :=
  if l.state == .serving then
    { l with beaconPeriod := period, silenceLimit := limit, beaconDue := some (now + period * Config.tick),
             silenceStart := if limit = 0 then none else some now }
  else { l with beaconPeriod := period, silenceLimit := limit }

/-- SET_LINK (R141, R163). -/
def execSetLink (args : List Byte) (s : State) : Host.Outcome State Fault Refusal :=
  s.write (fun t =>
    match args with
    | [b, p1, p0, l1, l0] =>
      match portOf b with
      | some p =>
        let period := number [p1, p0]
        let limit := number [l1, l0]
        if decide (period < 12) || decide (1200 < period) || !(limit == 0 || (decide (12 ≤ limit) && decide (limit ≤ 1200)))
        then t.reject 10 .refusedRange
        else (t.onLink p (fun l => l.configure t.now period limit)).done 10
      | none => t.reject 10 .refusedRange
    | _ => t.reject 10 .refusedRange)

/-- RESET-LINK-PORT's effect (R126, R128). DESIGN CHOICE (log entry 45): where the port's leaving, or a fill that follows it, lets a last
cue leave its queue, the show ends and ENDED is raised, though R169 says that the command leaves the attention records. -/
def State.resetLink (s : State) (p : Port) : State :=
  let s1 := if (s.link p).state == .serving then (s.leaveServing p .down).settleFills else s
  s1.onLink p (fun l => { l with state := .down, exchange := .closed, probe := {}, beaconOwed := false, beaconDue := none,
                                 silenceStart := none })

/-- RESET_LINK_PORT (R126, R128, R163). -/
def execResetLinkPort (args : List Byte) (s : State) : Host.Outcome State Fault Refusal :=
  s.write (fun t =>
    match args with
    | [b] =>
      match portOf b with
      | some p => (t.resetLink p).done 11
      | none => t.reject 11 .refusedRange
    | _ => t.reject 11 .refusedRange)

/-! ### Receiver commands -/

/-- The lowest-numbered FREE entry (R149). -/
def State.freeEntry (s : State) : Option RxIndex := rxIndexes.find? (fun i => (s.rx i).state == .free)

/-- REGISTER_RECEIVER (R149, R163, R174). -/
def execRegisterReceiver (args : List Byte) (s : State) : Host.Outcome State Fault Refusal :=
  s.write (fun t =>
    match args with
    | [i3, i2, i1, i0, b, sl] =>
      match audOf b with
      | some a =>
        let id := BitVec.ofNat 32 (number [i3, i2, i1, i0])
        if id = 0 || sl = 0 || decide (63 < sl.toNat) then t.reject 12 .refusedRange
        else if (t.findReceiver id).isSome then t.reject 12 .refusedDuplicate
        else match t.freeEntry with
        | none => t.reject 12 .refusedFull
        | some i =>
          (t.onRx i (fun _ => { state := .good, id := id, auditorium := a, slots := sl })).done 12 (byte2 i.val)
      | none => t.reject 12 .refusedRange
    | _ => t.reject 12 .refusedRange)

/-- RELEASE-RECEIVER's effect (R150). -/
def State.releaseRx (s : State) (i : RxIndex) : State :=
  let r := s.rx i
  let s1 := if r.state == .degraded then s.onDegraded r (· - 1) else s
  (s1.onTable (fun t => { t with lost := t.lost.filter (fun j => !(j == i)) })).onRx i (fun _ => {})

/-- RELEASE_RECEIVER (R150, R163). -/
def execReleaseReceiver (args : List Byte) (s : State) : Host.Outcome State Fault Refusal :=
  s.write (fun t =>
    match args with
    | [i3, i2, i1, i0] =>
      let id := BitVec.ofNat 32 (number [i3, i2, i1, i0])
      if id = 0 then t.reject 13 .refusedRange
      else match t.findReceiver id with
      | none => t.reject 13 .refusedUnknown
      | some i => (t.releaseRx i).done 13
    | _ => t.reject 13 .refusedRange)

/-- The fields of READ-RECEIVER (R160, 10.6). -/
def Receiver.bytes (r : Receiver) : List Byte :=
  byte1 r.state.code ++ byte4 r.id.toNat ++ byte1 r.auditorium.val ++ [r.slots] ++ byte1 r.health ++ byte1 r.cleanRun
    ++ byte1 r.age

/-- READ_RECEIVER (R160, R163). -/
def execReadReceiver (args : List Byte) (s : State) : Host.Outcome State Fault Refusal :=
  s.write (fun t =>
    match args with
    | [i1, i0] =>
      match indexOf (number [i1, i0]) with
      | some i => t.done 14 (t.rx i).bytes
      | none => t.reject 14 .refusedRange
    | _ => t.reject 14 .refusedRange)

/-- SET_RECEIVER_POLICY (R155, R163). -/
def execSetReceiverPolicy (args : List Byte) (s : State) : Host.Outcome State Fault Refusal :=
  s.write (fun t =>
    match args with
    | [l] =>
      if l.toNat = 0 || decide (5 ≤ l.toNat) then (t.onTable (fun x => { x with silenceLimit := l.toNat })).done 15
      else t.reject 15 .refusedRange
    | _ => t.reject 15 .refusedRange)

/-- The response of TAKE-LOST: the head entry or zeros, the entries left and the overflow flag as it stood (R159, 10.6). -/
def State.lostBytes (s : State) : List Byte :=
  match s.table.lost with
  | i :: rest =>
    byteFlag true ++ byte2 i.val ++ byte4 (s.rx i).id.toNat ++ byte1 (s.rx i).state.code ++ byte1 (s.rx i).health
      ++ byte1 rest.length ++ byteFlag s.table.overflow
  | [] => byteFlag false ++ byte2 0 ++ byte4 0 ++ byte1 0 ++ byte1 0 ++ byte1 0 ++ byteFlag s.table.overflow

/-- TAKE_LOST (R159, R163). -/
def execTakeLost (args : List Byte) (s : State) : Host.Outcome State Fault Refusal :=
  s.write (fun t =>
    match args with
    | [] => (t.onTable (fun x => { x with lost := x.lost.tail, overflow := false })).done 16 t.lostBytes
    | _ => t.reject 16 .refusedRange)

/-! ### Reading commands -/

/-- The 32 bytes of READ-AUDITORIUM (R166, 10.6). -/
def State.audBytes (s : State) (a : Aud) : List Byte :=
  let c := s.clock a
  byte1 (s.session a).state.code ++ byteFlag (s.session a).ending ++ byteFlag (s.session a).gate ++ byte1 (rateCode c.rate)
    ++ byte1 c.windowSize ++ byte2 c.staleLimit ++ byte4 (s.position a) ++ byte4 c.base ++ byte4 c.period ++ byte4 c.lastHold
    ++ byte4 (s.showRun a).pauseHold ++ byte2 (s.store a).used ++ byte2 (s.store a).quota
    ++ byteFlag (s.store a).purge.isSome

/-- READ_AUDITORIUM (R23, R43, R102, R166). -/
def execReadAuditorium (args : List Byte) (s : State) : Host.Outcome State Fault Refusal :=
  s.write (fun t =>
    match args with
    | [b] =>
      match audOf b with
      | some a => t.done 17 (t.audBytes a)
      | none => t.reject 17 .refusedRange
    | _ => t.reject 17 .refusedRange)

/-- The 11 bytes of READ-STREAM (R102, 10.6). -/
def Stream.bytes (st : Stream) : List Byte :=
  byteFlag st.isOpen ++ byte1 st.kind.code ++ byte2 st.language.toNat ++ byte2 st.lead ++ byte2 st.queue.length
    ++ byte2 st.degraded ++ [st.frameSeq]

/-- READ_STREAM (R102, R163). -/
def execReadStream (args : List Byte) (s : State) : Host.Outcome State Fault Refusal :=
  s.write (fun t =>
    match args with
    | [b, sl] =>
      match audOf b, slotOf sl with
      | some a, some slot => t.done 18 (t.stream (streamOf a slot)).bytes
      | _, _ => t.reject 18 .refusedRange
    | _ => t.reject 18 .refusedRange)

/-- State, frame kind and stream of a buffer (R146, 10.6). A frame that carries no stream (a beacon) has a stream byte the
manual gives no value to: `free` (log entry 16). -/
def Buffer.bytes (x : Buffer) (free : Byte) : List Byte :=
  byte1 x.code ++ (match x.frame with
    | none => [0, 0]
    | some (.item i) => byte1 i.kind.code ++ byte1 i.stream.val
    | some f => byte1 f.kindCode ++ [free])

/-- A filter's bytes (10.6). The two language bytes of a filter whose language is ANY have no value in the manual: `hi` and `lo`
(log entry 42). -/
def Filter.bytes (f : Filter) (hi lo : Byte) : List Byte :=
  byte2 f.auditoriums.toNat ++ [f.kinds] ++ byteFlag f.language.isNone
    ++ (match f.language with | some l => byte2 l.toNat | none => [hi, lo])

/-- The number of a BUFFER exchange's buffer, else 0 (10.6). -/
def Exchange.bufferNumber : Exchange → Nat
  | .buffer b => b.val
  | _ => 0

/-- The free bytes READ-LINK draws: one for each buffer and two for each filter (log entries 16 and 42). -/
def linkDraws : Nat := 11

/-- The 51 bytes of READ-LINK (R146, 10.6), the free bytes drawn from draw `k` on. -/
def LinkPort.bytes (l : LinkPort) (k : Nat) : List Byte :=
  byte1 l.state.code
    ++ Machine.bufNos.flatMap (fun (b : BufNo) => (pick l.buffers b).bytes (Config.freeByte (k + b.val)))
    ++ byte1 l.readyQueue.length ++ ((l.readyQueue.map (fun (b : BufNo) => BitVec.ofNat 8 b.val)) ++ [0, 0, 0]).take 3
    ++ byte1 l.exchange.code ++ byte1 l.exchange.bufferNumber
    ++ byte2 l.lastSlot.toNat ++ byte2 l.beaconPeriod ++ byte2 l.silenceLimit ++ byteFlag l.beaconOwed
    ++ Machine.ports.flatMap (fun (f : Port) =>
      (pick l.filters f).bytes (Config.freeByte (k + 3 + 2 * f.val)) (Config.freeByte (k + 4 + 2 * f.val)))
    ++ byte1 l.probe.writePtr.val ++ byte1 l.probe.readPtr.val ++ byte2 l.probe.writeCount

/-- READ_LINK (R146, R163). -/
def execReadLink (args : List Byte) (s : State) : Host.Outcome State Fault Refusal :=
  s.write (fun t =>
    match args with
    | [b] =>
      match portOf b with
      | some p => (t.onDraws (· + linkDraws)).done 19 ((t.link p).bytes t.draws)
      | none => t.reject 19 .refusedRange
    | _ => t.reject 19 .refusedRange)

/-! ### Counters and attention (R167 to R173) -/

/-- The twenty-one sources (10.6). -/
inductive Source where
  | aud (a : Aud)
  | link (p : Port)
  | table
  deriving DecidableEq, Repr

/-- The source a byte names: auditoriums 0 to 15, link ports 16 to 19, the receiver table 20. -/
def sourceOf (b : Byte) : Option Source :=
  if h : b.toNat < 16 then some (.aud ⟨b.toNat, h⟩)
  else if h2 : b.toNat - 16 < 4 then some (.link ⟨b.toNat - 16, h2⟩)
  else if b.toNat = 20 then some .table
  else none

def AudCounters.bytes (c : AudCounters) : List Byte :=
  byte2 c.rateFault ++ byte2 c.strobeLoss ++ byte2 c.slip ++ byte2 c.jump ++ byte2 c.lineFault ++ byte2 c.refused
    ++ byte2 c.accepted ++ byte2 c.expired ++ byte2 c.late ++ byte2 c.unrouted ++ byte2 c.skip ++ byte2 c.resent

/-- A source's counters in the order of R167. -/
def State.counterBytes (s : State) : Source → List Byte
  | .aud a => (s.audCounter a).bytes
  | .link p => (s.linkCounter p).bytes
  | .table => byte2 s.table.unknown ++ byte2 s.table.mismatch

/-- Every counter of a source set to 0 (R168). -/
def State.clearCounters (s : State) : Source → State
  | .aud a => s.onCounters a (fun _ => {})
  | .link p => s.onLinkCounters p (fun _ => {})
  | .table => s.onTable (fun t => { t with unknown := 0, mismatch := 0 })

/-- READ_COUNTERS (R168, R174): the values as they stand, then the clear where the option is yes. -/
def execReadCounters (args : List Byte) (s : State) : Host.Outcome State Fault Refusal :=
  s.write (fun t =>
    match args with
    | [b, v] =>
      match sourceOf b, flagOf v with
      | some x, some clear => (if clear then t.clearCounters x else t).done 20 (t.counterBytes x)
      | _, _ => t.reject 20 .refusedRange
    | _ => t.reject 20 .refusedRange)

def AttnRecord.bytes (r : AttnRecord) : List Byte := [r.pending] ++ byte1 r.repeats

/-- The 45 bytes of a snapshot: every record in source order, then the three enable sets (R172, 10.6). -/
def Attention.bytes (t : Attention) : List Byte :=
  Machine.auds.flatMap (fun (a : Aud) => (pick t.auds a).bytes) ++ Machine.ports.flatMap (fun (p : Port) => (pick t.links p).bytes) ++ t.table.bytes
    ++ [t.audEnable, t.linkEnable, t.tableEnable]

/-- READ_ATTENTION (R172). -/
def execReadAttention (args : List Byte) (s : State) : Host.Outcome State Fault Refusal :=
  s.write (fun t =>
    match args with
    | [] => t.done 21 t.attention.bytes
    | _ => t.reject 21 .refusedRange)

/-- The kinds of a source's class (R169). -/
def Source.kinds : Source → Byte
  | .aud _ => audKinds
  | .link _ => linkKinds
  | .table => tableKinds

/-- A source's attention record. -/
def Attention.record (t : Attention) : Source → AttnRecord
  | .aud a => pick t.auds a
  | .link p => pick t.links p
  | .table => t.table

/-- A source's attention record changed. -/
def Attention.onRecord (t : Attention) (x : Source) (f : AttnRecord → AttnRecord) : Attention :=
  match x with
  | .aud a => { t with auds := change t.auds a f }
  | .link p => { t with links := change t.links p f }
  | .table => { t with table := f t.table }

/-- ACK_ATTENTION (R173, R174). -/
def execAckAttention (args : List Byte) (s : State) : Host.Outcome State Fault Refusal :=
  s.write (fun t =>
    match args with
    | [b, ks] =>
      match sourceOf b with
      | some x =>
        if ks &&& ~~~ x.kinds = 0 then
          let t1 := t.onAttention (fun y => y.onRecord x (·.acknowledge ks))
          t1.done 22 (t1.attention.record x).bytes
        else t.reject 22 .refusedRange
      | none => t.reject 22 .refusedRange
    | _ => t.reject 22 .refusedRange)

/-- A class's enable set replaced (R171); none where the class does not exist or a kind lies outside it. -/
def Attention.enable (t : Attention) (class_ : Nat) (ks : Byte) : Option Attention :=
  match class_ with
  | 0 => if ks &&& ~~~ audKinds = 0 then some { t with audEnable := ks } else none
  | 1 => if ks &&& ~~~ linkKinds = 0 then some { t with linkEnable := ks } else none
  | 2 => if ks &&& ~~~ tableKinds = 0 then some { t with tableEnable := ks } else none
  | _ => none

/-- SET_ATTENTION_ENABLE (R171, R174). -/
def execSetAttentionEnable (args : List Byte) (s : State) : Host.Outcome State Fault Refusal :=
  s.write (fun t =>
    match args with
    | [c, ks] =>
      match t.attention.enable c.toNat ks with
      | some x => (t.onAttention (fun _ => x)).done 23
      | none => t.reject 23 .refusedRange
    | _ => t.reject 23 .refusedRange)

end Sys2Proof.Machine
end

