-- ==== Sys2Proof/Machine/ReceiverCommands.lean ====
section
/-! DEFINITION. The receiver table's own event: SECOND_TIMER_EXPIRES (chapter 8). -/

namespace Sys2Proof.Machine

/-- The second timer has run a second of the time base (R154). -/
def State.secondDue (s : State) : Bool := s.reached (s.table.secondStart + Config.second)

/-- SECOND_TIMER_EXPIRES (R154, R155). -/
def execSecondTimerExpires (s : State) : Host.Outcome State Fault Refusal :=
  if s.secondDue then .next s.secondPasses else .next s

end Sys2Proof.Machine
end

