-- ==== Sys2Proof/Machine/RecordCommands.lean ====
section
/-! DEFINITION. Whole cue records as commands (chapter 4): what the playback server's record does when its last character has
been taken. A record that finds the line side busy waits in the receive queue (log entry 7). -/

namespace Sys2Proof.Machine

/-- DAMAGED_RECORD (R52). -/
def execDamagedRecord (a : Aud) (kind : Option Byte) (s : State) : Host.Outcome State Fault Refusal :=
  .next (s.damagedArrives a kind)

/-- UNKNOWN_KIND (R63). -/
def execUnknownKind (a : Aud) (kind : Byte) (fields : List Byte) (s : State) : Host.Outcome State Fault Refusal :=
  .next (s.recordArrives a kind fields)

/-- MARK (R29 to R34, R78). -/
def execMark (a : Aud) (fields : List Byte) (s : State) : Host.Outcome State Fault Refusal :=
  .next (s.recordArrives a markCode fields)

/-- HEAD (R67 to R72). -/
def execHead (a : Aud) (fields : List Byte) (s : State) : Host.Outcome State Fault Refusal :=
  .next (s.recordArrives a headCode fields)

/-- BODY (R66, R73, R74). -/
def execBody (a : Aud) (payload : List Byte) (s : State) : Host.Outcome State Fault Refusal :=
  .next (s.recordArrives a bodyCode payload)

/-- WITHDRAW (R79). -/
def execWithdraw (a : Aud) (fields : List Byte) (s : State) : Host.Outcome State Fault Refusal :=
  .next (s.recordArrives a withdrawCode fields)

/-- END (R35, R80). -/
def execEndRecord (a : Aud) (fields : List Byte) (s : State) : Host.Outcome State Fault Refusal :=
  .next (s.recordArrives a endCode fields)

/-- QUERY (R80). -/
def execQuery (a : Aud) (fields : List Byte) (s : State) : Host.Outcome State Fault Refusal :=
  .next (s.recordArrives a queryCode fields)

end Sys2Proof.Machine
end

