-- ==== Sys2Proof/Machine/StoreCommands.lean ====
section
/-! DEFINITION. The store's own events: INSERTION_PLACES (R75), CELL_FREED (R91) and PURGE_STEP (R93). -/

namespace Sys2Proof.Machine

/-- INSERTION_PLACES (R75, R76). -/
def execInsertionPlaces (a : Aud) (s : State) : Host.Outcome State Fault Refusal :=
  match s.placingDue a with
  | some c => .next ((s.placeInserted a c).settleFills)
  | none => .next s

/-- The cell in service has had its 16 base counts (R91). -/
def State.cellDue (s : State) (a : Aud) : Bool :=
  !(s.store a).freeing.isEmpty && s.reached ((s.store a).cellStart + Config.cellTime)

/-- The purge that waits goes on: its own request has been served, or the unit is empty (R93). -/
def State.wakePurge (s : State) (a : Aud) (tag : FreeTag) : State :=
  match (s.store a).purge with
  | some p =>
    if p.waiting && (tag == .purge || (s.store a).freeing.isEmpty) then
      (State.runPurge a purgeFuel (s.onStore a (fun st => { st with purge := some { p with waiting := false } }))).settleFills
    else s
  | none => s

/-- A request has been served: RESET-CUE-PORT is DONE, a waiting purge goes on, and the rest of a record's taking that waited for it is
taken (R65, R74, R91, R93). -/
def State.requestServed (s : State) (a : Aud) (tag : FreeTag) : State :=
  ((if tag == .resetPort then s.finishWork (.resetCuePort a) else s).wakePurge a tag).resumeDeferred a

/-- One cell of the first request is returned; the next cell's 16 base counts begin (R91). -/
def State.freeOneCell (s : State) (a : Aud) : State :=
  match (s.store a).freeing with
  | [] => s
  | r :: rest =>
    let s1 := if r.cells = 0 then s else s.returnCell a
    if r.cells ≤ 1 then
      (s1.onStore a (fun st => { st with freeing := rest, cellStart := s.now })).requestServed a r.tag
    else s1.onStore a (fun st => { st with freeing := { r with cells := r.cells - 1 } :: rest, cellStart := s.now })

/-- CELL_FREED (R91). -/
def execCellFreed (a : Aud) (s : State) : Host.Outcome State Fault Refusal :=
  if s.cellDue a then .next (s.freeOneCell a) else .next s

/-- A walk step that has had its 200 base counts: the purge and the cue examined (R93). -/
def State.stepDue (s : State) (a : Aud) : Option (Purge × (Slot × Seq)) :=
  match (s.store a).purge with
  | some p =>
    match p.current with
    | some x => if s.reached (p.stepStart + Config.walkStep) then some (p, x) else none
    | none => none
  | none => none

/-- PURGE_STEP (R93 to R101). -/
def execPurgeStep (a : Aud) (s : State) : Host.Outcome State Fault Refusal :=
  match s.stepDue a with
  | some (p, x) => .next (((s.purgeStep a p x).settleFills).resumeDeferred a)
  | none => .next s

end Sys2Proof.Machine
end

