-- ==== Sys2Proof/Machine/Dispatch.lean ====
section
/-! DEFINITION. The meaning of every command, in the order of the opcode table. -/

namespace Sys2Proof.Machine

def exec (i : Instr) (s : State) : Host.Outcome State Fault Refusal :=
  match i with
  | .deviceReset => Sys2Proof.Machine.execDeviceReset s
  | .strobe a => Sys2Proof.Machine.execStrobe a s
  | .subStep a => Sys2Proof.Machine.execSubStep a s
  | .strobeLoss a => Sys2Proof.Machine.execStrobeLoss a s
  | .syntheticStrobe a => Sys2Proof.Machine.execSyntheticStrobe a s
  | .staleEvent a => Sys2Proof.Machine.execStaleEvent a s
  | .runChange a high => Sys2Proof.Machine.execRunChange a high s
  | .character a value parityBit stopBit => Sys2Proof.Machine.execCharacter a value parityBit stopBit s
  | .lineBreak a => Sys2Proof.Machine.execLineBreak a s
  | .lineReturnsHigh a => Sys2Proof.Machine.execLineReturnsHigh a s
  | .gap a => Sys2Proof.Machine.execGap a s
  | .assemblerResumes a => Sys2Proof.Machine.execAssemblerResumes a s
  | .damagedRecord a kind => Sys2Proof.Machine.execDamagedRecord a kind s
  | .unknownKind a kind fields => Sys2Proof.Machine.execUnknownKind a kind fields s
  | .mark a fields => Sys2Proof.Machine.execMark a fields s
  | .head a fields => Sys2Proof.Machine.execHead a fields s
  | .body a payload => Sys2Proof.Machine.execBody a payload s
  | .withdraw a fields => Sys2Proof.Machine.execWithdraw a fields s
  | .endRecord a fields => Sys2Proof.Machine.execEndRecord a fields s
  | .query a fields => Sys2Proof.Machine.execQuery a fields s
  | .insertionPlaces a => Sys2Proof.Machine.execInsertionPlaces a s
  | .cellFreed a => Sys2Proof.Machine.execCellFreed a s
  | .purgeStep a => Sys2Proof.Machine.execPurgeStep a s
  | .replySent a => Sys2Proof.Machine.execReplySent a s
  | .fillEnds p => Sys2Proof.Machine.execFillEnds p s
  | .pull p slot => Sys2Proof.Machine.execPull p slot s
  | .doneSent p => Sys2Proof.Machine.execDoneSent p s
  | .doneAborted p => Sys2Proof.Machine.execDoneAborted p s
  | .report p entries => Sys2Proof.Machine.execReport p entries s
  | .linkQuery p => Sys2Proof.Machine.execLinkQuery p s
  | .alignStart p => Sys2Proof.Machine.execAlignStart p s
  | .probeWrite p bytes => Sys2Proof.Machine.execProbeWrite p bytes s
  | .probeRead p => Sys2Proof.Machine.execProbeRead p s
  | .alignEndPass p => Sys2Proof.Machine.execAlignEndPass p s
  | .alignEndFail p => Sys2Proof.Machine.execAlignEndFail p s
  | .malformed p code args => Sys2Proof.Machine.execMalformed p code args s
  | .silenceTimerExpires p => Sys2Proof.Machine.execSilenceTimerExpires p s
  | .beaconTimerExpires p => Sys2Proof.Machine.execBeaconTimerExpires p s
  | .secondTimerExpires => Sys2Proof.Machine.execSecondTimerExpires s
  | .fetch => Sys2Proof.Machine.execFetch s
  | .unknownCommand code args => Sys2Proof.Machine.execUnknownCommand code args s
  | .configureAuditorium args => Sys2Proof.Machine.execConfigureAuditorium args s
  | .arm args => Sys2Proof.Machine.execArm args s
  | .disarm args => Sys2Proof.Machine.execDisarm args s
  | .setGate args => Sys2Proof.Machine.execSetGate args s
  | .openStream args => Sys2Proof.Machine.execOpenStream args s
  | .closeStream args => Sys2Proof.Machine.execCloseStream args s
  | .setCuePort args => Sys2Proof.Machine.execSetCuePort args s
  | .resetCuePort args => Sys2Proof.Machine.execResetCuePort args s
  | .setFilter args => Sys2Proof.Machine.execSetFilter args s
  | .setLink args => Sys2Proof.Machine.execSetLink args s
  | .resetLinkPort args => Sys2Proof.Machine.execResetLinkPort args s
  | .registerReceiver args => Sys2Proof.Machine.execRegisterReceiver args s
  | .releaseReceiver args => Sys2Proof.Machine.execReleaseReceiver args s
  | .readReceiver args => Sys2Proof.Machine.execReadReceiver args s
  | .setReceiverPolicy args => Sys2Proof.Machine.execSetReceiverPolicy args s
  | .takeLost args => Sys2Proof.Machine.execTakeLost args s
  | .readAuditorium args => Sys2Proof.Machine.execReadAuditorium args s
  | .readStream args => Sys2Proof.Machine.execReadStream args s
  | .readLink args => Sys2Proof.Machine.execReadLink args s
  | .readCounters args => Sys2Proof.Machine.execReadCounters args s
  | .readAttention args => Sys2Proof.Machine.execReadAttention args s
  | .ackAttention args => Sys2Proof.Machine.execAckAttention args s
  | .setAttentionEnable args => Sys2Proof.Machine.execSetAttentionEnable args s
  | .candidateStartBit a breakBegins => Sys2Proof.Machine.execCandidateStartBit a breakBegins s

end Sys2Proof.Machine
end

