-- ==== Sys2Proof/Machine/Idle.lean ====
section
/-! DEFINITION. What the part does when no command waits: the instants of the time base that have come put their commands into
the queue, and with none come the time base counts once (log entry 1). -/

namespace Sys2Proof.Machine

/-- The command, if its instant has come. -/
def ready (due : Bool) (c : Instr) : List Instr := if due then [c] else []

/-- The commands of one auditorium whose instant has come (R9, R12, R13, R20, R49, R53, R58, R75, R91, R93). -/
def State.audEvents (s : State) (a : Aud) : List Instr :=
  ready (s.subStepDue a) (.subStep a) ++ ready (s.lossDue a) (.strobeLoss a) ++ ready (s.syntheticDue a) (.syntheticStrobe a)
    ++ ready (s.staleDue a) (.staleEvent a) ++ ready (s.gapDue a) (.gap a) ++ ready (s.resumeDue a) (.assemblerResumes a)
    ++ ready (s.placingDue a).isSome (.insertionPlaces a) ++ ready (s.cellDue a) (.cellFreed a)
    ++ ready (s.stepDue a).isSome (.purgeStep a) ++ ready (s.replyDue a) (.replySent a)

/-- The commands of one link port whose instant has come (R127, R133, R139). -/
def State.portEvents (s : State) (p : Port) : List Instr :=
  ready (s.fillDue p).isSome (.fillEnds p) ++ ready (s.silenceDue p) (.silenceTimerExpires p)
    ++ ready (s.beaconDue p) (.beaconTimerExpires p)

/-- Every command whose instant has come. -/
def State.readyEvents (s : State) : List Instr :=
  auds.flatMap s.audEvents ++ ports.flatMap s.portEvents ++ ready s.secondDue .secondTimerExpires

/-- One step of the part with no command waiting: the commands whose instant has come are put into the queue in a free order
(R1), or one base count passes. -/
def State.idle (s : State) : State :=
  if s.readyEvents.isEmpty then { s with now := s.now + 1 }
  else { s with pending := anyOrder s.draws s.readyEvents, draws := s.draws + drawsOf s.readyEvents }

end Sys2Proof.Machine
end

