-- ==== Sys2Proof/Safety.lean ====
section
/-! DEFINITION. What the manual promises of every state the part can be in: the laws stated in its rules as plain sentences
about the whole machine, one predicate each. Claims are stated in these terms. -/

namespace Sys2Proof.Machine

/-- The management port takes a command write: its state is IDLE or HELD (R162). -/
def State.takesCommands (s : State) : Prop := ∀ w, s.mgmt.transport ≠ .working w

/-- A reply `r` has been placed on a cue port (R57, R58): it is dropped from a full queue; behind a transmission it joins the
tail; an idle port with nothing waiting sends it. -/
def CuePort.gainsReply (p q : CuePort) (r : Reply) : Prop :=
  (8 ≤ p.replies.length → q = p) ∧
  (p.replies.length < 8 → p.transmission.isSome → q = { p with replies := p.replies ++ [r] }) ∧
  (p.transmission = none → p.flowPlace = none → p.replies = [] →
    q.replies = [] ∧ q.flowPlace = none ∧ q.transmission.map Transmission.sent = some (.reply r))

/-- What a reply leaves of a cue port: the port's line settings, receiver, receive queue, assembler and flow control. -/
def CuePort.lineSide (p : CuePort) :=
  (p.divisor, p.parity, p.lineDivisor, p.lineParity, p.receiver, p.gapTimer, p.queue, p.framing, p.damaged, p.holdOutstanding)

/-- A record has been refused and nothing else has happened (R57, R63): the refused counter counts it, the REFUSE is placed. -/
def State.refused (s t : State) (a : Aud) (kind : Byte) (seq : Seq) (reason : Reason) : Prop :=
  t = { s with audCounters := t.audCounters, cuePorts := t.cuePorts } ∧
  (∀ b, b ≠ a → t.cuePort b = s.cuePort b ∧ t.audCounter b = s.audCounter b) ∧
  t.audCounter a = { s.audCounter a with refused := bump (s.audCounter a).refused } ∧
  (s.cuePort a).gainsReply (t.cuePort a) (.refuse kind seq reason) ∧
  (t.cuePort a).lineSide = (s.cuePort a).lineSide

/-- An auditorium's attention record (R169). -/
def State.audRecord (s : State) (a : Aud) : AttnRecord := pick s.attention.auds a

/-- The kind is pending on the auditorium's attention record. -/
def State.raised (s : State) (a : Aud) (kind : Byte) : Prop := (s.audRecord a).pending &&& kind = kind

/-- A receive queue entry carries an error mark (R48, R52). -/
def Entry.marked (e : Entry) : Bool := e.parityError || e.framingError || e.overrun

/-- A damaged record has been discarded in an IDLE context and nothing else has happened (R52): one line fault, LINE-FAULT raised, the refused
counter, and REFUSE LINE-ERROR with the kind where one was taken without error. -/
def State.lineErrored (s t : State) (a : Aud) (kind : Option Byte) : Prop :=
  t = { s with
    audCounters := change s.audCounters a (fun c => { c with refused := bump c.refused, lineFault := bump c.lineFault })
    attention := { s.attention with auds := change s.attention.auds a (fun r => r.raise kindLineFault) }
    cuePorts := t.cuePorts } ∧
  (∀ b, b ≠ a → t.cuePort b = s.cuePort b) ∧
  (s.cuePort a).gainsReply (t.cuePort a) (.refuse (kind.getD 0) 0 .lineError) ∧ (t.cuePort a).lineSide = (s.cuePort a).lineSide

/-- A record that ended damaged, or was abandoned, has been handed to an intake whose context is IDLE: REFUSE LINE-ERROR with its line fault
where it is damaged, else REFUSE TRUNCATED (R51, R52). -/
def State.recordLost (s t : State) (a : Aud) (kind : Option Byte) (damaged : Bool) : Prop :=
  if damaged then s.lineErrored t a kind else s.refused t a (kind.getD 0) 0 .truncated

/-- The kind character of the record in progress, where one was taken without error (R51, R52). -/
def CuePort.kindTaken (p : CuePort) : Option Byte :=
  match p.framing with
  | .length k true _ | .fields k true _ _ => some k
  | .between | .kind | .length _ false _ | .fields _ false _ _ => none

/-! ### What the part sends, as chapter 10 lays it out -/

/-- The flags byte of a caption, narration or clear frame, bit by bit (10.4). -/
def ItemFrame.flagsAre (i : ItemFrame) (flags : Byte) : Prop :=
  flags.getLsbD 0 = i.secondCopy ∧ flags.getLsbD 1 = i.twoCopies ∧ flags.getLsbD 2 = i.robust ∧ flags.getLsbD 3 = i.late ∧
  flags.toNat / 16 = match i.filter with | some k => k.val | none => 7

/-- The code of an auditorium's state (10.1). -/
def audCode : AudState → Byte
  | .dark => 0 | .armed => 1 | .paused => 2 | .running => 3 | .coasting => 4 | .ended => 5

/-- The code of a rate, 0 for none (10.1). -/
def rateByte : Option Rate → Byte
  | none => 0
  | some .r24 => 24 | some .r25 => 25 | some .r30 => 30 | some .r48 => 48 | some .r50 => 50 | some .r60 => 60

/-- The code of a frame of a cue or a clear (10.4). -/
def itemCode : ItemKind → Byte
  | .caption => 1 | .narration => 2 | .clear => 3

/-- The code of a reason (10.3). -/
def reasonCode : Reason → Byte
  | .notArmed => 1 | .ending => 2 | .streamClosed => 3 | .kindMismatch => 4 | .badField => 5 | .duplicate => 6 | .overlap => 7
  | .truncated => 8 | .tooLate => 9 | .storeFull => 10 | .badMark => 11 | .brokenCue => 12 | .orphanBody => 13 | .bodySize => 14
  | .unknownKind => 15 | .lineError => 16

/-- One entry of a beacon or filler, seven bytes (10.4). -/
def BeaconEntry.onAir (e : BeaconEntry) : List Byte :=
  [BitVec.ofNat 8 e.auditorium.val, audCode e.state] ++ byte4 e.position ++ [rateByte e.rate]

/-- The bytes of an air frame (10.4). -/
def Frame.onAir (f : Frame) (bytes : List Byte) : Prop :=
  match f with
  | .item i => ∃ flags : Byte, i.flagsAre flags ∧
      bytes = [itemCode i.kind, BitVec.ofNat 8 i.stream.val, i.number, flags] ++
        byte4 i.start ++ byte4 i.finish ++ byte2 i.language.toNat ++ [BitVec.ofNat 8 i.payload.length] ++ i.payload
  | .beacon es => bytes = [4, BitVec.ofNat 8 es.length] ++ es.flatMap BeaconEntry.onAir
  | .filler es => bytes = [5, BitVec.ofNat 8 es.length] ++ es.flatMap BeaconEntry.onAir
  | .notServing => bytes = [6]

/-- A reply on the line: its kind character, its length character and its fields (10.3). -/
def Sent.onLine : Sent → List Byte
  | .flow .hold => [17, 0]
  | .flow .resume => [18, 0]
  | .reply (.refuse kind seq reason) => [19, 4, kind] ++ byte2 seq.toNat ++ [reasonCode reason]
  | .reply (.jumpSeen old new) => [20, 8] ++ byte4 old ++ byte4 new
  | .reply (.status state position used quota ending) =>
      [21, 10, audCode state] ++ byte4 position ++ byte2 used ++ byte2 quota ++ [if ending then 1 else 0]

/-- A frame is expired (R135): its auditorium is DARK, or it is a caption or narration frame with X at or before P. -/
def State.overdue (s : State) (f : Frame) : Prop :=
  ∃ i, f = .item i ∧ ((s.session (audOfStream i.stream)).state = .dark ∨
    i.kind ≠ .clear ∧ i.finish ≤ min ((s.clock (audOfStream i.stream)).base + (s.clock (audOfStream i.stream)).sub) 43199999)

/-! ### What the work behind an event leaves alone

Release, purges, fills and ends of shows follow from many events, in any auditorium. What they never change is said here once. -/

/-- The run part of a show clock at entry into ENDED (R16, R19, R20). -/
def ShowRun.atEnd (r : ShowRun) (hold : Nat) : ShowRun :=
  { r with window := .closed, subFrozen := true, pauseHold := hold, pauseStart := none, staleMark := false }

/-- An auditorium's session, its show clock's run part and its attention record stand; or its show, under its ending mark, has entered ENDED
from a state a show ends from, ENDED raised and nothing else (R36, R38). -/
def State.standsOrEnds (s t : State) (a : Aud) : Prop :=
  (t.session a = s.session a ∧ t.showRun a = s.showRun a ∧ t.audRecord a = s.audRecord a) ∨
    ((s.session a).state.isActive = true ∧ (s.session a).ending = true ∧ t.session a = { s.session a with state := .ended } ∧
      t.showRun a = (s.showRun a).atEnd (s.captureHold a) ∧ t.audRecord a = (s.audRecord a).raise kindEnded)

/-- The auditorium's session and run part are now `x` and `r`, or the show has ended from there, by its ending mark or at the last position,
what follows the event having brought its end, and ENDED is raised (R16, R19, R20, R36 to R38). -/
def State.movesTo (s t : State) (a : Aud) (r : ShowRun) (x : Session) : Prop :=
  (t.session a = x ∧ t.showRun a = r) ∨
    (x.state.isActive = true ∧ (x.ending = true ∨ t.position a = 43199999) ∧ t.session a = { x with state := .ended } ∧ t.raised a kindEnded ∧
      t.showRun a = r.atEnd ((r.pauseStart.map (fun start => min ((s.now - start) / Config.tick) Config.maxPause)).getD r.pauseHold))

/-- What a change of RUN or of the house gate does to an auditorium whose session is `x`, `both` saying that RUN is high and the gate on
(R27, with R15, R16, R18 and R19 for the clock). -/
def State.runGateMoves (s t : State) (a : Aud) (x : Session) (both : Bool) : Prop :=
  match x.state, both with
  | .paused, true =>
    t.clock a = { s.clock a with ref := s.now } ∧
      s.movesTo t a { s.showRun a with window := .closed, pauseHold := s.captureHold a, pauseStart := none, staleMark := false }
        { x with state := .running }
  | .running, false | .coasting, false =>
    t.clock a = s.clock a ∧ t.session a = { x with state := .paused } ∧
      t.showRun a = { s.showRun a with window := .closed, subFrozen := true, pauseStart := some s.now, staleMark := false }
  | .dark, _ | .armed, _ | .ended, _ | .paused, false | .running, true | .coasting, true =>
    t.clock a = s.clock a ∧ t.session a = x ∧ t.showRun a = s.showRun a

/-- The six of an auditorium's counters that only its own events raise. -/
def AudCounters.own (c : AudCounters) := (c.rateFault, c.strobeLoss, c.slip, c.jump, c.lineFault, c.accepted)

/-- A link port's counters but for lapsed, which release counts. -/
def LinkCounters.own (c : LinkCounters) :=
  (c.sent, c.filler, c.repull, c.abort, c.dropped, c.discarded, c.missedBeacon, c.protocol, c.reports)

/-- A link port but for its buffers and beacon owed. -/
def LinkPort.outside (l : LinkPort) :=
  (l.state, l.filters, l.readyQueue, l.exchange, l.lastSlot, l.beaconPeriod, l.beaconDue, l.silenceLimit, l.silenceStart,
    l.probe, l.answer)

/-- From `s` to `t` a port's buffer stands, or it was EMPTY and the port, SERVING, has begun to fill it. -/
def LinkPort.bufferStands (l m : LinkPort) (b : BufNo) : Prop :=
  pick m.buffers b = pick l.buffers b ∨
    pick l.buffers b = .empty ∧ l.state = .serving ∧ ∃ f e, pick m.buffers b = .filling f e

/-- What no event of an auditorium or a link port changes of the attention unit: the receiver table's record and the three enable sets
(R169, R171). -/
def Attention.deviceWide (x : Attention) := (x.table, x.audEnable, x.linkEnable, x.tableEnable)

/-- The device-wide state that no event of an auditorium or a link port changes. -/
def State.tablesStand (s t : State) : Prop :=
  t.now = s.now ∧ t.runPins = s.runPins ∧ t.rxPins = s.rxPins ∧ t.receivers = s.receivers ∧ t.table = s.table ∧
  t.freeCells = s.freeCells ∧ t.pending = s.pending ∧ t.attention.deviceWide = s.attention.deviceWide

/-- An auditorium as an event elsewhere leaves it: its clock, cells, cue port and own counters as they were, its session and its attention
record too unless its show has ended. -/
def State.audStands (s t : State) (b : Aud) : Prop :=
  t.clock b = s.clock b ∧ s.standsOrEnds t b ∧ (t.store b).quota = (s.store b).quota ∧ (t.store b).used = (s.store b).used ∧
    (t.cuePort b).lineSide = (s.cuePort b).lineSide ∧ (t.audCounter b).own = (s.audCounter b).own

/-- Every auditorium but `a`, as an event of `a` leaves it. -/
def State.othersStand (s t : State) (a : Aud) : Prop := ∀ b, b ≠ a → s.audStands t b

/-- A link port as an event elsewhere leaves it: only a fill begins, and an item it owed may lapse; its attention record stands. -/
def State.portStands (s t : State) (p : Port) : Prop :=
  (t.link p).outside = (s.link p).outside ∧ (∀ b, (s.link p).bufferStands (t.link p) b) ∧
    (t.linkCounter p).own = (s.linkCounter p).own ∧ pick t.attention.links p = pick s.attention.links p

/-- The link ports as an event of an auditorium leaves them. -/
def State.linksStand (s t : State) : Prop := ∀ p, s.portStands t p

/-- What an event of link port `p` leaves alone: the tables, the auditoriums and the other ports. -/
def State.onlyPort (s t : State) (p : Port) : Prop :=
  s.tablesStand t ∧ (∀ b, s.audStands t b) ∧ ∀ q, q ≠ p → s.portStands t q

/-- What an event of auditorium `a`'s show clock or session leaves alone: the tables, the other auditoriums, the link ports, and
of `a` its cells, its line side and its line-fault and accepted counts. -/
def State.onlyShow (s t : State) (a : Aud) : Prop :=
  s.tablesStand t ∧ s.othersStand t a ∧ s.linksStand t ∧
  (t.store a).quota = (s.store a).quota ∧ (t.store a).used = (s.store a).used ∧
  (t.cuePort a).lineSide = (s.cuePort a).lineSide ∧ (t.audCounter a).lineFault = (s.audCounter a).lineFault ∧
  (t.audCounter a).accepted = (s.audCounter a).accepted

/-- The command takes link port `p` out of SERVING, into state `dest` (R124). -/
def State.leavesServing (s : State) (p : Port) (i : Instr) (dest : LinkState) : Prop :=
  (s.link p).state = .serving ∧
    (i = .silenceTimerExpires p ∧ dest = .stalled ∧ s.silenceDue p = true ∨ i = .alignStart p ∧ dest = .aligning ∨
      i = .resetLinkPort [BitVec.ofNat 8 p.val] ∧ dest = .down ∧ s.takesCommands)

/-- The first of the nine checks that a HEAD of the right length fails, by R67's table (with R68 to R70), or none. -/
def State.headFails (s : State) (a : Aud) (h : HeadFields) : Option Reason :=
  let x := s.session a
  let st := s.stream (streamOf a ((slotOf h.slot).getD 0))
  let span := if st.kind = .caption then min (min h.length 36000) (43200000 - h.start) else 24 * h.length
  let checks : List (Bool × Reason) := [
    (decide (x.state = .dark), .notArmed),
    (decide (x.ending = true ∨ x.state = .ended), .ending),
    (decide (slotOf h.slot = none ∨ st.isOpen = false), .streamClosed),
    (decide (kindOf h.kind ≠ some st.kind), .kindMismatch),
    (decide (43199999 < h.start ∨ h.length = 0 ∨ (st.kind = .caption ∧ (h.bodyCount = 0 ∨ 4 < h.bodyCount)) ∨
      (st.kind = .narration ∧ (h.bodyCount ≠ h.length ∨ 250 < h.length))), .badField),
    (decide (∃ d ∈ st.queue, d.seq = h.seq), .duplicate),
    (decide (st.kind = .narration ∧ ∃ d ∈ st.queue, d.kind = .narration ∧ h.start < d.finish ∧ d.start < h.start + span), .overlap),
    (decide (x.state.isReleasing = true ∧ h.start + span ≤ s.position a), .tooLate),
    (decide ((s.store a).quota < (s.store a).used + 1 + h.bodyCount), .storeFull)]
  (checks.find? (fun c => c.1)).map (fun c => c.2)

/-- The record a command hands on, where it is one that breaks an open cue: any but BODY and MARK (R64, R65). -/
def breaks (a : Aud) : Instr → Option Record
  | .head b f => if b = a then some (.framed headCode f) else none
  | .withdraw b f => if b = a then some (.framed withdrawCode f) else none
  | .endRecord b f => if b = a then some (.framed endCode f) else none
  | .query b f => if b = a then some (.framed queryCode f) else none
  | .unknownKind b k f => if b = a ∧ k ≠ markCode ∧ k ≠ bodyCode then some (.framed k f) else none
  | .damagedRecord b k => if b = a then some (.damaged k) else none
  | _ => none

/-- The transport holds a response and the write was answered TAKEN (R162, R163). -/
def State.respond (s : State) (command : Byte) (code : RespCode) (fields : List Byte) : State :=
  { s with mgmt := { transport := .held { code := code, command := command, fields := fields }, out := [1] } }

/-- A management command write: its code, the length of its arguments and the arguments it has (10.6); UNKNOWN_COMMAND has no length. -/
def commandForm : Instr → Option (Byte × Nat × List Byte)
  | .configureAuditorium b => some (1, 6, b) | .arm b => some (2, 2, b) | .disarm b => some (3, 1, b) | .setGate b => some (4, 2, b)
  | .openStream b => some (5, 7, b) | .closeStream b => some (6, 2, b) | .setCuePort b => some (7, 3, b)
  | .resetCuePort b => some (8, 1, b) | .setFilter b => some (9, 8, b) | .setLink b => some (10, 5, b)
  | .resetLinkPort b => some (11, 1, b) | .registerReceiver b => some (12, 6, b) | .releaseReceiver b => some (13, 4, b)
  | .readReceiver b => some (14, 2, b) | .setReceiverPolicy b => some (15, 1, b) | .takeLost b => some (16, 0, b)
  | .readAuditorium b => some (17, 1, b) | .readStream b => some (18, 2, b) | .readLink b => some (19, 1, b)
  | .readCounters b => some (20, 2, b) | .readAttention b => some (21, 0, b) | .ackAttention b => some (22, 2, b)
  | .setAttentionEnable b => some (23, 2, b)
  | _ => none

/-- How many things the first argument byte chooses among, for the commands that name an auditorium or a link port there (R163). -/
def choicesOf : Instr → Option Nat
  | .configureAuditorium _ | .arm _ | .disarm _ | .setGate _ | .openStream _ | .closeStream _ | .setCuePort _ | .resetCuePort _
  | .readAuditorium _ | .readStream _ => some 16
  | .setFilter _ | .setLink _ | .resetLinkPort _ | .readLink _ => some 4
  | _ => none

/-- An argument byte names no slot, no yes or no, or no auditorium, where the command's first byte is not the one (R163, R174). -/
def namesNothing : Instr → Bool
  | .openStream b | .closeStream b | .readStream b => decide (6 ≤ (b.getD 1 0).toNat)
  | .setGate b => decide (2 ≤ (b.getD 1 0).toNat)
  | .registerReceiver b => decide (16 ≤ (b.getD 4 0).toNat)
  | _ => false

/-- The commands that name an instant of the time base, with the test that the instant has come (R9, R12, R13, R20, R49, R53,
R58, R75, R91, R93, R127, R133, R139, R154); none for the other commands. -/
def State.dueTest (s : State) : Instr → Option Bool
  | .subStep a => some (s.subStepDue a)
  | .strobeLoss a => some (s.lossDue a)
  | .syntheticStrobe a => some (s.syntheticDue a)
  | .staleEvent a => some (s.staleDue a)
  | .gap a => some (s.gapDue a)
  | .assemblerResumes a => some (s.resumeDue a)
  | .insertionPlaces a => some (s.placingDue a).isSome
  | .cellFreed a => some (s.cellDue a)
  | .purgeStep a => some (s.stepDue a).isSome
  | .replySent a => some (s.replyDue a)
  | .fillEnds p => some (s.fillDue p).isSome
  | .silenceTimerExpires p => some (s.silenceDue p)
  | .beaconTimerExpires p => some (s.beaconDue p)
  | .secondTimerExpires => some s.secondDue
  | _ => none

/-- The cues that an insertion's walk still examines, the present step's among them (R75, R76): the one under examination and those after it
that are in the queue, up to the first that starts at or before the new cue. -/
def Walk.examined (w : Walk) (start : Nat) (q : List Cue) : Nat :=
  match w.current with
  | none => 0
  | some x =>
    let places := x :: w.todo.filter (fun y => (Machine.findCue y q).isSome)
    min (places.findIdx (fun y => (Machine.findCue y q).any (fun d => decide (d.start ≤ start))) + 1) places.length

/-- The instant of a time-driven command has come, in the manual's own figures: e, E_u and tpf for the show clock (R9, R12, R13), ticks of
12,288 base counts (R20, R127), 200 base counts for a walk step (R75, R93), 16 for a cell (R91), the fill's end (R133), the timer's reload
(R139) and 14,745,600 base counts for a second (R154). -/
def State.fallsDue (s : State) : Instr → Prop
  | .subStep a => (s.session a).state.isRunning = true ∧ (s.showRun a).subFrozen = false ∧ 0 < (s.clock a).period ∧
      ∃ r, (s.clock a).rate = some r ∧ (s.clock a).sub + 1 < r.tpf ∧
        (((s.clock a).sub + 1) * (s.clock a).period + r.tpf - 1) / r.tpf ≤ min (s.now - (s.clock a).ref) 4294967295
  | .strobeLoss a => (s.session a).state = .running ∧ 0 < (s.clock a).period ∧
      3 * (s.clock a).period / 2 ≤ min (s.now - (s.clock a).ref) 4294967295
  | .syntheticStrobe a => (s.session a).state = .coasting ∧ 0 < (s.clock a).period ∧
      (s.clock a).period ≤ min (s.now - (s.clock a).ref) 4294967295
  | .staleEvent a => (s.session a).state = .paused ∧ (s.showRun a).staleMark = false ∧ (s.clock a).staleLimit ≠ 0 ∧
      ∃ start, (s.showRun a).pauseStart = some start ∧ (s.clock a).staleLimit ≤ min ((s.now - start) / 12288) 16777215
  | .gap a => ∃ t, (s.cuePort a).gapTimer = some t ∧ t.start + t.length ≤ s.now
  | .assemblerResumes a => (∀ c w, (s.intake a).context ≠ .inserting c w) ∧ (s.store a).purge = none ∧
      ((s.store a).freeing = [] ∧ (s.cuePort a).queue ≠ [] ∨
        (∀ r ∈ (s.store a).freeing, r.tag ≠ .intake) ∧ (s.intake a).deferred ≠ [])
  | .insertionPlaces a => ∃ c w, (s.intake a).context = .inserting c w ∧
      w.stepStart + 200 * (w.examined c.start (s.stream c.stream).queue + 1) ≤ s.now
  | .cellFreed a => (s.store a).freeing ≠ [] ∧ (s.store a).cellStart + 16 ≤ s.now
  | .purgeStep a => ∃ p x, (s.store a).purge = some p ∧ p.current = some x ∧ p.stepStart + 200 ≤ s.now
  | .replySent a => ∃ t, (s.cuePort a).transmission = some t ∧
      t.boundary + t.left * ((if t.parity = .none then 10 else 11) * 16 * t.divisor) ≤ s.now
  | .fillEnds p => ∃ b f e, pick (s.link p).buffers b = .filling f e ∧ e ≤ s.now ∧
      ∀ c, c < b → ∀ g x, pick (s.link p).buffers c ≠ .filling g x
  | .silenceTimerExpires p => (s.link p).state = .serving ∧ (s.link p).silenceLimit ≠ 0 ∧
      ∃ start, (s.link p).silenceStart = some start ∧ start + (s.link p).silenceLimit * 12288 ≤ s.now
  | .beaconTimerExpires p => (s.link p).state = .serving ∧ ∃ t, (s.link p).beaconDue = some t ∧ t ≤ s.now
  | .secondTimerExpires => s.table.secondStart + 14745600 ≤ s.now
  | _ => False

/-- The commands that can change a receiver's entry (R149 to R156, DEVICE_RESET). -/
def changesReceivers : Instr → Bool
  | .deviceReset | .report _ _ | .registerReceiver _ | .releaseReceiver _ | .secondTimerExpires => true
  | _ => false

/-- The commands that can change what the receiver table holds device-wide (R148, R155, R159, R168). -/
def changesTable : Instr → Bool
  | .setReceiverPolicy _ | .takeLost _ | .readCounters _ => true
  | i => changesReceivers i

/-- The commands that can change a show clock's fields of `State.clocks`: strobes, what the clock does of itself, whatever can bring a MARK
or an entry into RUNNING, CONFIGURE, ARM, DISARM and DEVICE_RESET (R3, R4, R8). -/
def changesClocks : Instr → Bool
  | .deviceReset | .strobe _ | .subStep _ | .strobeLoss _ | .syntheticStrobe _ | .runChange _ _ | .setGate _
  | .configureAuditorium _ | .arm _ | .disarm _ => true
  | .character _ _ _ _ | .lineBreak _ | .gap _ | .assemblerResumes _ | .cellFreed _ | .purgeStep _ => true
  | .damagedRecord _ _ | .unknownKind _ _ _ | .mark _ _ | .head _ _ | .body _ _ | .withdraw _ _ | .endRecord _ _
  | .query _ _ => true
  | _ => false

/-- The commands that can change a show clock's fields of `State.runs`: those that can change a clock, CONFIGURE apart and STALE_EVENT with
them, and whatever can let a cue leave its queue, by release, by a purge or by a fill that some port begins, and so end a show (R3, R36,
R38, R114). -/
def changesRuns : Instr → Bool
  | .staleEvent _ | .insertionPlaces _ | .fillEnds _ | .pull _ _ | .doneSent _ | .doneAborted _ | .alignStart _ | .alignEndPass _
  | .silenceTimerExpires _ | .beaconTimerExpires _ | .closeStream _ | .resetLinkPort _ => true
  | .configureAuditorium _ => false
  | i => changesClocks i

/-! ### Freeing, release and fills, as chapters 5 to 7 give them

What release makes of one cue, written from R91, R92 and R105 to R114 for a cue alone in its stream's queue. -/

/-- Port `p` can begin no fill, whatever it may come to owe: it is not SERVING, has a fill in progress, or has no EMPTY buffer (R131). -/
def State.portBusy (s : State) (p : Port) : Prop :=
  (s.link p).state = .serving →
    (∃ b f e, pick (s.link p).buffers b = .filling f e) ∨ ∀ b, pick (s.link p).buffers b ≠ .empty

/-- No link port can begin a fill. -/
def State.ringsBusy (s : State) : Prop := ∀ p, s.portBusy p

/-- Only cue `c` is in the auditorium's six queues, in stream `n`'s. -/
def State.onlyCue (s : State) (n : StreamNo) (c : Cue) : Prop :=
  (s.stream n).queue = [c] ∧ ∀ m, m ≠ n → audOfStream m = audOfStream n → (s.stream m).queue = []

/-- What release does in the auditorium brings about nothing else: no purge, no insertion, no ending mark, no fill that could begin. -/
def State.calm (s : State) (a : Aud) : Prop :=
  (s.store a).purge = none ∧ s.insertionRuns a = false ∧ (s.session a).ending = false ∧ s.ringsBusy

/-- The cue that a place of a walk names is still in its queue (R93, R94). -/
def State.inQueue (s : State) (a : Aud) (x : Slot × Seq) : Prop := ∃ d ∈ (s.stream (streamOf a x.1)).queue, d.seq = x.2

/-- The cues of the auditorium's six queues as places of a walk: slots 0 to 5, each from head to tail (R93). -/
def State.sixQueues (s : State) (a : Aud) : List (Slot × Seq) :=
  (List.finRange 6).flatMap (fun k => (seqs (s.stream (streamOf a k)).queue).map (fun x => (k, x)))

/-- A jump, saturation or teardown purge as it stands when it has begun now, its walk to examine every cue of the six queues (R93): the first
step examines the first of them; or it waits, for the cells of the cue in progress or for the freeing unit (R100, R101). -/
def State.wholeWalk (s : State) (a : Aud) (kind : PurgeKind) (waiting : Bool) : Purge :=
  let places := s.sixQueues a
  { kind := kind, todo := if waiting then places else places.tail, current := if waiting then none else places.head?
    stepStart := s.now, waiting := waiting }

/-- A stream's queue replaced. -/
def State.withQueue (s : State) (n : StreamNo) (q : List Cue) : State :=
  { s with streams := change s.streams n (fun st => { st with queue := q }) }

/-- The stream's frame number has been taken (R86). -/
def State.numbered (s : State) (n : StreamNo) : State :=
  { s with streams := change s.streams n (fun st => { st with frameSeq := st.frameSeq + 1 }) }

/-- A freeing request for `k` cells has joined the auditorium's freeing unit (R91). -/
def State.freeingAsked (s : State) (a : Aud) (k : Nat) (tag : FreeTag) : State :=
  { s with stores := change s.stores a (fun st => { st with
      freeing := st.freeing ++ [{ cells := k, tag := tag }]
      cellStart := if st.freeing = [] then s.now else st.cellStart }) }

/-- The cue alone in its queue has left it, all its cells asked to be freed (R92). -/
def State.lastLeaves (s : State) (n : StreamNo) (c : Cue) : State :=
  (s.withQueue n []).freeingAsked (audOfStream n) (1 + c.heldBodies) .none

/-- Each port of `ps` has been charged with a lapsed item (R112). -/
def State.lapses (s : State) (ps : List Port) : State :=
  { s with linkCounters := Vector.ofFn (fun p =>
      { pick s.linkCounters p with lapsed := bumpBy (ps.count p) (pick s.linkCounters p).lapsed }) }

/-- The cue alone in its queue has been expired, `ps` being the ports outstanding (R111, R112). -/
def State.cueExpires (s : State) (n : StreamNo) (c : Cue) (ps : List Port) : State :=
  (State.lapses { s with audCounters := change s.audCounters (audOfStream n) (fun k => { k with expired := bump k.expired }) } ps).lastLeaves
    n c

/-- The auditorium's unrouted counter has counted an item (R107, R113). -/
def State.unroutedCounted (s : State) (a : Aud) : State :=
  { s with audCounters := change s.audCounters a (fun k => { k with unrouted := bump k.unrouted }) }

/-- The due record of an item that falls due on stream `n` now (R105, R113). -/
def State.newDue (s : State) (n : StreamNo) : DueRecord :=
  { number := (s.stream n).frameSeq, pending := s.carriers n, staged := false }

/-- A QUEUED caption, alone in its queue, at an instant of release (R105, R107): nothing before P + lead reaches T; expired where it is
over; on the air at once where no port carries the stream; else DUE. -/
def State.captionReleased (s : State) (n : StreamNo) (c : Cue) : State :=
  let p := s.position (audOfStream n)
  if p + (s.stream n).lead < c.start then s
  else if c.start + c.length ≤ p then s.cueExpires n c []
  else if s.carriers n = [] then (((s.numbered n).withQueue n [{ c with life := .onAir }]).unroutedCounted (audOfStream n))
  else (s.numbered n).withQueue n [{ c with life := .due, due := some (s.newDue n) }]

/-- The body cell of a narration cue's current block is still held (R92). -/
def Cue.holdsBlock (c : Cue) : Prop := (c.bodies[c.cursor]?).join.isSome = true

/-- The cue one block on: no due record, the body entry spent (R114). -/
def Cue.oneBlockOn (c : Cue) : Cue := { c with due := none, bodies := c.bodies.set c.cursor none, cursor := c.cursor + 1 }

/-- The current block of narration cue `c`, alone in its queue, is finished with (R114): the skip counter counts it where it was skipped, its
cell is freed, and the cursor advances; after the last block the cue leaves with its head cell. -/
def State.blockPassed (s : State) (n : StreamNo) (c : Cue) (skipped : Bool) : State :=
  let a := audOfStream n
  let t : State := if skipped then { s with audCounters := change s.audCounters a (fun k => { k with skip := bump k.skip }) } else s
  if c.length ≤ c.cursor + 1 then t.lastLeaves n c
  else if (c.bodies[c.cursor]?).join.isSome then (t.withQueue n [c.oneBlockOn]).freeingAsked a 1 .none
  else t.withQueue n [c.oneBlockOn]

/-- The current block of narration cue `c`, alone in its queue, at an instant of release (R113): nothing before P + lead reaches its start, and
nothing ever where that start lies beyond 43,199,999 (R68 against R113: log entry 41);
else the cue is PLAYING, and the block is skipped whole where it is over or spent, unrouted where no port carries the stream, else due. -/
def State.blockReleased (s : State) (n : StreamNo) (c : Cue) : State :=
  let p := s.position (audOfStream n)
  let d : Cue := { c with life := .playing }
  if p + (s.stream n).lead < c.start + 24 * c.cursor ∨ 43199999 < c.start + 24 * c.cursor then s
  else if c.start + 24 * (c.cursor + 1) ≤ p ∨ (c.bodies[c.cursor]?).join.isSome = false then s.blockPassed n d true
  else if s.carriers n = [] then ((s.numbered n).unroutedCounted (audOfStream n)).blockPassed n d false
  else (s.numbered n).withQueue n [{ d with due := some (s.newDue n) }]

/-- Release looks at no block of `c` after the current one: it is the last, or the next has not reached its release time or never does (log
entry 41), or the current one falls due (R68, R113, R114). -/
def State.oneLook (s : State) (n : StreamNo) (c : Cue) : Prop :=
  let p := s.position (audOfStream n)
  c.length ≤ c.cursor + 1 ∨ p + (s.stream n).lead < c.start + 24 * (c.cursor + 1) ∨ 43199999 < c.start + 24 * (c.cursor + 1) ∨
    (p < c.start + 24 * (c.cursor + 1) ∧ c.holdsBlock ∧ s.carriers n ≠ [])

/-- A QUEUED cue, alone in its queue and without a due record, at an instant of release. -/
def State.cueReleased (s : State) (n : StreamNo) (c : Cue) : State :=
  match c.kind with
  | .caption => s.captionReleased n c
  | .narration => s.blockReleased n c

/-- An instant of release leaves cue `d` of stream `n` as it is (R105, R113): a QUEUED caption, or a narration block without a due record, has
not reached its release time, or the block starts beyond 43,199,999 (R68; log entry 41). -/
def State.waits (s : State) (n : StreamNo) (d : Cue) : Prop :=
  let p := s.position (audOfStream n) + (s.stream n).lead
  match d.kind with
  | .caption => d.life = .queued → p < d.start
  | .narration => d.due = none → p < d.start + 24 * d.cursor ∨ 43199999 < d.start + 24 * d.cursor

/-- The filters of port `p` that accept stream `n`, as R129 says. -/
def State.filterTakes (s : State) (p k : Port) (n : StreamNo) : Prop :=
  let f := pick (s.link p).filters k
  f.auditoriums.getLsbD (audOfStream n).val = true ∧
    f.kinds.getLsbD (match (s.stream n).kind with | .caption => 0 | .narration => 1) = true ∧
    (f.language = none ∨ f.language = some (s.stream n).language)

/-- The fill of `f` into buffer `b` of port `p` has begun: 4 base counts for each byte of the frame (R133). -/
def State.filling (s : State) (p : Port) (b : BufNo) (f : Frame) : State :=
  { s with links := change s.links p (fun l => { l with
      buffers := change l.buffers b (fun _ => .filling f (s.now + 4 * f.bytes.length)) }) }

/-- Port `p` is owed a copy of cue `c` of stream `n`, and the auditorium is not DARK: a candidate of the kind and life named (R132). -/
def State.candidateCue (s : State) (p : Port) (kind : CueKind) (life : Life) (n : StreamNo) (c : Cue) : Prop :=
  (s.session (audOfStream n)).state ≠ .dark ∧ c ∈ (s.stream n).queue ∧ c.kind = kind ∧ c.life = life ∧ ∃ d, c.due = some d ∧ p ∈ d.pending

/-- Port `p` is owed a clear of stream `n`, and the auditorium is not DARK (R117, R132). -/
def State.candidateClear (s : State) (p : Port) (n : StreamNo) : Prop :=
  (s.session (audOfStream n)).state ≠ .dark ∧ p ∈ (s.stream n).clearOwed

/-- The lowest-numbered filter of port `p` that accepts stream `n`, or none (R129). -/
def State.lowestFilter (s : State) (p : Port) (n : StreamNo) (k : Option Port) : Prop :=
  match k with
  | some k => s.filterTakes p k n ∧ ∀ j, j < k → ¬ s.filterTakes p j n
  | none => ∀ j, ¬ s.filterTakes p j n

/-! ### The show clock (R3, R7, R9, R11) -/

/-- A period in use lies in the acceptance band of its nominal period (R7). -/
def Rate.inBand (r : Rate) (e : Nat) : Prop := (e - r.nominal) * 1000 ≤ r.nominal ∧ (r.nominal - e) * 1000 ≤ r.nominal

/-- A show clock's fields lie in the ranges of R3. -/
def Clock.wf (c : Clock) : Prop :=
  c.base ≤ Config.maxPosition ∧ c.lastHold ≤ Config.maxElapsed ∧ c.windowSize ∈ [8, 16, 32, 64] ∧ c.staleLimit ≤ 65535 ∧
  match c.rate with
  | none => c.period = 0 ∧ c.base = 0 ∧ c.sub = 0 ∧ c.lastHold = 0
  | some r => c.sub < r.tpf ∧ r.inBand c.period

/-- A run part's fields lie in the ranges of R3 under window size `w`: the pause hold, and the strobes an open window has counted;
no window is open where the auditorium is DARK (R6, R22). -/
def ShowRun.wf (r : ShowRun) (w : Nat) (dark : Prop) : Prop :=
  r.pauseHold ≤ Config.maxPause ∧ ∀ k start, r.window = .opened k start → k < w ∧ ¬ dark

/-- Every show clock is in range, and holds a rate code exactly while its auditorium is not DARK (R2, R3). -/
def State.clocksWf (s : State) : Prop :=
  ∀ a, (s.clock a).wf ∧ ((s.session a).state = .dark ↔ (s.clock a).rate = none) ∧
    (s.showRun a).wf (s.clock a).windowSize ((s.session a).state = .dark)

/-! ### The cue store (R89) -/

/-- The sixteen quotas' sum. -/
def State.quotaTotal (s : State) : Nat := (auds.map (fun a => (s.store a).quota)).sum

/-- The sum of the sixteen quotas never exceeds 8,192 (R89). -/
def State.quotasWf (s : State) : Prop := s.quotaTotal ≤ Config.cells

/-! ### The cue ports (R47, R57) -/

/-- No receive queue holds more than 32 entries, and no reply queue more than 8 (R47, R57). -/
def State.cueQueuesWf (s : State) : Prop :=
  ∀ a, (s.cuePort a).queue.length ≤ 32 ∧ (s.cuePort a).replies.length ≤ 8

/-! ### The stream queues (R69, R75) -/

/-- Every stream queue is ordered by start time, never decreasing from head to tail (R75). -/
def State.queuesOrdered (s : State) : Prop := ∀ n, ((s.stream n).queue.map Cue.start).Pairwise (· ≤ ·)

/-- The cue an auditorium's intake holds in ASSEMBLING: open, or walking to its place (R62). -/
def Context.cue : Context → Option Cue
  | .opened c _ | .inserting c _ => some c
  | .idle | .skipping _ => none

/-- Two narration cues whose spans overlap (R69). -/
def Cue.clashes (c d : Cue) : Bool := c.kind == .narration && d.kind == .narration && c.overlaps d

/-- No stream queue holds two cues with one sequence number, and no two narration cues of a stream overlap (R69); the cue that an
intake holds could join its queue so, and is of its own auditorium. -/
def State.cuesDistinct (s : State) : Prop :=
  (∀ n, (seqs (s.stream n).queue).Nodup ∧ (s.stream n).queue.Pairwise (fun c d => c.clashes d = false)) ∧
  ∀ a c, (s.intake a).context.cue = some c →
    audOfStream c.stream = a ∧ c.seq ∉ seqs (s.stream c.stream).queue ∧ ∀ d ∈ (s.stream c.stream).queue, c.clashes d = false

/-! ### The cells (R88, R90) -/

/-- The cells an auditorium holds, as R90 counts them: of the cues in its queues, of the cue in ASSEMBLING or INSERTING, and of those
that wait to be returned. -/
def State.cellsOf (s : State) (a : Aud) : Nat :=
  (slots.map (fun k => ((s.stream (streamOf a k)).queue.map Cue.cells).sum)).sum +
    ((s.intake a).context.cue.map Cue.cells).getD 0 + ((s.store a).freeing.map FreeRequest.cells).sum

/-- What a DARK auditorium holds (R90, R93, R101): no cue in progress, no saturation purge owed, and no cell, but while its teardown runs, whose walk still names every
cue queued. -/
def State.darkCells (s : State) (a : Aud) : Prop :=
  (s.intake a).context.cue = none ∧ (s.store a).saturationOwed = false ∧
  match (s.store a).purge with
  | none => (s.store a).used = 0
  | some p => p.kind = .teardown ∧
      ∀ k, ∀ c ∈ (s.stream (streamOf a k)).queue, (k, c.seq) ∈ p.todo ∨ p.current = some (k, c.seq)

/-- The law of the cue store (R88, R90): every used count is the number of cells the auditorium holds, and at most its quota; the used counts
and the free count make 8,192. It stands because a cue that is open has its outstanding bodies within the quota (R70), because a DARK
auditorium, whose quota can change, holds no cell (R89, R101), because a body's skipping context is taken before any other record
that waits (R74), because a freeing request names at least one cell (R91), and because a saturation purge is owed only while another purge
runs (R93). -/
def State.cellsWf (s : State) : Prop :=
  s.quotasWf ∧ s.cuesDistinct ∧ (auds.map (fun a => (s.store a).used)).sum + s.freeCells = 8192 ∧
  ∀ a, (s.store a).used = s.cellsOf a ∧ (s.store a).used ≤ (s.store a).quota ∧
    (∀ c owed, (s.intake a).context = .opened c owed → 1 ≤ owed ∧ (s.store a).used + owed ≤ (s.store a).quota) ∧
    (∀ q ∈ (s.store a).freeing, 1 ≤ q.cells) ∧ ((s.store a).saturationOwed = true → (s.store a).purge ≠ none) ∧
    (∀ n, .skip n ∉ (s.intake a).deferred.tail ∧ ((s.intake a).deferred.head? = some (.skip n) → (s.intake a).context.cue = none)) ∧
    ((s.session a).state = .dark → s.darkCells a)

/-! ### The staging rings (R126) -/

def Buffer.isSending : Buffer → Bool
  | .sending _ => true
  | _ => false

/-- A port that is not SERVING holds no frames, and at most one of a port's three frames is SENDING (R126). -/
def State.ringsWf (s : State) : Prop :=
  ∀ p, ((s.link p).state ≠ .serving → ∀ b, pick (s.link p).buffers b = .empty) ∧
    (∀ b, (pick (s.link p).buffers b).isSending = true → (s.link p).exchange = .buffer b)

/-! ### The receiver table (R148, R152, R158) -/

/-- A receiver's fields agree with its state (R148, R152). -/
def Receiver.wf (r : Receiver) : Prop :=
  match r.state with
  | .free => r = {}
  | .good => r.health ≤ 127 ∧ r.cleanRun = 0 ∧ r.age ≤ 255
  | .degraded => 128 ≤ r.health ∧ r.health ≤ 254 ∧ r.cleanRun = 0 ∧ r.age ≤ 255
  | .lost => r.health ≤ 255 ∧ r.cleanRun ≤ 15 ∧ r.age ≤ 255

def State.receiversWf (s : State) : Prop := ∀ i, (s.rx i).wf

/-- Receiver `r` is DEGRADED and subscribes to the stream of slot `k` of auditorium `a` (R87). -/
def Receiver.struggles (r : Receiver) (a : Aud) (k : Slot) : Bool :=
  r.state == .degraded && r.auditorium == a && r.slots.getLsbD k.val

/-- Each stream's degraded-subscriber count is the number of DEGRADED receivers that subscribe to it (R87). -/
def State.degradedCountsWf (s : State) : Prop :=
  ∀ a k, (s.stream (streamOf a k)).degraded = (rxIndexes.filter (fun i => (s.rx i).struggles a k)).length

/-- The lost list holds 0 to 16 entries, no index twice (R158). -/
def State.lostListWf (s : State) : Prop := s.table.lost.length ≤ 16 ∧ s.table.lost.Nodup

/-- The indexes of `l`, none of them in the lost list, have been offered to it in that order (R158): they join the tail while there is room,
LOST is raised at the change from empty to one, and each that finds the list full sets the overflow flag and raises LOST-OVERFLOW. -/
def State.lostOffered (s t : State) (l : List RxIndex) : Prop :=
  let room := 16 - s.table.lost.length
  t.table.lost = s.table.lost ++ l.take room ∧ t.table.overflow = (s.table.overflow || decide (room < l.length)) ∧
  t.attention.table = Nat.repeat (fun r => r.raise kindLostOverflow) (l.length - room)
    (if s.table.lost = [] ∧ l ≠ [] then s.attention.table.raise kindLost else s.attention.table)

end Sys2Proof.Machine
end

