-- ==== Sys2Proof/Certificates/Slice0/Obligations.lean ====
section
/-! DEFINITION. The statements about the model, in the order of `OBLIGATIONS.json`: the machine as a whole, then the show clock and
the session, the cue port, the intake and the store, the link ports, the receiver table, and the management port. -/

open Sys2Proof Sys2Proof.Machine

/-! ### The machine -/

/-- A step runs the command at the front of the queue on the state with the rest of the queue. -/
def Obligations.StepRunsFrontCommand : Prop :=
  ∀ (c : Instr) (rest : List Instr) (s : State), s.pending = c :: rest → step s = exec c { s with pending := rest }

/-- Every command is answered with a next state. That the queue is as it was, DEVICE_RESET's included, and that only DEVICE_RESET moves the
time base are the model's choices: log entries 1 and 20. -/
def Obligations.EveryCommandAnswersNext : Prop :=
  ∀ (i : Instr) (s : State), ∃ t, exec i s = .next t ∧ t.pending = s.pending ∧ (i ≠ .deviceReset → t.now = s.now)

/-- With no command waiting, the part hands itself the commands whose instant has come, each once and in some order, or, with none, one
base count passes; a command that names an instant changes nothing while that instant has not come. The model's choices: log entries 1,
2 and 3. When each instant has come is said in the manual's figures (R9, R12, R13, R20, R49, R53, R58, R75, R91, R93, R127, R133, R139, R154). -/
def Obligations.TimeDrivenCommands : Prop :=
  (∀ s : State, s.pending = [] →
    (∀ i, i ∈ s.readyEvents ↔ s.dueTest i = some true) ∧ s.readyEvents.Nodup ∧
    ((s.readyEvents = [] ∧ step s = .next { s with now := s.now + 1 }) ∨
      ∃ l k, l.Perm s.readyEvents ∧ l ≠ [] ∧ step s = .next { s with pending := l, draws := s.draws + k })) ∧
  (∀ (i : Instr) (s : State), s.dueTest i = some false → exec i s = .next s) ∧
  ∀ (i : Instr) (s : State), s.dueTest i = some true ↔ s.fallsDue i

/-- DEVICE_RESET puts every block into its reset state (R3, R24, R44, R46 to R50, R62, R82, R88 to R90, R103 for the clear number and the
waiting stale resume, R122, R148, R162, R169), and a receive line that is low must first go high (R60). That the RUN and CUE_RX pins keep
their levels is the model's choice: log entries 4 and 20. -/
def Obligations.DeviceResetState : Prop :=
  ∀ s : State, ∃ t, exec .deviceReset s = .next t ∧
    (∀ a, t.clock a = { rate := none, windowSize := 16, staleLimit := 0, ref := t.now, lastHold := 0, period := 0, base := 0, sub := 0 } ∧
      t.showRun a = { window := .closed, subFrozen := true, pauseStart := none, pauseHold := 0, staleMark := false, strobedAt := none } ∧
      t.session a = { state := .dark, ending := false, gate := false } ∧
      (t.audCounter a).bytes = List.replicate 24 0 ∧
      (t.cuePort a).queue = [] ∧ (t.cuePort a).replies = [] ∧ (t.cuePort a).flowPlace = none ∧ (t.cuePort a).gapTimer = none ∧
      (t.cuePort a).framing = .between ∧ (t.cuePort a).damaged = false ∧ (t.cuePort a).divisor = 8 ∧ (t.cuePort a).parity = .none ∧
      (t.cuePort a).transmission = none ∧ (t.cuePort a).holdOutstanding = false ∧
      (t.cuePort a).receiver = (if s.rxHigh a then .idle else .waitHigh false) ∧
      (t.intake a).context = .idle ∧ (t.intake a).deferred = [] ∧
      (t.store a).quota = 0 ∧ (t.store a).used = 0 ∧ (t.store a).freeing = [] ∧ (t.store a).purge = none ∧
      (t.store a).saturationOwed = false ∧ (t.store a).staleWaiting = none ∧ (t.store a).closeWaiting = none) ∧
    (∀ n, t.stream n = { isOpen := false, kind := .caption, language := 0, lead := 0, queue := [], degraded := 0, clearOwed := [],
                         frameSeq := 0, clearNumber := 0 }) ∧
    t.freeCells = 8192 ∧
    (∀ p, (t.link p).state = .down ∧ (∀ k, pick (t.link p).filters k = { auditoriums := 0, kinds := 0, language := none }) ∧
      (∀ b, pick (t.link p).buffers b = .empty) ∧ (t.link p).readyQueue = [] ∧ (t.link p).exchange = .closed ∧
      (t.link p).lastSlot = 0 ∧ (t.link p).beaconPeriod = 120 ∧ (t.link p).beaconDue = none ∧ (t.link p).beaconOwed = false ∧
      (t.link p).silenceLimit = 0 ∧ (t.link p).silenceStart = none ∧
      (∀ k, pick (t.link p).probe.slots k = none) ∧ (t.link p).probe.writePtr = 0 ∧ (t.link p).probe.readPtr = 0 ∧
      (t.link p).probe.writeCount = 0 ∧ (t.linkCounter p).bytes = List.replicate 20 0) ∧
    (∀ i, t.rx i = { state := .free, id := 0, auditorium := 0, slots := 0, health := 0, cleanRun := 0, age := 0 }) ∧
    t.table = { silenceLimit := 0, secondStart := t.now, lost := [], overflow := false, unknown := 0, mismatch := 0 } ∧
    t.attention.bytes = List.replicate 45 0 ∧ t.attentionLine = false ∧ t.mgmt.transport = .idle ∧
    t.runPins = s.runPins ∧ t.rxPins = s.rxPins

/-- Right after reset, every law of the machine holds. -/
def Obligations.ResetIsSafe : Prop :=
  State.reset.clocksWf ∧ State.reset.quotasWf ∧ State.reset.cueQueuesWf ∧ State.reset.queuesOrdered ∧ State.reset.cuesDistinct ∧
  State.reset.cellsWf ∧ State.reset.ringsWf ∧ State.reset.receiversWf ∧ State.reset.lostListWf ∧ State.reset.degradedCountsWf

/-- Every step keeps every show clock within the ranges of R3 and R7: B and the last hold at their saturation values at most, W one of 8, 16,
32 and 64, L at most 65,535, sub below tpf, E_u in the acceptance band, the pause hold at most 16,777,215, the strobes an open window has
counted below W; with no rate code, sub, B, H and E_u are 0; and a rate code is held exactly while the auditorium is not DARK. -/
def Obligations.StepKeepsClocks : Prop :=
  ∀ s t : State, s.clocksWf → step s = .next t → t.clocksWf

/-- Every step keeps the sum of the sixteen quotas at or below 8,192 (R89), and the receive queues within 32 entries and the reply queues
within eight (R47, R57); and the law of the cue store: each used count is the number of cells the auditorium holds and never above its quota,
and the used counts and the free count always make 8,192 (R88, R90). -/
def Obligations.StepKeepsQuotasAndCueQueues : Prop :=
  (∀ s t : State, s.quotasWf → step s = .next t → t.quotasWf) ∧
  (∀ s t : State, s.cueQueuesWf → step s = .next t → t.cueQueuesWf) ∧
  (∀ s t : State, s.cellsWf → step s = .next t → t.cellsWf)

/-- Every step keeps every stream queue ordered by start time (R75), its sequences distinct and its narration cues apart (R69). -/
def Obligations.StepKeepsStreamQueues : Prop :=
  (∀ s t : State, s.queuesOrdered → step s = .next t → t.queuesOrdered) ∧
  (∀ s t : State, s.cuesDistinct → step s = .next t → t.cuesDistinct)

/-- Every step keeps a port that is not SERVING without frames, and at most one frame SENDING on a port (R126). -/
def Obligations.StepKeepsRings : Prop :=
  ∀ s t : State, s.ringsWf → step s = .next t → t.ringsWf

/-- Every step keeps every receiver's fields in agreement with its state and the lost list within 16 different indexes (R148, R152, R158),
and each stream's degraded-subscriber count equal to the number of DEGRADED receivers that subscribe to it (R87). -/
def Obligations.StepKeepsReceiverTable : Prop :=
  (∀ s t : State, s.receiversWf → s.lostListWf → step s = .next t → t.receiversWf ∧ t.lostListWf) ∧
  (∀ s t : State, s.degradedCountsWf → step s = .next t → t.degradedCountsWf)

/-- The receivers, the table and the show clocks are changed by the commands that own them and by no other: of R3's clock, the rate, tpf, N, W
and L, E_u, H, the reference instant, B and sub (`State.clocks`); and the window, the sub-frozen flag, the pause count and hold and the stale
mark (`State.runs`), which whatever can end a show changes too. -/
def Obligations.WhoChangesWhat : Prop :=
  ∀ (i : Instr) (s t : State), exec i s = .next t →
    (changesReceivers i = false → t.receivers = s.receivers) ∧ (changesTable i = false → t.table = s.table) ∧
    (changesClocks i = false → t.clocks = s.clocks) ∧ (changesRuns i = false → t.runs = s.runs)

/-! ### The show clock and the session -/

/-- A strobe outside RUNNING and COASTING moves the reference instant and does nothing else (R4, R5). In COASTING the auditorium is RUNNING
again with a new window; before half a period the strobe is the late edge of a frame already supplied, and B stands, else B advances
(R10, R14). -/
def Obligations.StrobeOutsideRunning : Prop :=
  (∀ (a : Aud) (s : State), (s.session a).state ≠ .running → (s.session a).state ≠ .coasting →
    exec (.strobe a) s = .next { s with clocks := change s.clocks a (fun c => { c with ref := s.now }) }) ∧
  (∀ (a : Aud) (r : Rate) (s : State), (s.session a).state = .coasting → (s.clock a).rate = some r →
    ∃ t, exec (.strobe a) s = .next t ∧ s.onlyShow t a ∧
      t.clock a = (if min (s.now - (s.clock a).ref) 4294967295 < (s.clock a).period / 2 then { s.clock a with ref := s.now }
        else { s.clock a with ref := s.now, base := min ((s.clock a).base + r.tpf) 43199999, sub := 0 }) ∧
      s.movesTo t a { s.showRun a with
          window := .opened 0 s.now, subFrozen := false
          strobedAt := if min (s.now - (s.clock a).ref) 4294967295 < (s.clock a).period / 2 then (s.showRun a).strobedAt else some s.now }
        { s.session a with state := .running } ∧
      (t.audCounter a).own = (s.audCounter a).own ∧ (t.position a = 43199999 → (t.session a).state = .ended))

/-- A strobe in RUNNING: B advances by tpf, saturating; sub starts afresh; the window opens, counts or completes, and a completed
window's estimate is accepted or counted as a rate fault (R4, R6 to R8, R10). A saturated position ends the show (R37): ENDED is raised and
clears become owed (R38). With every cue QUEUED and no fill to begin, the saturation purge takes the cue in progress first, refused
BROKEN-CUE, its cells to the freeing unit and its context closed or skipping (R77, R100), and else begins its walk of every cue of the six queues, slots 0
to 5, each from head to tail; where a purge runs the saturation purge is owed (R93). The model's choices: that no QUEUED cue falls due or is expired at the saturating P (log entry 12), that
the walk waits for the cells of the cue in progress (log entry 14), and that the purge ends with the freeing unit empty (log entry 13). -/
def Obligations.StrobeRunning : Prop :=
  (∀ (a : Aud) (r : Rate) (s : State), (s.session a).state = .running → (s.clock a).rate = some r →
    43199999 ≤ (s.clock a).base + r.tpf → s.ringsBusy → (∀ k, ∀ c ∈ (s.stream (streamOf a k)).queue, c.life = .queued) →
    (s.cueInProgress a = false → (s.store a).closeWaiting = none) →
    ∃ t, exec (.strobe a) s = .next t ∧ (t.session a).state = .ended ∧ t.raised a kindEnded ∧
      (∀ n, t.stream n = (s.oweClears a).stream n) ∧
      (∀ p, (s.store a).purge = some p → t.stores = change s.stores a (fun st => { st with saturationOwed := true }) ∧
        t.intakes = s.intakes) ∧
      ((s.store a).purge = none →
        (s.cueInProgress a = false → t.intakes = s.intakes ∧ t.cuePorts = s.cuePorts ∧ (t.store a).freeing = (s.store a).freeing ∧
          (s.queuesEmpty a = false → (t.store a).purge = some (s.wholeWalk a .saturation false)) ∧
          (s.queuesEmpty a = true → (t.store a).purge =
            if (s.store a).freeing = [] then none else some (s.wholeWalk a .saturation true))) ∧
        (∀ c, (s.intake a).context.cue = some c →
          t.intakes = change s.intakes a (fun i => { i with context := match i.context with
            | .opened _ owed => .skipping (some owed)
            | _ => .idle }) ∧
          (t.audCounter a).refused = bump (s.audCounter a).refused ∧
          (s.cuePort a).gainsReply (t.cuePort a) (.refuse headCode c.seq .brokenCue) ∧
          (t.store a).freeing = (s.store a).freeing ++ [{ cells := 1 + c.heldBodies, tag := .purge }] ∧
          (t.store a).purge = some (s.wholeWalk a .saturation true)))) ∧
  ∀ (a : Aud) (r : Rate) (s : State), (s.session a).state = .running → (s.clock a).rate = some r →
    ∀ (w : Window) (hold period : Nat) (rejected : Bool),
    (match (s.showRun a).window with
      | .closed => w = .opened 0 s.now ∧ hold = (s.clock a).lastHold ∧ period = (s.clock a).period ∧
          rejected = false
      | .opened k start =>
        if k + 1 < (s.clock a).windowSize then
          w = .opened (k + 1) start ∧ hold = (s.clock a).lastHold ∧ period = (s.clock a).period ∧
            rejected = false
        else
          w = .opened 0 s.now ∧ hold = min (s.now - start) 4294967295 ∧
          let e := (hold + (s.clock a).windowSize / 2) / (s.clock a).windowSize
          if (e - r.nominal) * 1000 ≤ r.nominal ∧ (r.nominal - e) * 1000 ≤ r.nominal then
            period = e ∧ rejected = false
          else period = (s.clock a).period ∧ rejected = true) →
    ∃ t, exec (.strobe a) s = .next t ∧ s.onlyShow t a ∧
      t.clock a = { s.clock a with ref := s.now, base := min ((s.clock a).base + r.tpf) 43199999, sub := 0, lastHold := hold,
                                   period := period } ∧
      s.movesTo t a { s.showRun a with window := w, subFrozen := false, strobedAt := some s.now } (s.session a) ∧
      (t.audCounter a).own = { s.audCounter a with
        rateFault := if rejected then bump (s.audCounter a).rateFault else (s.audCounter a).rateFault }.own ∧
      (rejected = true → t.raised a kindRateFault) ∧
      (t.position a = 43199999 → (t.session a).state = .ended)

/-- P is B + sub, at most 43,199,999 (R11). A sub-frame threshold: sub takes the value that e, tpf and the period in use place it at, at most tpf - 1 (R9); a saturated
position ends the show (R11, R37). What release then makes of a cue alone in its auditorium: QUEUED, it falls due, is expired or unrouted, its
narration block skipped (R105, R107, R113), but for a block that starts beyond 43,199,999, which never falls due (R68 against R113: the model's
choice, log entry 41); ON-AIR, it ends at T + D (R110), and with it a show with its ending mark (R36); DUE, it is expired
there with its outstanding ports charged (R111, R112); a due block is expired at its end and the next one looked at (R114). Captions that fall
due together take frame numbers in queue order (R86). -/
def Obligations.SubStepPlacesSub : Prop :=
  (∀ (a : Aud) (s : State), s.position a = min ((s.clock a).base + (s.clock a).sub) 43199999) ∧
  ∀ (a : Aud) (r : Rate) (s : State), (s.clock a).rate = some r → s.dueTest (.subStep a) = some true →
    let sub := min (min (s.now - (s.clock a).ref) 4294967295 * r.tpf / (s.clock a).period) (r.tpf - 1)
    (∃ t, exec (.subStep a) s = .next t ∧ s.onlyShow t a ∧ t.clock a = { s.clock a with sub := sub } ∧
      s.movesTo t a (s.showRun a) (s.session a) ∧ (t.audCounter a).own = (s.audCounter a).own ∧
      (t.position a = 43199999 → (t.session a).state = .ended)) ∧
    let u : State := { s with clocks := change s.clocks a (fun c => { c with sub := sub }) }
    let p := (s.clock a).base + sub
    ∀ (n : StreamNo) (c : Cue), p < 43199999 → audOfStream n = a →
      (s.onlyCue n c → s.calm a →
        (c.life = .queued → c.due = none → (c.kind = .narration → u.oneLook n c) →
          exec (.subStep a) s = .next (u.cueReleased n c)) ∧
        (c.kind = .caption → c.life = .onAir →
          exec (.subStep a) s = .next (if c.start + c.length ≤ p then u.lastLeaves n c else u)) ∧
        (∀ d, c.kind = .caption → c.life = .due → c.due = some d →
          exec (.subStep a) s = .next (if c.start + c.length ≤ p then u.cueExpires n c d.pending else u)) ∧
        (c.kind = .narration → c.life = .playing → c.due = none → u.oneLook n c →
          exec (.subStep a) s = .next (u.blockReleased n c)) ∧
        (∀ d, c.kind = .narration → c.life = .playing → c.due = some d →
          (p < c.start + 24 * (c.cursor + 1) → exec (.subStep a) s = .next u) ∧
          (c.start + 24 * (c.cursor + 1) ≤ p → (c.cursor + 1 < c.length → u.oneLook n c.oneBlockOn) →
            let t := (u.lapses d.pending).blockPassed n c (!d.staged)
            exec (.subStep a) s = .next (if c.length ≤ c.cursor + 1 then t else t.blockReleased n c.oneBlockOn)))) ∧
      (s.onlyCue n c → (s.store a).purge = none → s.insertionRuns a = false → (s.session a).ending = true →
        c.kind = .caption → c.life = .onAir → c.start + c.length ≤ p →
        ∃ t, exec (.subStep a) s = .next t ∧ (t.session a).state = .ended ∧ t.raised a kindEnded) ∧
      ∀ q : List Cue, (s.stream n).queue = q → (∀ m, m ≠ n → audOfStream m = a → (s.stream m).queue = []) → (seqs q).Nodup → s.calm a →
        s.carriers n ≠ [] →
        (∀ d ∈ q, d.kind = .caption ∧ d.life = .queued ∧ d.due = none ∧ d.start ≤ p + (s.stream n).lead ∧ p < d.start + d.length) →
        exec (.subStep a) s = .next { u with streams := change u.streams n (fun st => { st with
          frameSeq := st.frameSeq + BitVec.ofNat 8 q.length
          queue := q.zipIdx.map (fun x => { x.1 with
            life := .due
            due := some { number := st.frameSeq + BitVec.ofNat 8 x.2, pending := s.carriers n, staged := false } }) }) }

/-- STROBE_LOSS and SYNTHETIC_STROBE: the clock supplies the missing strobe one period after the last; in COASTING, with sub placed from
the new e. A loss closes the window, is counted and raises STROBE-LOSS (R4, R12, R13). -/
def Obligations.MissingStrobeSupplied : Prop :=
  ∀ (a : Aud) (r : Rate) (loss : Bool) (s : State), (s.clock a).rate = some r →
    s.dueTest (if loss then .strobeLoss a else .syntheticStrobe a) = some true →
    ∃ t, exec (if loss then .strobeLoss a else .syntheticStrobe a) s = .next t ∧ s.onlyShow t a ∧
      t.clock a = { s.clock a with
        ref := (s.clock a).ref + (s.clock a).period
        base := min ((s.clock a).base + r.tpf) 43199999
        sub := min (min (s.now - ((s.clock a).ref + (s.clock a).period)) 4294967295 * r.tpf / (s.clock a).period) (r.tpf - 1) } ∧
      s.movesTo t a { s.showRun a with
          window := if loss then .closed else (s.showRun a).window, subFrozen := false, strobedAt := some s.now }
        { s.session a with state := .coasting } ∧
      (t.audCounter a).own =
        { s.audCounter a with strobeLoss := if loss then bump (s.audCounter a).strobeLoss else (s.audCounter a).strobeLoss }.own ∧
      (loss = true → t.raised a kindStrobeLoss) ∧ (t.position a = 43199999 → (t.session a).state = .ended)

/-- The stale event sets the stale mark and raises STALE; the clock stands (R20). A clear becomes owed on every open caption stream (R116):
where no port can begin a fill, that is all. -/
def Obligations.StaleEventMarks : Prop :=
  ∀ (a : Aud) (s : State), s.dueTest (.staleEvent a) = some true →
    ∃ t, exec (.staleEvent a) s = .next t ∧ s.onlyShow t a ∧ t.clock a = s.clock a ∧
      s.movesTo t a { s.showRun a with staleMark := true } (s.session a) ∧ t.raised a kindStale ∧
      (t.audCounter a).own = (s.audCounter a).own ∧
      (s.ringsBusy → (∀ n, t.stream n = (s.oweClears a).stream n) ∧
        t = { s with runs := change s.runs a (fun r => { r with staleMark := true }), streams := t.streams, attention := (s.raiseAud a kindStale).attention })

/-- A clear frame becomes owed on every open caption stream of an auditorium, to the SERVING ports whose filters accept it: the ports not
in its clear-owed set join it, and where there is one the clear takes the stream's frame number (R85, R86, R116); `oweClear` does so on one
stream. A filter accepts a stream by its auditorium, its kind and its language, a port by any of its filters; the carriers of a stream are the
SERVING ports that accept it, in order of number (R105, R129). -/
def Obligations.ClearsBecomeOwed : Prop :=
  ∀ (a : Aud) (s : State) (n : StreamNo),
    let st := s.stream n
    let fresh := ports.filter (fun p => (s.link p).state == .serving && s.accepts p n && !st.clearOwed.contains p)
    (s.oweClears a).stream n =
      (if audOfStream n = a ∧ st.isOpen = true ∧ st.kind = .caption ∧ fresh ≠ [] then
        { st with clearOwed := st.clearOwed ++ fresh, clearNumber := st.frameSeq, frameSeq := st.frameSeq + 1 }
      else st) ∧
    s.oweClear n = (if fresh = [] then s else { s with streams := change s.streams n (fun x => { x with
      clearOwed := x.clearOwed ++ fresh, clearNumber := x.frameSeq, frameSeq := x.frameSeq + 1 }) }) ∧
    (∀ p, s.accepts p n = true ↔ ∃ k, s.filterTakes p k n) ∧
    (∀ p, p ∈ s.carriers n ↔ (s.link p).state = .serving ∧ ∃ k, s.filterTakes p k n) ∧ (s.carriers n).Pairwise (· < ·)

/-- RUN_CHANGE and SET_GATE: a change of the RUN level, or of the house gate, is stored and moves the session by R27's table; a value held
already changes nothing; SET_GATE is answered DONE (R15, R16, R18, R19, R24, R27; log entry 4 for the stored level). An entry into RUNNING with
the stale mark set makes an ON-AIR caption that covers P, here alone in its auditorium, DUE again with a new frame number, the resend mark
and a count, or leaves it where no port carries it; while a purge runs the resume waits with its position (R40, R118). The hold that an end of
the pause captures is the pause count in ticks (R18, R19). -/
def Obligations.RunAndGateMoves : Prop :=
  (∀ (a : Aud) (s : State), s.captureHold a = (match (s.showRun a).pauseStart with
    | some start => min ((s.now - start) / 12288) 16777215
    | none => (s.showRun a).pauseHold)) ∧
  (∀ (a : Aud) (high : Bool) (s : State),
    (s.runHigh a = high → exec (.runChange a high) s = .next s) ∧
    (s.runHigh a ≠ high → ∃ t, exec (.runChange a high) s = .next t ∧
      t.runHigh a = high ∧ (∀ b, b ≠ a → t.runHigh b = s.runHigh b) ∧ { s with runPins := t.runPins }.onlyShow t a ∧
      s.runGateMoves t a (s.session a) (high && (s.session a).gate) ∧ (t.audCounter a).own = (s.audCounter a).own)) ∧
  (∀ (a : Aud) (on : Bool) (s : State), s.takesCommands →
    ∃ t, exec (.setGate [BitVec.ofNat 8 a.val, if on then 1 else 0]) s = .next t ∧ s.onlyShow t a ∧
      t.mgmt = { transport := .held { code := .done, command := 4, fields := [] }, out := [1] } ∧
      (t.audCounter a).own = (s.audCounter a).own ∧
      if (s.session a).gate = on then t = { s with mgmt := t.mgmt }
      else s.runGateMoves t a { s.session a with gate := on } (s.runHigh a && on)) ∧
  (∀ (a : Aud) (n : StreamNo) (c : Cue) (s : State), s.runHigh a = false → (s.session a).gate = true → (s.session a).state = .paused →
    (s.showRun a).staleMark = true → audOfStream n = a → s.onlyCue n c → c.kind = .caption → c.life = .onAir →
    c.start ≤ s.position a → s.position a < c.start + c.length → s.ringsBusy →
    let u : State := { s with
      runPins := change s.runPins a (fun _ => true)
      runs := change s.runs a (fun r => { r with window := .closed, pauseHold := s.captureHold a, pauseStart := none, staleMark := false })
      clocks := change s.clocks a (fun x => { x with ref := s.now })
      sessions := change s.sessions a (fun x => { x with state := .running }) }
    ((s.store a).purge ≠ none → exec (.runChange a true) s =
      .next { u with stores := change u.stores a (fun st => { st with staleWaiting := some (s.position a) }) }) ∧
    ((s.store a).purge = none → exec (.runChange a true) s = .next
      (if s.carriers n = [] then u
      else { (u.numbered n).withQueue n [{ c with life := .due, resend := true, due := some (s.newDue n) }] with
        audCounters := change s.audCounters a (fun k => { k with resent := bump k.resent }) })))

/-! ### The cue port -/

/-- A character that completes while the intake is paused joins the receive queue with the marks its samples give it, or is lost from a
full queue, whose tail entry takes the overrun mark; the receiver and the gap timer follow the samples (R44 to R49). A break is the
completion whose samples are all low. The model's choices: a receiver that waits for the line to be high completes nothing, and an idle one
takes the port's settings with the completion (log entry 17); the gap timer runs four character times at the settings of the completing
character (log entry 18). -/
def Obligations.CompletionQueued : Prop :=
  ∀ (a : Aud) (v : Byte) (parityBit stopBit : Bool) (s : State),
    exec (.lineBreak a) s = exec (.character a 0 false false) s ∧
    (∀ k, (s.cuePort a).receiver = .waitHigh k → exec (.character a v parityBit stopBit) s = .next s) ∧
    ((∀ k, (s.cuePort a).receiver ≠ .waitHigh k) → s.paused a = true →
      ∀ (d : Nat) (q : Parity) (e : Entry),
      (d = if (s.cuePort a).receiver = .idle then (s.cuePort a).divisor else (s.cuePort a).lineDivisor) →
      (q = if (s.cuePort a).receiver = .idle then (s.cuePort a).parity else (s.cuePort a).lineParity) →
      (e = if stopBit then
          { item := .char v
            parityError := decide (q = .even ∧ (onesOf v + (if parityBit then 1 else 0)) % 2 = 1 ∨
              q = .odd ∧ (onesOf v + (if parityBit then 1 else 0)) % 2 = 0) }
        else if v = 0 ∧ (q = .none ∨ parityBit = false) then { item := .brk }
        else { item := .char v, framingError := true }) →
      ∃ t, exec (.character a v parityBit stopBit) s = .next t ∧
        t = { s with cuePorts := t.cuePorts, rxPins := t.rxPins, attention := { s.attention with auds := t.attention.auds } } ∧
        (∀ b, b ≠ a → t.cuePort b = s.cuePort b ∧ t.rxHigh b = s.rxHigh b ∧ t.audRecord b = s.audRecord b) ∧ t.rxHigh a = stopBit ∧
        (t.cuePort a).framing = (s.cuePort a).framing ∧ (t.cuePort a).damaged = (s.cuePort a).damaged ∧
        (t.cuePort a).replies.length ≤ (s.cuePort a).replies.length ∧
        (t.cuePort a).lineDivisor = d ∧ (t.cuePort a).lineParity = q ∧
        (t.cuePort a).receiver = (if stopBit then .idle else .waitHigh (e.item == .brk)) ∧
        (t.cuePort a).gapTimer = (if e.item = .brk then none
          else some { start := s.now, length := 4 * ((if q = .none then 10 else 11) * 16 * d) }) ∧
        (if (s.cuePort a).queue.length < 32 then (t.cuePort a).queue = (s.cuePort a).queue ++ [e]
        else t.raised a kindLineFault ∧ ∀ x rest, (s.cuePort a).queue = rest ++ [x] →
          (t.cuePort a).queue = rest ++ [{ x with overrun := true }]))

/-- The record assembler's rows (R50) for a break or a character that finds the queue empty and no pause: a stray character is counted and
raises LINE-FAULT, a break begins a record, the kind, the length and the fields are taken in turn. A parity error, at the parity in force (R44,
R46; that an idle receiver's completion takes the port's own settings is the model's choice, log entry 17), or a framing error damages the record, a kind so taken is not named, and a length so taken gives the record no end (R52). The character
that completes a record hands it to the intake as its row does, or as a damaged record (R50, R52, R53). A break inside a record abandons it, with
the context IDLE and nothing waiting: REFUSE TRUNCATED, or LINE-ERROR with one line fault where it is damaged, names its kind or none (R51). -/
def Obligations.AssemblerTakes : Prop :=
  ∀ (a : Aud) (v : Byte) (parityBit stopBit : Bool) (s : State), (∀ k, (s.cuePort a).receiver ≠ .waitHigh k) → s.paused a = false →
    (s.cuePort a).queue = [] →
    (∃ t, exec (.lineBreak a) s = .next t ∧
      t = { s with cuePorts := t.cuePorts, rxPins := t.rxPins, attention := { s.attention with auds := t.attention.auds }
                   audCounters := t.audCounters, intakes := t.intakes, stores := t.stores } ∧
      (∀ b, b ≠ a → t.cuePort b = s.cuePort b ∧ t.rxHigh b = s.rxHigh b ∧ t.audRecord b = s.audRecord b ∧ t.audCounter b = s.audCounter b ∧
        t.intake b = s.intake b ∧ t.store b = s.store b) ∧
      (t.cuePort a).framing = .kind ∧ (t.cuePort a).damaged = false ∧ (t.cuePort a).queue = [] ∧
      ((s.cuePort a).framing = .between →
        t = { s with cuePorts := t.cuePorts, rxPins := t.rxPins, attention := { s.attention with auds := t.attention.auds } }) ∧
      ((s.cuePort a).framing ≠ .between → (s.intake a).deferred = [] → (s.intake a).context = .idle →
        ∃ u : State, u = { s with cuePorts := u.cuePorts, rxPins := u.rxPins, attention := { s.attention with auds := u.attention.auds } } ∧
          (∀ b, b ≠ a → u.cuePort b = s.cuePort b ∧ u.rxHigh b = s.rxHigh b ∧ u.audRecord b = s.audRecord b) ∧
          (u.cuePort a).framing = .kind ∧ (u.cuePort a).damaged = false ∧ (u.cuePort a).queue = [] ∧
          (u.cuePort a).replies = (s.cuePort a).replies ∧
          u.recordLost t a (s.cuePort a).kindTaken (s.cuePort a).damaged)) ∧
    ∀ (q : Parity) (error : Bool),
      (q = if (s.cuePort a).receiver = .idle then (s.cuePort a).parity else (s.cuePort a).lineParity) →
      (error = if stopBit then
          decide (q = .even ∧ (onesOf v + (if parityBit then 1 else 0)) % 2 = 1 ∨ q = .odd ∧ (onesOf v + (if parityBit then 1 else 0)) % 2 = 0)
        else true) →
      (stopBit = true ∨ v ≠ 0 ∨ q ≠ .none ∧ parityBit = true) →
      let bad := (s.cuePort a).damaged || error
      (∀ (f : Framing) (damaged stray : Bool),
        (match (s.cuePort a).framing with
          | .between => f = .between ∧ damaged = (s.cuePort a).damaged ∧ stray = true
          | .kind => f = .length v (!error) false ∧ damaged = bad ∧ stray = false
          | .length k ok lost => stray = false ∧
            if lost = true ∨ error = true then f = .length k ok true ∧ damaged = true
            else v ≠ 0 ∧ f = .fields k ok v.toNat [] ∧ damaged = bad
          | .fields k ok left taken => 1 < left ∧ f = .fields k ok (left - 1) (taken ++ [v]) ∧ damaged = bad ∧ stray = false) →
        ∃ t, exec (.character a v parityBit stopBit) s = .next t ∧
          t = { s with cuePorts := t.cuePorts, rxPins := t.rxPins, attention := { s.attention with auds := t.attention.auds }
                       audCounters := t.audCounters } ∧
          (∀ b, b ≠ a → t.cuePort b = s.cuePort b ∧ t.audCounter b = s.audCounter b ∧ t.rxHigh b = s.rxHigh b ∧
            t.audRecord b = s.audRecord b) ∧
          (t.cuePort a).framing = f ∧ (t.cuePort a).damaged = damaged ∧ (t.cuePort a).queue = [] ∧
          t.audCounter a = { s.audCounter a with
            lineFault := if stray then bump (s.audCounter a).lineFault else (s.audCounter a).lineFault } ∧
          (stray = true → t.raised a kindLineFault)) ∧
      ∀ (k : Byte) (ok : Bool) (fields : List Byte),
        ((s.cuePort a).framing = .length k ok false ∧ error = false ∧ v = 0 ∧ fields = [] ∨
          ∃ left taken, (s.cuePort a).framing = .fields k ok left taken ∧ left ≤ 1 ∧ fields = taken ++ [v]) →
        (s.intake a).deferred = [] →
        ∃ u : State, u.atRest a = true ∧
          u = { s with cuePorts := u.cuePorts, rxPins := u.rxPins, attention := { s.attention with auds := u.attention.auds } } ∧
          (∀ b, b ≠ a → u.cuePort b = s.cuePort b ∧ u.rxHigh b = s.rxHigh b ∧ u.audRecord b = s.audRecord b) ∧
          (u.cuePort a).framing = .between ∧ (u.cuePort a).damaged = false ∧ (u.cuePort a).queue = [] ∧
          exec (.character a v parityBit stopBit) s =
            exec (if bad then .damagedRecord a (if ok then some k else none) else cueRecord a k fields) u

/-- A falling edge takes the port's settings onto the receive line, the beginning of a break stops the gap timer, and the line's return
to high after a break starts it (R45, R46, R49). The model's choices: that a receiver which waits for the line to be high takes no start bit,
and one already RECEIVING takes it as a fresh one (log entry 17); that the gap timer runs at the settings latched on the line (log entry 18);
and that the operand says whether a break begins (log entry 34). -/
def Obligations.LineEdges : Prop :=
  ∀ (a : Aud) (breakBegins : Bool) (s : State),
    (match (s.cuePort a).receiver with
      | .waitHigh k =>
        exec (.candidateStartBit a breakBegins) s = .next s ∧
        exec (.lineReturnsHigh a) s = .next { s with
          rxPins := change s.rxPins a (fun _ => true)
          cuePorts := change s.cuePorts a (fun p => { p with
            receiver := .idle
            gapTimer := if k then some { start := s.now, length := 4 * charTime p.lineDivisor p.lineParity } else p.gapTimer }) }
      | .idle | .receiving =>
        exec (.candidateStartBit a breakBegins) s = .next { s with
          rxPins := change s.rxPins a (fun _ => false)
          cuePorts := change s.cuePorts a (fun p => { p with
            lineDivisor := p.divisor, lineParity := p.parity, receiver := .receiving
            gapTimer := if breakBegins then none else p.gapTimer }) } ∧
        exec (.lineReturnsHigh a) s = .next { s with rxPins := change s.rxPins a (fun _ => true) })

/-- A gap marks the tail entry of the queue; with the queue empty it goes to the assembler at once, without effect between records; inside one it
brings REFUSE TRUNCATED, or LINE-ERROR where the record is damaged (R49, R51). When the assembler resumes, it goes on until a pause begins
or nothing waits, neither in the queue nor of a record in its taking (R50, R53, R91; log entry 8). It takes the head entry, the queue count
one less and flow control evaluated, then the rest in order, until a pause begins (R50, R53, R54); that flow control is evaluated before
what the entry brings about is the model's choice (log entry 47). What an entry does is R50's table: a
break begins a record, damaged where it carries the overrun mark, and abandons one in progress; a stray character is counted; the kind, the
length and the fields are taken in turn; a parity error, framing error or overrun mark damages the record and costs it its kind, or its end (R48,
R52); a gap mark is acted on after its entry (R51). A queue that holds just one record does what the record's row does (R47, R50). The
abandoned records are those of an IDLE context; one truncated while another's taking waits would join behind it (log entry 43). -/
def Obligations.GapAndResume : Prop :=
  (∀ (a : Aud) (s : State), s.dueTest (.gap a) = some true →
    (∀ rest e, (s.cuePort a).queue = rest ++ [e] →
      exec (.gap a) s = .next (s.onPort a (fun p => { p with gapTimer := none, queue := rest ++ [{ e with gap := true }] }))) ∧
    ((s.cuePort a).queue = [] → (s.cuePort a).framing = .between →
      exec (.gap a) s = .next (s.onPort a (fun p => { p with gapTimer := none }))) ∧
    ((s.cuePort a).queue = [] → (s.cuePort a).framing ≠ .between → (s.intake a).deferred = [] → (s.intake a).context = .idle →
      ∃ t, exec (.gap a) s = .next t ∧
        (s.onPort a (fun p => { p with gapTimer := none, framing := .between, damaged := false })).recordLost t a
          (s.cuePort a).kindTaken (s.cuePort a).damaged)) ∧
  (∀ (a : Aud) (s : State), s.dueTest (.assemblerResumes a) = some true →
    (∃ t, exec (.assemblerResumes a) s = .next t ∧
      (t.paused a = true ∨ (t.cuePort a).queue = [] ∧ (t.intake a).deferred = []) ∧ t.now = s.now ∧
      t.receivers = s.receivers ∧ t.table = s.table ∧ t.rxPins = s.rxPins ∧ t.runPins = s.runPins) ∧
    (∀ e rest, (s.intake a).deferred = [] → (s.cuePort a).queue = e :: rest →
      let t := ((s.onPort a (fun p => { p with queue := rest })).flow a).takeEntry a e
      exec (.assemblerResumes a) s = if t.paused a = true ∨ rest = [] then .next t else exec (.assemblerResumes a) t) ∧
    ∀ (b x y : Entry) (rest : List Entry) (k : Byte) (fields : List Byte), (s.intake a).deferred = [] → (s.cuePort a).framing = .between →
      (s.cuePort a).queue = b :: x :: y :: rest → b.item = .brk → x.item = .char k → fields.length ≤ 255 →
      y.item = .char (BitVec.ofNat 8 fields.length) → rest.map Entry.item = fields.map .char → y.marked = false →
      (∀ e ∈ b :: x :: y :: rest, e.gap = false) →
      ∃ u : State, u.atRest a = true ∧ u = { s with cuePorts := u.cuePorts, attention := { s.attention with auds := u.attention.auds } } ∧
        (∀ c, c ≠ a → u.cuePort c = s.cuePort c ∧ u.audRecord c = s.audRecord c) ∧ (u.cuePort a).replies = (s.cuePort a).replies ∧
        exec (.assemblerResumes a) s = exec (if b.overrun = true ∨ x.marked = true ∨ rest.any Entry.marked = true
          then .damagedRecord a (if x.marked = true then none else some k) else cueRecord a k fields) u) ∧
  ∀ (a : Aud) (e : Entry) (s : State),
    let p := s.cuePort a
    let framed (f : Framing) (damaged : Bool) : State := s.onPort a (fun p => { p with framing := f, damaged := damaged })
    let bad := p.damaged || e.marked
    (e.gap = false →
      (e.item = .brk →
        (p.framing = .between → s.takeEntry a e = framed .kind e.overrun) ∧
        (p.framing ≠ .between → (s.intake a).deferred = [] → (s.intake a).context = .idle →
          (framed .kind e.overrun).recordLost (s.takeEntry a e) a p.kindTaken p.damaged)) ∧
      ∀ v, e.item = .char v →
        (p.framing = .between → s.takeEntry a e =
          (s.onCounters a (fun c => { c with lineFault := bump c.lineFault })).raiseAud a kindLineFault) ∧
        (p.framing = .kind → s.takeEntry a e = framed (.length v (!e.marked) false) bad) ∧
        (∀ k ok lost, p.framing = .length k ok lost →
          (lost = true ∨ e.marked = true → s.takeEntry a e = framed (.length k ok true) true) ∧
          (lost = false → e.marked = false → v ≠ 0 → s.takeEntry a e = framed (.fields k ok v.toNat []) bad)) ∧
        (∀ k ok left taken, p.framing = .fields k ok left taken → 1 < left →
          s.takeEntry a e = framed (.fields k ok (left - 1) (taken ++ [v])) bad) ∧
        ∀ (k : Byte) (ok : Bool) (fields : List Byte),
          (p.framing = .length k ok false ∧ e.marked = false ∧ v = 0 ∧ fields = [] ∨
            ∃ left taken, p.framing = .fields k ok left taken ∧ left ≤ 1 ∧ fields = taken ++ [v]) →
          s.takeEntry a e = (framed .between false).handRecord a (if bad then .damaged (if ok then some k else none) else .framed k fields) ∧
          (p.queue = [] → s.paused a = false → (s.intake a).deferred = [] →
            .next (s.takeEntry a e) = exec (if bad then .damagedRecord a (if ok then some k else none) else cueRecord a k fields)
              (framed .between false))) ∧
    (e.gap = true →
      let t := s.takeEntry a { e with gap := false }
      ((t.cuePort a).framing = .between → s.takeEntry a e = t) ∧
      ((t.cuePort a).framing ≠ .between → (t.intake a).deferred = [] → (t.intake a).context = .idle →
        (t.onPort a (fun p => { p with framing := .between, damaged := false })).recordLost (s.takeEntry a e) a
          (t.cuePort a).kindTaken (t.cuePort a).damaged))

/-- One evaluation of flow control: HOLD for either cause where none is outstanding, with STORE-PRESSURE for the quota cause; RESUME where
one is and both counts leave room; else nothing. An idle transmitter begins it at once, else it takes the flow-control place (R54 to R56,
R58). -/
def Obligations.FlowControl : Prop :=
  ∀ (a : Aud) (s : State),
    let p := s.cuePort a
    let left := (s.store a).quota - (s.store a).used
    let quotaCause := (s.session a).state ≠ .dark ∧ left ≤ 32
    let place (f : FlowReply) (outstanding : Bool) : State :=
      s.onPort a (fun q => match q.transmission with
        | none => { q with
            holdOutstanding := outstanding, flowPlace := none
            transmission := some { sent := .flow f, left := 2, divisor := q.divisor, parity := q.parity
                                   boundary := s.now + ((if q.parity = .none then 10 else 11) + 1) * 16 * q.divisor } }
        | some _ => { q with holdOutstanding := outstanding, flowPlace := some f })
    (p.holdOutstanding = false → 24 ≤ p.queue.length → ¬ quotaCause → s.flow a = place .hold true) ∧
    (p.holdOutstanding = false → quotaCause → s.flow a = (place .hold true).raiseAud a kindStorePressure) ∧
    (p.holdOutstanding = false → p.queue.length < 24 → ¬ quotaCause → s.flow a = s) ∧
    (p.holdOutstanding = true → p.queue.length ≤ 8 → ((s.session a).state = .dark ∨ 96 ≤ left) → s.flow a = place .resume false) ∧
    (p.holdOutstanding = true → (8 < p.queue.length ∨ (s.session a).state ≠ .dark ∧ left < 96) → s.flow a = s)

/-- The transmission in progress has ended: the flow-control place is sent first, else the head of the reply queue, else the line rests;
a reply lasts a break of one character time, one bit time and its characters (R44, R56 to R58): 2 of a HOLD or RESUME, 6 of a REFUSE, 10 of a
JUMP-SEEN, 12 of a STATUS. The characters of each reply are those of 10.3, its numbers most significant byte first. -/
def Obligations.ReplySentNext : Prop :=
  (∀ x : Sent, x.bytes = x.onLine) ∧
  (∀ n : Nat, (byte2 n).length = 2 ∧ number (byte2 n) = n % 65536 ∧ (byte4 n).length = 4 ∧ number (byte4 n) = n % 4294967296) ∧
  ∀ (a : Aud) (s : State), s.dueTest (.replySent a) = some true →
    exec (.replySent a) s = .next (s.onPort a (fun p =>
      let boundary := s.now + ((if p.parity = .none then 10 else 11) + 1) * 16 * p.divisor
      match p.flowPlace, p.replies with
      | some f, _ => { p with
          flowPlace := none
          transmission := some { sent := .flow f, boundary := boundary, left := 2, divisor := p.divisor, parity := p.parity } }
      | none, r :: rest => { p with
          replies := rest
          transmission := some { sent := .reply r, boundary := boundary, divisor := p.divisor, parity := p.parity, left := match r with
            | .refuse _ _ _ => 6
            | .jumpSeen _ _ => 10
            | .status _ _ _ _ _ => 12 } }
      | none, [] => { p with transmission := none }))

/-- A record of unknown kind is refused UNKNOWN-KIND, a damaged one LINE-ERROR with one line fault counted and LINE-FAULT raised; both close
a skipping context (R52, R63, R64). While the intake is paused and the receive queue has room, a record waits there as
its entries: a break, its kind, its length and its fields (R47, R53, 10.2; log entry 7), a damaged one as the shortest that R52 makes so (log
entry 33). -/
def Obligations.UndecodedRecords : Prop :=
  ∀ (a : Aud) (s : State),
    (∀ (i : Instr) (es : List Entry), s.paused a = true → (s.cuePort a).queue.length + es.length ≤ 32 →
      ((∃ k fields, i = cueRecord a k fields ∧ es =
          { item := .brk } :: { item := .char k } :: { item := .char (BitVec.ofNat 8 fields.length) } :: fields.map (fun v => { item := .char v })) ∨
        (∃ k, i = .damagedRecord a (some k) ∧
          es = [{ item := .brk }, { item := .char k }, { item := .char 1 }, { item := .char 0, parityError := true }]) ∨
        (i = .damagedRecord a none ∧ es = [{ item := .brk }, { item := .char 0, parityError := true }, { item := .char 0 }])) →
      ∃ t, exec i s = .next t ∧ t = { s with cuePorts := t.cuePorts, attention := { s.attention with auds := t.attention.auds } } ∧
        (∀ b, b ≠ a → t.cuePort b = s.cuePort b ∧ t.audRecord b = s.audRecord b) ∧ (t.cuePort a).queue = (s.cuePort a).queue ++ es ∧
        (t.cuePort a).framing = (s.cuePort a).framing ∧ (t.cuePort a).damaged = (s.cuePort a).damaged ∧
        (t.cuePort a).receiver = (s.cuePort a).receiver ∧ (t.cuePort a).gapTimer = (s.cuePort a).gapTimer) ∧
    (s.atRest a = true → (∀ c n, (s.intake a).context ≠ .opened c n) →
      (∀ (kind : Byte) (fields : List Byte), kind.toNat = 0 ∨ 6 < kind.toNat →
        ∃ t, exec (.unknownKind a kind fields) s = .next t ∧
          (s.setContext a .idle).refused t a kind 0 .unknownKind) ∧
      (∀ k : Option Byte, ∃ t, exec (.damagedRecord a k) s = .next t ∧ (s.setContext a .idle).lineErrored t a k ∧ t.raised a kindLineFault))

/-! ### The intake and the store -/

/-- The refusals of MARK, WITHDRAW, END and QUERY, each in the order of its checks (R29, R35, R63, R79, R80). A MARK leaves the context; the
others close a skipping one (R64). -/
def Obligations.RecordsRefused : Prop :=
  (∀ (a : Aud) (fields : List Byte) (s : State), s.atRest a = true →
    ∀ reason : Reason,
    (if fields.length ≠ 4 then reason = .badField
      else if (s.session a).state = .dark then reason = .notArmed
      else if (s.session a).state = .ended then reason = .ending
      else 43199999 < number fields ∧ reason = .badMark) →
    ∃ t, exec (.mark a fields) s = .next t ∧ s.refused t a markCode 0 reason) ∧
  (∀ (a : Aud) (fields : List Byte) (reason : Reason) (s : State), s.atRest a = true → (∀ c n, (s.intake a).context ≠ .opened c n) →
    ((if fields.length ≠ 5 then reason = .badField
      else if (s.session a).state = .dark then reason = .notArmed
      else if (s.session a).state = .ended then reason = .ending
      else if ∀ k, slotOf (fields.headD 0) = some k → (s.stream (streamOf a k)).isOpen = false then reason = .streamClosed
      else 43199999 < number fields.tail ∧ reason = .badField) →
      ∃ t, exec (.withdraw a fields) s = .next t ∧ (s.setContext a .idle).refused t a withdrawCode 0 reason) ∧
    ((if fields ≠ [] then reason = .badField
      else if (s.session a).state = .dark then reason = .notArmed
      else (s.session a).state = .ended ∧ reason = .ending) →
      ∃ t, exec (.endRecord a fields) s = .next t ∧ (s.setContext a .idle).refused t a endCode 0 reason) ∧
    (fields ≠ [] → ∃ t, exec (.query a fields) s = .next t ∧ (s.setContext a .idle).refused t a queryCode 0 .badField))

/-- The first mark of an ARMED auditorium places B, and the show is RUNNING where RUN is high and the gate on, else PAUSED with its pause
count idle (R15, R18, R29). Later, a mark equal to B changes nothing; one within two frames of B is a correction: B moves, sub is placed
afresh where it may advance, and the slip counter counts it (R9, R30). Where a strobe that advanced B was taken at this very base count, B ends
in RUNNING and COASTING at M + tpf, as it does when the mark is taken first (R34), in PAUSED at M. R30 and R34 differ on that case; that R34 is
followed in RUNNING and COASTING, for a mark equal to B too, and R30 in PAUSED, is the model's choice (log entry 35). -/
def Obligations.FirstAndCorrectingMark : Prop :=
  (∀ (a : Aud) (fields : List Byte) (s : State), s.atRest a = true → (s.session a).state = .armed → fields.length = 4 →
    number fields ≤ 43199999 →
    let both := s.runHigh a && (s.session a).gate
    ∃ t, exec (.mark a fields) s = .next t ∧ s.onlyShow t a ∧
      t.clock a = { s.clock a with base := number fields, sub := 0, ref := if both then s.now else (s.clock a).ref } ∧
      s.movesTo t a
        (if both then { s.showRun a with window := .closed, pauseHold := s.captureHold a, pauseStart := none, staleMark := false }
          else s.showRun a)
        { s.session a with state := if both then .running else .paused } ∧
      (t.audCounter a).own = (s.audCounter a).own) ∧
  (∀ (a : Aud) (r : Rate) (fields : List Byte) (s : State), s.atRest a = true → (s.session a).state.isReleasing = true →
    (s.clock a).rate = some r → fields.length = 4 → number fields ≤ 43199999 →
    (number fields - (s.clock a).base) + ((s.clock a).base - number fields) ≤ 2 * r.tpf →
    (s.subMoves a = true ↔ ((s.session a).state = .running ∨ (s.session a).state = .coasting) ∧ (s.showRun a).subFrozen = false) ∧
    let strobed := (s.session a).state.isRunning = true ∧ (s.showRun a).strobedAt = some s.now
    (number fields = (s.clock a).base → ¬ strobed ∨ (s.clock a).base = 43199999 → exec (.mark a fields) s = .next s) ∧
    (number fields ≠ (s.clock a).base ∨ strobed ∧ (s.clock a).base < 43199999 → ∃ t, exec (.mark a fields) s = .next t ∧ s.onlyShow t a ∧
      t.clock a = { s.clock a with
        base := if strobed then min (number fields + r.tpf) 43199999 else number fields
        sub := if s.subMoves a then
            min (min (s.now - (s.clock a).ref) 4294967295 * r.tpf / (s.clock a).period) (r.tpf - 1) else 0 } ∧
      s.movesTo t a (s.showRun a) (s.session a) ∧
      (t.audCounter a).own = { s.audCounter a with
        slip := if number fields = (s.clock a).base then (s.audCounter a).slip else bump (s.audCounter a).slip }.own))

/-- A mark beyond two frames is a jump: B moves, the jump is counted and raises JUMP. Where every cue of the auditorium is QUEUED and there
is one, short of saturation the jump purge begins with its first step, forward or backward to the new B, its walk of every cue of the six
queues, slots 0 to 5, each from head to tail, and clears become owed (R31, R32, R93, R116; the statement is of a state in which no port can begin a fill). -/
def Obligations.JumpingMark : Prop :=
  ∀ (a : Aud) (r : Rate) (fields : List Byte) (s : State), s.atRest a = true → (s.session a).state.isReleasing = true →
    (s.clock a).rate = some r → fields.length = 4 → number fields ≤ 43199999 →
    2 * r.tpf < (number fields - (s.clock a).base) + ((s.clock a).base - number fields) →
    let m := number fields
    let sub := if s.subMoves a then
      min (min (s.now - (s.clock a).ref) 4294967295 * r.tpf / (s.clock a).period) (r.tpf - 1) else 0
    ∃ t, exec (.mark a fields) s = .next t ∧ s.tablesStand t ∧ s.othersStand t a ∧ s.linksStand t ∧
      t.clock a = { s.clock a with base := m, sub := sub } ∧ s.movesTo t a (s.showRun a) (s.session a) ∧
      (t.audCounter a).own = { s.audCounter a with jump := bump (s.audCounter a).jump }.own ∧ t.raised a kindJump ∧
      (s.queuesEmpty a = false → (∀ k, ∀ c ∈ (s.stream (streamOf a k)).queue, c.life = .queued) → m + sub < 43199999 → s.ringsBusy →
        (s.cuePort a).gainsReply (t.cuePort a) (.jumpSeen (s.clock a).base m) ∧ (∀ n, t.stream n = (s.oweClears a).stream n) ∧
        (t.store a).purge = some (s.wholeWalk a (if (s.clock a).base < m then .forward m else .backward m) false))

/-- A HEAD of the right length is refused for the first check it fails, by the table of R67 to R70, and opens a skipping context with its
body count; one of another length is refused BAD-FIELD and opens an open-ended one (R63, R72). The fields, and what a slot byte and a kind
byte name, are those of 10.1 and 10.2. -/
def Obligations.HeadRefused : Prop :=
  (∀ (fields : List Byte) (h : HeadFields), headFields fields = some h ↔ fields.length = 11 ∧ fields.take 2 = [h.slot, h.kind] ∧
    h.seq = BitVec.ofNat 16 (number ((fields.drop 2).take 2)) ∧ h.start = number ((fields.drop 4).take 4) ∧
    h.length = number ((fields.drop 8).take 2) ∧ h.bodyCount = number (fields.drop 10)) ∧
  (∀ (b : Byte) (k : Slot), slotOf b = some k ↔ b.toNat = k.val) ∧
  (∀ (b : Byte) (k : CueKind), kindOf b = some k ↔ b.toNat = match k with | .caption => 1 | .narration => 2) ∧
  ∀ (a : Aud) (fields : List Byte) (s : State), s.atRest a = true → (∀ c n, (s.intake a).context ≠ .opened c n) →
    (fields.length ≠ 11 → ∃ t, exec (.head a fields) s = .next t ∧
      (s.setContext a (.skipping none)).refused t a headCode 0 .badField) ∧
    ∀ h reason, headFields fields = some h → s.headFails a h = some reason →
      ∃ t, exec (.head a fields) s = .next t ∧
        (s.setContext a (if h.bodyCount = 0 then .idle else .skipping (some h.bodyCount))).refused t a headCode h.seq reason

/-- A HEAD that passes the nine checks opens its cue: one cell is allocated, flow control is evaluated, and the cue record is laid down
with the clamped duration (R68, R71). -/
def Obligations.HeadAccepted : Prop :=
  ∀ (a : Aud) (fields : List Byte) (h : HeadFields) (k : Slot) (s : State), s.atRest a = true →
    (∀ c n, (s.intake a).context ≠ .opened c n) → headFields fields = some h → s.headFails a h = none → slotOf h.slot = some k →
    exec (.head a fields) s = .next (State.setContext
      (State.flow { s with stores := change s.stores a (fun st => { st with used := st.used + 1 }), freeCells := s.freeCells - 1 } a) a
      (.opened { stream := streamOf a k, seq := h.seq, kind := (s.stream (streamOf a k)).kind, start := h.start
                 length := if (s.stream (streamOf a k)).kind = .caption then min (min h.length 36000) (43200000 - h.start) else h.length
                 bodyCount := h.bodyCount, bodies := [], life := .assembling, cursor := 0, due := none, resend := false }
        h.bodyCount))

/-- A BODY taken with no cue open: an orphan is refused and nothing else happens; a skipping context consumes it without a reply, a cell or
a check of its size, counting down where it holds a count (R66). -/
def Obligations.OrphanAndSkippedBody : Prop :=
  ∀ (a : Aud) (payload : List Byte) (s : State), s.atRest a = true →
    ((s.intake a).context = .idle → ∃ t, exec (.body a payload) s = .next t ∧ s.refused t a bodyCode 0 .orphanBody) ∧
    (∀ n, (s.intake a).context = .skipping (some n) →
      exec (.body a payload) s = .next (s.setContext a (if n ≤ 1 then .idle else .skipping (some (n - 1))))) ∧
    ((s.intake a).context = .skipping none → exec (.body a payload) s = .next s)

/-- A BODY of the open cue: within its kind's range it takes a cell and joins the body list, and the last one begins the sorted insertion at
the queue's tail; outside the range it breaks the cue (R73 to R75, R91). A record other than BODY or MARK breaks the open cue: its cells
go to the freeing unit, REFUSE BROKEN-CUE names it, and the breaking record waits for the cells (R64, R65, R91; log entry 10). -/
def Obligations.BodyAndBreaker : Prop :=
  (∀ c : Cue, c.heldBodies = c.bodies.countP Option.isSome ∧ c.cells = c.heldBodies + 1) ∧
  (∀ (a : Aud) (payload : List Byte) (c : Cue) (owed : Nat) (s : State), s.atRest a = true →
    (s.intake a).context = .opened c owed →
    (if (if c.kind = .caption then 1 else 8) ≤ payload.length ∧ payload.length ≤ 60 then
      exec (.body a payload) s = .next (State.setContext
        (State.flow { s with stores := change s.stores a (fun st => { st with used := st.used + 1 }), freeCells := s.freeCells - 1 } a) a
        (if 1 < owed then .opened { c with bodies := c.bodies ++ [some payload] } (owed - 1)
          else .inserting { c with bodies := c.bodies ++ [some payload] }
            { todo := (seqs (s.stream c.stream).queue).reverse.tail, current := (seqs (s.stream c.stream).queue).reverse.head?
              stepStart := s.now }))
    else ∃ t, exec (.body a payload) s = .next t ∧
      State.refused { s with
        stores := change s.stores a (fun st => { st with
          freeing := [{ cells := 1 + c.heldBodies, tag := .intake }], cellStart := s.now })
        intakes := change s.intakes a (fun _ => { context := .idle, deferred := [.skip (owed - 1)] }) } t a bodyCode c.seq .bodySize)) ∧
  (∀ (a : Aud) (i : Instr) (r : Record) (c : Cue) (owed : Nat) (s : State), s.atRest a = true →
    (s.intake a).context = .opened c owed → breaks a i = some r →
    ∃ t, exec i s = .next t ∧
      State.refused { s with
        stores := change s.stores a (fun st => { st with
          freeing := [{ cells := 1 + c.heldBodies, tag := .intake }], cellStart := s.now })
        intakes := change s.intakes a (fun _ => { context := .idle, deferred := [.record r] }) } t a headCode c.seq .brokenCue)

/-- A WITHDRAW that passes its checks begins its purge: with a cue in the stream's queue the walk's first step examines the tail; the
session's clock, its cells and its line side stand (R79, R93, R98). -/
def Obligations.WithdrawBeginsPurge : Prop :=
  ∀ (a : Aud) (k : Slot) (fields : List Byte) (s : State), s.atRest a = true → (∀ c n, (s.intake a).context ≠ .opened c n) →
    (s.session a).state ≠ .dark → (s.session a).state ≠ .ended → fields.length = 5 → slotOf (fields.headD 0) = some k →
    (s.stream (streamOf a k)).isOpen = true → number fields.tail ≤ 43199999 →
    ∃ t, exec (.withdraw a fields) s = .next t ∧ s.onlyShow t a ∧ t.clock a = s.clock a ∧
      (∀ x rest, (seqs (s.stream (streamOf a k)).queue).reverse = x :: rest → s.ringsBusy →
        t = (s.setContext a .idle).onStore a (fun st => { st with
          purge := some { kind := .withdraw k (number fields.tail), todo := rest.map (fun y => (k, y)), current := some (k, x)
                          stepStart := s.now, waiting := false } }))

/-- An END sets the ending mark; the auditorium is ENDED at once where its six queues are empty, ENDED is raised and clears become owed (R35,
R36, R38; the clears in a state in which no port can begin a fill). A QUERY
of length 0 is answered in every state with a STATUS of the state, the position, the used count, the quota and the ending mark as they
stand, and changes nothing else but a skipping context, which it closes (R64, R80). -/
def Obligations.EndAndQuery : Prop :=
  (∀ (a : Aud) (s : State), s.atRest a = true → (∀ c n, (s.intake a).context ≠ .opened c n) → (s.session a).state.isActive = true →
    ∃ t, exec (.endRecord a []) s = .next t ∧ s.onlyShow t a ∧ t.clock a = s.clock a ∧ t.intake a = { context := .idle, deferred := [] } ∧
      s.movesTo t a (s.showRun a) { s.session a with ending := true } ∧
      (s.queuesEmpty a = true → (t.session a).state = .ended ∧ t.raised a kindEnded ∧
        (s.ringsBusy → ∀ n, t.stream n = (s.oweClears a).stream n)) ∧
      (s.queuesEmpty a = false → s.ringsBusy →
        t = (s.setContext a .idle).onSession a (fun x => { x with ending := true }))) ∧
  (∀ (a : Aud) (s : State), s.atRest a = true → (∀ c n, (s.intake a).context ≠ .opened c n) →
    ∃ t, exec (.query a []) s = .next t ∧
      t = { s with cuePorts := t.cuePorts, intakes := change s.intakes a (fun _ => { context := .idle, deferred := [] }) } ∧
      (∀ b, b ≠ a → t.cuePort b = s.cuePort b) ∧ (t.cuePort a).lineSide = (s.cuePort a).lineSide ∧
      (s.cuePort a).gainsReply (t.cuePort a)
        (.status (s.session a).state (min ((s.clock a).base + (s.clock a).sub) 43199999) (s.store a).used (s.store a).quota
          (s.session a).ending))

/-- The sorted insertion places its cue directly behind the last cue that starts at or before it; the cue is QUEUED and the accepted
counter counts it. In a state where release makes nothing due, with no CLOSE-STREAM waiting, that is all (R75, R104). In a show at an
unsaturated position, release at once looks at the cue: it waits, or a caption falls due, is expired or unrouted at its place among cues that
wait themselves, or, placed into empty queues, a narration cue's first block falls due, waits, is skipped or unrouted (R105, R107, R113). The
order of the queue stands whatever release does. A CLOSE-STREAM that waited begins its purge at the placing, with the head of its stream's
queue, and closes an empty one (R76, R84, R99); that release does not look first is the model's choice (log entry 38), and so is that a block
that starts beyond 43,199,999 waits, as R68 says (log entry 41). -/
def Obligations.InsertionPlaces : Prop :=
  (∀ (a : Aud) (c : Cue) (s : State), s.placingDue a = some c ↔
    s.fallsDue (.insertionPlaces a) ∧ ∃ w, (s.intake a).context = .inserting c w) ∧
  ∀ (a : Aud) (c : Cue) (s : State), s.placingDue a = some c →
    ∃ t, exec (.insertionPlaces a) s = .next t ∧ s.tablesStand t ∧ s.othersStand t a ∧ s.linksStand t ∧ t.clock a = s.clock a ∧
      (t.audCounter a).own = { s.audCounter a with accepted := bump (s.audCounter a).accepted }.own ∧
      ((t.intake a).context = .idle) ∧
      ∃ l m, (s.stream c.stream).queue = l ++ m ∧ (∀ d ∈ l.getLast?, d.start ≤ c.start) ∧ (∀ d ∈ m, c.start < d.start) ∧
        (seqs (t.stream c.stream).queue).Sublist (seqs l ++ c.seq :: seqs m) ∧
        let d : Cue := { c with life := .queued }
        let u : State := ((s.onStream c.stream (fun st => { st with queue := l ++ d :: m })).onCounters a
          (fun x => { x with accepted := bump x.accepted })).setContext a .idle
        ((s.session a).state.isReleasing = false → (s.store a).closeWaiting = none → s.ringsBusy → t = u) ∧
        ((s.session a).state.isReleasing = true → s.position a < 43199999 → (s.store a).purge = none → (s.store a).closeWaiting = none →
          (s.session a).ending = false → s.ringsBusy → s.cuesDistinct → c.due = none →
          (∀ k, ∀ x ∈ (s.stream (streamOf a k)).queue, s.waits (streamOf a k) x) →
          let n := c.stream
          let p := s.position a
          (s.waits n d → t = u) ∧
          (c.kind = .caption → c.start ≤ p + (s.stream n).lead →
            t = (if c.start + c.length ≤ p then
                  ((u.withQueue n (l ++ m)).onCounters a (fun x => { x with expired := bump x.expired })).freeingAsked a (1 + c.heldBodies) .none
                else if s.carriers n = [] then ((u.numbered n).withQueue n (l ++ { c with life := .onAir } :: m)).unroutedCounted a
                else (u.numbered n).withQueue n (l ++ { c with life := .due, due := some (s.newDue n) } :: m)))) ∧
        (audOfStream c.stream = a → c.due = none → (s.session a).state.isReleasing = true → s.position a < 43199999 →
          (s.store a).purge = none → (s.store a).closeWaiting = none → (s.session a).ending = false → s.ringsBusy → s.queuesEmpty a = true →
          (c.kind = .narration → u.oneLook c.stream d) → t = u.cueReleased c.stream d) ∧
        ∀ k, (s.store a).closeWaiting = some k → audOfStream c.stream = a →
          (∀ x rest, seqs (u.stream (streamOf a k)).queue = x :: rest → s.ringsBusy →
            t = u.onStore a (fun st => { st with
              closeWaiting := none
              purge := some { kind := .close k, todo := rest.map (fun y => (k, y)), current := some (k, x), stepStart := s.now
                              waiting := false } })) ∧
          ((u.stream (streamOf a k)).queue = [] → (t.stream (streamOf a k)).isOpen = false ∧
            (s.mgmt.transport = .working (.closeStream a) →
              t.mgmt.transport = .held { code := .done, command := 6, fields := [] }) ∧
            ((s.store a).saturationOwed = false → (t.store a).purge = none))

/-- The freeing unit returns one cell after 16 base counts: the used count falls, the free count rises, flow control is evaluated, and the
next cell's 16 base counts begin. When a request's last cell is back the request is gone, and RESET-CUE-PORT, where it waited for it, is
DONE (R59, R91). The rest of a record's taking that waited for it is taken then, whatever requests stand behind: a BODY-SIZE's skipping context
opens, a breaking QUERY reports the used count after the cells, a breaking HEAD of a wrong length is refused (R65, R74, R80, R91). A purge
that waited for that cell takes its next walk step, or ends: a CLOSE-STREAM has its stream closed and is DONE, a
teardown, once the unit is empty, makes DISARM DONE, and an owed saturation purge begins its walk of the six queues (R84, R93, R99, R101; in a
state in which no port can begin a fill and release has nothing to make due; log entry 13 for the empty unit). That flow control is evaluated
before what the cell's return brings about is the model's choice (log entry 47). -/
def Obligations.CellReturned : Prop :=
  ∀ (a : Aud) (q : FreeRequest) (rest : List FreeRequest) (s : State), s.dueTest (.cellFreed a) = some true →
    (s.store a).freeing = q :: rest → 1 ≤ q.cells →
    let back := State.flow { s with stores := change s.stores a (fun st => { st with used := st.used - 1 }), freeCells := s.freeCells + 1 } a
    (2 ≤ q.cells → exec (.cellFreed a) s =
      .next (back.onStore a (fun st => { st with freeing := { q with cells := q.cells - 1 } :: rest, cellStart := s.now }))) ∧
    (q.cells = 1 → (s.store a).purge = none → (s.intake a).deferred = [] →
      exec (.cellFreed a) s = .next
        (let t := back.onStore a (fun st => { st with freeing := rest, cellStart := s.now })
        if q.tag = .resetPort ∧ s.mgmt.transport = .working (.resetCuePort a) then
          t.onMgmt (fun m => { m with transport := .held { code := .done, command := 8, fields := [] } })
        else t)) ∧
    (q.cells = 1 → q.tag = .intake → (∀ x ∈ rest, x.tag ≠ .intake) → (s.store a).purge = none → (s.intake a).context = .idle →
      let u : State := back.onStore a (fun st => { st with freeing := rest, cellStart := s.now })
      (∀ n, (s.intake a).deferred = [.skip n] → exec (.cellFreed a) s = .next (u.onIntake a (fun _ =>
        { context := if n = 0 then .idle else .skipping (some n), deferred := [] }))) ∧
      ((s.intake a).deferred = [.record (.framed queryCode [])] → ∃ t, exec (.cellFreed a) s = .next t ∧
        t = { u with cuePorts := t.cuePorts, intakes := change s.intakes a (fun _ => { context := .idle, deferred := [] }) } ∧
        (∀ b, b ≠ a → t.cuePort b = u.cuePort b) ∧
        (u.cuePort a).gainsReply (t.cuePort a) (.status (s.session a).state (min ((s.clock a).base + (s.clock a).sub) 43199999)
          ((s.store a).used - 1) (s.store a).quota (s.session a).ending)) ∧
      (∀ fields, fields.length ≠ 11 → (s.intake a).deferred = [.record (.framed headCode fields)] → ∃ t, exec (.cellFreed a) s = .next t ∧
        (u.onIntake a (fun _ => { context := .skipping none, deferred := [] })).refused t a headCode 0 .badField)) ∧
    (∀ p : Purge, q.cells = 1 → q.tag = .purge → (s.store a).purge = some p → p.waiting = true → p.current = none → s.ringsBusy →
      let u (next : Option Purge) : State := back.onStore a (fun st => { st with freeing := rest, cellStart := s.now, purge := next })
      (∀ gone y todo, p.todo = gone ++ y :: todo → (∀ x ∈ gone, ¬ s.inQueue a x) → s.inQueue a y → exec (.cellFreed a) s =
        .next (u (some { p with waiting := false, todo := todo, current := some y, stepStart := s.now }))) ∧
      ((∀ x ∈ p.todo, ¬ s.inQueue a x) → p.kind = .saturation ∨ p.kind = .teardown → rest ≠ [] → exec (.cellFreed a) s =
        .next (u (some { p with todo := [] }))) ∧
      ((∀ x ∈ p.todo, ¬ s.inQueue a x) → (p.kind = .saturation ∨ p.kind = .teardown → rest = []) → (s.session a).ending = false →
        (s.session a).state.isReleasing = false ∨ s.queuesEmpty a = true → (s.intake a).deferred = [] → (s.store a).closeWaiting = none →
        let ended : State := ((u none).onStore a (fun st => { st with staleWaiting := none, saturationOwed := false }))
        let done (w : Work) (code : Byte) (t : State) : State := if s.mgmt.transport = .working w then
          t.onMgmt (fun m => { m with transport := .held { code := .done, command := code, fields := [] } }) else t
        let after : State := match p.kind with
          | .close k => done (.closeStream a) 6 (ended.onStream (streamOf a k) (fun st => { st with isOpen := false }))
          | .teardown => done (.disarm a) 3 ended
          | .forward _ | .backward _ | .withdraw _ _ | .saturation => ended
        ((s.store a).saturationOwed = false → exec (.cellFreed a) s = .next after) ∧
        ((s.store a).saturationOwed = true → s.cueInProgress a = false → s.queuesEmpty a = false →
          exec (.cellFreed a) s = .next (after.onStore a (fun st => { st with purge := some (s.wholeWalk a .saturation false) })))))

/-- The end of a walk step: a removed cue leaves its queue, its cells go to the freeing unit and the walk waits; a caption that a backward
jump returns is QUEUED without its due record and resend mark; a cue left stands; where a next cue stands in its queue its step begins
(R93 to R101). A forward jump removes what ends at or before its target; a backward jump returns the DUE and ON-AIR captions that start
after its target; a WITHDRAW removes what starts at or after its from-time and stops at the first that does not; a CLOSE-STREAM, a
saturation and a teardown remove every cue (R95 to R101). A WITHDRAW or CLOSE-STREAM that removes an ON-AIR caption owes a clear on its stream
(R116). Where no next cue stands in its queue the purge ends, and release looks at the cue left QUEUED (R104, R119; a narration block that
starts beyond 43,199,999 waits, by R68: log entry 41). -/
def Obligations.PurgeSteps : Prop :=
  (∀ (a : Aud) (p : Purge) (x : Slot × Seq) (s : State), s.stepDue a = some (p, x) ↔
    (s.store a).purge = some p ∧ p.current = some x ∧ p.stepStart + 200 ≤ s.now) ∧
  (∀ (a : Aud) (p : Purge) (k : Slot) (x : Seq) (c : Cue) (s : State), s.stepDue a = some (p, (k, x)) →
    s.findCue (streamOf a k) x = some c → s.ringsBusy → s.insertionRuns a = false →
    (p.kind.ruling c = .remove →
      let cleared : State := match p.kind with
        | .withdraw _ _ | .close _ => if c.kind = .caption ∧ c.life = .onAir then s.oweClear (streamOf a k) else s
        | .forward _ | .backward _ | .saturation | .teardown => s
      let counted : State := match p.kind with
        | .forward _ => cleared.onCounters a (fun n => { n with expired := bump n.expired })
        | .backward _ | .withdraw _ _ | .close _ | .saturation | .teardown => cleared
      exec (.purgeStep a) s = .next ((counted.onStream (streamOf a k)
          (fun st => { st with queue := st.queue.filter (fun d => d.seq != x) })).onStore a (fun st => { st with
            freeing := st.freeing ++ [{ cells := 1 + c.heldBodies, tag := .purge }]
            cellStart := if st.freeing = [] then s.now else st.cellStart
            purge := some { p with current := none, waiting := true } }))) ∧
    (p.waiting = false →
      let places := if p.kind.stopsAt c then [] else p.todo
      let back : Cue → Cue := fun d => { d with life := .queued, due := none, resend := false, cursor := 0 }
      let ruled : State := match p.kind.ruling c with
        | .toQueued => s.onCue (streamOf a k) x back
        | .rewind b => s.onCue (streamOf a k) x (fun d => { d with cursor := b, due := none })
        | .leave | .remove => s
      (∀ gone y rest, p.kind.ruling c ≠ .remove → places = gone ++ y :: rest → (∀ z ∈ gone, ¬ s.inQueue a z) → s.inQueue a y →
        exec (.purgeStep a) s = .next (ruled.onStore a (fun st => { st with
          purge := some { p with todo := rest, current := some y, stepStart := s.now } }))) ∧
      ((∀ z ∈ places, ¬ s.inQueue a z) → p.kind.ruling c = .leave ∨ p.kind.ruling c = .toQueued → (s.session a).ending = false →
        (s.intake a).deferred = [] → (s.store a).saturationOwed = false → (s.store a).closeWaiting = none →
        (s.store a).staleWaiting = none →
        let u : State := ruled.onStore a (fun st => { st with purge := none })
        ((s.session a).state.isReleasing = false → exec (.purgeStep a) s = .next u) ∧
        ∀ d : Cue, s.onlyCue (streamOf a k) c → (s.session a).state.isReleasing = true → s.position a < 43199999 →
          d = (if p.kind.ruling c = .toQueued then back c else c) → d.life = .queued → d.due = none →
          (d.kind = .narration → u.oneLook (streamOf a k) d) → exec (.purgeStep a) s = .next (u.cueReleased (streamOf a k) d)))) ∧
  (∀ c : Cue,
    (∀ target, (PurgeKind.forward target).ruling c =
      if c.start + (if c.kind = .caption then c.length else 24 * c.length) ≤ target then .remove else .leave) ∧
    (∀ target, c.kind = .caption → (PurgeKind.backward target).ruling c =
      if (c.life = .due ∨ c.life = .onAir) ∧ target < c.start then .toQueued else .leave) ∧
    (∀ target, c.kind = .narration → (PurgeKind.backward target).ruling c =
      if c.life = .playing then
        if target < c.start then .toQueued
        else if target < c.start + 24 * c.length ∧ (target - c.start) / 24 < c.cursor then .rewind ((target - c.start) / 24)
        else .leave
      else .leave) ∧
    (∀ k fromTime, (PurgeKind.withdraw k fromTime).ruling c = (if fromTime ≤ c.start then .remove else .leave) ∧
      ((PurgeKind.withdraw k fromTime).stopsAt c = true ↔ c.start < fromTime)) ∧
    (∀ k, (PurgeKind.close k).ruling c = .remove ∧ PurgeKind.saturation.ruling c = .remove ∧ PurgeKind.teardown.ruling c = .remove))

/-! ### The patron link ports -/

/-- A fill's time has passed: its buffer is READY at the tail of the READY queue, and nothing else of the port changes but that the arbiter
may begin another fill (R131, R133, R134). On the one SERVING port, with no second fill in progress, the next fill takes the lowest-numbered
EMPTY buffer for 4 base counts a byte and the first candidate in the order beacon, clear by stream number, narration by block start, caption by
T, then by stream number and place in the queue (R132). The frame is R133's, with S, X and the late flag of R109 and R115, the clear's of R117,
the beacon entries of R140 and the lowest filter that accepts the stream; that a clear's robust and late flags are clear is the
model's choice (log entry 46). Its staging takes the port out of the clear-owed or pending set; the
last port's puts a caption ON-AIR and, where no further block is looked at, finishes a narration block with (R106, R108, R114). With no
candidate, or no EMPTY buffer, no fill begins. -/
def Obligations.FillEndsReady : Prop :=
  (∀ (p : Port) (b : BufNo) (f : Frame) (s : State), s.fillDue p = some (b, f) ↔ ∃ e, pick (s.link p).buffers b = .filling f e ∧ e ≤ s.now ∧
    ∀ c, c < b → ∀ g x, pick (s.link p).buffers c ≠ .filling g x) ∧
  (∀ (p : Port) (b : BufNo) (f : Frame) (s : State), s.fillDue p = some (b, f) →
    ∃ t, exec (.fillEnds p) s = .next t ∧ s.onlyPort t p ∧ (t.linkCounter p).own = (s.linkCounter p).own ∧
      (t.link p).outside = { s.link p with readyQueue := (s.link p).readyQueue ++ [b] }.outside ∧
      pick (t.link p).buffers b = .ready f ∧ ∀ c, c ≠ b → (s.link p).bufferStands (t.link p) c) ∧
  (∀ (p : Port) (s : State), s.beaconEntries p =
    ((List.finRange 16).filter (fun a => !((s.session a).state == .dark) &&
      (List.finRange 6).any (fun k => (s.stream (streamOf a k)).isOpen && s.accepts p (streamOf a k)))).map (fun a => {
        auditorium := a, state := (s.session a).state, rate := (s.clock a).rate
        position := min ((s.clock a).base + (s.clock a).sub) 43199999 })) ∧
  ∀ (p : Port) (b : BufNo) (f : Frame) (s : State), s.fillDue p = some (b, f) → (s.link p).state = .serving →
    (∀ q, q ≠ p → (s.link q).state ≠ .serving) → (∀ c g x, c ≠ b → pick (s.link p).buffers c ≠ .filling g x) →
    let u : State := s.onLink p (fun l => { l with
      buffers := change l.buffers b (fun _ => .ready f), readyQueue := l.readyQueue ++ [b] })
    ((∀ c, c ≠ b → pick (s.link p).buffers c ≠ .empty) → exec (.fillEnds p) s = .next u) ∧
    ((s.link p).beaconOwed = false → (∀ n, ¬ s.candidateClear p n) → (∀ n c, ¬ s.candidateCue p .narration .playing n c) →
      (∀ n c, ¬ s.candidateCue p .caption .due n c) → exec (.fillEnds p) s = .next u) ∧
    ∀ e, pick (s.link p).buffers e = .empty → (∀ c, c < e → pick (s.link p).buffers c ≠ .empty) →
      ((s.link p).beaconOwed = true → exec (.fillEnds p) s =
        .next ((u.filling p e (.beacon (s.beaconEntries p))).onLink p (fun l => { l with beaconOwed := false }))) ∧
      ((s.link p).beaconOwed = false →
        (∀ (n : StreamNo) (k : Option Port), s.candidateClear p n → (∀ m, m < n → ¬ s.candidateClear p m) → s.lowestFilter p n k →
          let at_ := s.position (audOfStream n)
          exec (.fillEnds p) s = .next ((u.filling p e (.item {
              kind := .clear, stream := n, number := (s.stream n).clearNumber, language := (s.stream n).language, start := at_, finish := at_
              payload := [], secondCopy := false, twoCopies := false, robust := false, late := false, filter := k })).onStream n
            (fun st => { st with clearOwed := st.clearOwed.filter (fun q => !(q == p)) }))) ∧
        ((∀ n, ¬ s.candidateClear p n) →
          (∀ (n : StreamNo) (c : Cue) (d : DueRecord) (k : Option Port), s.candidateCue p .narration .playing n c →
            (∀ m x, s.candidateCue p .narration .playing m x →
              c.start + 24 * c.cursor < x.start + 24 * x.cursor ∨ c.start + 24 * c.cursor = x.start + 24 * x.cursor ∧ (n < m ∨ n = m ∧ x = c)) →
            s.findCue n c.seq = some c → c.due = some d → s.lowestFilter p n k →
            let v : State := u.filling p e (.item {
              kind := .narration, stream := n, number := d.number, language := (s.stream n).language
              start := c.start + 24 * c.cursor, finish := c.start + 24 * (c.cursor + 1), payload := (c.bodies[c.cursor]?).join.getD []
              secondCopy := false, twoCopies := false, robust := decide (0 < (s.stream n).degraded), late := false, filter := k })
            let left := d.pending.filter (fun q => !(q == p))
            (left ≠ [] → exec (.fillEnds p) s = .next (v.onCue n c.seq (fun x => { x with
              due := some { number := d.number, pending := left, staged := true } }))) ∧
            (left = [] → s.onlyCue n c → s.insertionRuns (audOfStream n) = false → (s.session (audOfStream n)).ending = false →
              c.length ≤ c.cursor + 1 ∨
                s.position (audOfStream n) + (s.stream n).lead < c.start + 24 * (c.cursor + 1) ∨ (s.store (audOfStream n)).purge ≠ none →
              exec (.fillEnds p) s = .next (v.blockPassed n c false))) ∧
          ((∀ n c, ¬ s.candidateCue p .narration .playing n c) →
            ∀ (n : StreamNo) (before behind : List Cue) (c : Cue) (d : DueRecord) (k : Option Port), s.candidateCue p .caption .due n c →
            (s.stream n).queue = before ++ c :: behind →
            (∀ m x, s.candidateCue p .caption .due m x → c.start < x.start ∨ c.start = x.start ∧ (n < m ∨ n = m ∧ x ∉ before)) →
            s.findCue n c.seq = some c → c.due = some d → s.lowestFilter p n k →
            let at_ := s.position (audOfStream n)
            let late := decide (c.start < at_) && !c.resend
            let left := d.pending.filter (fun q => !(q == p))
            let v : State := u.filling p e (.item {
              kind := .caption, stream := n, number := d.number, language := (s.stream n).language
              start := if at_ ≤ c.start then c.start else at_, finish := c.start + c.length, payload := c.bodies.flatMap (fun x => x.getD [])
              secondCopy := false, twoCopies := decide (0 < (s.stream n).degraded), robust := false, late := late, filter := k })
            let w : State := if late then v.onCounters (audOfStream n) (fun x => { x with late := bump x.late }) else v
            exec (.fillEnds p) s = .next (w.onCue n c.seq (fun x => if left = [] then
                { x with life := .onAir, due := none, resend := false }
              else { x with due := some { number := d.number, pending := left, staged := true } })))))

/-- A PULL outside SERVING: DOWN and ALIGNING answer NOT-SERVING; STALLED, its ring empty, becomes SERVING and is answered with a beacon
formed at that instant (R124, R125). -/
def Obligations.PullOutsideServing : Prop :=
  ∀ (p : Port) (slot : BitVec 16) (s : State),
    ((s.link p).state = .down ∨ (s.link p).state = .aligning →
      exec (.pull p slot) s = .next (s.onLink p (fun l => { l with lastSlot := slot, exchange := .direct, answer := [6, 1, 6] }))) ∧
    ((s.link p).state = .stalled → (∀ b, pick (s.link p).buffers b = .empty) → (s.link p).readyQueue = [] →
      ∃ t, exec (.pull p slot) s = .next t ∧ s.onlyPort t p ∧ (t.linkCounter p).own = (s.linkCounter p).own ∧
        (t.link p).outside = { s.link p with
          state := .serving, lastSlot := slot, exchange := .direct
          beaconDue := some (s.now + (s.link p).beaconPeriod * 12288)
          silenceStart := if (s.link p).silenceLimit = 0 then none else some s.now
          answer := answerData 6 (Frame.beacon (s.beaconEntries p)).bytes }.outside ∧
        (t.link p).beaconOwed = false ∧
        ∀ b, pick (t.link p).buffers b = .empty ∨ ∃ f e, pick (t.link p).buffers b = .filling f e)

/-- A PULL taken while the exchange is BUFFER is a re-pull: the SENDING frame is answered again, unchanged and untested for expiry; the
re-pull counter counts it, the slot is recorded, the silence timer restarts, and the READY queue stands (R136). -/
def Obligations.RePull : Prop :=
  ∀ (p : Port) (slot : BitVec 16) (b : BufNo) (f : Frame) (s : State), s.ringsWf → (s.link p).exchange = .buffer b →
    pick (s.link p).buffers b = .sending f →
    ∃ t, exec (.pull p slot) s = .next t ∧ s.onlyPort t p ∧
      (t.linkCounter p).own = { s.linkCounter p with repull := bump (s.linkCounter p).repull }.own ∧
      (t.link p).outside = { s.link p with
        lastSlot := slot
        silenceStart := if (s.link p).silenceLimit = 0 then none else some s.now
        answer := answerData 6 f.bytes }.outside ∧
      ∀ c, (s.link p).bufferStands (t.link p) c

/-- A PULL in SERVING with no frame outstanding: expired frames at the head of the READY queue are dropped and counted, and the first that
is not expired is answered and becomes SENDING. With nothing READY but expired frames it is answered with a beacon where one is owed, else
with a filler, which is counted (R135). The bytes of every air frame are those of 10.4, and an answer with data is its code, its length and its
data (10.5). A frame is expired where its auditorium is DARK, or where it is a caption or narration frame with X at or before P (R135). -/
def Obligations.PullServed : Prop :=
  (∀ f : Frame, f.onAir f.bytes) ∧ (∀ (code : Byte) (data : List Byte), answerData code data = [code, BitVec.ofNat 8 data.length] ++ data) ∧
  (∀ (s : State) (f : Frame), s.frameExpired f = true ↔ s.overdue f) ∧
  ∀ (p : Port) (slot : BitVec 16) (s : State), (s.link p).state = .serving →
    (∀ c g, (s.link p).exchange = .buffer c → pick (s.link p).buffers c ≠ .sending g) →
    let pulled (e : Exchange) (answer : List Byte) (queue : List BufNo) : LinkPort := { s.link p with
      lastSlot := slot, exchange := e, readyQueue := queue, answer := answer
      silenceStart := if (s.link p).silenceLimit = 0 then none else some s.now }
    (∀ (xs rest : List BufNo) (b : BufNo) (f : Frame), (s.link p).readyQueue = xs ++ b :: rest → (s.link p).readyQueue.Nodup →
      (∀ x ∈ xs, ∃ g, pick (s.link p).buffers x = .ready g ∧ s.frameExpired g = true) →
      pick (s.link p).buffers b = .ready f → s.frameExpired f = false →
      ∃ t, exec (.pull p slot) s = .next t ∧ s.onlyPort t p ∧
        (t.link p).outside = (pulled (.buffer b) (answerData 6 f.bytes) rest).outside ∧
        (t.linkCounter p).own = { s.linkCounter p with dropped := bumpBy xs.length (s.linkCounter p).dropped }.own ∧
        pick (t.link p).buffers b = .sending f ∧
        (∀ x ∈ xs, pick (t.link p).buffers x = .empty ∨ ∃ g e, pick (t.link p).buffers x = .filling g e) ∧
        ∀ c, c ∉ xs → c ≠ b → (s.link p).bufferStands (t.link p) c) ∧
    ((s.link p).readyQueue.Nodup → (∀ x ∈ (s.link p).readyQueue, ∃ g, pick (s.link p).buffers x = .ready g ∧ s.frameExpired g = true) →
      let dropped := { s.linkCounter p with dropped := bumpBy (s.link p).readyQueue.length (s.linkCounter p).dropped }
      ∃ t, exec (.pull p slot) s = .next t ∧ s.onlyPort t p ∧
        (∀ x ∈ (s.link p).readyQueue, pick (t.link p).buffers x = .empty ∨ ∃ g e, pick (t.link p).buffers x = .filling g e) ∧
        (∀ c, c ∉ (s.link p).readyQueue → (s.link p).bufferStands (t.link p) c) ∧
        if (s.link p).beaconOwed then
          (t.link p).beaconOwed = false ∧ (t.linkCounter p).own = dropped.own ∧
          (t.link p).outside = (pulled .direct (answerData 6 (Frame.beacon (s.beaconEntries p)).bytes) []).outside
        else
          (t.linkCounter p).own = { dropped with filler := bump dropped.filler }.own ∧
          (t.link p).outside = (pulled .direct (answerData 6 (Frame.filler (s.beaconEntries p)).bytes) []).outside)

/-- A DONE that finds no frame of the ring: NO-FRAME and a protocol error where the exchange is CLOSED, TAKEN where it is DIRECT or VOID,
which it closes. A DONE for the SENDING frame is answered TAKEN and closes the exchange. SENT: it is counted; a caption's copy 1 of 2, not
expired, goes back to the tail of the READY queue as copy 2, and any other frame's buffer is given up. ABORTED: it is counted; an expired
frame is dropped and counted, any other goes back to the head of the READY queue (R137, R138). -/
def Obligations.DoneTaken : Prop :=
  (∀ (p : Port) (i : Instr) (s : State), i = .doneSent p ∨ i = .doneAborted p →
    ((s.link p).exchange = .closed → exec i s = .next ((((s.onLinkCounters p (fun c => { c with protocol := bump c.protocol })).raiseLink p
      kindProtocol).onLink p (fun l => { l with answer := [2, 0] })))) ∧
    ((s.link p).exchange = .direct ∨ (s.link p).exchange = .void →
      exec i s = .next (s.onLink p (fun l => { l with exchange := .closed, answer := [1, 0] })))) ∧
  (∀ (p : Port) (b : BufNo) (f : Frame) (s : State), (s.link p).exchange = .buffer b → pick (s.link p).buffers b = .sending f →
    let closed (queue : List BufNo) : LinkPort := { s.link p with exchange := .closed, answer := [1, 0], readyQueue := queue }
    let given (t : State) : Prop :=
      (t.link p).outside = (closed ((s.link p).readyQueue.filter (fun x => !(x == b)))).outside ∧
      (pick (t.link p).buffers b = .empty ∨ ∃ g e, pick (t.link p).buffers b = .filling g e)
    (∃ t, exec (.doneSent p) s = .next t ∧ s.onlyPort t p ∧
      (t.linkCounter p).own = { s.linkCounter p with sent := bump (s.linkCounter p).sent }.own ∧
      (∀ c, c ≠ b → (s.link p).bufferStands (t.link p) c) ∧
      (∀ i, f = .item i → i.kind = .caption → i.twoCopies = true → i.secondCopy = false → s.frameExpired f = false →
        (t.link p).outside = (closed ((s.link p).readyQueue ++ [b])).outside ∧
        pick (t.link p).buffers b = .ready (.item { i with secondCopy := true })) ∧
      ((∀ i, f = .item i → ¬ (i.kind = .caption ∧ i.twoCopies = true ∧ i.secondCopy = false)) ∨ s.frameExpired f = true → given t)) ∧
    (∃ t, exec (.doneAborted p) s = .next t ∧ s.onlyPort t p ∧ (∀ c, c ≠ b → (s.link p).bufferStands (t.link p) c) ∧
      if s.frameExpired f then
        given t ∧ (t.linkCounter p).own = { s.linkCounter p with
          abort := bump (s.linkCounter p).abort, dropped := bump (s.linkCounter p).dropped }.own
      else
        (t.link p).outside = (closed (b :: (s.link p).readyQueue)).outside ∧ pick (t.link p).buffers b = .ready f ∧
        (t.linkCounter p).own = { s.linkCounter p with abort := bump (s.linkCounter p).abort }.own))

/-- A REPORT of 1 to 16 entries is answered TAKEN and counted entry by entry; it changes the receivers, their streams' degraded counts, the
lost list, the table's two counters and the table's attention record; several entries are taken one after another in their order (R145, R151). Any other count is MALFORMED (R123, R145, R174). One entry: an
unknown receiver and a mismatch are counted and change no receiver; a match sets the report age to 0 and moves the health by one down or
eight up, and the state with it: DEGRADED from 128, GOOD again at 127, LOST at 255; a LOST receiver returns at its sixteenth clean report
in a row (R151, R152, R156). A receiver that goes LOST is offered to the lost list: its index joins the tail, LOST is raised where the list was
empty, and a full list sets the overflow flag and raises LOST-OVERFLOW (R153, R158; under the receivers' law of O10, by which a DEGRADED health
is at most 254). -/
def Obligations.Reports : Prop :=
  (∀ (id : BitVec 32) (i : RxIndex) (s : State), s.findReceiver id = some i ↔
    id ≠ 0 ∧ (s.rx i).state ≠ .free ∧ (s.rx i).id = id ∧ ∀ j, j < i → (s.rx j).state ≠ .free → (s.rx j).id ≠ id) ∧
  (∀ (p : Port) (entries : List ReportEntry) (s : State),
    (1 ≤ entries.length → entries.length ≤ 16 → ∃ t, exec (.report p entries) s = .next t ∧
      t = { s with
        links := change s.links p (fun l => { l with answer := [1, 0] })
        linkCounters := change s.linkCounters p (fun c => { c with reports := bumpBy entries.length c.reports })
        receivers := t.receivers, streams := t.streams, attention := { s.attention with table := t.attention.table }
        table := { s.table with lost := t.table.lost, overflow := t.table.overflow, unknown := t.table.unknown
                                mismatch := t.table.mismatch } } ∧
      ∀ n, t.stream n = { s.stream n with degraded := (t.stream n).degraded }) ∧
    (entries.length = 0 ∨ 16 < entries.length →
      exec (.report p entries) s = .next ((((s.onLinkCounters p (fun c => { c with protocol := bump c.protocol })).raiseLink p
        kindProtocol).onLink p (fun l => { l with answer := [5, 0] }))))) ∧
  (∀ (p : Port) (e : ReportEntry) (s : State), ∃ t, exec (.report p [e]) s = .next t ∧
    match s.findReceiver e.receiver with
    | none => t.receivers = s.receivers ∧ t.table = { s.table with unknown := bump s.table.unknown }
    | some i =>
      let r := s.rx i
      let health := if e.missed = 0 then r.health - 1 else min (r.health + 8) 255
      (∀ j, j ≠ i → t.rx j = s.rx j) ∧ t.table.unknown = s.table.unknown ∧
      if e.auditorium.toNat = r.auditorium.val ∧ ∃ k, slotOf e.slot = some k ∧ r.slots.getLsbD k.val = true then
        t.table.mismatch = s.table.mismatch ∧
        t.rx i = (match r.state with
          | .good => { r with age := 0, health := health, state := if 128 ≤ health then .degraded else .good }
          | .degraded =>
            if health = 255 then { r with age := 0, health := 255, state := .lost, cleanRun := 0 }
            else { r with age := 0, health := health, state := if health ≤ 127 then .good else .degraded }
          | .lost =>
            if e.missed ≠ 0 then { r with age := 0, cleanRun := 0 }
            else if r.cleanRun + 1 < 16 then { r with age := 0, cleanRun := r.cleanRun + 1 }
            else { r with age := 0, state := .good, health := 0, cleanRun := 0 }
          | .free => { r with age := 0 })
      else t.rx i = r ∧ t.table = { s.table with mismatch := bump s.table.mismatch }) ∧
  (∀ (p : Port) (e : ReportEntry) (s : State), s.receiversWf → ∃ t, exec (.report p [e]) s = .next t ∧
    s.lostOffered t (match s.findReceiver e.receiver with
      | none => []
      | some i =>
        let r := s.rx i
        if e.auditorium.toNat = r.auditorium.val ∧ (∃ k, slotOf e.slot = some k ∧ r.slots.getLsbD k.val = true) ∧ e.missed ≠ 0 ∧
          r.state = .degraded ∧ 247 ≤ r.health ∧ i ∉ s.table.lost then [i] else [])) ∧
  ∀ (p : Port) (e : ReportEntry) (rest : List ReportEntry) (s : State), rest ≠ [] → rest.length < 16 →
    ∃ u t, exec (.report p [e]) s = .next u ∧ exec (.report p rest) u = .next t ∧ exec (.report p (e :: rest)) s = .next t

/-- LINK-QUERY answers the link state, the READY buffers, beacon owed and the ten counters, and changes nothing; a transaction of unknown
code or wrong arguments is MALFORMED, counted as a protocol error with PROTOCOL raised (R123, R146, R147). -/
def Obligations.LinkQueryAndMalformed : Prop :=
  ∀ (p : Port) (code : Byte) (args : List Byte) (s : State),
    let c := s.linkCounter p
    let readies := ((List.finRange 3).filter (fun b => (pick (s.link p).buffers b).isReady)).length
    exec (.linkQuery p) s = .next (s.onLink p (fun l => { l with
      answer := [8, 23] ++ byte1 l.state.code ++ byte1 readies ++ [if l.beaconOwed then 1 else 0] ++ byte2 c.sent ++ byte2 c.filler ++
        byte2 c.repull ++ byte2 c.abort ++ byte2 c.dropped ++ byte2 c.discarded ++ byte2 c.missedBeacon ++ byte2 c.protocol ++
        byte2 c.reports ++ byte2 c.lapsed })) ∧
    exec (.malformed p code args) s = .next ((((s.onLinkCounters p (fun c => { c with protocol := bump c.protocol })).raiseLink p
      kindProtocol).onLink p (fun l => { l with answer := [5, 0] })))

/-- Leaving SERVING by the silence timer, ALIGN-START or RESET-LINK-PORT: every frame is discarded and counted, a BUFFER exchange becomes
VOID (CLOSED by RESET-LINK-PORT), the READY queue, beacon owed and both timers are cleared; the silence timer raises STALLED. In another
state ALIGN-START restarts the probe ring and RESET-LINK-PORT leaves the port DOWN (R124, R126 to R128, R142). -/
def Obligations.LeavingServing : Prop :=
  (∀ (p : Port) (i : Instr) (dest : LinkState) (s : State), s.leavesServing p i dest →
    ∃ t, exec i s = .next t ∧ s.onlyPort t p ∧
      (t.link p).outside = { s.link p with
        state := dest, readyQueue := [], beaconDue := none, silenceStart := none
        exchange := match dest, (s.link p).exchange with
          | .down, _ => .closed
          | _, .buffer _ => .void
          | _, x => x
        probe := if dest = LinkState.stalled then (s.link p).probe else {}
        answer := if dest = LinkState.aligning then [1, 0] else (s.link p).answer }.outside ∧
      (t.link p).beaconOwed = false ∧ (∀ b, pick (t.link p).buffers b = .empty) ∧
      (t.linkCounter p).own = { s.linkCounter p with
        discarded := bumpBy ((List.finRange 3).filter (fun b => !(pick (s.link p).buffers b == Buffer.empty))).length
          (s.linkCounter p).discarded }.own ∧
      (dest = .stalled → (pick t.attention.links p).pending &&& kindStalled = kindStalled) ∧
      (dest = .down → t.mgmt = { transport := .held { code := .done, command := 11, fields := [] }, out := [1] })) ∧
  (∀ (p : Port) (s : State), (s.link p).state ≠ .serving →
    exec (.alignStart p) s = .next (s.onLink p (fun l => { l with state := .aligning, probe := {}, answer := [1, 0] })) ∧
    (s.takesCommands → exec (.resetLinkPort [BitVec.ofNat 8 p.val]) s = .next ((s.onLink p (fun l => { l with
      state := .down, exchange := .closed, probe := {}, beaconOwed := false, beaconDue := none, silenceStart := none })).respond 11
        .done [])))

/-- A port that leaves SERVING leaves every stream's clear-owed set and every item's pending link set (R85, R106, R126). Where no other port can
begin a fill, a cue it owed nothing stands, and one owed to others too keeps its due record without the port; a caption whose pending set
so becomes empty is ON-AIR, without due record and resend mark (R108); a narration block whose set becomes empty is finished with, counted
as skipped where its staged mark is clear (R114; here of a cue alone in its auditorium, no further block being looked at). -/
def Obligations.LeavingPortOwesNothing : Prop :=
  ∀ (p : Port) (i : Instr) (dest : LinkState) (s t : State), s.leavesServing p i dest → s.cuesDistinct → exec i s = .next t →
    (∀ n, p ∉ (t.stream n).clearOwed ∧ ∀ c ∈ (t.stream n).queue, p ∉ c.outstanding) ∧
    ((∀ q, q ≠ p → s.portBusy q) →
      ∀ (n : StreamNo) (c : Cue), c ∈ (s.stream n).queue →
        (p ∉ c.outstanding → c ∈ (t.stream n).queue) ∧
        ∀ d, c.due = some d → p ∈ d.pending →
          let left := d.pending.filter (fun q => !(q == p))
          (left ≠ [] → { c with due := some { d with pending := left } } ∈ (t.stream n).queue) ∧
          (left = [] → c.kind = .caption → { c with life := .onAir, due := none, resend := false } ∈ (t.stream n).queue) ∧
          (left = [] → c.kind = .narration → s.onlyCue n c → s.insertionRuns (audOfStream n) = false →
            (s.session (audOfStream n)).ending = false →
            c.length ≤ c.cursor + 1 ∨ s.position (audOfStream n) + (s.stream n).lead < c.start + 24 * (c.cursor + 1) ∨
              (s.store (audOfStream n)).purge ≠ none →
            let u := s.blockPassed n c (!d.staged)
            (t.stream n).queue = (u.stream n).queue ∧ t.audCounter (audOfStream n) = u.audCounter (audOfStream n) ∧
              t.store (audOfStream n) = u.store (audOfStream n)))

/-- The probe ring (R143): in ALIGNING a write stores its 64 bytes at the write pointer, which advances from 3 to 0, and is counted; a read
returns the slot at the read pointer, or the filler pattern 255 down to 192 where it is unwritten, and advances that pointer; a read does
not unwrite its slot. In any other state both are answered WRONG-STATE and change nothing. A PROBE-WRITE of other than 64 bytes is MALFORMED,
with a protocol error (R123 with R143; the model's choice for such operands of the row, log entry 29). -/
def Obligations.ProbeRing : Prop :=
  ∀ (p : Port) (bytes : List Byte) (s : State),
    (bytes.length ≠ 64 → exec (.probeWrite p bytes) s = .next ((((s.onLinkCounters p (fun c => { c with
      protocol := bump c.protocol })).raiseLink p kindProtocol).onLink p (fun l => { l with answer := [5, 0] })))) ∧
    ((s.link p).state = .aligning →
      (bytes.length = 64 → ∃ t, exec (.probeWrite p bytes) s = .next t ∧ t = { s with links := t.links } ∧
        (∀ q, q ≠ p → t.link q = s.link q) ∧ t.link p = { s.link p with probe := (t.link p).probe, answer := [1, 0] } ∧
        (∀ k, pick (t.link p).probe.slots k = if k = (s.link p).probe.writePtr then some bytes else pick (s.link p).probe.slots k) ∧
        (t.link p).probe.writePtr.val = ((s.link p).probe.writePtr.val + 1) % 4 ∧ (t.link p).probe.readPtr = (s.link p).probe.readPtr ∧
        (t.link p).probe.writeCount = bump (s.link p).probe.writeCount) ∧
      ∃ t, exec (.probeRead p) s = .next t ∧ t = { s with links := t.links } ∧ (∀ q, q ≠ p → t.link q = s.link q) ∧
        (∀ data, (match pick (s.link p).probe.slots (s.link p).probe.readPtr with
          | some x => data = x
          | none => data = (List.range 64).map (fun k => BitVec.ofNat 8 (255 - k))) →
          t.link p = { s.link p with probe := (t.link p).probe, answer := answerData 7 data }) ∧
        (t.link p).probe.slots = (s.link p).probe.slots ∧ (t.link p).probe.writePtr = (s.link p).probe.writePtr ∧
        (t.link p).probe.readPtr.val = ((s.link p).probe.readPtr.val + 1) % 4 ∧
        (t.link p).probe.writeCount = (s.link p).probe.writeCount) ∧
    ((s.link p).state ≠ .aligning →
      (bytes.length = 64 → exec (.probeWrite p bytes) s = .next (s.onLink p (fun l => { l with answer := [3, 0] }))) ∧
      exec (.probeRead p) s = .next (s.onLink p (fun l => { l with answer := [3, 0] })))

/-- ALIGN-END (R144): WRONG-STATE outside ALIGNING; UNBALANCED, and nothing changed, while the write count is 0 or the pointers differ.
Balanced, FAIL clears the ring and raises ALIGN-FAIL. Balanced, PASS enters SERVING with the timers loaded and a beacon owed (R125): the rings of
ports outside SERVING being empty (R126), buffer 0 begins a beacon's fill at once, which clears beacon owed, and the other two stay EMPTY (R131);
its entries are R140's where no other port is SERVING. -/
def Obligations.AlignEnd : Prop :=
  ∀ (p : Port) (s : State),
    let balanced := 1 ≤ (s.link p).probe.writeCount ∧ (s.link p).probe.readPtr = (s.link p).probe.writePtr
    (∀ i, i = .alignEndPass p ∨ i = .alignEndFail p →
      ((s.link p).state ≠ .aligning → exec i s = .next (s.onLink p (fun l => { l with answer := [3, 0] }))) ∧
      ((s.link p).state = .aligning → ¬ balanced → exec i s = .next (s.onLink p (fun l => { l with answer := [4, 0] })))) ∧
    ((s.link p).state = .aligning → balanced →
      exec (.alignEndFail p) s = .next ((s.onLink p (fun l => { l with probe := {}, answer := [1, 0] })).raiseLink p kindAlignFail) ∧
      (s.ringsWf → ∃ t es, exec (.alignEndPass p) s = .next t ∧ s.onlyPort t p ∧ (t.linkCounter p).own = (s.linkCounter p).own ∧
        (t.link p).outside = { s.link p with
          state := .serving, answer := [1, 0], beaconDue := some (s.now + (s.link p).beaconPeriod * 12288)
          silenceStart := if (s.link p).silenceLimit = 0 then none else some s.now }.outside ∧
        (t.link p).beaconOwed = false ∧ pick (t.link p).buffers 0 = .filling (.beacon es) (s.now + 4 * (2 + 7 * es.length)) ∧
        pick (t.link p).buffers 1 = .empty ∧ pick (t.link p).buffers 2 = .empty ∧
        ((∀ q, q ≠ p → (s.link q).state ≠ .serving) → es = s.beaconEntries p)))

/-- The beacon timer expires: it is reloaded with the period, and a beacon becomes owed, or is counted as missed where one was owed already
(R139). With a fill in progress, or no EMPTY buffer, the beacon stays owed; else the lowest-numbered EMPTY buffer begins its fill, which clears
beacon owed (R131), and its entries are R140's where no other port is SERVING. -/
def Obligations.BeaconTimer : Prop :=
  ∀ (p : Port) (s : State), s.dueTest (.beaconTimerExpires p) = some true →
    ∃ t, exec (.beaconTimerExpires p) s = .next t ∧ s.onlyPort t p ∧
      (t.link p).outside = { s.link p with beaconDue := some (s.now + (s.link p).beaconPeriod * 12288) }.outside ∧
      (∀ c, (s.link p).bufferStands (t.link p) c) ∧
      (t.linkCounter p).own = { s.linkCounter p with
        missedBeacon := if (s.link p).beaconOwed then bump (s.linkCounter p).missedBeacon else (s.linkCounter p).missedBeacon }.own ∧
      (s.portBusy p → (t.link p).beaconOwed = true ∧ (t.link p).buffers = (s.link p).buffers) ∧
      (∀ e, (∀ c f x, pick (s.link p).buffers c ≠ .filling f x) → pick (s.link p).buffers e = .empty →
        (∀ c, c < e → pick (s.link p).buffers c ≠ .empty) →
        (t.link p).beaconOwed = false ∧ ∃ es, (t.link p).buffers = change (s.link p).buffers e (fun _ =>
            .filling (.beacon es) (s.now + 4 * (2 + 7 * es.length))) ∧
          ((∀ q, q ≠ p → (s.link q).state ≠ .serving) → es = s.beaconEntries p))

/-! ### The receiver table -/

/-- Each second, every receiver in use whose auditorium is RUNNING or COASTING is one second older, up to 255; with a silence limit, a GOOD or
DEGRADED one whose new age is at or above it is LOST (R153 to R155); the ones newly LOST are offered to the lost list in some order (R158; log
entry 24). -/
def Obligations.SecondPasses : Prop :=
  ∀ s : State, s.dueTest .secondTimerExpires = some true →
    ∃ t, exec .secondTimerExpires s = .next t ∧
      t = { s with receivers := t.receivers, streams := t.streams, draws := t.draws
                   attention := { s.attention with table := t.attention.table }
                   table := { s.table with secondStart := s.now, lost := t.table.lost, overflow := t.table.overflow } } ∧
      (∀ n, t.stream n = { s.stream n with degraded := (t.stream n).degraded }) ∧
      (∃ l : List RxIndex, l.Perm (rxIndexes.filter (fun i =>
          (t.rx i).state == .lost && !((s.rx i).state == .lost) && !s.table.lost.contains i)) ∧ s.lostOffered t l) ∧
      ∀ i, let r := s.rx i
        let counts := r.state ≠ .free ∧ (s.session r.auditorium).state.isRunning = true
        let age := if counts ∧ r.age < 255 then r.age + 1 else r.age
        t.rx i =
          if counts ∧ (r.state = .good ∨ r.state = .degraded) ∧ s.table.silenceLimit ≠ 0 ∧ s.table.silenceLimit ≤ age then
            { r with age := age, state := .lost, cleanRun := 0 }
          else { r with age := age }

/-! ### The management port -/

/-- FETCH is answered as the transport stands, and changes nothing (R164). A command write while the transport is WORKING is answered BUSY and
not taken. Otherwise an unknown code is refused REFUSED-UNKNOWN, and a command with arguments of the wrong length, or that names an
auditorium above 15, a link port above 3, a slot above 5 or a gate neither yes nor no, is refused REFUSED-RANGE; nothing else changes
(R162, R163, R174). The response codes are those of 10.6. -/
def Obligations.ManagementTransport : Prop :=
  ([.done, .working, .busy, .refusedState, .refusedRange, .refusedFull, .refusedUnknown, .refusedDuplicate].map RespCode.code =
    [1, 2, 3, 4, 5, 6, 7, 8]) ∧
  (∀ s : State, exec .fetch s = .next { s with mgmt := { s.mgmt with out :=
    match s.mgmt.transport with
    | .idle => [1, 0, 0]
    | .working (.disarm _) => [2, 3, 0]
    | .working (.closeStream _) => [2, 6, 0]
    | .working (.resetCuePort _) => [2, 8, 0]
    | .held r => [BitVec.ofNat 8 r.code.code, r.command, BitVec.ofNat 8 r.fields.length] ++ r.fields } }) ∧
  (∀ s : State,
    (∀ w, s.mgmt.transport = .working w →
      (∀ i f, commandForm i = some f → exec i s = .next { s with mgmt := { s.mgmt with out := [2] } }) ∧
      ∀ code args, exec (.unknownCommand code args) s = .next { s with mgmt := { s.mgmt with out := [2] } }) ∧
    (s.takesCommands →
      (∀ code args, exec (.unknownCommand code args) s = .next (s.respond code .refusedUnknown [])) ∧
      ∀ i code length args, commandForm i = some (code, length, args) →
        (args.length ≠ length ∨ (∃ n, choicesOf i = some n ∧ n ≤ (args.headD 0).toNat) ∨ namesNothing i = true) →
        exec i s = .next (s.respond code .refusedRange [])))

/-- CONFIGURE-AUDITORIUM: its four checks in order, and with all passed the quota, W and L are written and flow control is evaluated (R54,
R89). ARM: refused outside DARK, then for its rate code, one of the six of 10.1 with its tpf and N; accepted, the clock takes the rate with E_u at N, everything it holds of a show is
cleared, and the auditorium is ARMED with the ending mark clear (R2, R21, R26). The gate, W, L and the reference instant stand. That ARM's
flow-control evaluation may raise STORE-PRESSURE is the model's choice (log entry 44). -/
def Obligations.ConfigureAndArm : Prop :=
  ([.r24, .r25, .r30, .r48, .r50, .r60].map (fun r => (Rate.fps r, Rate.tpf r, Rate.nominal r)) =
    [(24, 50, 614400), (25, 48, 589824), (30, 40, 491520), (48, 25, 307200), (50, 24, 294912), (60, 20, 245760)]) ∧
  (∀ (b : Byte) (r : Rate), rateOf b = some r ↔ b.toNat = r.fps) ∧
  (∀ (a : Aud) (q1 q0 w l1 l0 : Byte) (s : State), s.takesCommands →
    let quota := number [q1, q0]
    exec (.configureAuditorium [BitVec.ofNat 8 a.val, q1, q0, w, l1, l0]) s = .next
      (if (s.session a).state ≠ .dark then s.respond 1 .refusedState []
      else if (s.store a).purge ≠ none then s.respond 1 .busy []
      else if 8192 < quota ∨ w.toNat ∉ [8, 16, 32, 64] then s.respond 1 .refusedRange []
      else if 8192 < quota + ((List.finRange 16).map (fun b => if b = a then 0 else (s.store b).quota)).sum then
        s.respond 1 .refusedFull []
      else (State.flow { s with
        stores := change s.stores a (fun st => { st with quota := quota })
        clocks := change s.clocks a (fun c => { c with windowSize := w.toNat, staleLimit := number [l1, l0] }) } a).respond 1 .done [])) ∧
  (∀ (a : Aud) (code : Byte) (s : State), s.takesCommands →
    exec (.arm [BitVec.ofNat 8 a.val, code]) s = .next
      (if (s.session a).state ≠ .dark then s.respond 2 .refusedState []
      else match rateOf code with
      | none => s.respond 2 .refusedRange []
      | some r => (State.flow { s with
          clocks := change s.clocks a (fun c => { c with
            rate := some r, period := 14745600 / r.fps, lastHold := 0, base := 0, sub := 0 })
          runs := change s.runs a (fun _ => {
            window := .closed, subFrozen := true, pauseStart := none, pauseHold := 0, staleMark := false, strobedAt := none })
          sessions := change s.sessions a (fun x => { x with state := .armed, ending := false }) } a).respond 2 .done []))

/-- DISARM: refused in DARK, BUSY while a purge runs. Taken, the auditorium is DARK with its clock and ending mark cleared, its READY and
FILLING frames leave the rings, counted as discarded, the saturation owed flag and a waiting stale resume are cleared, and the teardown purge
begins, the transport WORKING until it ends, its walk of every cue of the six queues, slots 0 to 5, each from head to tail (R22, R41, R93,
R101); with no cue to examine it waits for the freeing unit (log entry 13).
The gate, W, L and the reference instant stand. Of its six streams the clear-owed sets are emptied and all else stands (R41). A cue in progress
is removed: refused BROKEN-CUE, its cells to the freeing unit, its context closed or, where it was OPEN, skipping the bodies owed (R77, R101);
the port is otherwise as flow control leaves it in DARK (R55), evaluated before that refusal is placed (the model's choice: log entry 47). -/
def Obligations.DisarmSession : Prop :=
  ∀ (a : Aud) (s : State), s.takesCommands →
    ((s.session a).state = .dark → exec (.disarm [BitVec.ofNat 8 a.val]) s = .next (s.respond 3 .refusedState [])) ∧
    ((s.session a).state ≠ .dark → (s.store a).purge ≠ none →
      exec (.disarm [BitVec.ofNat 8 a.val]) s = .next (s.respond 3 .busy [])) ∧
    ((s.session a).state ≠ .dark → (s.store a).purge = none →
      ∃ t, exec (.disarm [BitVec.ofNat 8 a.val]) s = .next t ∧ s.tablesStand t ∧ s.othersStand t a ∧
        t.clock a = { s.clock a with rate := none, period := 0, lastHold := 0, base := 0, sub := 0 } ∧
        t.showRun a = { window := .closed, subFrozen := true, pauseStart := none, pauseHold := 0, staleMark := false, strobedAt := none } ∧
        t.session a = { s.session a with state := .dark, ending := false } ∧
        (t.audCounter a).own = (s.audCounter a).own ∧
        (t.store a).quota = (s.store a).quota ∧ (t.store a).used = (s.store a).used ∧
        (t.store a).saturationOwed = false ∧ (t.store a).staleWaiting = none ∧
        (∀ p b f, pick (t.link p).buffers b = .ready f → f.isOf a = false) ∧
        (∀ p b f e, pick (t.link p).buffers b = .filling f e → f.isOf a = false) ∧
        (∀ p b f, pick (t.link p).buffers b = .sending f ↔ pick (s.link p).buffers b = .sending f) ∧
        (∀ p, (t.linkCounter p).own = { s.linkCounter p with
          discarded := bumpBy ((List.finRange 3).filter (fun b => (pick (s.link p).buffers b).tornDown a)).length
            (s.linkCounter p).discarded }.own) ∧
        ((s.cueInProgress a = false → (s.store a).closeWaiting = none) →
          ∀ k, t.stream (streamOf a k) = { s.stream (streamOf a k) with clearOwed := [] }) ∧
        (let dark : State := s.onSession a (fun x => { x with state := .dark, ending := false })
        (s.cueInProgress a = false → t.intake a = s.intake a ∧ t.cuePort a = (dark.flow a).cuePort a ∧
          (t.store a).freeing = (s.store a).freeing) ∧
        ∀ c, (s.intake a).context.cue = some c →
          t.intake a = { s.intake a with context := match (s.intake a).context with
            | .opened _ owed => .skipping (some owed)
            | _ => .idle } ∧
          (t.audCounter a).refused = bump (s.audCounter a).refused ∧
          ((dark.flow a).cuePort a).gainsReply (t.cuePort a) (.refuse headCode c.seq .brokenCue) ∧
          (t.store a).freeing = (s.store a).freeing ++ [{ cells := 1 + c.heldBodies, tag := .purge }] ∧
          (t.store a).purge = some (s.wholeWalk a .teardown true) ∧ t.mgmt = { transport := .working (.disarm a), out := [1] }) ∧
        ((s.store a).closeWaiting = none → s.queuesEmpty a = true → s.cueInProgress a = false → (s.store a).freeing = [] →
          (t.store a).purge = none ∧ t.mgmt = { transport := .held { code := .done, command := 3, fields := [] }, out := [1] }) ∧
        (s.cueInProgress a = false → s.queuesEmpty a = false ∨ (s.store a).freeing ≠ [] →
          t.mgmt = { transport := .working (.disarm a), out := [1] } ∧
          (t.store a).purge = some (s.wholeWalk a .teardown (s.queuesEmpty a))))

/-- OPEN-STREAM: BUSY while a purge runs, refused where the slot is open, then for its kind and lead; accepted, the slot is a stream with the
given kind, language and lead, frame sequence 0 and no clear owed (R83). CLOSE-STREAM: BUSY while a purge runs, refused where the slot is
closed. Taken, it waits for an insertion in progress; else its purge begins at the head of the stream's queue, the transport WORKING; a
stream without cues in an auditorium where release makes nothing due is closed at once (R76, R84, R99). The model's choices: OPEN-STREAM keeps
the queue the slot has, which R83 takes to be empty, and CLOSE-STREAM leaves a cue still OPEN for the stream open (log entry 40). -/
def Obligations.StreamOpensAndCloses : Prop :=
  (∀ (a : Aud) (k : Slot) (kindCode g1 g0 d1 d0 : Byte) (s : State), s.takesCommands →
    exec (.openStream [BitVec.ofNat 8 a.val, BitVec.ofNat 8 k.val, kindCode, g1, g0, d1, d0]) s = .next
      (if (s.store a).purge ≠ none then s.respond 5 .busy []
      else if (s.stream (streamOf a k)).isOpen = true then s.respond 5 .refusedState []
      else match kindOf kindCode with
      | none => s.respond 5 .refusedRange []
      | some kind =>
        if 2400 < number [d1, d0] then s.respond 5 .refusedRange []
        else (s.onStream (streamOf a k) (fun st => { st with
          isOpen := true, kind := kind, language := BitVec.ofNat 16 (number [g1, g0]), lead := number [d1, d0], frameSeq := 0
          clearOwed := [] })).respond 5 .done [])) ∧
  (∀ (a : Aud) (k : Slot) (s : State), s.takesCommands →
    let cmd : Instr := .closeStream [BitVec.ofNat 8 a.val, BitVec.ofNat 8 k.val]
    let working : Mgmt := { transport := .working (.closeStream a), out := [1] }
    let n := streamOf a k
    ((s.store a).purge ≠ none → exec cmd s = .next (s.respond 6 .busy [])) ∧
    ((s.store a).purge = none → (s.stream n).isOpen = false → exec cmd s = .next (s.respond 6 .refusedState [])) ∧
    ((s.store a).purge = none → (s.stream n).isOpen = true →
      (s.insertionRuns a = true →
        exec cmd s = .next { s with mgmt := working, stores := change s.stores a (fun st => { st with closeWaiting := some k }) }) ∧
      (s.insertionRuns a = false → s.ringsBusy →
        (∀ x rest, seqs (s.stream n).queue = x :: rest →
          exec cmd s = .next { s with
            mgmt := working
            stores := change s.stores a (fun st => { st with purge := some {
              kind := .close k, todo := rest.map (fun y => (k, y)), current := some (k, x), stepStart := s.now, waiting := false } }) }) ∧
        ((s.stream n).queue = [] → (s.session a).state.isReleasing = false → (s.session a).ending = false →
          (s.store a).saturationOwed = false → (s.store a).closeWaiting = none →
          exec cmd s = .next (State.respond { s with
            streams := change s.streams n (fun st => { st with isOpen := false })
            stores := change s.stores a (fun st => { st with purge := none, staleWaiting := none }) } 6 .done [])))))

/-- SET-CUE-PORT: refused outside DARK, then for its divisor and parity; accepted, both settings are written, and a reply in transmission
runs on at them after its character in progress (R45; log entry 19): its break, or the character in progress, ends at the instant the old
settings give, and the characters left follow at the new ones. RESET-CUE-PORT empties the port's queues and its assembler and closes
the context; the cells of an open cue go to the freeing unit, the transport WORKING until they are back (R59, R91; log entry 9). That a
completed break whose line is still low is forgotten, the receiver waiting for high as after a framing error, and that the flow-control
evaluation may raise STORE-PRESSURE, are the model's choices (log entries 37 and 44). -/
def Obligations.CuePortCommands : Prop :=
  (∀ (b : Byte) (q : Parity), parityOf b = some q ↔ b.toNat = match q with | .none => 0 | .even => 1 | .odd => 2) ∧
  ∀ (a : Aud) (s : State), s.takesCommands →
    (∀ d q : Byte, ∃ running : Option Transmission, exec (.setCuePort [BitVec.ofNat 8 a.val, d, q]) s = .next
      (if (s.session a).state ≠ .dark then s.respond 7 .refusedState []
      else match parityOf q with
      | none => s.respond 7 .refusedRange []
      | some parity =>
        if d = 0 then s.respond 7 .refusedRange []
        else (s.onPort a (fun p => { p with
          divisor := d.toNat, parity := parity, transmission := running })).respond 7 .done []) ∧
      ((s.cuePort a).transmission = none → running = none) ∧
      ∀ t : Transmission, (s.cuePort a).transmission = some t → 1 ≤ t.divisor →
        let unit := (if t.parity = .none then 10 else 11) * 16 * t.divisor
        ∃ u, running = some u ∧ u.sent = t.sent ∧ u.divisor = d.toNat ∧ (∀ new, parityOf q = some new → u.parity = new) ∧
          (s.now < t.boundary → u.boundary = t.boundary ∧ u.left = t.left) ∧
          (∀ k, k < t.left → t.boundary + k * unit ≤ s.now → s.now < t.boundary + (k + 1) * unit →
            u.boundary = t.boundary + (k + 1) * unit ∧ u.left = t.left - (k + 1)) ∧
          (t.boundary + t.left * unit ≤ s.now → u.boundary = t.boundary + t.left * unit ∧ u.left = 0)) ∧
    let cleared := s.onPort a (fun p => { p with
      queue := [], replies := [], flowPlace := none, holdOutstanding := false, gapTimer := none
      receiver := if s.rxHigh a then .idle else .waitHigh false, framing := .between, damaged := false })
    ((∀ c n, (s.intake a).context ≠ .opened c n) → exec (.resetCuePort [BitVec.ofNat 8 a.val]) s = .next
      ((State.flow (cleared.onIntake a (fun i => { i with
        context := if s.insertionRuns a then i.context else .idle, deferred := [] })) a).respond 8 .done [])) ∧
    (∀ c n, (s.intake a).context = .opened c n → exec (.resetCuePort [BitVec.ofNat 8 a.val]) s = .next
      { State.flow ((cleared.onIntake a (fun _ => { context := .idle, deferred := [] })).onStore a (fun st => { st with
          freeing := st.freeing ++ [{ cells := 1 + c.heldBodies, tag := .resetPort }]
          cellStart := if st.freeing = [] then s.now else st.cellStart })) a with
        mgmt := { transport := .working (.resetCuePort a), out := [1] } })

/-- SET-FILTER writes a filter's three fields together, and SET-LINK the beacon period and the silence limit with the timers of a SERVING
port; a filter number above 3, a kind set beyond the two kinds, an ANY byte other than 0 and 1, a period outside 12 to 1,200 and a limit
neither 0 nor within 12 to 1,200 are refused REFUSED-RANGE (R130, R141, R174). -/
def Obligations.LinkSettings : Prop :=
  ∀ (p : Port) (s : State), s.takesCommands →
    (∀ k a1 a0 kinds any l1 l0 : Byte, exec (.setFilter [BitVec.ofNat 8 p.val, k, a1, a0, kinds, any, l1, l0]) s = .next
      (if h : k.toNat < 4 ∧ kinds.toNat ≤ 3 ∧ any.toNat ≤ 1 then
        (s.onLink p (fun l => { l with filters := change l.filters ⟨k.toNat, h.1⟩ (fun _ => {
          auditoriums := BitVec.ofNat 16 (number [a1, a0]), kinds := kinds
          language := if any = 1 then none else some (BitVec.ofNat 16 (number [l1, l0])) }) })).respond 9 .done []
      else s.respond 9 .refusedRange [])) ∧
    (∀ p1 p0 l1 l0 : Byte,
      let period := number [p1, p0]
      let limit := number [l1, l0]
      exec (.setLink [BitVec.ofNat 8 p.val, p1, p0, l1, l0]) s = .next
        (if 12 ≤ period ∧ period ≤ 1200 ∧ (limit = 0 ∨ 12 ≤ limit ∧ limit ≤ 1200) then
          (s.onLink p (fun l => { l with
            beaconPeriod := period, silenceLimit := limit
            beaconDue := if l.state = .serving then some (s.now + period * 12288) else l.beaconDue
            silenceStart := if l.state = .serving then (if limit = 0 then none else some s.now) else l.silenceStart })).respond 10 .done []
        else s.respond 10 .refusedRange []))

/-- REGISTER-RECEIVER and RELEASE-RECEIVER. An id of 0 and a slot set that is empty or names a slot above 5 are refused; a registered id is
REFUSED-DUPLICATE, a full table REFUSED-FULL; else the lowest FREE entry holds the receiver, GOOD. A release of an unknown id is
REFUSED-UNKNOWN; else the entry is FREE and has left the lost list (R149, R150). SET-RECEIVER-POLICY writes a limit of 0 or 5 to 255;
TAKE-LOST answers with the head of the lost list, its receiver's id, state and health, the entries left and the overflow flag, and takes
the entry and clears the flag (R155, R159). -/
def Obligations.ReceiverCommands : Prop :=
  (∀ (i3 i2 i1 i0 : Byte) (s : State), s.takesCommands →
    let id := BitVec.ofNat 32 (number [i3, i2, i1, i0])
    (∀ (a : Aud) (k : Byte),
      let cmd : Instr := .registerReceiver [i3, i2, i1, i0, BitVec.ofNat 8 a.val, k]
      (id = 0 ∨ k = 0 ∨ 63 < k.toNat → exec cmd s = .next (s.respond 12 .refusedRange [])) ∧
      (id ≠ 0 → k ≠ 0 → k.toNat ≤ 63 →
        ((∃ j, (s.rx j).state ≠ .free ∧ (s.rx j).id = id) → exec cmd s = .next (s.respond 12 .refusedDuplicate [])) ∧
        ((∀ j, (s.rx j).state ≠ .free → (s.rx j).id ≠ id) →
          ((∀ j, (s.rx j).state ≠ .free) → exec cmd s = .next (s.respond 12 .refusedFull [])) ∧
          ∀ i, (s.rx i).state = .free → (∀ j, j < i → (s.rx j).state ≠ .free) →
            exec cmd s = .next ((s.onRx i (fun _ => {
              state := .good, id := id, auditorium := a, slots := k, health := 0, cleanRun := 0, age := 0 })).respond 12 .done
                [BitVec.ofNat 8 (i.val / 256), BitVec.ofNat 8 i.val])))) ∧
    (id = 0 → exec (.releaseReceiver [i3, i2, i1, i0]) s = .next (s.respond 13 .refusedRange [])) ∧
    (id ≠ 0 → (∀ j, (s.rx j).state ≠ .free → (s.rx j).id ≠ id) →
      exec (.releaseReceiver [i3, i2, i1, i0]) s = .next (s.respond 13 .refusedUnknown [])) ∧
    (id ≠ 0 → ∀ i, (s.rx i).state ≠ .free → (s.rx i).id = id → (∀ j, j < i → (s.rx j).state ≠ .free → (s.rx j).id ≠ id) →
      ∃ t : State, exec (.releaseReceiver [i3, i2, i1, i0]) s = .next (t.respond 13 .done []) ∧
        t = { s with
          receivers := change s.receivers i (fun _ => {
            state := .free, id := 0, auditorium := 0, slots := 0, health := 0, cleanRun := 0, age := 0 })
          table := { s.table with lost := s.table.lost.filter (fun j => !(j == i)) }
          streams := t.streams } ∧
        ∀ n, t.stream n = { s.stream n with degraded := if (s.rx i).struggles (audOfStream n) (slotOfStream n)
          then (s.stream n).degraded - 1 else (s.stream n).degraded })) ∧
  (∀ s : State, s.takesCommands →
    (∀ limit : Byte, exec (.setReceiverPolicy [limit]) s = .next
      (if limit = 0 ∨ 5 ≤ limit.toNat then (s.onTable (fun t => { t with silenceLimit := limit.toNat })).respond 15 .done []
      else s.respond 15 .refusedRange [])) ∧
    ∃ fields, exec (.takeLost []) s = .next ((s.onTable (fun t => { t with lost := t.lost.tail, overflow := false })).respond 16 .done
      fields) ∧
      (s.table.lost = [] → fields = [0, 0, 0, 0, 0, 0, 0, 0, 0, 0, if s.table.overflow then 1 else 0]) ∧
      ∀ i rest, s.table.lost = i :: rest →
        fields = [1, BitVec.ofNat 8 (i.val / 256), BitVec.ofNat 8 i.val] ++ byte4 (s.rx i).id.toNat ++
          [BitVec.ofNat 8 (s.rx i).state.code, BitVec.ofNat 8 (s.rx i).health, BitVec.ofNat 8 rest.length,
            if s.table.overflow then 1 else 0])

/-- The reading commands change nothing but the response, and answer the fields of 10.6 in order, each as it stands (R102, R146, R160, R166,
R172). READ-LINK gives a frame without a stream a free stream byte and a filter of ANY language two free language bytes, and uses up eleven
free choices (the model's choices: log entries 16 and 42). The codes of states, exchanges and frame kinds are those of 10.1 and 10.4. -/
def Obligations.ReadingCommands : Prop :=
  (∀ x : AudState, BitVec.ofNat 8 x.code = audCode x) ∧ ([.free, .good, .degraded, .lost].map RxState.code = [0, 1, 2, 3]) ∧
  ([.down, .aligning, .serving, .stalled].map LinkState.code = [0, 1, 2, 3]) ∧
  (∀ b, [.closed, .buffer b, .direct, .void].map Exchange.code = [0, 1, 2, 3]) ∧
  ([.caption, .narration, .clear].map ItemKind.code = [1, 2, 3]) ∧
  ∀ s : State, s.takesCommands →
    (∀ i1 i0 : Byte,
      (1024 ≤ number [i1, i0] → exec (.readReceiver [i1, i0]) s = .next (s.respond 14 .refusedRange [])) ∧
      ∀ i : RxIndex, i.val = number [i1, i0] → exec (.readReceiver [i1, i0]) s = .next (s.respond 14 .done
        ([BitVec.ofNat 8 (s.rx i).state.code] ++ byte4 (s.rx i).id.toNat ++ [BitVec.ofNat 8 (s.rx i).auditorium.val, (s.rx i).slots,
          BitVec.ofNat 8 (s.rx i).health, BitVec.ofNat 8 (s.rx i).cleanRun, BitVec.ofNat 8 (s.rx i).age]))) ∧
    (∀ a : Aud, exec (.readAuditorium [BitVec.ofNat 8 a.val]) s = .next (s.respond 17 .done
      ([BitVec.ofNat 8 (s.session a).state.code, if (s.session a).ending then 1 else 0, if (s.session a).gate then 1 else 0,
        BitVec.ofNat 8 (match (s.clock a).rate with | some r => r.fps | none => 0), BitVec.ofNat 8 (s.clock a).windowSize] ++
        byte2 (s.clock a).staleLimit ++ byte4 (min ((s.clock a).base + (s.clock a).sub) 43199999) ++ byte4 (s.clock a).base ++
        byte4 (s.clock a).period ++ byte4 (s.clock a).lastHold ++ byte4 (s.showRun a).pauseHold ++ byte2 (s.store a).used ++
        byte2 (s.store a).quota ++ [if (s.store a).purge = none then 0 else 1]))) ∧
    (∀ (a : Aud) (k : Slot), let st := s.stream (streamOf a k)
      exec (.readStream [BitVec.ofNat 8 a.val, BitVec.ofNat 8 k.val]) s = .next (s.respond 18 .done
        ([if st.isOpen then 1 else 0, if st.kind = .caption then 1 else 2] ++ byte2 st.language.toNat ++ byte2 st.lead ++
          byte2 st.queue.length ++ byte2 st.degraded ++ [st.frameSeq]))) ∧
    (∀ p : Port, let l := s.link p
      let shown (f : Frame) (free : Byte) : List Byte := match f with
        | .item i => [BitVec.ofNat 8 i.kind.code, BitVec.ofNat 8 i.stream.val]
        | .beacon _ => [4, free]
        | .filler _ => [5, free]
        | .notServing => [6, free]
      ∃ (free : BufNo → Byte) (high low : Port → Byte),
        exec (.readLink [BitVec.ofNat 8 p.val]) s = .next (State.respond { s with draws := s.draws + 11 } 19 .done
        ([BitVec.ofNat 8 l.state.code] ++
          (List.finRange 3).flatMap (fun (b : BufNo) => match pick l.buffers b with
            | .empty => [0, 0, 0]
            | .filling f _ => [1] ++ shown f (free b)
            | .ready f => [2] ++ shown f (free b)
            | .sending f => [3] ++ shown f (free b)) ++
          [BitVec.ofNat 8 l.readyQueue.length] ++ ((l.readyQueue.map (fun (b : BufNo) => BitVec.ofNat 8 b.val)) ++ [0, 0, 0]).take 3 ++
          [BitVec.ofNat 8 l.exchange.code, match l.exchange with | .buffer b => BitVec.ofNat 8 b.val | _ => 0] ++
          byte2 l.lastSlot.toNat ++ byte2 l.beaconPeriod ++ byte2 l.silenceLimit ++ [if l.beaconOwed then 1 else 0] ++
          (List.finRange 4).flatMap (fun (f : Port) => byte2 (pick l.filters f).auditoriums.toNat ++ [(pick l.filters f).kinds] ++
            match (pick l.filters f).language with
            | some g => 0 :: byte2 g.toNat
            | none => [1, high f, low f]) ++
          [BitVec.ofNat 8 l.probe.writePtr.val, BitVec.ofNat 8 l.probe.readPtr.val] ++ byte2 l.probe.writeCount))) ∧
    exec (.readAttention []) s = .next (s.respond 21 .done
      ((List.finRange 16).flatMap (fun (a : Aud) => [(pick s.attention.auds a).pending, BitVec.ofNat 8 (pick s.attention.auds a).repeats]) ++
        (List.finRange 4).flatMap (fun (p : Port) => [(pick s.attention.links p).pending, BitVec.ofNat 8 (pick s.attention.links p).repeats]) ++
        [s.attention.table.pending, BitVec.ofNat 8 s.attention.table.repeats, s.attention.audEnable, s.attention.linkEnable,
          s.attention.tableEnable]))

/-- READ-COUNTERS answers every counter of its source as it stands and, with the clear option, sets them to 0; a source that does not exist
and an option other than 0 and 1 are refused REFUSED-RANGE (R167, R168, R174). ACK-ATTENTION takes the named kinds out of the source's
pending set, and clears the repeat count with the set; SET-ATTENTION-ENABLE replaces a class's enable set. A source or class that does
not exist and a kind outside the class are refused REFUSED-RANGE (R171, R173). A counter stops at 65,535 (00_scope, Counters). -/
def Obligations.CountersAndAttention : Prop :=
  (∀ k n : Nat, bump n = (if n < 65535 then n + 1 else n) ∧ (n ≤ 65535 → bumpBy k n = min (n + k) 65535)) ∧
  (∀ s : State, s.takesCommands →
    (∀ b v : Byte, 20 < b.toNat ∨ 1 < v.toNat → exec (.readCounters [b, v]) s = .next (s.respond 20 .refusedRange [])) ∧
    ∀ clear : Bool, let v : Byte := if clear then 1 else 0
      (∀ a : Aud, let c := s.audCounter a
        exec (.readCounters [BitVec.ofNat 8 a.val, v]) s = .next ((if clear then s.onCounters a (fun _ => {
            rateFault := 0, strobeLoss := 0, slip := 0, jump := 0, lineFault := 0, refused := 0, accepted := 0, expired := 0, late := 0
            unrouted := 0, skip := 0, resent := 0 }) else s).respond 20 .done
          ([c.rateFault, c.strobeLoss, c.slip, c.jump, c.lineFault, c.refused, c.accepted, c.expired, c.late, c.unrouted, c.skip,
            c.resent].flatMap byte2))) ∧
      (∀ p : Port, let c := s.linkCounter p
        exec (.readCounters [BitVec.ofNat 8 (16 + p.val), v]) s = .next ((if clear then s.onLinkCounters p (fun _ => {
            sent := 0, filler := 0, repull := 0, abort := 0, dropped := 0, discarded := 0, missedBeacon := 0, protocol := 0, reports := 0
            lapsed := 0 }) else s).respond 20 .done
          ([c.sent, c.filler, c.repull, c.abort, c.dropped, c.discarded, c.missedBeacon, c.protocol, c.reports, c.lapsed].flatMap byte2))) ∧
      exec (.readCounters [20, v]) s = .next ((if clear then s.onTable (fun t => { t with unknown := 0, mismatch := 0 }) else s).respond 20
        .done (byte2 s.table.unknown ++ byte2 s.table.mismatch))) ∧
  (∀ (ks : Byte) (s : State), s.takesCommands →
    let acked (r : AttnRecord) : AttnRecord :=
      { pending := r.pending &&& ~~~ks, repeats := if r.pending &&& ~~~ks = 0 then 0 else r.repeats }
    (∀ b : Byte, 20 < b.toNat ∨ (b.toNat < 16 ∧ 127 < ks.toNat) ∨ (16 ≤ b.toNat ∧ b.toNat < 20 ∧ 7 < ks.toNat) ∨
        (b.toNat = 20 ∧ 3 < ks.toNat) →
      exec (.ackAttention [b, ks]) s = .next (s.respond 22 .refusedRange [])) ∧
    (∀ a : Aud, ks.toNat ≤ 127 → exec (.ackAttention [BitVec.ofNat 8 a.val, ks]) s = .next (State.respond { s with
        attention := { s.attention with auds := change s.attention.auds a acked } } 22 .done
      [(acked (pick s.attention.auds a)).pending, BitVec.ofNat 8 (acked (pick s.attention.auds a)).repeats])) ∧
    (∀ p : Port, ks.toNat ≤ 7 → exec (.ackAttention [BitVec.ofNat 8 (16 + p.val), ks]) s = .next (State.respond { s with
        attention := { s.attention with links := change s.attention.links p acked } } 22 .done
      [(acked (pick s.attention.links p)).pending, BitVec.ofNat 8 (acked (pick s.attention.links p)).repeats])) ∧
    (ks.toNat ≤ 3 → exec (.ackAttention [20, ks]) s = .next (State.respond { s with
        attention := { s.attention with table := acked s.attention.table } } 22 .done
      [(acked s.attention.table).pending, BitVec.ofNat 8 (acked s.attention.table).repeats])) ∧
    ∀ c : Byte, exec (.setAttentionEnable [c, ks]) s = .next
      (if c = 0 ∧ ks.toNat ≤ 127 then State.respond { s with attention := { s.attention with audEnable := ks } } 23 .done []
      else if c = 1 ∧ ks.toNat ≤ 7 then State.respond { s with attention := { s.attention with linkEnable := ks } } 23 .done []
      else if c = 2 ∧ ks.toNat ≤ 3 then State.respond { s with attention := { s.attention with tableEnable := ks } } 23 .done []
      else s.respond 23 .refusedRange []))

/-- A kind raised joins the pending set, or, already pending, raises the repeat count up to 255; two raises of different kinds give one
outcome in both orders (R170). The kinds' bits are those of 10.6. The ATTENTION line is active exactly while some record has a pending kind that its class enables (R171). -/
def Obligations.RaisingAndTheLine : Prop :=
  ([kindRateFault, kindStrobeLoss, kindStale, kindJump, kindEnded, kindLineFault, kindStorePressure] = [1, 2, 4, 8, 16, 32, 64] ∧
    [kindStalled, kindAlignFail, kindProtocol] = [1, 2, 4] ∧ [kindLost, kindLostOverflow] = [1, 2]) ∧
  (∀ (r : AttnRecord) (j k : Fin 8), let bit (i : Fin 8) : Byte := BitVec.ofNat 8 (2 ^ i.val)
    (r.pending.getLsbD k.val = false → r.raise (bit k) = { r with pending := r.pending ||| bit k }) ∧
    (r.pending.getLsbD k.val = true → r.raise (bit k) = { r with repeats := if r.repeats < 255 then r.repeats + 1 else r.repeats }) ∧
    (j ≠ k → (r.raise (bit j)).raise (bit k) = (r.raise (bit k)).raise (bit j))) ∧
  ∀ s : State, s.attentionLine = true ↔
    (∃ a, (pick s.attention.auds a).pending &&& s.attention.audEnable ≠ 0) ∨
    (∃ p, (pick s.attention.links p).pending &&& s.attention.linkEnable ≠ 0) ∨
    s.attention.table.pending &&& s.attention.tableEnable ≠ 0
end

