-- ==== Sys2Proof/Laws/State.lean ====
section
/-! SUPPORT. One lemma for each field, and one for each reader, under each changer of `Ops.lean`. -/

namespace Sys2Proof.Machine

@[simp] theorem State.onClock_now (s : State) (a : Aud) (f : Clock → Clock) : (s.onClock a f).now = s.now := rfl
@[simp] theorem State.onClock_draws (s : State) (a : Aud) (f : Clock → Clock) : (s.onClock a f).draws = s.draws := rfl
@[simp] theorem State.onClock_runPins (s : State) (a : Aud) (f : Clock → Clock) : (s.onClock a f).runPins = s.runPins := rfl
@[simp] theorem State.onClock_rxPins (s : State) (a : Aud) (f : Clock → Clock) : (s.onClock a f).rxPins = s.rxPins := rfl
@[simp] theorem State.onClock_runs (s : State) (a : Aud) (f : Clock → Clock) : (s.onClock a f).runs = s.runs := rfl
@[simp] theorem State.onClock_sessions (s : State) (a : Aud) (f : Clock → Clock) : (s.onClock a f).sessions = s.sessions := rfl
@[simp] theorem State.onClock_audCounters (s : State) (a : Aud) (f : Clock → Clock) : (s.onClock a f).audCounters = s.audCounters := rfl
@[simp] theorem State.onClock_cuePorts (s : State) (a : Aud) (f : Clock → Clock) : (s.onClock a f).cuePorts = s.cuePorts := rfl
@[simp] theorem State.onClock_intakes (s : State) (a : Aud) (f : Clock → Clock) : (s.onClock a f).intakes = s.intakes := rfl
@[simp] theorem State.onClock_streams (s : State) (a : Aud) (f : Clock → Clock) : (s.onClock a f).streams = s.streams := rfl
@[simp] theorem State.onClock_stores (s : State) (a : Aud) (f : Clock → Clock) : (s.onClock a f).stores = s.stores := rfl
@[simp] theorem State.onClock_freeCells (s : State) (a : Aud) (f : Clock → Clock) : (s.onClock a f).freeCells = s.freeCells := rfl
@[simp] theorem State.onClock_links (s : State) (a : Aud) (f : Clock → Clock) : (s.onClock a f).links = s.links := rfl
@[simp] theorem State.onClock_linkCounters (s : State) (a : Aud) (f : Clock → Clock) : (s.onClock a f).linkCounters = s.linkCounters := rfl
@[simp] theorem State.onClock_receivers (s : State) (a : Aud) (f : Clock → Clock) : (s.onClock a f).receivers = s.receivers := rfl
@[simp] theorem State.onClock_table (s : State) (a : Aud) (f : Clock → Clock) : (s.onClock a f).table = s.table := rfl
@[simp] theorem State.onClock_attention (s : State) (a : Aud) (f : Clock → Clock) : (s.onClock a f).attention = s.attention := rfl
@[simp] theorem State.onClock_mgmt (s : State) (a : Aud) (f : Clock → Clock) : (s.onClock a f).mgmt = s.mgmt := rfl
@[simp] theorem State.onClock_pending (s : State) (a : Aud) (f : Clock → Clock) : (s.onClock a f).pending = s.pending := rfl
@[simp] theorem State.onClock_showRun (s : State) (a : Aud) (f : Clock → Clock) (x : Aud) : (s.onClock a f).showRun x = s.showRun x := rfl
@[simp] theorem State.onClock_session (s : State) (a : Aud) (f : Clock → Clock) (x : Aud) : (s.onClock a f).session x = s.session x := rfl
@[simp] theorem State.onClock_audCounter (s : State) (a : Aud) (f : Clock → Clock) (x : Aud) : (s.onClock a f).audCounter x = s.audCounter x := rfl
@[simp] theorem State.onClock_cuePort (s : State) (a : Aud) (f : Clock → Clock) (x : Aud) : (s.onClock a f).cuePort x = s.cuePort x := rfl
@[simp] theorem State.onClock_intake (s : State) (a : Aud) (f : Clock → Clock) (x : Aud) : (s.onClock a f).intake x = s.intake x := rfl
@[simp] theorem State.onClock_stream (s : State) (a : Aud) (f : Clock → Clock) (x : StreamNo) : (s.onClock a f).stream x = s.stream x := rfl
@[simp] theorem State.onClock_store (s : State) (a : Aud) (f : Clock → Clock) (x : Aud) : (s.onClock a f).store x = s.store x := rfl
@[simp] theorem State.onClock_link (s : State) (a : Aud) (f : Clock → Clock) (x : Port) : (s.onClock a f).link x = s.link x := rfl
@[simp] theorem State.onClock_linkCounter (s : State) (a : Aud) (f : Clock → Clock) (x : Port) : (s.onClock a f).linkCounter x = s.linkCounter x := rfl
@[simp] theorem State.onClock_rx (s : State) (a : Aud) (f : Clock → Clock) (x : RxIndex) : (s.onClock a f).rx x = s.rx x := rfl
@[simp] theorem State.onClock_runHigh (s : State) (a : Aud) (f : Clock → Clock) (x : Aud) : (s.onClock a f).runHigh x = s.runHigh x := rfl
@[simp] theorem State.onClock_rxHigh (s : State) (a : Aud) (f : Clock → Clock) (x : Aud) : (s.onClock a f).rxHigh x = s.rxHigh x := rfl

@[simp] theorem State.onClock_clock (s : State) (a : Aud) (f : Clock → Clock) (x : Aud) :
    (s.onClock a f).clock x = if a = x then f (s.clock x) else s.clock x := pick_change _ _ _ _

@[simp] theorem State.onRun_now (s : State) (a : Aud) (f : ShowRun → ShowRun) : (s.onRun a f).now = s.now := rfl
@[simp] theorem State.onRun_draws (s : State) (a : Aud) (f : ShowRun → ShowRun) : (s.onRun a f).draws = s.draws := rfl
@[simp] theorem State.onRun_runPins (s : State) (a : Aud) (f : ShowRun → ShowRun) : (s.onRun a f).runPins = s.runPins := rfl
@[simp] theorem State.onRun_rxPins (s : State) (a : Aud) (f : ShowRun → ShowRun) : (s.onRun a f).rxPins = s.rxPins := rfl
@[simp] theorem State.onRun_clocks (s : State) (a : Aud) (f : ShowRun → ShowRun) : (s.onRun a f).clocks = s.clocks := rfl
@[simp] theorem State.onRun_sessions (s : State) (a : Aud) (f : ShowRun → ShowRun) : (s.onRun a f).sessions = s.sessions := rfl
@[simp] theorem State.onRun_audCounters (s : State) (a : Aud) (f : ShowRun → ShowRun) : (s.onRun a f).audCounters = s.audCounters := rfl
@[simp] theorem State.onRun_cuePorts (s : State) (a : Aud) (f : ShowRun → ShowRun) : (s.onRun a f).cuePorts = s.cuePorts := rfl
@[simp] theorem State.onRun_intakes (s : State) (a : Aud) (f : ShowRun → ShowRun) : (s.onRun a f).intakes = s.intakes := rfl
@[simp] theorem State.onRun_streams (s : State) (a : Aud) (f : ShowRun → ShowRun) : (s.onRun a f).streams = s.streams := rfl
@[simp] theorem State.onRun_stores (s : State) (a : Aud) (f : ShowRun → ShowRun) : (s.onRun a f).stores = s.stores := rfl
@[simp] theorem State.onRun_freeCells (s : State) (a : Aud) (f : ShowRun → ShowRun) : (s.onRun a f).freeCells = s.freeCells := rfl
@[simp] theorem State.onRun_links (s : State) (a : Aud) (f : ShowRun → ShowRun) : (s.onRun a f).links = s.links := rfl
@[simp] theorem State.onRun_linkCounters (s : State) (a : Aud) (f : ShowRun → ShowRun) : (s.onRun a f).linkCounters = s.linkCounters := rfl
@[simp] theorem State.onRun_receivers (s : State) (a : Aud) (f : ShowRun → ShowRun) : (s.onRun a f).receivers = s.receivers := rfl
@[simp] theorem State.onRun_table (s : State) (a : Aud) (f : ShowRun → ShowRun) : (s.onRun a f).table = s.table := rfl
@[simp] theorem State.onRun_attention (s : State) (a : Aud) (f : ShowRun → ShowRun) : (s.onRun a f).attention = s.attention := rfl
@[simp] theorem State.onRun_mgmt (s : State) (a : Aud) (f : ShowRun → ShowRun) : (s.onRun a f).mgmt = s.mgmt := rfl
@[simp] theorem State.onRun_pending (s : State) (a : Aud) (f : ShowRun → ShowRun) : (s.onRun a f).pending = s.pending := rfl
@[simp] theorem State.onRun_clock (s : State) (a : Aud) (f : ShowRun → ShowRun) (x : Aud) : (s.onRun a f).clock x = s.clock x := rfl
@[simp] theorem State.onRun_session (s : State) (a : Aud) (f : ShowRun → ShowRun) (x : Aud) : (s.onRun a f).session x = s.session x := rfl
@[simp] theorem State.onRun_audCounter (s : State) (a : Aud) (f : ShowRun → ShowRun) (x : Aud) : (s.onRun a f).audCounter x = s.audCounter x := rfl
@[simp] theorem State.onRun_cuePort (s : State) (a : Aud) (f : ShowRun → ShowRun) (x : Aud) : (s.onRun a f).cuePort x = s.cuePort x := rfl
@[simp] theorem State.onRun_intake (s : State) (a : Aud) (f : ShowRun → ShowRun) (x : Aud) : (s.onRun a f).intake x = s.intake x := rfl
@[simp] theorem State.onRun_stream (s : State) (a : Aud) (f : ShowRun → ShowRun) (x : StreamNo) : (s.onRun a f).stream x = s.stream x := rfl
@[simp] theorem State.onRun_store (s : State) (a : Aud) (f : ShowRun → ShowRun) (x : Aud) : (s.onRun a f).store x = s.store x := rfl
@[simp] theorem State.onRun_link (s : State) (a : Aud) (f : ShowRun → ShowRun) (x : Port) : (s.onRun a f).link x = s.link x := rfl
@[simp] theorem State.onRun_linkCounter (s : State) (a : Aud) (f : ShowRun → ShowRun) (x : Port) : (s.onRun a f).linkCounter x = s.linkCounter x := rfl
@[simp] theorem State.onRun_rx (s : State) (a : Aud) (f : ShowRun → ShowRun) (x : RxIndex) : (s.onRun a f).rx x = s.rx x := rfl
@[simp] theorem State.onRun_runHigh (s : State) (a : Aud) (f : ShowRun → ShowRun) (x : Aud) : (s.onRun a f).runHigh x = s.runHigh x := rfl
@[simp] theorem State.onRun_rxHigh (s : State) (a : Aud) (f : ShowRun → ShowRun) (x : Aud) : (s.onRun a f).rxHigh x = s.rxHigh x := rfl

@[simp] theorem State.onRun_showRun (s : State) (a : Aud) (f : ShowRun → ShowRun) (x : Aud) :
    (s.onRun a f).showRun x = if a = x then f (s.showRun x) else s.showRun x := pick_change _ _ _ _

@[simp] theorem State.onSession_now (s : State) (a : Aud) (f : Session → Session) : (s.onSession a f).now = s.now := rfl
@[simp] theorem State.onSession_draws (s : State) (a : Aud) (f : Session → Session) : (s.onSession a f).draws = s.draws := rfl
@[simp] theorem State.onSession_runPins (s : State) (a : Aud) (f : Session → Session) : (s.onSession a f).runPins = s.runPins := rfl
@[simp] theorem State.onSession_rxPins (s : State) (a : Aud) (f : Session → Session) : (s.onSession a f).rxPins = s.rxPins := rfl
@[simp] theorem State.onSession_clocks (s : State) (a : Aud) (f : Session → Session) : (s.onSession a f).clocks = s.clocks := rfl
@[simp] theorem State.onSession_runs (s : State) (a : Aud) (f : Session → Session) : (s.onSession a f).runs = s.runs := rfl
@[simp] theorem State.onSession_audCounters (s : State) (a : Aud) (f : Session → Session) : (s.onSession a f).audCounters = s.audCounters := rfl
@[simp] theorem State.onSession_cuePorts (s : State) (a : Aud) (f : Session → Session) : (s.onSession a f).cuePorts = s.cuePorts := rfl
@[simp] theorem State.onSession_intakes (s : State) (a : Aud) (f : Session → Session) : (s.onSession a f).intakes = s.intakes := rfl
@[simp] theorem State.onSession_streams (s : State) (a : Aud) (f : Session → Session) : (s.onSession a f).streams = s.streams := rfl
@[simp] theorem State.onSession_stores (s : State) (a : Aud) (f : Session → Session) : (s.onSession a f).stores = s.stores := rfl
@[simp] theorem State.onSession_freeCells (s : State) (a : Aud) (f : Session → Session) : (s.onSession a f).freeCells = s.freeCells := rfl
@[simp] theorem State.onSession_links (s : State) (a : Aud) (f : Session → Session) : (s.onSession a f).links = s.links := rfl
@[simp] theorem State.onSession_linkCounters (s : State) (a : Aud) (f : Session → Session) : (s.onSession a f).linkCounters = s.linkCounters := rfl
@[simp] theorem State.onSession_receivers (s : State) (a : Aud) (f : Session → Session) : (s.onSession a f).receivers = s.receivers := rfl
@[simp] theorem State.onSession_table (s : State) (a : Aud) (f : Session → Session) : (s.onSession a f).table = s.table := rfl
@[simp] theorem State.onSession_attention (s : State) (a : Aud) (f : Session → Session) : (s.onSession a f).attention = s.attention := rfl
@[simp] theorem State.onSession_mgmt (s : State) (a : Aud) (f : Session → Session) : (s.onSession a f).mgmt = s.mgmt := rfl
@[simp] theorem State.onSession_pending (s : State) (a : Aud) (f : Session → Session) : (s.onSession a f).pending = s.pending := rfl
@[simp] theorem State.onSession_clock (s : State) (a : Aud) (f : Session → Session) (x : Aud) : (s.onSession a f).clock x = s.clock x := rfl
@[simp] theorem State.onSession_showRun (s : State) (a : Aud) (f : Session → Session) (x : Aud) : (s.onSession a f).showRun x = s.showRun x := rfl
@[simp] theorem State.onSession_audCounter (s : State) (a : Aud) (f : Session → Session) (x : Aud) : (s.onSession a f).audCounter x = s.audCounter x := rfl
@[simp] theorem State.onSession_cuePort (s : State) (a : Aud) (f : Session → Session) (x : Aud) : (s.onSession a f).cuePort x = s.cuePort x := rfl
@[simp] theorem State.onSession_intake (s : State) (a : Aud) (f : Session → Session) (x : Aud) : (s.onSession a f).intake x = s.intake x := rfl
@[simp] theorem State.onSession_stream (s : State) (a : Aud) (f : Session → Session) (x : StreamNo) : (s.onSession a f).stream x = s.stream x := rfl
@[simp] theorem State.onSession_store (s : State) (a : Aud) (f : Session → Session) (x : Aud) : (s.onSession a f).store x = s.store x := rfl
@[simp] theorem State.onSession_link (s : State) (a : Aud) (f : Session → Session) (x : Port) : (s.onSession a f).link x = s.link x := rfl
@[simp] theorem State.onSession_linkCounter (s : State) (a : Aud) (f : Session → Session) (x : Port) : (s.onSession a f).linkCounter x = s.linkCounter x := rfl
@[simp] theorem State.onSession_rx (s : State) (a : Aud) (f : Session → Session) (x : RxIndex) : (s.onSession a f).rx x = s.rx x := rfl
@[simp] theorem State.onSession_runHigh (s : State) (a : Aud) (f : Session → Session) (x : Aud) : (s.onSession a f).runHigh x = s.runHigh x := rfl
@[simp] theorem State.onSession_rxHigh (s : State) (a : Aud) (f : Session → Session) (x : Aud) : (s.onSession a f).rxHigh x = s.rxHigh x := rfl

@[simp] theorem State.onSession_session (s : State) (a : Aud) (f : Session → Session) (x : Aud) :
    (s.onSession a f).session x = if a = x then f (s.session x) else s.session x := pick_change _ _ _ _

@[simp] theorem State.onCounters_now (s : State) (a : Aud) (f : AudCounters → AudCounters) : (s.onCounters a f).now = s.now := rfl
@[simp] theorem State.onCounters_draws (s : State) (a : Aud) (f : AudCounters → AudCounters) : (s.onCounters a f).draws = s.draws := rfl
@[simp] theorem State.onCounters_runPins (s : State) (a : Aud) (f : AudCounters → AudCounters) : (s.onCounters a f).runPins = s.runPins := rfl
@[simp] theorem State.onCounters_rxPins (s : State) (a : Aud) (f : AudCounters → AudCounters) : (s.onCounters a f).rxPins = s.rxPins := rfl
@[simp] theorem State.onCounters_clocks (s : State) (a : Aud) (f : AudCounters → AudCounters) : (s.onCounters a f).clocks = s.clocks := rfl
@[simp] theorem State.onCounters_runs (s : State) (a : Aud) (f : AudCounters → AudCounters) : (s.onCounters a f).runs = s.runs := rfl
@[simp] theorem State.onCounters_sessions (s : State) (a : Aud) (f : AudCounters → AudCounters) : (s.onCounters a f).sessions = s.sessions := rfl
@[simp] theorem State.onCounters_cuePorts (s : State) (a : Aud) (f : AudCounters → AudCounters) : (s.onCounters a f).cuePorts = s.cuePorts := rfl
@[simp] theorem State.onCounters_intakes (s : State) (a : Aud) (f : AudCounters → AudCounters) : (s.onCounters a f).intakes = s.intakes := rfl
@[simp] theorem State.onCounters_streams (s : State) (a : Aud) (f : AudCounters → AudCounters) : (s.onCounters a f).streams = s.streams := rfl
@[simp] theorem State.onCounters_stores (s : State) (a : Aud) (f : AudCounters → AudCounters) : (s.onCounters a f).stores = s.stores := rfl
@[simp] theorem State.onCounters_freeCells (s : State) (a : Aud) (f : AudCounters → AudCounters) : (s.onCounters a f).freeCells = s.freeCells := rfl
@[simp] theorem State.onCounters_links (s : State) (a : Aud) (f : AudCounters → AudCounters) : (s.onCounters a f).links = s.links := rfl
@[simp] theorem State.onCounters_linkCounters (s : State) (a : Aud) (f : AudCounters → AudCounters) : (s.onCounters a f).linkCounters = s.linkCounters := rfl
@[simp] theorem State.onCounters_receivers (s : State) (a : Aud) (f : AudCounters → AudCounters) : (s.onCounters a f).receivers = s.receivers := rfl
@[simp] theorem State.onCounters_table (s : State) (a : Aud) (f : AudCounters → AudCounters) : (s.onCounters a f).table = s.table := rfl
@[simp] theorem State.onCounters_attention (s : State) (a : Aud) (f : AudCounters → AudCounters) : (s.onCounters a f).attention = s.attention := rfl
@[simp] theorem State.onCounters_mgmt (s : State) (a : Aud) (f : AudCounters → AudCounters) : (s.onCounters a f).mgmt = s.mgmt := rfl
@[simp] theorem State.onCounters_pending (s : State) (a : Aud) (f : AudCounters → AudCounters) : (s.onCounters a f).pending = s.pending := rfl
@[simp] theorem State.onCounters_clock (s : State) (a : Aud) (f : AudCounters → AudCounters) (x : Aud) : (s.onCounters a f).clock x = s.clock x := rfl
@[simp] theorem State.onCounters_showRun (s : State) (a : Aud) (f : AudCounters → AudCounters) (x : Aud) : (s.onCounters a f).showRun x = s.showRun x := rfl
@[simp] theorem State.onCounters_session (s : State) (a : Aud) (f : AudCounters → AudCounters) (x : Aud) : (s.onCounters a f).session x = s.session x := rfl
@[simp] theorem State.onCounters_cuePort (s : State) (a : Aud) (f : AudCounters → AudCounters) (x : Aud) : (s.onCounters a f).cuePort x = s.cuePort x := rfl
@[simp] theorem State.onCounters_intake (s : State) (a : Aud) (f : AudCounters → AudCounters) (x : Aud) : (s.onCounters a f).intake x = s.intake x := rfl
@[simp] theorem State.onCounters_stream (s : State) (a : Aud) (f : AudCounters → AudCounters) (x : StreamNo) : (s.onCounters a f).stream x = s.stream x := rfl
@[simp] theorem State.onCounters_store (s : State) (a : Aud) (f : AudCounters → AudCounters) (x : Aud) : (s.onCounters a f).store x = s.store x := rfl
@[simp] theorem State.onCounters_link (s : State) (a : Aud) (f : AudCounters → AudCounters) (x : Port) : (s.onCounters a f).link x = s.link x := rfl
@[simp] theorem State.onCounters_linkCounter (s : State) (a : Aud) (f : AudCounters → AudCounters) (x : Port) : (s.onCounters a f).linkCounter x = s.linkCounter x := rfl
@[simp] theorem State.onCounters_rx (s : State) (a : Aud) (f : AudCounters → AudCounters) (x : RxIndex) : (s.onCounters a f).rx x = s.rx x := rfl
@[simp] theorem State.onCounters_runHigh (s : State) (a : Aud) (f : AudCounters → AudCounters) (x : Aud) : (s.onCounters a f).runHigh x = s.runHigh x := rfl
@[simp] theorem State.onCounters_rxHigh (s : State) (a : Aud) (f : AudCounters → AudCounters) (x : Aud) : (s.onCounters a f).rxHigh x = s.rxHigh x := rfl

@[simp] theorem State.onCounters_audCounter (s : State) (a : Aud) (f : AudCounters → AudCounters) (x : Aud) :
    (s.onCounters a f).audCounter x = if a = x then f (s.audCounter x) else s.audCounter x := pick_change _ _ _ _

@[simp] theorem State.onPort_now (s : State) (a : Aud) (f : CuePort → CuePort) : (s.onPort a f).now = s.now := rfl
@[simp] theorem State.onPort_draws (s : State) (a : Aud) (f : CuePort → CuePort) : (s.onPort a f).draws = s.draws := rfl
@[simp] theorem State.onPort_runPins (s : State) (a : Aud) (f : CuePort → CuePort) : (s.onPort a f).runPins = s.runPins := rfl
@[simp] theorem State.onPort_rxPins (s : State) (a : Aud) (f : CuePort → CuePort) : (s.onPort a f).rxPins = s.rxPins := rfl
@[simp] theorem State.onPort_clocks (s : State) (a : Aud) (f : CuePort → CuePort) : (s.onPort a f).clocks = s.clocks := rfl
@[simp] theorem State.onPort_runs (s : State) (a : Aud) (f : CuePort → CuePort) : (s.onPort a f).runs = s.runs := rfl
@[simp] theorem State.onPort_sessions (s : State) (a : Aud) (f : CuePort → CuePort) : (s.onPort a f).sessions = s.sessions := rfl
@[simp] theorem State.onPort_audCounters (s : State) (a : Aud) (f : CuePort → CuePort) : (s.onPort a f).audCounters = s.audCounters := rfl
@[simp] theorem State.onPort_intakes (s : State) (a : Aud) (f : CuePort → CuePort) : (s.onPort a f).intakes = s.intakes := rfl
@[simp] theorem State.onPort_streams (s : State) (a : Aud) (f : CuePort → CuePort) : (s.onPort a f).streams = s.streams := rfl
@[simp] theorem State.onPort_stores (s : State) (a : Aud) (f : CuePort → CuePort) : (s.onPort a f).stores = s.stores := rfl
@[simp] theorem State.onPort_freeCells (s : State) (a : Aud) (f : CuePort → CuePort) : (s.onPort a f).freeCells = s.freeCells := rfl
@[simp] theorem State.onPort_links (s : State) (a : Aud) (f : CuePort → CuePort) : (s.onPort a f).links = s.links := rfl
@[simp] theorem State.onPort_linkCounters (s : State) (a : Aud) (f : CuePort → CuePort) : (s.onPort a f).linkCounters = s.linkCounters := rfl
@[simp] theorem State.onPort_receivers (s : State) (a : Aud) (f : CuePort → CuePort) : (s.onPort a f).receivers = s.receivers := rfl
@[simp] theorem State.onPort_table (s : State) (a : Aud) (f : CuePort → CuePort) : (s.onPort a f).table = s.table := rfl
@[simp] theorem State.onPort_attention (s : State) (a : Aud) (f : CuePort → CuePort) : (s.onPort a f).attention = s.attention := rfl
@[simp] theorem State.onPort_mgmt (s : State) (a : Aud) (f : CuePort → CuePort) : (s.onPort a f).mgmt = s.mgmt := rfl
@[simp] theorem State.onPort_pending (s : State) (a : Aud) (f : CuePort → CuePort) : (s.onPort a f).pending = s.pending := rfl
@[simp] theorem State.onPort_clock (s : State) (a : Aud) (f : CuePort → CuePort) (x : Aud) : (s.onPort a f).clock x = s.clock x := rfl
@[simp] theorem State.onPort_showRun (s : State) (a : Aud) (f : CuePort → CuePort) (x : Aud) : (s.onPort a f).showRun x = s.showRun x := rfl
@[simp] theorem State.onPort_session (s : State) (a : Aud) (f : CuePort → CuePort) (x : Aud) : (s.onPort a f).session x = s.session x := rfl
@[simp] theorem State.onPort_audCounter (s : State) (a : Aud) (f : CuePort → CuePort) (x : Aud) : (s.onPort a f).audCounter x = s.audCounter x := rfl
@[simp] theorem State.onPort_intake (s : State) (a : Aud) (f : CuePort → CuePort) (x : Aud) : (s.onPort a f).intake x = s.intake x := rfl
@[simp] theorem State.onPort_stream (s : State) (a : Aud) (f : CuePort → CuePort) (x : StreamNo) : (s.onPort a f).stream x = s.stream x := rfl
@[simp] theorem State.onPort_store (s : State) (a : Aud) (f : CuePort → CuePort) (x : Aud) : (s.onPort a f).store x = s.store x := rfl
@[simp] theorem State.onPort_link (s : State) (a : Aud) (f : CuePort → CuePort) (x : Port) : (s.onPort a f).link x = s.link x := rfl
@[simp] theorem State.onPort_linkCounter (s : State) (a : Aud) (f : CuePort → CuePort) (x : Port) : (s.onPort a f).linkCounter x = s.linkCounter x := rfl
@[simp] theorem State.onPort_rx (s : State) (a : Aud) (f : CuePort → CuePort) (x : RxIndex) : (s.onPort a f).rx x = s.rx x := rfl
@[simp] theorem State.onPort_runHigh (s : State) (a : Aud) (f : CuePort → CuePort) (x : Aud) : (s.onPort a f).runHigh x = s.runHigh x := rfl
@[simp] theorem State.onPort_rxHigh (s : State) (a : Aud) (f : CuePort → CuePort) (x : Aud) : (s.onPort a f).rxHigh x = s.rxHigh x := rfl

@[simp] theorem State.onPort_cuePort (s : State) (a : Aud) (f : CuePort → CuePort) (x : Aud) :
    (s.onPort a f).cuePort x = if a = x then f (s.cuePort x) else s.cuePort x := pick_change _ _ _ _

@[simp] theorem State.onIntake_now (s : State) (a : Aud) (f : Intake → Intake) : (s.onIntake a f).now = s.now := rfl
@[simp] theorem State.onIntake_draws (s : State) (a : Aud) (f : Intake → Intake) : (s.onIntake a f).draws = s.draws := rfl
@[simp] theorem State.onIntake_runPins (s : State) (a : Aud) (f : Intake → Intake) : (s.onIntake a f).runPins = s.runPins := rfl
@[simp] theorem State.onIntake_rxPins (s : State) (a : Aud) (f : Intake → Intake) : (s.onIntake a f).rxPins = s.rxPins := rfl
@[simp] theorem State.onIntake_clocks (s : State) (a : Aud) (f : Intake → Intake) : (s.onIntake a f).clocks = s.clocks := rfl
@[simp] theorem State.onIntake_runs (s : State) (a : Aud) (f : Intake → Intake) : (s.onIntake a f).runs = s.runs := rfl
@[simp] theorem State.onIntake_sessions (s : State) (a : Aud) (f : Intake → Intake) : (s.onIntake a f).sessions = s.sessions := rfl
@[simp] theorem State.onIntake_audCounters (s : State) (a : Aud) (f : Intake → Intake) : (s.onIntake a f).audCounters = s.audCounters := rfl
@[simp] theorem State.onIntake_cuePorts (s : State) (a : Aud) (f : Intake → Intake) : (s.onIntake a f).cuePorts = s.cuePorts := rfl
@[simp] theorem State.onIntake_streams (s : State) (a : Aud) (f : Intake → Intake) : (s.onIntake a f).streams = s.streams := rfl
@[simp] theorem State.onIntake_stores (s : State) (a : Aud) (f : Intake → Intake) : (s.onIntake a f).stores = s.stores := rfl
@[simp] theorem State.onIntake_freeCells (s : State) (a : Aud) (f : Intake → Intake) : (s.onIntake a f).freeCells = s.freeCells := rfl
@[simp] theorem State.onIntake_links (s : State) (a : Aud) (f : Intake → Intake) : (s.onIntake a f).links = s.links := rfl
@[simp] theorem State.onIntake_linkCounters (s : State) (a : Aud) (f : Intake → Intake) : (s.onIntake a f).linkCounters = s.linkCounters := rfl
@[simp] theorem State.onIntake_receivers (s : State) (a : Aud) (f : Intake → Intake) : (s.onIntake a f).receivers = s.receivers := rfl
@[simp] theorem State.onIntake_table (s : State) (a : Aud) (f : Intake → Intake) : (s.onIntake a f).table = s.table := rfl
@[simp] theorem State.onIntake_attention (s : State) (a : Aud) (f : Intake → Intake) : (s.onIntake a f).attention = s.attention := rfl
@[simp] theorem State.onIntake_mgmt (s : State) (a : Aud) (f : Intake → Intake) : (s.onIntake a f).mgmt = s.mgmt := rfl
@[simp] theorem State.onIntake_pending (s : State) (a : Aud) (f : Intake → Intake) : (s.onIntake a f).pending = s.pending := rfl
@[simp] theorem State.onIntake_clock (s : State) (a : Aud) (f : Intake → Intake) (x : Aud) : (s.onIntake a f).clock x = s.clock x := rfl
@[simp] theorem State.onIntake_showRun (s : State) (a : Aud) (f : Intake → Intake) (x : Aud) : (s.onIntake a f).showRun x = s.showRun x := rfl
@[simp] theorem State.onIntake_session (s : State) (a : Aud) (f : Intake → Intake) (x : Aud) : (s.onIntake a f).session x = s.session x := rfl
@[simp] theorem State.onIntake_audCounter (s : State) (a : Aud) (f : Intake → Intake) (x : Aud) : (s.onIntake a f).audCounter x = s.audCounter x := rfl
@[simp] theorem State.onIntake_cuePort (s : State) (a : Aud) (f : Intake → Intake) (x : Aud) : (s.onIntake a f).cuePort x = s.cuePort x := rfl
@[simp] theorem State.onIntake_stream (s : State) (a : Aud) (f : Intake → Intake) (x : StreamNo) : (s.onIntake a f).stream x = s.stream x := rfl
@[simp] theorem State.onIntake_store (s : State) (a : Aud) (f : Intake → Intake) (x : Aud) : (s.onIntake a f).store x = s.store x := rfl
@[simp] theorem State.onIntake_link (s : State) (a : Aud) (f : Intake → Intake) (x : Port) : (s.onIntake a f).link x = s.link x := rfl
@[simp] theorem State.onIntake_linkCounter (s : State) (a : Aud) (f : Intake → Intake) (x : Port) : (s.onIntake a f).linkCounter x = s.linkCounter x := rfl
@[simp] theorem State.onIntake_rx (s : State) (a : Aud) (f : Intake → Intake) (x : RxIndex) : (s.onIntake a f).rx x = s.rx x := rfl
@[simp] theorem State.onIntake_runHigh (s : State) (a : Aud) (f : Intake → Intake) (x : Aud) : (s.onIntake a f).runHigh x = s.runHigh x := rfl
@[simp] theorem State.onIntake_rxHigh (s : State) (a : Aud) (f : Intake → Intake) (x : Aud) : (s.onIntake a f).rxHigh x = s.rxHigh x := rfl

@[simp] theorem State.onIntake_intake (s : State) (a : Aud) (f : Intake → Intake) (x : Aud) :
    (s.onIntake a f).intake x = if a = x then f (s.intake x) else s.intake x := pick_change _ _ _ _

@[simp] theorem State.onStream_now (s : State) (n : StreamNo) (f : Stream → Stream) : (s.onStream n f).now = s.now := rfl
@[simp] theorem State.onStream_draws (s : State) (n : StreamNo) (f : Stream → Stream) : (s.onStream n f).draws = s.draws := rfl
@[simp] theorem State.onStream_runPins (s : State) (n : StreamNo) (f : Stream → Stream) : (s.onStream n f).runPins = s.runPins := rfl
@[simp] theorem State.onStream_rxPins (s : State) (n : StreamNo) (f : Stream → Stream) : (s.onStream n f).rxPins = s.rxPins := rfl
@[simp] theorem State.onStream_clocks (s : State) (n : StreamNo) (f : Stream → Stream) : (s.onStream n f).clocks = s.clocks := rfl
@[simp] theorem State.onStream_runs (s : State) (n : StreamNo) (f : Stream → Stream) : (s.onStream n f).runs = s.runs := rfl
@[simp] theorem State.onStream_sessions (s : State) (n : StreamNo) (f : Stream → Stream) : (s.onStream n f).sessions = s.sessions := rfl
@[simp] theorem State.onStream_audCounters (s : State) (n : StreamNo) (f : Stream → Stream) : (s.onStream n f).audCounters = s.audCounters := rfl
@[simp] theorem State.onStream_cuePorts (s : State) (n : StreamNo) (f : Stream → Stream) : (s.onStream n f).cuePorts = s.cuePorts := rfl
@[simp] theorem State.onStream_intakes (s : State) (n : StreamNo) (f : Stream → Stream) : (s.onStream n f).intakes = s.intakes := rfl
@[simp] theorem State.onStream_stores (s : State) (n : StreamNo) (f : Stream → Stream) : (s.onStream n f).stores = s.stores := rfl
@[simp] theorem State.onStream_freeCells (s : State) (n : StreamNo) (f : Stream → Stream) : (s.onStream n f).freeCells = s.freeCells := rfl
@[simp] theorem State.onStream_links (s : State) (n : StreamNo) (f : Stream → Stream) : (s.onStream n f).links = s.links := rfl
@[simp] theorem State.onStream_linkCounters (s : State) (n : StreamNo) (f : Stream → Stream) : (s.onStream n f).linkCounters = s.linkCounters := rfl
@[simp] theorem State.onStream_receivers (s : State) (n : StreamNo) (f : Stream → Stream) : (s.onStream n f).receivers = s.receivers := rfl
@[simp] theorem State.onStream_table (s : State) (n : StreamNo) (f : Stream → Stream) : (s.onStream n f).table = s.table := rfl
@[simp] theorem State.onStream_attention (s : State) (n : StreamNo) (f : Stream → Stream) : (s.onStream n f).attention = s.attention := rfl
@[simp] theorem State.onStream_mgmt (s : State) (n : StreamNo) (f : Stream → Stream) : (s.onStream n f).mgmt = s.mgmt := rfl
@[simp] theorem State.onStream_pending (s : State) (n : StreamNo) (f : Stream → Stream) : (s.onStream n f).pending = s.pending := rfl
@[simp] theorem State.onStream_clock (s : State) (n : StreamNo) (f : Stream → Stream) (x : Aud) : (s.onStream n f).clock x = s.clock x := rfl
@[simp] theorem State.onStream_showRun (s : State) (n : StreamNo) (f : Stream → Stream) (x : Aud) : (s.onStream n f).showRun x = s.showRun x := rfl
@[simp] theorem State.onStream_session (s : State) (n : StreamNo) (f : Stream → Stream) (x : Aud) : (s.onStream n f).session x = s.session x := rfl
@[simp] theorem State.onStream_audCounter (s : State) (n : StreamNo) (f : Stream → Stream) (x : Aud) : (s.onStream n f).audCounter x = s.audCounter x := rfl
@[simp] theorem State.onStream_cuePort (s : State) (n : StreamNo) (f : Stream → Stream) (x : Aud) : (s.onStream n f).cuePort x = s.cuePort x := rfl
@[simp] theorem State.onStream_intake (s : State) (n : StreamNo) (f : Stream → Stream) (x : Aud) : (s.onStream n f).intake x = s.intake x := rfl
@[simp] theorem State.onStream_store (s : State) (n : StreamNo) (f : Stream → Stream) (x : Aud) : (s.onStream n f).store x = s.store x := rfl
@[simp] theorem State.onStream_link (s : State) (n : StreamNo) (f : Stream → Stream) (x : Port) : (s.onStream n f).link x = s.link x := rfl
@[simp] theorem State.onStream_linkCounter (s : State) (n : StreamNo) (f : Stream → Stream) (x : Port) : (s.onStream n f).linkCounter x = s.linkCounter x := rfl
@[simp] theorem State.onStream_rx (s : State) (n : StreamNo) (f : Stream → Stream) (x : RxIndex) : (s.onStream n f).rx x = s.rx x := rfl
@[simp] theorem State.onStream_runHigh (s : State) (n : StreamNo) (f : Stream → Stream) (x : Aud) : (s.onStream n f).runHigh x = s.runHigh x := rfl
@[simp] theorem State.onStream_rxHigh (s : State) (n : StreamNo) (f : Stream → Stream) (x : Aud) : (s.onStream n f).rxHigh x = s.rxHigh x := rfl

@[simp] theorem State.onStream_stream (s : State) (n : StreamNo) (f : Stream → Stream) (x : StreamNo) :
    (s.onStream n f).stream x = if n = x then f (s.stream x) else s.stream x := pick_change _ _ _ _

@[simp] theorem State.onStore_now (s : State) (a : Aud) (f : Store → Store) : (s.onStore a f).now = s.now := rfl
@[simp] theorem State.onStore_draws (s : State) (a : Aud) (f : Store → Store) : (s.onStore a f).draws = s.draws := rfl
@[simp] theorem State.onStore_runPins (s : State) (a : Aud) (f : Store → Store) : (s.onStore a f).runPins = s.runPins := rfl
@[simp] theorem State.onStore_rxPins (s : State) (a : Aud) (f : Store → Store) : (s.onStore a f).rxPins = s.rxPins := rfl
@[simp] theorem State.onStore_clocks (s : State) (a : Aud) (f : Store → Store) : (s.onStore a f).clocks = s.clocks := rfl
@[simp] theorem State.onStore_runs (s : State) (a : Aud) (f : Store → Store) : (s.onStore a f).runs = s.runs := rfl
@[simp] theorem State.onStore_sessions (s : State) (a : Aud) (f : Store → Store) : (s.onStore a f).sessions = s.sessions := rfl
@[simp] theorem State.onStore_audCounters (s : State) (a : Aud) (f : Store → Store) : (s.onStore a f).audCounters = s.audCounters := rfl
@[simp] theorem State.onStore_cuePorts (s : State) (a : Aud) (f : Store → Store) : (s.onStore a f).cuePorts = s.cuePorts := rfl
@[simp] theorem State.onStore_intakes (s : State) (a : Aud) (f : Store → Store) : (s.onStore a f).intakes = s.intakes := rfl
@[simp] theorem State.onStore_streams (s : State) (a : Aud) (f : Store → Store) : (s.onStore a f).streams = s.streams := rfl
@[simp] theorem State.onStore_freeCells (s : State) (a : Aud) (f : Store → Store) : (s.onStore a f).freeCells = s.freeCells := rfl
@[simp] theorem State.onStore_links (s : State) (a : Aud) (f : Store → Store) : (s.onStore a f).links = s.links := rfl
@[simp] theorem State.onStore_linkCounters (s : State) (a : Aud) (f : Store → Store) : (s.onStore a f).linkCounters = s.linkCounters := rfl
@[simp] theorem State.onStore_receivers (s : State) (a : Aud) (f : Store → Store) : (s.onStore a f).receivers = s.receivers := rfl
@[simp] theorem State.onStore_table (s : State) (a : Aud) (f : Store → Store) : (s.onStore a f).table = s.table := rfl
@[simp] theorem State.onStore_attention (s : State) (a : Aud) (f : Store → Store) : (s.onStore a f).attention = s.attention := rfl
@[simp] theorem State.onStore_mgmt (s : State) (a : Aud) (f : Store → Store) : (s.onStore a f).mgmt = s.mgmt := rfl
@[simp] theorem State.onStore_pending (s : State) (a : Aud) (f : Store → Store) : (s.onStore a f).pending = s.pending := rfl
@[simp] theorem State.onStore_clock (s : State) (a : Aud) (f : Store → Store) (x : Aud) : (s.onStore a f).clock x = s.clock x := rfl
@[simp] theorem State.onStore_showRun (s : State) (a : Aud) (f : Store → Store) (x : Aud) : (s.onStore a f).showRun x = s.showRun x := rfl
@[simp] theorem State.onStore_session (s : State) (a : Aud) (f : Store → Store) (x : Aud) : (s.onStore a f).session x = s.session x := rfl
@[simp] theorem State.onStore_audCounter (s : State) (a : Aud) (f : Store → Store) (x : Aud) : (s.onStore a f).audCounter x = s.audCounter x := rfl
@[simp] theorem State.onStore_cuePort (s : State) (a : Aud) (f : Store → Store) (x : Aud) : (s.onStore a f).cuePort x = s.cuePort x := rfl
@[simp] theorem State.onStore_intake (s : State) (a : Aud) (f : Store → Store) (x : Aud) : (s.onStore a f).intake x = s.intake x := rfl
@[simp] theorem State.onStore_stream (s : State) (a : Aud) (f : Store → Store) (x : StreamNo) : (s.onStore a f).stream x = s.stream x := rfl
@[simp] theorem State.onStore_link (s : State) (a : Aud) (f : Store → Store) (x : Port) : (s.onStore a f).link x = s.link x := rfl
@[simp] theorem State.onStore_linkCounter (s : State) (a : Aud) (f : Store → Store) (x : Port) : (s.onStore a f).linkCounter x = s.linkCounter x := rfl
@[simp] theorem State.onStore_rx (s : State) (a : Aud) (f : Store → Store) (x : RxIndex) : (s.onStore a f).rx x = s.rx x := rfl
@[simp] theorem State.onStore_runHigh (s : State) (a : Aud) (f : Store → Store) (x : Aud) : (s.onStore a f).runHigh x = s.runHigh x := rfl
@[simp] theorem State.onStore_rxHigh (s : State) (a : Aud) (f : Store → Store) (x : Aud) : (s.onStore a f).rxHigh x = s.rxHigh x := rfl

@[simp] theorem State.onStore_store (s : State) (a : Aud) (f : Store → Store) (x : Aud) :
    (s.onStore a f).store x = if a = x then f (s.store x) else s.store x := pick_change _ _ _ _

@[simp] theorem State.onLink_now (s : State) (p : Port) (f : LinkPort → LinkPort) : (s.onLink p f).now = s.now := rfl
@[simp] theorem State.onLink_draws (s : State) (p : Port) (f : LinkPort → LinkPort) : (s.onLink p f).draws = s.draws := rfl
@[simp] theorem State.onLink_runPins (s : State) (p : Port) (f : LinkPort → LinkPort) : (s.onLink p f).runPins = s.runPins := rfl
@[simp] theorem State.onLink_rxPins (s : State) (p : Port) (f : LinkPort → LinkPort) : (s.onLink p f).rxPins = s.rxPins := rfl
@[simp] theorem State.onLink_clocks (s : State) (p : Port) (f : LinkPort → LinkPort) : (s.onLink p f).clocks = s.clocks := rfl
@[simp] theorem State.onLink_runs (s : State) (p : Port) (f : LinkPort → LinkPort) : (s.onLink p f).runs = s.runs := rfl
@[simp] theorem State.onLink_sessions (s : State) (p : Port) (f : LinkPort → LinkPort) : (s.onLink p f).sessions = s.sessions := rfl
@[simp] theorem State.onLink_audCounters (s : State) (p : Port) (f : LinkPort → LinkPort) : (s.onLink p f).audCounters = s.audCounters := rfl
@[simp] theorem State.onLink_cuePorts (s : State) (p : Port) (f : LinkPort → LinkPort) : (s.onLink p f).cuePorts = s.cuePorts := rfl
@[simp] theorem State.onLink_intakes (s : State) (p : Port) (f : LinkPort → LinkPort) : (s.onLink p f).intakes = s.intakes := rfl
@[simp] theorem State.onLink_streams (s : State) (p : Port) (f : LinkPort → LinkPort) : (s.onLink p f).streams = s.streams := rfl
@[simp] theorem State.onLink_stores (s : State) (p : Port) (f : LinkPort → LinkPort) : (s.onLink p f).stores = s.stores := rfl
@[simp] theorem State.onLink_freeCells (s : State) (p : Port) (f : LinkPort → LinkPort) : (s.onLink p f).freeCells = s.freeCells := rfl
@[simp] theorem State.onLink_linkCounters (s : State) (p : Port) (f : LinkPort → LinkPort) : (s.onLink p f).linkCounters = s.linkCounters := rfl
@[simp] theorem State.onLink_receivers (s : State) (p : Port) (f : LinkPort → LinkPort) : (s.onLink p f).receivers = s.receivers := rfl
@[simp] theorem State.onLink_table (s : State) (p : Port) (f : LinkPort → LinkPort) : (s.onLink p f).table = s.table := rfl
@[simp] theorem State.onLink_attention (s : State) (p : Port) (f : LinkPort → LinkPort) : (s.onLink p f).attention = s.attention := rfl
@[simp] theorem State.onLink_mgmt (s : State) (p : Port) (f : LinkPort → LinkPort) : (s.onLink p f).mgmt = s.mgmt := rfl
@[simp] theorem State.onLink_pending (s : State) (p : Port) (f : LinkPort → LinkPort) : (s.onLink p f).pending = s.pending := rfl
@[simp] theorem State.onLink_clock (s : State) (p : Port) (f : LinkPort → LinkPort) (x : Aud) : (s.onLink p f).clock x = s.clock x := rfl
@[simp] theorem State.onLink_showRun (s : State) (p : Port) (f : LinkPort → LinkPort) (x : Aud) : (s.onLink p f).showRun x = s.showRun x := rfl
@[simp] theorem State.onLink_session (s : State) (p : Port) (f : LinkPort → LinkPort) (x : Aud) : (s.onLink p f).session x = s.session x := rfl
@[simp] theorem State.onLink_audCounter (s : State) (p : Port) (f : LinkPort → LinkPort) (x : Aud) : (s.onLink p f).audCounter x = s.audCounter x := rfl
@[simp] theorem State.onLink_cuePort (s : State) (p : Port) (f : LinkPort → LinkPort) (x : Aud) : (s.onLink p f).cuePort x = s.cuePort x := rfl
@[simp] theorem State.onLink_intake (s : State) (p : Port) (f : LinkPort → LinkPort) (x : Aud) : (s.onLink p f).intake x = s.intake x := rfl
@[simp] theorem State.onLink_stream (s : State) (p : Port) (f : LinkPort → LinkPort) (x : StreamNo) : (s.onLink p f).stream x = s.stream x := rfl
@[simp] theorem State.onLink_store (s : State) (p : Port) (f : LinkPort → LinkPort) (x : Aud) : (s.onLink p f).store x = s.store x := rfl
@[simp] theorem State.onLink_linkCounter (s : State) (p : Port) (f : LinkPort → LinkPort) (x : Port) : (s.onLink p f).linkCounter x = s.linkCounter x := rfl
@[simp] theorem State.onLink_rx (s : State) (p : Port) (f : LinkPort → LinkPort) (x : RxIndex) : (s.onLink p f).rx x = s.rx x := rfl
@[simp] theorem State.onLink_runHigh (s : State) (p : Port) (f : LinkPort → LinkPort) (x : Aud) : (s.onLink p f).runHigh x = s.runHigh x := rfl
@[simp] theorem State.onLink_rxHigh (s : State) (p : Port) (f : LinkPort → LinkPort) (x : Aud) : (s.onLink p f).rxHigh x = s.rxHigh x := rfl

@[simp] theorem State.onLink_link (s : State) (p : Port) (f : LinkPort → LinkPort) (x : Port) :
    (s.onLink p f).link x = if p = x then f (s.link x) else s.link x := pick_change _ _ _ _

@[simp] theorem State.onLinkCounters_now (s : State) (p : Port) (f : LinkCounters → LinkCounters) : (s.onLinkCounters p f).now = s.now := rfl
@[simp] theorem State.onLinkCounters_draws (s : State) (p : Port) (f : LinkCounters → LinkCounters) : (s.onLinkCounters p f).draws = s.draws := rfl
@[simp] theorem State.onLinkCounters_runPins (s : State) (p : Port) (f : LinkCounters → LinkCounters) : (s.onLinkCounters p f).runPins = s.runPins := rfl
@[simp] theorem State.onLinkCounters_rxPins (s : State) (p : Port) (f : LinkCounters → LinkCounters) : (s.onLinkCounters p f).rxPins = s.rxPins := rfl
@[simp] theorem State.onLinkCounters_clocks (s : State) (p : Port) (f : LinkCounters → LinkCounters) : (s.onLinkCounters p f).clocks = s.clocks := rfl
@[simp] theorem State.onLinkCounters_runs (s : State) (p : Port) (f : LinkCounters → LinkCounters) : (s.onLinkCounters p f).runs = s.runs := rfl
@[simp] theorem State.onLinkCounters_sessions (s : State) (p : Port) (f : LinkCounters → LinkCounters) : (s.onLinkCounters p f).sessions = s.sessions := rfl
@[simp] theorem State.onLinkCounters_audCounters (s : State) (p : Port) (f : LinkCounters → LinkCounters) : (s.onLinkCounters p f).audCounters = s.audCounters := rfl
@[simp] theorem State.onLinkCounters_cuePorts (s : State) (p : Port) (f : LinkCounters → LinkCounters) : (s.onLinkCounters p f).cuePorts = s.cuePorts := rfl
@[simp] theorem State.onLinkCounters_intakes (s : State) (p : Port) (f : LinkCounters → LinkCounters) : (s.onLinkCounters p f).intakes = s.intakes := rfl
@[simp] theorem State.onLinkCounters_streams (s : State) (p : Port) (f : LinkCounters → LinkCounters) : (s.onLinkCounters p f).streams = s.streams := rfl
@[simp] theorem State.onLinkCounters_stores (s : State) (p : Port) (f : LinkCounters → LinkCounters) : (s.onLinkCounters p f).stores = s.stores := rfl
@[simp] theorem State.onLinkCounters_freeCells (s : State) (p : Port) (f : LinkCounters → LinkCounters) : (s.onLinkCounters p f).freeCells = s.freeCells := rfl
@[simp] theorem State.onLinkCounters_links (s : State) (p : Port) (f : LinkCounters → LinkCounters) : (s.onLinkCounters p f).links = s.links := rfl
@[simp] theorem State.onLinkCounters_receivers (s : State) (p : Port) (f : LinkCounters → LinkCounters) : (s.onLinkCounters p f).receivers = s.receivers := rfl
@[simp] theorem State.onLinkCounters_table (s : State) (p : Port) (f : LinkCounters → LinkCounters) : (s.onLinkCounters p f).table = s.table := rfl
@[simp] theorem State.onLinkCounters_attention (s : State) (p : Port) (f : LinkCounters → LinkCounters) : (s.onLinkCounters p f).attention = s.attention := rfl
@[simp] theorem State.onLinkCounters_mgmt (s : State) (p : Port) (f : LinkCounters → LinkCounters) : (s.onLinkCounters p f).mgmt = s.mgmt := rfl
@[simp] theorem State.onLinkCounters_pending (s : State) (p : Port) (f : LinkCounters → LinkCounters) : (s.onLinkCounters p f).pending = s.pending := rfl
@[simp] theorem State.onLinkCounters_clock (s : State) (p : Port) (f : LinkCounters → LinkCounters) (x : Aud) : (s.onLinkCounters p f).clock x = s.clock x := rfl
@[simp] theorem State.onLinkCounters_showRun (s : State) (p : Port) (f : LinkCounters → LinkCounters) (x : Aud) : (s.onLinkCounters p f).showRun x = s.showRun x := rfl
@[simp] theorem State.onLinkCounters_session (s : State) (p : Port) (f : LinkCounters → LinkCounters) (x : Aud) : (s.onLinkCounters p f).session x = s.session x := rfl
@[simp] theorem State.onLinkCounters_audCounter (s : State) (p : Port) (f : LinkCounters → LinkCounters) (x : Aud) : (s.onLinkCounters p f).audCounter x = s.audCounter x := rfl
@[simp] theorem State.onLinkCounters_cuePort (s : State) (p : Port) (f : LinkCounters → LinkCounters) (x : Aud) : (s.onLinkCounters p f).cuePort x = s.cuePort x := rfl
@[simp] theorem State.onLinkCounters_intake (s : State) (p : Port) (f : LinkCounters → LinkCounters) (x : Aud) : (s.onLinkCounters p f).intake x = s.intake x := rfl
@[simp] theorem State.onLinkCounters_stream (s : State) (p : Port) (f : LinkCounters → LinkCounters) (x : StreamNo) : (s.onLinkCounters p f).stream x = s.stream x := rfl
@[simp] theorem State.onLinkCounters_store (s : State) (p : Port) (f : LinkCounters → LinkCounters) (x : Aud) : (s.onLinkCounters p f).store x = s.store x := rfl
@[simp] theorem State.onLinkCounters_link (s : State) (p : Port) (f : LinkCounters → LinkCounters) (x : Port) : (s.onLinkCounters p f).link x = s.link x := rfl
@[simp] theorem State.onLinkCounters_rx (s : State) (p : Port) (f : LinkCounters → LinkCounters) (x : RxIndex) : (s.onLinkCounters p f).rx x = s.rx x := rfl
@[simp] theorem State.onLinkCounters_runHigh (s : State) (p : Port) (f : LinkCounters → LinkCounters) (x : Aud) : (s.onLinkCounters p f).runHigh x = s.runHigh x := rfl
@[simp] theorem State.onLinkCounters_rxHigh (s : State) (p : Port) (f : LinkCounters → LinkCounters) (x : Aud) : (s.onLinkCounters p f).rxHigh x = s.rxHigh x := rfl

@[simp] theorem State.onLinkCounters_linkCounter (s : State) (p : Port) (f : LinkCounters → LinkCounters) (x : Port) :
    (s.onLinkCounters p f).linkCounter x = if p = x then f (s.linkCounter x) else s.linkCounter x := pick_change _ _ _ _

@[simp] theorem State.onRx_now (s : State) (i : RxIndex) (f : Receiver → Receiver) : (s.onRx i f).now = s.now := rfl
@[simp] theorem State.onRx_draws (s : State) (i : RxIndex) (f : Receiver → Receiver) : (s.onRx i f).draws = s.draws := rfl
@[simp] theorem State.onRx_runPins (s : State) (i : RxIndex) (f : Receiver → Receiver) : (s.onRx i f).runPins = s.runPins := rfl
@[simp] theorem State.onRx_rxPins (s : State) (i : RxIndex) (f : Receiver → Receiver) : (s.onRx i f).rxPins = s.rxPins := rfl
@[simp] theorem State.onRx_clocks (s : State) (i : RxIndex) (f : Receiver → Receiver) : (s.onRx i f).clocks = s.clocks := rfl
@[simp] theorem State.onRx_runs (s : State) (i : RxIndex) (f : Receiver → Receiver) : (s.onRx i f).runs = s.runs := rfl
@[simp] theorem State.onRx_sessions (s : State) (i : RxIndex) (f : Receiver → Receiver) : (s.onRx i f).sessions = s.sessions := rfl
@[simp] theorem State.onRx_audCounters (s : State) (i : RxIndex) (f : Receiver → Receiver) : (s.onRx i f).audCounters = s.audCounters := rfl
@[simp] theorem State.onRx_cuePorts (s : State) (i : RxIndex) (f : Receiver → Receiver) : (s.onRx i f).cuePorts = s.cuePorts := rfl
@[simp] theorem State.onRx_intakes (s : State) (i : RxIndex) (f : Receiver → Receiver) : (s.onRx i f).intakes = s.intakes := rfl
@[simp] theorem State.onRx_streams (s : State) (i : RxIndex) (f : Receiver → Receiver) : (s.onRx i f).streams = s.streams := rfl
@[simp] theorem State.onRx_stores (s : State) (i : RxIndex) (f : Receiver → Receiver) : (s.onRx i f).stores = s.stores := rfl
@[simp] theorem State.onRx_freeCells (s : State) (i : RxIndex) (f : Receiver → Receiver) : (s.onRx i f).freeCells = s.freeCells := rfl
@[simp] theorem State.onRx_links (s : State) (i : RxIndex) (f : Receiver → Receiver) : (s.onRx i f).links = s.links := rfl
@[simp] theorem State.onRx_linkCounters (s : State) (i : RxIndex) (f : Receiver → Receiver) : (s.onRx i f).linkCounters = s.linkCounters := rfl
@[simp] theorem State.onRx_table (s : State) (i : RxIndex) (f : Receiver → Receiver) : (s.onRx i f).table = s.table := rfl
@[simp] theorem State.onRx_attention (s : State) (i : RxIndex) (f : Receiver → Receiver) : (s.onRx i f).attention = s.attention := rfl
@[simp] theorem State.onRx_mgmt (s : State) (i : RxIndex) (f : Receiver → Receiver) : (s.onRx i f).mgmt = s.mgmt := rfl
@[simp] theorem State.onRx_pending (s : State) (i : RxIndex) (f : Receiver → Receiver) : (s.onRx i f).pending = s.pending := rfl
@[simp] theorem State.onRx_clock (s : State) (i : RxIndex) (f : Receiver → Receiver) (x : Aud) : (s.onRx i f).clock x = s.clock x := rfl
@[simp] theorem State.onRx_showRun (s : State) (i : RxIndex) (f : Receiver → Receiver) (x : Aud) : (s.onRx i f).showRun x = s.showRun x := rfl
@[simp] theorem State.onRx_session (s : State) (i : RxIndex) (f : Receiver → Receiver) (x : Aud) : (s.onRx i f).session x = s.session x := rfl
@[simp] theorem State.onRx_audCounter (s : State) (i : RxIndex) (f : Receiver → Receiver) (x : Aud) : (s.onRx i f).audCounter x = s.audCounter x := rfl
@[simp] theorem State.onRx_cuePort (s : State) (i : RxIndex) (f : Receiver → Receiver) (x : Aud) : (s.onRx i f).cuePort x = s.cuePort x := rfl
@[simp] theorem State.onRx_intake (s : State) (i : RxIndex) (f : Receiver → Receiver) (x : Aud) : (s.onRx i f).intake x = s.intake x := rfl
@[simp] theorem State.onRx_stream (s : State) (i : RxIndex) (f : Receiver → Receiver) (x : StreamNo) : (s.onRx i f).stream x = s.stream x := rfl
@[simp] theorem State.onRx_store (s : State) (i : RxIndex) (f : Receiver → Receiver) (x : Aud) : (s.onRx i f).store x = s.store x := rfl
@[simp] theorem State.onRx_link (s : State) (i : RxIndex) (f : Receiver → Receiver) (x : Port) : (s.onRx i f).link x = s.link x := rfl
@[simp] theorem State.onRx_linkCounter (s : State) (i : RxIndex) (f : Receiver → Receiver) (x : Port) : (s.onRx i f).linkCounter x = s.linkCounter x := rfl
@[simp] theorem State.onRx_runHigh (s : State) (i : RxIndex) (f : Receiver → Receiver) (x : Aud) : (s.onRx i f).runHigh x = s.runHigh x := rfl
@[simp] theorem State.onRx_rxHigh (s : State) (i : RxIndex) (f : Receiver → Receiver) (x : Aud) : (s.onRx i f).rxHigh x = s.rxHigh x := rfl

@[simp] theorem State.onRx_rx (s : State) (i : RxIndex) (f : Receiver → Receiver) (x : RxIndex) :
    (s.onRx i f).rx x = if i = x then f (s.rx x) else s.rx x := pick_change _ _ _ _

@[simp] theorem State.onTable_now (s : State) (f : RxTable → RxTable) : (s.onTable f).now = s.now := rfl
@[simp] theorem State.onTable_draws (s : State) (f : RxTable → RxTable) : (s.onTable f).draws = s.draws := rfl
@[simp] theorem State.onTable_runPins (s : State) (f : RxTable → RxTable) : (s.onTable f).runPins = s.runPins := rfl
@[simp] theorem State.onTable_rxPins (s : State) (f : RxTable → RxTable) : (s.onTable f).rxPins = s.rxPins := rfl
@[simp] theorem State.onTable_clocks (s : State) (f : RxTable → RxTable) : (s.onTable f).clocks = s.clocks := rfl
@[simp] theorem State.onTable_runs (s : State) (f : RxTable → RxTable) : (s.onTable f).runs = s.runs := rfl
@[simp] theorem State.onTable_sessions (s : State) (f : RxTable → RxTable) : (s.onTable f).sessions = s.sessions := rfl
@[simp] theorem State.onTable_audCounters (s : State) (f : RxTable → RxTable) : (s.onTable f).audCounters = s.audCounters := rfl
@[simp] theorem State.onTable_cuePorts (s : State) (f : RxTable → RxTable) : (s.onTable f).cuePorts = s.cuePorts := rfl
@[simp] theorem State.onTable_intakes (s : State) (f : RxTable → RxTable) : (s.onTable f).intakes = s.intakes := rfl
@[simp] theorem State.onTable_streams (s : State) (f : RxTable → RxTable) : (s.onTable f).streams = s.streams := rfl
@[simp] theorem State.onTable_stores (s : State) (f : RxTable → RxTable) : (s.onTable f).stores = s.stores := rfl
@[simp] theorem State.onTable_freeCells (s : State) (f : RxTable → RxTable) : (s.onTable f).freeCells = s.freeCells := rfl
@[simp] theorem State.onTable_links (s : State) (f : RxTable → RxTable) : (s.onTable f).links = s.links := rfl
@[simp] theorem State.onTable_linkCounters (s : State) (f : RxTable → RxTable) : (s.onTable f).linkCounters = s.linkCounters := rfl
@[simp] theorem State.onTable_receivers (s : State) (f : RxTable → RxTable) : (s.onTable f).receivers = s.receivers := rfl
@[simp] theorem State.onTable_attention (s : State) (f : RxTable → RxTable) : (s.onTable f).attention = s.attention := rfl
@[simp] theorem State.onTable_mgmt (s : State) (f : RxTable → RxTable) : (s.onTable f).mgmt = s.mgmt := rfl
@[simp] theorem State.onTable_pending (s : State) (f : RxTable → RxTable) : (s.onTable f).pending = s.pending := rfl
@[simp] theorem State.onTable_clock (s : State) (f : RxTable → RxTable) (x : Aud) : (s.onTable f).clock x = s.clock x := rfl
@[simp] theorem State.onTable_showRun (s : State) (f : RxTable → RxTable) (x : Aud) : (s.onTable f).showRun x = s.showRun x := rfl
@[simp] theorem State.onTable_session (s : State) (f : RxTable → RxTable) (x : Aud) : (s.onTable f).session x = s.session x := rfl
@[simp] theorem State.onTable_audCounter (s : State) (f : RxTable → RxTable) (x : Aud) : (s.onTable f).audCounter x = s.audCounter x := rfl
@[simp] theorem State.onTable_cuePort (s : State) (f : RxTable → RxTable) (x : Aud) : (s.onTable f).cuePort x = s.cuePort x := rfl
@[simp] theorem State.onTable_intake (s : State) (f : RxTable → RxTable) (x : Aud) : (s.onTable f).intake x = s.intake x := rfl
@[simp] theorem State.onTable_stream (s : State) (f : RxTable → RxTable) (x : StreamNo) : (s.onTable f).stream x = s.stream x := rfl
@[simp] theorem State.onTable_store (s : State) (f : RxTable → RxTable) (x : Aud) : (s.onTable f).store x = s.store x := rfl
@[simp] theorem State.onTable_link (s : State) (f : RxTable → RxTable) (x : Port) : (s.onTable f).link x = s.link x := rfl
@[simp] theorem State.onTable_linkCounter (s : State) (f : RxTable → RxTable) (x : Port) : (s.onTable f).linkCounter x = s.linkCounter x := rfl
@[simp] theorem State.onTable_rx (s : State) (f : RxTable → RxTable) (x : RxIndex) : (s.onTable f).rx x = s.rx x := rfl
@[simp] theorem State.onTable_runHigh (s : State) (f : RxTable → RxTable) (x : Aud) : (s.onTable f).runHigh x = s.runHigh x := rfl
@[simp] theorem State.onTable_rxHigh (s : State) (f : RxTable → RxTable) (x : Aud) : (s.onTable f).rxHigh x = s.rxHigh x := rfl

@[simp] theorem State.onTable_table (s : State) (f : RxTable → RxTable) : (s.onTable f).table = f s.table := rfl

@[simp] theorem State.onAttention_now (s : State) (f : Attention → Attention) : (s.onAttention f).now = s.now := rfl
@[simp] theorem State.onAttention_draws (s : State) (f : Attention → Attention) : (s.onAttention f).draws = s.draws := rfl
@[simp] theorem State.onAttention_runPins (s : State) (f : Attention → Attention) : (s.onAttention f).runPins = s.runPins := rfl
@[simp] theorem State.onAttention_rxPins (s : State) (f : Attention → Attention) : (s.onAttention f).rxPins = s.rxPins := rfl
@[simp] theorem State.onAttention_clocks (s : State) (f : Attention → Attention) : (s.onAttention f).clocks = s.clocks := rfl
@[simp] theorem State.onAttention_runs (s : State) (f : Attention → Attention) : (s.onAttention f).runs = s.runs := rfl
@[simp] theorem State.onAttention_sessions (s : State) (f : Attention → Attention) : (s.onAttention f).sessions = s.sessions := rfl
@[simp] theorem State.onAttention_audCounters (s : State) (f : Attention → Attention) : (s.onAttention f).audCounters = s.audCounters := rfl
@[simp] theorem State.onAttention_cuePorts (s : State) (f : Attention → Attention) : (s.onAttention f).cuePorts = s.cuePorts := rfl
@[simp] theorem State.onAttention_intakes (s : State) (f : Attention → Attention) : (s.onAttention f).intakes = s.intakes := rfl
@[simp] theorem State.onAttention_streams (s : State) (f : Attention → Attention) : (s.onAttention f).streams = s.streams := rfl
@[simp] theorem State.onAttention_stores (s : State) (f : Attention → Attention) : (s.onAttention f).stores = s.stores := rfl
@[simp] theorem State.onAttention_freeCells (s : State) (f : Attention → Attention) : (s.onAttention f).freeCells = s.freeCells := rfl
@[simp] theorem State.onAttention_links (s : State) (f : Attention → Attention) : (s.onAttention f).links = s.links := rfl
@[simp] theorem State.onAttention_linkCounters (s : State) (f : Attention → Attention) : (s.onAttention f).linkCounters = s.linkCounters := rfl
@[simp] theorem State.onAttention_receivers (s : State) (f : Attention → Attention) : (s.onAttention f).receivers = s.receivers := rfl
@[simp] theorem State.onAttention_table (s : State) (f : Attention → Attention) : (s.onAttention f).table = s.table := rfl
@[simp] theorem State.onAttention_mgmt (s : State) (f : Attention → Attention) : (s.onAttention f).mgmt = s.mgmt := rfl
@[simp] theorem State.onAttention_pending (s : State) (f : Attention → Attention) : (s.onAttention f).pending = s.pending := rfl
@[simp] theorem State.onAttention_clock (s : State) (f : Attention → Attention) (x : Aud) : (s.onAttention f).clock x = s.clock x := rfl
@[simp] theorem State.onAttention_showRun (s : State) (f : Attention → Attention) (x : Aud) : (s.onAttention f).showRun x = s.showRun x := rfl
@[simp] theorem State.onAttention_session (s : State) (f : Attention → Attention) (x : Aud) : (s.onAttention f).session x = s.session x := rfl
@[simp] theorem State.onAttention_audCounter (s : State) (f : Attention → Attention) (x : Aud) : (s.onAttention f).audCounter x = s.audCounter x := rfl
@[simp] theorem State.onAttention_cuePort (s : State) (f : Attention → Attention) (x : Aud) : (s.onAttention f).cuePort x = s.cuePort x := rfl
@[simp] theorem State.onAttention_intake (s : State) (f : Attention → Attention) (x : Aud) : (s.onAttention f).intake x = s.intake x := rfl
@[simp] theorem State.onAttention_stream (s : State) (f : Attention → Attention) (x : StreamNo) : (s.onAttention f).stream x = s.stream x := rfl
@[simp] theorem State.onAttention_store (s : State) (f : Attention → Attention) (x : Aud) : (s.onAttention f).store x = s.store x := rfl
@[simp] theorem State.onAttention_link (s : State) (f : Attention → Attention) (x : Port) : (s.onAttention f).link x = s.link x := rfl
@[simp] theorem State.onAttention_linkCounter (s : State) (f : Attention → Attention) (x : Port) : (s.onAttention f).linkCounter x = s.linkCounter x := rfl
@[simp] theorem State.onAttention_rx (s : State) (f : Attention → Attention) (x : RxIndex) : (s.onAttention f).rx x = s.rx x := rfl
@[simp] theorem State.onAttention_runHigh (s : State) (f : Attention → Attention) (x : Aud) : (s.onAttention f).runHigh x = s.runHigh x := rfl
@[simp] theorem State.onAttention_rxHigh (s : State) (f : Attention → Attention) (x : Aud) : (s.onAttention f).rxHigh x = s.rxHigh x := rfl

@[simp] theorem State.onAttention_attention (s : State) (f : Attention → Attention) : (s.onAttention f).attention = f s.attention := rfl

@[simp] theorem State.onMgmt_now (s : State) (f : Mgmt → Mgmt) : (s.onMgmt f).now = s.now := rfl
@[simp] theorem State.onMgmt_draws (s : State) (f : Mgmt → Mgmt) : (s.onMgmt f).draws = s.draws := rfl
@[simp] theorem State.onMgmt_runPins (s : State) (f : Mgmt → Mgmt) : (s.onMgmt f).runPins = s.runPins := rfl
@[simp] theorem State.onMgmt_rxPins (s : State) (f : Mgmt → Mgmt) : (s.onMgmt f).rxPins = s.rxPins := rfl
@[simp] theorem State.onMgmt_clocks (s : State) (f : Mgmt → Mgmt) : (s.onMgmt f).clocks = s.clocks := rfl
@[simp] theorem State.onMgmt_runs (s : State) (f : Mgmt → Mgmt) : (s.onMgmt f).runs = s.runs := rfl
@[simp] theorem State.onMgmt_sessions (s : State) (f : Mgmt → Mgmt) : (s.onMgmt f).sessions = s.sessions := rfl
@[simp] theorem State.onMgmt_audCounters (s : State) (f : Mgmt → Mgmt) : (s.onMgmt f).audCounters = s.audCounters := rfl
@[simp] theorem State.onMgmt_cuePorts (s : State) (f : Mgmt → Mgmt) : (s.onMgmt f).cuePorts = s.cuePorts := rfl
@[simp] theorem State.onMgmt_intakes (s : State) (f : Mgmt → Mgmt) : (s.onMgmt f).intakes = s.intakes := rfl
@[simp] theorem State.onMgmt_streams (s : State) (f : Mgmt → Mgmt) : (s.onMgmt f).streams = s.streams := rfl
@[simp] theorem State.onMgmt_stores (s : State) (f : Mgmt → Mgmt) : (s.onMgmt f).stores = s.stores := rfl
@[simp] theorem State.onMgmt_freeCells (s : State) (f : Mgmt → Mgmt) : (s.onMgmt f).freeCells = s.freeCells := rfl
@[simp] theorem State.onMgmt_links (s : State) (f : Mgmt → Mgmt) : (s.onMgmt f).links = s.links := rfl
@[simp] theorem State.onMgmt_linkCounters (s : State) (f : Mgmt → Mgmt) : (s.onMgmt f).linkCounters = s.linkCounters := rfl
@[simp] theorem State.onMgmt_receivers (s : State) (f : Mgmt → Mgmt) : (s.onMgmt f).receivers = s.receivers := rfl
@[simp] theorem State.onMgmt_table (s : State) (f : Mgmt → Mgmt) : (s.onMgmt f).table = s.table := rfl
@[simp] theorem State.onMgmt_attention (s : State) (f : Mgmt → Mgmt) : (s.onMgmt f).attention = s.attention := rfl
@[simp] theorem State.onMgmt_pending (s : State) (f : Mgmt → Mgmt) : (s.onMgmt f).pending = s.pending := rfl
@[simp] theorem State.onMgmt_clock (s : State) (f : Mgmt → Mgmt) (x : Aud) : (s.onMgmt f).clock x = s.clock x := rfl
@[simp] theorem State.onMgmt_showRun (s : State) (f : Mgmt → Mgmt) (x : Aud) : (s.onMgmt f).showRun x = s.showRun x := rfl
@[simp] theorem State.onMgmt_session (s : State) (f : Mgmt → Mgmt) (x : Aud) : (s.onMgmt f).session x = s.session x := rfl
@[simp] theorem State.onMgmt_audCounter (s : State) (f : Mgmt → Mgmt) (x : Aud) : (s.onMgmt f).audCounter x = s.audCounter x := rfl
@[simp] theorem State.onMgmt_cuePort (s : State) (f : Mgmt → Mgmt) (x : Aud) : (s.onMgmt f).cuePort x = s.cuePort x := rfl
@[simp] theorem State.onMgmt_intake (s : State) (f : Mgmt → Mgmt) (x : Aud) : (s.onMgmt f).intake x = s.intake x := rfl
@[simp] theorem State.onMgmt_stream (s : State) (f : Mgmt → Mgmt) (x : StreamNo) : (s.onMgmt f).stream x = s.stream x := rfl
@[simp] theorem State.onMgmt_store (s : State) (f : Mgmt → Mgmt) (x : Aud) : (s.onMgmt f).store x = s.store x := rfl
@[simp] theorem State.onMgmt_link (s : State) (f : Mgmt → Mgmt) (x : Port) : (s.onMgmt f).link x = s.link x := rfl
@[simp] theorem State.onMgmt_linkCounter (s : State) (f : Mgmt → Mgmt) (x : Port) : (s.onMgmt f).linkCounter x = s.linkCounter x := rfl
@[simp] theorem State.onMgmt_rx (s : State) (f : Mgmt → Mgmt) (x : RxIndex) : (s.onMgmt f).rx x = s.rx x := rfl
@[simp] theorem State.onMgmt_runHigh (s : State) (f : Mgmt → Mgmt) (x : Aud) : (s.onMgmt f).runHigh x = s.runHigh x := rfl
@[simp] theorem State.onMgmt_rxHigh (s : State) (f : Mgmt → Mgmt) (x : Aud) : (s.onMgmt f).rxHigh x = s.rxHigh x := rfl

@[simp] theorem State.onMgmt_mgmt (s : State) (f : Mgmt → Mgmt) : (s.onMgmt f).mgmt = f s.mgmt := rfl

@[simp] theorem State.onFree_now (s : State) (f : Nat → Nat) : (s.onFree f).now = s.now := rfl
@[simp] theorem State.onFree_draws (s : State) (f : Nat → Nat) : (s.onFree f).draws = s.draws := rfl
@[simp] theorem State.onFree_runPins (s : State) (f : Nat → Nat) : (s.onFree f).runPins = s.runPins := rfl
@[simp] theorem State.onFree_rxPins (s : State) (f : Nat → Nat) : (s.onFree f).rxPins = s.rxPins := rfl
@[simp] theorem State.onFree_clocks (s : State) (f : Nat → Nat) : (s.onFree f).clocks = s.clocks := rfl
@[simp] theorem State.onFree_runs (s : State) (f : Nat → Nat) : (s.onFree f).runs = s.runs := rfl
@[simp] theorem State.onFree_sessions (s : State) (f : Nat → Nat) : (s.onFree f).sessions = s.sessions := rfl
@[simp] theorem State.onFree_audCounters (s : State) (f : Nat → Nat) : (s.onFree f).audCounters = s.audCounters := rfl
@[simp] theorem State.onFree_cuePorts (s : State) (f : Nat → Nat) : (s.onFree f).cuePorts = s.cuePorts := rfl
@[simp] theorem State.onFree_intakes (s : State) (f : Nat → Nat) : (s.onFree f).intakes = s.intakes := rfl
@[simp] theorem State.onFree_streams (s : State) (f : Nat → Nat) : (s.onFree f).streams = s.streams := rfl
@[simp] theorem State.onFree_stores (s : State) (f : Nat → Nat) : (s.onFree f).stores = s.stores := rfl
@[simp] theorem State.onFree_links (s : State) (f : Nat → Nat) : (s.onFree f).links = s.links := rfl
@[simp] theorem State.onFree_linkCounters (s : State) (f : Nat → Nat) : (s.onFree f).linkCounters = s.linkCounters := rfl
@[simp] theorem State.onFree_receivers (s : State) (f : Nat → Nat) : (s.onFree f).receivers = s.receivers := rfl
@[simp] theorem State.onFree_table (s : State) (f : Nat → Nat) : (s.onFree f).table = s.table := rfl
@[simp] theorem State.onFree_attention (s : State) (f : Nat → Nat) : (s.onFree f).attention = s.attention := rfl
@[simp] theorem State.onFree_mgmt (s : State) (f : Nat → Nat) : (s.onFree f).mgmt = s.mgmt := rfl
@[simp] theorem State.onFree_pending (s : State) (f : Nat → Nat) : (s.onFree f).pending = s.pending := rfl
@[simp] theorem State.onFree_clock (s : State) (f : Nat → Nat) (x : Aud) : (s.onFree f).clock x = s.clock x := rfl
@[simp] theorem State.onFree_showRun (s : State) (f : Nat → Nat) (x : Aud) : (s.onFree f).showRun x = s.showRun x := rfl
@[simp] theorem State.onFree_session (s : State) (f : Nat → Nat) (x : Aud) : (s.onFree f).session x = s.session x := rfl
@[simp] theorem State.onFree_audCounter (s : State) (f : Nat → Nat) (x : Aud) : (s.onFree f).audCounter x = s.audCounter x := rfl
@[simp] theorem State.onFree_cuePort (s : State) (f : Nat → Nat) (x : Aud) : (s.onFree f).cuePort x = s.cuePort x := rfl
@[simp] theorem State.onFree_intake (s : State) (f : Nat → Nat) (x : Aud) : (s.onFree f).intake x = s.intake x := rfl
@[simp] theorem State.onFree_stream (s : State) (f : Nat → Nat) (x : StreamNo) : (s.onFree f).stream x = s.stream x := rfl
@[simp] theorem State.onFree_store (s : State) (f : Nat → Nat) (x : Aud) : (s.onFree f).store x = s.store x := rfl
@[simp] theorem State.onFree_link (s : State) (f : Nat → Nat) (x : Port) : (s.onFree f).link x = s.link x := rfl
@[simp] theorem State.onFree_linkCounter (s : State) (f : Nat → Nat) (x : Port) : (s.onFree f).linkCounter x = s.linkCounter x := rfl
@[simp] theorem State.onFree_rx (s : State) (f : Nat → Nat) (x : RxIndex) : (s.onFree f).rx x = s.rx x := rfl
@[simp] theorem State.onFree_runHigh (s : State) (f : Nat → Nat) (x : Aud) : (s.onFree f).runHigh x = s.runHigh x := rfl
@[simp] theorem State.onFree_rxHigh (s : State) (f : Nat → Nat) (x : Aud) : (s.onFree f).rxHigh x = s.rxHigh x := rfl

@[simp] theorem State.onFree_freeCells (s : State) (f : Nat → Nat) : (s.onFree f).freeCells = f s.freeCells := rfl

@[simp] theorem State.onDraws_now (s : State) (f : Nat → Nat) : (s.onDraws f).now = s.now := rfl
@[simp] theorem State.onDraws_runPins (s : State) (f : Nat → Nat) : (s.onDraws f).runPins = s.runPins := rfl
@[simp] theorem State.onDraws_rxPins (s : State) (f : Nat → Nat) : (s.onDraws f).rxPins = s.rxPins := rfl
@[simp] theorem State.onDraws_clocks (s : State) (f : Nat → Nat) : (s.onDraws f).clocks = s.clocks := rfl
@[simp] theorem State.onDraws_runs (s : State) (f : Nat → Nat) : (s.onDraws f).runs = s.runs := rfl
@[simp] theorem State.onDraws_sessions (s : State) (f : Nat → Nat) : (s.onDraws f).sessions = s.sessions := rfl
@[simp] theorem State.onDraws_audCounters (s : State) (f : Nat → Nat) : (s.onDraws f).audCounters = s.audCounters := rfl
@[simp] theorem State.onDraws_cuePorts (s : State) (f : Nat → Nat) : (s.onDraws f).cuePorts = s.cuePorts := rfl
@[simp] theorem State.onDraws_intakes (s : State) (f : Nat → Nat) : (s.onDraws f).intakes = s.intakes := rfl
@[simp] theorem State.onDraws_streams (s : State) (f : Nat → Nat) : (s.onDraws f).streams = s.streams := rfl
@[simp] theorem State.onDraws_stores (s : State) (f : Nat → Nat) : (s.onDraws f).stores = s.stores := rfl
@[simp] theorem State.onDraws_freeCells (s : State) (f : Nat → Nat) : (s.onDraws f).freeCells = s.freeCells := rfl
@[simp] theorem State.onDraws_links (s : State) (f : Nat → Nat) : (s.onDraws f).links = s.links := rfl
@[simp] theorem State.onDraws_linkCounters (s : State) (f : Nat → Nat) : (s.onDraws f).linkCounters = s.linkCounters := rfl
@[simp] theorem State.onDraws_receivers (s : State) (f : Nat → Nat) : (s.onDraws f).receivers = s.receivers := rfl
@[simp] theorem State.onDraws_table (s : State) (f : Nat → Nat) : (s.onDraws f).table = s.table := rfl
@[simp] theorem State.onDraws_attention (s : State) (f : Nat → Nat) : (s.onDraws f).attention = s.attention := rfl
@[simp] theorem State.onDraws_mgmt (s : State) (f : Nat → Nat) : (s.onDraws f).mgmt = s.mgmt := rfl
@[simp] theorem State.onDraws_pending (s : State) (f : Nat → Nat) : (s.onDraws f).pending = s.pending := rfl
@[simp] theorem State.onDraws_clock (s : State) (f : Nat → Nat) (x : Aud) : (s.onDraws f).clock x = s.clock x := rfl
@[simp] theorem State.onDraws_showRun (s : State) (f : Nat → Nat) (x : Aud) : (s.onDraws f).showRun x = s.showRun x := rfl
@[simp] theorem State.onDraws_session (s : State) (f : Nat → Nat) (x : Aud) : (s.onDraws f).session x = s.session x := rfl
@[simp] theorem State.onDraws_audCounter (s : State) (f : Nat → Nat) (x : Aud) : (s.onDraws f).audCounter x = s.audCounter x := rfl
@[simp] theorem State.onDraws_cuePort (s : State) (f : Nat → Nat) (x : Aud) : (s.onDraws f).cuePort x = s.cuePort x := rfl
@[simp] theorem State.onDraws_intake (s : State) (f : Nat → Nat) (x : Aud) : (s.onDraws f).intake x = s.intake x := rfl
@[simp] theorem State.onDraws_stream (s : State) (f : Nat → Nat) (x : StreamNo) : (s.onDraws f).stream x = s.stream x := rfl
@[simp] theorem State.onDraws_store (s : State) (f : Nat → Nat) (x : Aud) : (s.onDraws f).store x = s.store x := rfl
@[simp] theorem State.onDraws_link (s : State) (f : Nat → Nat) (x : Port) : (s.onDraws f).link x = s.link x := rfl
@[simp] theorem State.onDraws_linkCounter (s : State) (f : Nat → Nat) (x : Port) : (s.onDraws f).linkCounter x = s.linkCounter x := rfl
@[simp] theorem State.onDraws_rx (s : State) (f : Nat → Nat) (x : RxIndex) : (s.onDraws f).rx x = s.rx x := rfl
@[simp] theorem State.onDraws_runHigh (s : State) (f : Nat → Nat) (x : Aud) : (s.onDraws f).runHigh x = s.runHigh x := rfl
@[simp] theorem State.onDraws_rxHigh (s : State) (f : Nat → Nat) (x : Aud) : (s.onDraws f).rxHigh x = s.rxHigh x := rfl

@[simp] theorem State.onDraws_draws (s : State) (f : Nat → Nat) : (s.onDraws f).draws = f s.draws := rfl

@[simp] theorem State.setRunPin_now (s : State) (a : Aud) (v : Bool) : (s.setRunPin a v).now = s.now := rfl
@[simp] theorem State.setRunPin_draws (s : State) (a : Aud) (v : Bool) : (s.setRunPin a v).draws = s.draws := rfl
@[simp] theorem State.setRunPin_rxPins (s : State) (a : Aud) (v : Bool) : (s.setRunPin a v).rxPins = s.rxPins := rfl
@[simp] theorem State.setRunPin_clocks (s : State) (a : Aud) (v : Bool) : (s.setRunPin a v).clocks = s.clocks := rfl
@[simp] theorem State.setRunPin_runs (s : State) (a : Aud) (v : Bool) : (s.setRunPin a v).runs = s.runs := rfl
@[simp] theorem State.setRunPin_sessions (s : State) (a : Aud) (v : Bool) : (s.setRunPin a v).sessions = s.sessions := rfl
@[simp] theorem State.setRunPin_audCounters (s : State) (a : Aud) (v : Bool) : (s.setRunPin a v).audCounters = s.audCounters := rfl
@[simp] theorem State.setRunPin_cuePorts (s : State) (a : Aud) (v : Bool) : (s.setRunPin a v).cuePorts = s.cuePorts := rfl
@[simp] theorem State.setRunPin_intakes (s : State) (a : Aud) (v : Bool) : (s.setRunPin a v).intakes = s.intakes := rfl
@[simp] theorem State.setRunPin_streams (s : State) (a : Aud) (v : Bool) : (s.setRunPin a v).streams = s.streams := rfl
@[simp] theorem State.setRunPin_stores (s : State) (a : Aud) (v : Bool) : (s.setRunPin a v).stores = s.stores := rfl
@[simp] theorem State.setRunPin_freeCells (s : State) (a : Aud) (v : Bool) : (s.setRunPin a v).freeCells = s.freeCells := rfl
@[simp] theorem State.setRunPin_links (s : State) (a : Aud) (v : Bool) : (s.setRunPin a v).links = s.links := rfl
@[simp] theorem State.setRunPin_linkCounters (s : State) (a : Aud) (v : Bool) : (s.setRunPin a v).linkCounters = s.linkCounters := rfl
@[simp] theorem State.setRunPin_receivers (s : State) (a : Aud) (v : Bool) : (s.setRunPin a v).receivers = s.receivers := rfl
@[simp] theorem State.setRunPin_table (s : State) (a : Aud) (v : Bool) : (s.setRunPin a v).table = s.table := rfl
@[simp] theorem State.setRunPin_attention (s : State) (a : Aud) (v : Bool) : (s.setRunPin a v).attention = s.attention := rfl
@[simp] theorem State.setRunPin_mgmt (s : State) (a : Aud) (v : Bool) : (s.setRunPin a v).mgmt = s.mgmt := rfl
@[simp] theorem State.setRunPin_pending (s : State) (a : Aud) (v : Bool) : (s.setRunPin a v).pending = s.pending := rfl
@[simp] theorem State.setRunPin_clock (s : State) (a : Aud) (v : Bool) (x : Aud) : (s.setRunPin a v).clock x = s.clock x := rfl
@[simp] theorem State.setRunPin_showRun (s : State) (a : Aud) (v : Bool) (x : Aud) : (s.setRunPin a v).showRun x = s.showRun x := rfl
@[simp] theorem State.setRunPin_session (s : State) (a : Aud) (v : Bool) (x : Aud) : (s.setRunPin a v).session x = s.session x := rfl
@[simp] theorem State.setRunPin_audCounter (s : State) (a : Aud) (v : Bool) (x : Aud) : (s.setRunPin a v).audCounter x = s.audCounter x := rfl
@[simp] theorem State.setRunPin_cuePort (s : State) (a : Aud) (v : Bool) (x : Aud) : (s.setRunPin a v).cuePort x = s.cuePort x := rfl
@[simp] theorem State.setRunPin_intake (s : State) (a : Aud) (v : Bool) (x : Aud) : (s.setRunPin a v).intake x = s.intake x := rfl
@[simp] theorem State.setRunPin_stream (s : State) (a : Aud) (v : Bool) (x : StreamNo) : (s.setRunPin a v).stream x = s.stream x := rfl
@[simp] theorem State.setRunPin_store (s : State) (a : Aud) (v : Bool) (x : Aud) : (s.setRunPin a v).store x = s.store x := rfl
@[simp] theorem State.setRunPin_link (s : State) (a : Aud) (v : Bool) (x : Port) : (s.setRunPin a v).link x = s.link x := rfl
@[simp] theorem State.setRunPin_linkCounter (s : State) (a : Aud) (v : Bool) (x : Port) : (s.setRunPin a v).linkCounter x = s.linkCounter x := rfl
@[simp] theorem State.setRunPin_rx (s : State) (a : Aud) (v : Bool) (x : RxIndex) : (s.setRunPin a v).rx x = s.rx x := rfl
@[simp] theorem State.setRunPin_rxHigh (s : State) (a : Aud) (v : Bool) (x : Aud) : (s.setRunPin a v).rxHigh x = s.rxHigh x := rfl

@[simp] theorem State.setRunPin_runHigh (s : State) (a : Aud) (v : Bool) (x : Aud) :
    (s.setRunPin a v).runHigh x = if a = x then v else s.runHigh x := pick_change _ _ _ _

@[simp] theorem State.setRxPin_now (s : State) (a : Aud) (v : Bool) : (s.setRxPin a v).now = s.now := rfl
@[simp] theorem State.setRxPin_draws (s : State) (a : Aud) (v : Bool) : (s.setRxPin a v).draws = s.draws := rfl
@[simp] theorem State.setRxPin_runPins (s : State) (a : Aud) (v : Bool) : (s.setRxPin a v).runPins = s.runPins := rfl
@[simp] theorem State.setRxPin_clocks (s : State) (a : Aud) (v : Bool) : (s.setRxPin a v).clocks = s.clocks := rfl
@[simp] theorem State.setRxPin_runs (s : State) (a : Aud) (v : Bool) : (s.setRxPin a v).runs = s.runs := rfl
@[simp] theorem State.setRxPin_sessions (s : State) (a : Aud) (v : Bool) : (s.setRxPin a v).sessions = s.sessions := rfl
@[simp] theorem State.setRxPin_audCounters (s : State) (a : Aud) (v : Bool) : (s.setRxPin a v).audCounters = s.audCounters := rfl
@[simp] theorem State.setRxPin_cuePorts (s : State) (a : Aud) (v : Bool) : (s.setRxPin a v).cuePorts = s.cuePorts := rfl
@[simp] theorem State.setRxPin_intakes (s : State) (a : Aud) (v : Bool) : (s.setRxPin a v).intakes = s.intakes := rfl
@[simp] theorem State.setRxPin_streams (s : State) (a : Aud) (v : Bool) : (s.setRxPin a v).streams = s.streams := rfl
@[simp] theorem State.setRxPin_stores (s : State) (a : Aud) (v : Bool) : (s.setRxPin a v).stores = s.stores := rfl
@[simp] theorem State.setRxPin_freeCells (s : State) (a : Aud) (v : Bool) : (s.setRxPin a v).freeCells = s.freeCells := rfl
@[simp] theorem State.setRxPin_links (s : State) (a : Aud) (v : Bool) : (s.setRxPin a v).links = s.links := rfl
@[simp] theorem State.setRxPin_linkCounters (s : State) (a : Aud) (v : Bool) : (s.setRxPin a v).linkCounters = s.linkCounters := rfl
@[simp] theorem State.setRxPin_receivers (s : State) (a : Aud) (v : Bool) : (s.setRxPin a v).receivers = s.receivers := rfl
@[simp] theorem State.setRxPin_table (s : State) (a : Aud) (v : Bool) : (s.setRxPin a v).table = s.table := rfl
@[simp] theorem State.setRxPin_attention (s : State) (a : Aud) (v : Bool) : (s.setRxPin a v).attention = s.attention := rfl
@[simp] theorem State.setRxPin_mgmt (s : State) (a : Aud) (v : Bool) : (s.setRxPin a v).mgmt = s.mgmt := rfl
@[simp] theorem State.setRxPin_pending (s : State) (a : Aud) (v : Bool) : (s.setRxPin a v).pending = s.pending := rfl
@[simp] theorem State.setRxPin_clock (s : State) (a : Aud) (v : Bool) (x : Aud) : (s.setRxPin a v).clock x = s.clock x := rfl
@[simp] theorem State.setRxPin_showRun (s : State) (a : Aud) (v : Bool) (x : Aud) : (s.setRxPin a v).showRun x = s.showRun x := rfl
@[simp] theorem State.setRxPin_session (s : State) (a : Aud) (v : Bool) (x : Aud) : (s.setRxPin a v).session x = s.session x := rfl
@[simp] theorem State.setRxPin_audCounter (s : State) (a : Aud) (v : Bool) (x : Aud) : (s.setRxPin a v).audCounter x = s.audCounter x := rfl
@[simp] theorem State.setRxPin_cuePort (s : State) (a : Aud) (v : Bool) (x : Aud) : (s.setRxPin a v).cuePort x = s.cuePort x := rfl
@[simp] theorem State.setRxPin_intake (s : State) (a : Aud) (v : Bool) (x : Aud) : (s.setRxPin a v).intake x = s.intake x := rfl
@[simp] theorem State.setRxPin_stream (s : State) (a : Aud) (v : Bool) (x : StreamNo) : (s.setRxPin a v).stream x = s.stream x := rfl
@[simp] theorem State.setRxPin_store (s : State) (a : Aud) (v : Bool) (x : Aud) : (s.setRxPin a v).store x = s.store x := rfl
@[simp] theorem State.setRxPin_link (s : State) (a : Aud) (v : Bool) (x : Port) : (s.setRxPin a v).link x = s.link x := rfl
@[simp] theorem State.setRxPin_linkCounter (s : State) (a : Aud) (v : Bool) (x : Port) : (s.setRxPin a v).linkCounter x = s.linkCounter x := rfl
@[simp] theorem State.setRxPin_rx (s : State) (a : Aud) (v : Bool) (x : RxIndex) : (s.setRxPin a v).rx x = s.rx x := rfl
@[simp] theorem State.setRxPin_runHigh (s : State) (a : Aud) (v : Bool) (x : Aud) : (s.setRxPin a v).runHigh x = s.runHigh x := rfl

@[simp] theorem State.setRxPin_rxHigh (s : State) (a : Aud) (v : Bool) (x : Aud) :
    (s.setRxPin a v).rxHigh x = if a = x then v else s.rxHigh x := pick_change _ _ _ _

end Sys2Proof.Machine
end

