-- ==== Sys2Proof/Laws/Flags.lean ====
section
/-! SUPPORT. One lemma for each field, and one for each reader, under the raising of an attention kind. -/

namespace Sys2Proof.Machine

@[simp] theorem State.raiseAud_now (s : State) (a : Aud) (k : Byte) : (s.raiseAud a k).now = s.now := rfl
@[simp] theorem State.raiseAud_draws (s : State) (a : Aud) (k : Byte) : (s.raiseAud a k).draws = s.draws := rfl
@[simp] theorem State.raiseAud_runPins (s : State) (a : Aud) (k : Byte) : (s.raiseAud a k).runPins = s.runPins := rfl
@[simp] theorem State.raiseAud_rxPins (s : State) (a : Aud) (k : Byte) : (s.raiseAud a k).rxPins = s.rxPins := rfl
@[simp] theorem State.raiseAud_clocks (s : State) (a : Aud) (k : Byte) : (s.raiseAud a k).clocks = s.clocks := rfl
@[simp] theorem State.raiseAud_runs (s : State) (a : Aud) (k : Byte) : (s.raiseAud a k).runs = s.runs := rfl
@[simp] theorem State.raiseAud_sessions (s : State) (a : Aud) (k : Byte) : (s.raiseAud a k).sessions = s.sessions := rfl
@[simp] theorem State.raiseAud_audCounters (s : State) (a : Aud) (k : Byte) : (s.raiseAud a k).audCounters = s.audCounters := rfl
@[simp] theorem State.raiseAud_cuePorts (s : State) (a : Aud) (k : Byte) : (s.raiseAud a k).cuePorts = s.cuePorts := rfl
@[simp] theorem State.raiseAud_intakes (s : State) (a : Aud) (k : Byte) : (s.raiseAud a k).intakes = s.intakes := rfl
@[simp] theorem State.raiseAud_streams (s : State) (a : Aud) (k : Byte) : (s.raiseAud a k).streams = s.streams := rfl
@[simp] theorem State.raiseAud_stores (s : State) (a : Aud) (k : Byte) : (s.raiseAud a k).stores = s.stores := rfl
@[simp] theorem State.raiseAud_freeCells (s : State) (a : Aud) (k : Byte) : (s.raiseAud a k).freeCells = s.freeCells := rfl
@[simp] theorem State.raiseAud_links (s : State) (a : Aud) (k : Byte) : (s.raiseAud a k).links = s.links := rfl
@[simp] theorem State.raiseAud_linkCounters (s : State) (a : Aud) (k : Byte) : (s.raiseAud a k).linkCounters = s.linkCounters := rfl
@[simp] theorem State.raiseAud_receivers (s : State) (a : Aud) (k : Byte) : (s.raiseAud a k).receivers = s.receivers := rfl
@[simp] theorem State.raiseAud_table (s : State) (a : Aud) (k : Byte) : (s.raiseAud a k).table = s.table := rfl
@[simp] theorem State.raiseAud_mgmt (s : State) (a : Aud) (k : Byte) : (s.raiseAud a k).mgmt = s.mgmt := rfl
@[simp] theorem State.raiseAud_pending (s : State) (a : Aud) (k : Byte) : (s.raiseAud a k).pending = s.pending := rfl
@[simp] theorem State.raiseAud_clock (s : State) (a : Aud) (k : Byte) (x : Aud) : (s.raiseAud a k).clock x = s.clock x := rfl
@[simp] theorem State.raiseAud_showRun (s : State) (a : Aud) (k : Byte) (x : Aud) : (s.raiseAud a k).showRun x = s.showRun x := rfl
@[simp] theorem State.raiseAud_session (s : State) (a : Aud) (k : Byte) (x : Aud) : (s.raiseAud a k).session x = s.session x := rfl
@[simp] theorem State.raiseAud_audCounter (s : State) (a : Aud) (k : Byte) (x : Aud) : (s.raiseAud a k).audCounter x = s.audCounter x := rfl
@[simp] theorem State.raiseAud_cuePort (s : State) (a : Aud) (k : Byte) (x : Aud) : (s.raiseAud a k).cuePort x = s.cuePort x := rfl
@[simp] theorem State.raiseAud_intake (s : State) (a : Aud) (k : Byte) (x : Aud) : (s.raiseAud a k).intake x = s.intake x := rfl
@[simp] theorem State.raiseAud_stream (s : State) (a : Aud) (k : Byte) (x : StreamNo) : (s.raiseAud a k).stream x = s.stream x := rfl
@[simp] theorem State.raiseAud_store (s : State) (a : Aud) (k : Byte) (x : Aud) : (s.raiseAud a k).store x = s.store x := rfl
@[simp] theorem State.raiseAud_link (s : State) (a : Aud) (k : Byte) (x : Port) : (s.raiseAud a k).link x = s.link x := rfl
@[simp] theorem State.raiseAud_linkCounter (s : State) (a : Aud) (k : Byte) (x : Port) : (s.raiseAud a k).linkCounter x = s.linkCounter x := rfl
@[simp] theorem State.raiseAud_rx (s : State) (a : Aud) (k : Byte) (x : RxIndex) : (s.raiseAud a k).rx x = s.rx x := rfl
@[simp] theorem State.raiseAud_runHigh (s : State) (a : Aud) (k : Byte) (x : Aud) : (s.raiseAud a k).runHigh x = s.runHigh x := rfl
@[simp] theorem State.raiseAud_rxHigh (s : State) (a : Aud) (k : Byte) (x : Aud) : (s.raiseAud a k).rxHigh x = s.rxHigh x := rfl

@[simp] theorem State.raiseLink_now (s : State) (p : Port) (k : Byte) : (s.raiseLink p k).now = s.now := rfl
@[simp] theorem State.raiseLink_draws (s : State) (p : Port) (k : Byte) : (s.raiseLink p k).draws = s.draws := rfl
@[simp] theorem State.raiseLink_runPins (s : State) (p : Port) (k : Byte) : (s.raiseLink p k).runPins = s.runPins := rfl
@[simp] theorem State.raiseLink_rxPins (s : State) (p : Port) (k : Byte) : (s.raiseLink p k).rxPins = s.rxPins := rfl
@[simp] theorem State.raiseLink_clocks (s : State) (p : Port) (k : Byte) : (s.raiseLink p k).clocks = s.clocks := rfl
@[simp] theorem State.raiseLink_runs (s : State) (p : Port) (k : Byte) : (s.raiseLink p k).runs = s.runs := rfl
@[simp] theorem State.raiseLink_sessions (s : State) (p : Port) (k : Byte) : (s.raiseLink p k).sessions = s.sessions := rfl
@[simp] theorem State.raiseLink_audCounters (s : State) (p : Port) (k : Byte) : (s.raiseLink p k).audCounters = s.audCounters := rfl
@[simp] theorem State.raiseLink_cuePorts (s : State) (p : Port) (k : Byte) : (s.raiseLink p k).cuePorts = s.cuePorts := rfl
@[simp] theorem State.raiseLink_intakes (s : State) (p : Port) (k : Byte) : (s.raiseLink p k).intakes = s.intakes := rfl
@[simp] theorem State.raiseLink_streams (s : State) (p : Port) (k : Byte) : (s.raiseLink p k).streams = s.streams := rfl
@[simp] theorem State.raiseLink_stores (s : State) (p : Port) (k : Byte) : (s.raiseLink p k).stores = s.stores := rfl
@[simp] theorem State.raiseLink_freeCells (s : State) (p : Port) (k : Byte) : (s.raiseLink p k).freeCells = s.freeCells := rfl
@[simp] theorem State.raiseLink_links (s : State) (p : Port) (k : Byte) : (s.raiseLink p k).links = s.links := rfl
@[simp] theorem State.raiseLink_linkCounters (s : State) (p : Port) (k : Byte) : (s.raiseLink p k).linkCounters = s.linkCounters := rfl
@[simp] theorem State.raiseLink_receivers (s : State) (p : Port) (k : Byte) : (s.raiseLink p k).receivers = s.receivers := rfl
@[simp] theorem State.raiseLink_table (s : State) (p : Port) (k : Byte) : (s.raiseLink p k).table = s.table := rfl
@[simp] theorem State.raiseLink_mgmt (s : State) (p : Port) (k : Byte) : (s.raiseLink p k).mgmt = s.mgmt := rfl
@[simp] theorem State.raiseLink_pending (s : State) (p : Port) (k : Byte) : (s.raiseLink p k).pending = s.pending := rfl
@[simp] theorem State.raiseLink_clock (s : State) (p : Port) (k : Byte) (x : Aud) : (s.raiseLink p k).clock x = s.clock x := rfl
@[simp] theorem State.raiseLink_showRun (s : State) (p : Port) (k : Byte) (x : Aud) : (s.raiseLink p k).showRun x = s.showRun x := rfl
@[simp] theorem State.raiseLink_session (s : State) (p : Port) (k : Byte) (x : Aud) : (s.raiseLink p k).session x = s.session x := rfl
@[simp] theorem State.raiseLink_audCounter (s : State) (p : Port) (k : Byte) (x : Aud) : (s.raiseLink p k).audCounter x = s.audCounter x := rfl
@[simp] theorem State.raiseLink_cuePort (s : State) (p : Port) (k : Byte) (x : Aud) : (s.raiseLink p k).cuePort x = s.cuePort x := rfl
@[simp] theorem State.raiseLink_intake (s : State) (p : Port) (k : Byte) (x : Aud) : (s.raiseLink p k).intake x = s.intake x := rfl
@[simp] theorem State.raiseLink_stream (s : State) (p : Port) (k : Byte) (x : StreamNo) : (s.raiseLink p k).stream x = s.stream x := rfl
@[simp] theorem State.raiseLink_store (s : State) (p : Port) (k : Byte) (x : Aud) : (s.raiseLink p k).store x = s.store x := rfl
@[simp] theorem State.raiseLink_link (s : State) (p : Port) (k : Byte) (x : Port) : (s.raiseLink p k).link x = s.link x := rfl
@[simp] theorem State.raiseLink_linkCounter (s : State) (p : Port) (k : Byte) (x : Port) : (s.raiseLink p k).linkCounter x = s.linkCounter x := rfl
@[simp] theorem State.raiseLink_rx (s : State) (p : Port) (k : Byte) (x : RxIndex) : (s.raiseLink p k).rx x = s.rx x := rfl
@[simp] theorem State.raiseLink_runHigh (s : State) (p : Port) (k : Byte) (x : Aud) : (s.raiseLink p k).runHigh x = s.runHigh x := rfl
@[simp] theorem State.raiseLink_rxHigh (s : State) (p : Port) (k : Byte) (x : Aud) : (s.raiseLink p k).rxHigh x = s.rxHigh x := rfl

@[simp] theorem State.raiseTable_now (s : State) (k : Byte) : (s.raiseTable k).now = s.now := rfl
@[simp] theorem State.raiseTable_draws (s : State) (k : Byte) : (s.raiseTable k).draws = s.draws := rfl
@[simp] theorem State.raiseTable_runPins (s : State) (k : Byte) : (s.raiseTable k).runPins = s.runPins := rfl
@[simp] theorem State.raiseTable_rxPins (s : State) (k : Byte) : (s.raiseTable k).rxPins = s.rxPins := rfl
@[simp] theorem State.raiseTable_clocks (s : State) (k : Byte) : (s.raiseTable k).clocks = s.clocks := rfl
@[simp] theorem State.raiseTable_runs (s : State) (k : Byte) : (s.raiseTable k).runs = s.runs := rfl
@[simp] theorem State.raiseTable_sessions (s : State) (k : Byte) : (s.raiseTable k).sessions = s.sessions := rfl
@[simp] theorem State.raiseTable_audCounters (s : State) (k : Byte) : (s.raiseTable k).audCounters = s.audCounters := rfl
@[simp] theorem State.raiseTable_cuePorts (s : State) (k : Byte) : (s.raiseTable k).cuePorts = s.cuePorts := rfl
@[simp] theorem State.raiseTable_intakes (s : State) (k : Byte) : (s.raiseTable k).intakes = s.intakes := rfl
@[simp] theorem State.raiseTable_streams (s : State) (k : Byte) : (s.raiseTable k).streams = s.streams := rfl
@[simp] theorem State.raiseTable_stores (s : State) (k : Byte) : (s.raiseTable k).stores = s.stores := rfl
@[simp] theorem State.raiseTable_freeCells (s : State) (k : Byte) : (s.raiseTable k).freeCells = s.freeCells := rfl
@[simp] theorem State.raiseTable_links (s : State) (k : Byte) : (s.raiseTable k).links = s.links := rfl
@[simp] theorem State.raiseTable_linkCounters (s : State) (k : Byte) : (s.raiseTable k).linkCounters = s.linkCounters := rfl
@[simp] theorem State.raiseTable_receivers (s : State) (k : Byte) : (s.raiseTable k).receivers = s.receivers := rfl
@[simp] theorem State.raiseTable_table (s : State) (k : Byte) : (s.raiseTable k).table = s.table := rfl
@[simp] theorem State.raiseTable_mgmt (s : State) (k : Byte) : (s.raiseTable k).mgmt = s.mgmt := rfl
@[simp] theorem State.raiseTable_pending (s : State) (k : Byte) : (s.raiseTable k).pending = s.pending := rfl
@[simp] theorem State.raiseTable_clock (s : State) (k : Byte) (x : Aud) : (s.raiseTable k).clock x = s.clock x := rfl
@[simp] theorem State.raiseTable_showRun (s : State) (k : Byte) (x : Aud) : (s.raiseTable k).showRun x = s.showRun x := rfl
@[simp] theorem State.raiseTable_session (s : State) (k : Byte) (x : Aud) : (s.raiseTable k).session x = s.session x := rfl
@[simp] theorem State.raiseTable_audCounter (s : State) (k : Byte) (x : Aud) : (s.raiseTable k).audCounter x = s.audCounter x := rfl
@[simp] theorem State.raiseTable_cuePort (s : State) (k : Byte) (x : Aud) : (s.raiseTable k).cuePort x = s.cuePort x := rfl
@[simp] theorem State.raiseTable_intake (s : State) (k : Byte) (x : Aud) : (s.raiseTable k).intake x = s.intake x := rfl
@[simp] theorem State.raiseTable_stream (s : State) (k : Byte) (x : StreamNo) : (s.raiseTable k).stream x = s.stream x := rfl
@[simp] theorem State.raiseTable_store (s : State) (k : Byte) (x : Aud) : (s.raiseTable k).store x = s.store x := rfl
@[simp] theorem State.raiseTable_link (s : State) (k : Byte) (x : Port) : (s.raiseTable k).link x = s.link x := rfl
@[simp] theorem State.raiseTable_linkCounter (s : State) (k : Byte) (x : Port) : (s.raiseTable k).linkCounter x = s.linkCounter x := rfl
@[simp] theorem State.raiseTable_rx (s : State) (k : Byte) (x : RxIndex) : (s.raiseTable k).rx x = s.rx x := rfl
@[simp] theorem State.raiseTable_runHigh (s : State) (k : Byte) (x : Aud) : (s.raiseTable k).runHigh x = s.runHigh x := rfl
@[simp] theorem State.raiseTable_rxHigh (s : State) (k : Byte) (x : Aud) : (s.raiseTable k).rxHigh x = s.rxHigh x := rfl

end Sys2Proof.Machine
end

