-- ==== Sys2Proof/Laws/Work.lean ====
section
/-! SUPPORT. All that the part's background work can do to the state, said once: release, purges, fills and the ends of work are
sequences of the small changes of `Nudge`. What a nudge keeps, all of them keep. -/

namespace Sys2Proof.Machine

/-- Two cues that differ only in what release and purges write: the life, the cursor, the due record, the resend mark, the body
list. -/
def Cue.sameCue (c d : Cue) : Prop :=
  c.stream = d.stream ∧ c.seq = d.seq ∧ c.kind = d.kind ∧ c.start = d.start ∧ c.length = d.length

/-- One small change of background work. `σ` names the auditorium, if any, whose position has changed, so that it may be found saturated: any
other show ends only under its ending mark (R36, R37). -/
inductive Nudge (σ : Option Aud) : State → State → Prop
  | stream (s : State) (n : StreamNo) (f : Stream → Stream)
      (h : ∀ x, (f x).queue = x.queue ∧ (f x).kind = x.kind ∧ (f x).language = x.language ∧ (f x).lead = x.lead ∧
        (f x).degraded = x.degraded) : Nudge σ s (s.onStream n f)
  | cue (s : State) (n : StreamNo) (x : Seq) (f : Cue → Cue) (h : ∀ c, (f c).sameCue c) : Nudge σ s (s.onCue n x f)
  | drop (s : State) (n : StreamNo) (x : Seq) :
      Nudge σ s (s.onStream n (fun st => { st with queue := dropCue x st.queue }))
  | walk (s : State) (a : Aud) (c : Cue) (w v : Walk) (h : (s.intake a).context = .inserting c w) :
      Nudge σ s (s.onIntake a (fun i => { i with context := .inserting c v }))
  | letGo (s : State) (a : Aud) (x : Context) (h : x.cue = none) (hs : (s.intake a).context.cue ≠ none) :
      Nudge σ s (s.onIntake a (fun i => { i with context := x }))
  | counters (s : State) (a : Aud) (f : AudCounters → AudCounters) (h : ∀ c, (f c).own = c.own) : Nudge σ s (s.onCounters a f)
  | linkCounters (s : State) (p : Port) (f : LinkCounters → LinkCounters) (h : ∀ c, (f c).own = c.own) :
      Nudge σ s (s.onLinkCounters p f)
  | store (s : State) (a : Aud) (f : Store → Store) (h : ∀ x, (f x).quota = x.quota ∧ (f x).used = x.used) :
      Nudge σ s (s.onStore a f)
  | ended (s : State) (a : Aud) (h : (s.session a).state.isActive = true)
      (hc : (s.session a).ending = true ∨ σ = some a ∧ s.position a = Config.maxPosition) :
      Nudge σ s (((s.onRun a (fun r => r.atEnd (s.captureHold a))).onSession a (fun x => { x with state := .ended })).raiseAud a kindEnded)
  | fill (s : State) (p : Port) (b : BufNo) (f : Frame) (ends : Nat) (h : (s.link p).state = .serving)
      (he : pick (s.link p).buffers b = .empty) : Nudge σ s (s.onLink p (fun l => l.setBuffer b (.filling f ends)))
  | beacon (s : State) (p : Port) : Nudge σ s (s.onLink p (fun l => { l with beaconOwed := false }))
  | draws (s : State) (f : Nat → Nat) : Nudge σ s (s.onDraws f)
  | reply (s : State) (a : Aud) (r : Reply) : Nudge σ s (s.placeReply a r)
  | finish (s : State) (w : Work) : Nudge σ s (s.finishWork w)

/-- `t` comes from `s` by a sequence of small changes. -/
inductive Worked (σ : Option Aud) (s : State) : State → Prop
  | refl : Worked σ s s
  | step {t u : State} (h : Worked σ s t) (hn : Nudge σ t u) : Worked σ s u

theorem Worked.trans {σ : Option Aud} {s t u : State} (h : Worked σ s t) (k : Worked σ t u) : Worked σ s u := by
  induction k with
  | refl => exact h
  | step _ hn ih => exact .step ih hn

/-- What every nudge keeps, background work keeps. -/
theorem Worked.keeps {σ : Option Aud} {β : Type} {P : State → β} (hP : ∀ s t, Nudge σ s t → P t = P s) {s t : State} (h : Worked σ s t) :
    P t = P s := by
  induction h with
  | refl => rfl
  | step _ hn ih => rw [hP _ _ hn, ih]

/-- A property that every nudge carries over, background work carries over. -/
theorem Worked.carries {σ : Option Aud} {P : State → Prop} (hP : ∀ s t, Nudge σ s t → P s → P t) {s t : State} (h : Worked σ s t) (hs : P s) :
    P t := by
  induction h with
  | refl => exact hs
  | step _ hn ih => exact hP _ _ hn ih

/-- A fold of background work is background work. -/
theorem Worked.foldl {σ : Option Aud} {α : Type} {s : State} {f : State → α → State} (hf : ∀ t x, Worked σ s t → Worked σ s (f t x)) (l : List α) :
    ∀ t, Worked σ s t → Worked σ s (l.foldl f t) := by
  induction l with
  | nil => exact fun t h => h
  | cons x l ih => exact fun t h => ih _ (hf t x h)

variable {σ : Option Aud} {s t : State}

/-! ### `Store.lean` -/

theorem Worked.stream (h : Worked σ s t) (n : StreamNo) (f : Stream → Stream)
    (hf : ∀ x, (f x).queue = x.queue ∧ (f x).kind = x.kind ∧ (f x).language = x.language ∧ (f x).lead = x.lead ∧
        (f x).degraded = x.degraded) : Worked σ s (t.onStream n f) := .step h (.stream _ _ _ hf)

theorem Worked.cue (h : Worked σ s t) (n : StreamNo) (x : Seq) (f : Cue → Cue) (hf : ∀ c, (f c).sameCue c) :
    Worked σ s (t.onCue n x f) := .step h (.cue _ _ _ _ hf)

theorem Worked.counters (h : Worked σ s t) (a : Aud) (f : AudCounters → AudCounters)
    (hf : ∀ c, (f c).own = c.own := by intro; rfl) : Worked σ s (t.onCounters a f) := .step h (.counters _ _ _ hf)

theorem Worked.store (h : Worked σ s t) (a : Aud) (f : Store → Store) (hf : ∀ x, (f x).quota = x.quota ∧ (f x).used = x.used) :
    Worked σ s (t.onStore a f) := .step h (.store _ _ _ hf)

theorem Worked.oweClear (h : Worked σ s t) (n : StreamNo) : Worked σ s (t.oweClear n) := by
  unfold State.oweClear
  simp only
  split
  · exact h
  · exact h.stream _ _ (by intro; exact ⟨rfl, rfl, rfl, rfl, rfl⟩)

theorem Worked.oweClearIfCaption (h : Worked σ s t) (n : StreamNo) : Worked σ s (t.oweClearIfCaption n) := by
  unfold State.oweClearIfCaption
  split
  · exact h.oweClear _
  · exact h

theorem Worked.oweClears (h : Worked σ s t) (a : Aud) : Worked σ s (t.oweClears a) :=
  Worked.foldl (fun _ _ k => k.oweClearIfCaption _) _ _ h

/-- Owing clears takes no part in attention. -/
theorem oweClears_raiseAud (s : State) (a b : Aud) (k : Byte) : (s.raiseAud b k).oweClears a = (s.oweClears a).raiseAud b k := by
  have one (u : State) (n : StreamNo) : (u.raiseAud b k).oweClearIfCaption n = (u.oweClearIfCaption n).raiseAud b k := by
    have e1 : (u.raiseAud b k).stream n = u.stream n := rfl
    have e2 : (u.raiseAud b k).carriers n = u.carriers n := rfl
    unfold State.oweClearIfCaption State.oweClear
    simp only [e1, e2]
    by_cases h : ((u.stream n).isOpen && (u.stream n).kind == .caption) = true
    · rw [if_pos h, if_pos h]
      by_cases h' : ((u.carriers n).filter (fun p => !(u.stream n).clearOwed.contains p)).isEmpty = true
      · rw [if_pos h', if_pos h']
      · rw [if_neg h', if_neg h']; rfl
    · rw [if_neg h, if_neg h]
  unfold State.oweClears
  generalize slots = l
  induction l generalizing s with
  | nil => rfl
  | cons x l ih => simp only [List.foldl_cons]; rw [one, ih]

theorem Worked.enterEnded (h : Worked σ s t) (a : Aud) (ha : (t.session a).state.isActive = true)
    (hc : (t.session a).ending = true ∨ σ = some a ∧ t.position a = Config.maxPosition) : Worked σ s (t.enterEnded a) := by
  show Worked σ s (State.raiseAud (State.oweClears _ a) a kindEnded)
  rw [← oweClears_raiseAud]
  exact Worked.oweClears (.step h (.ended t a ha hc)) _

theorem Worked.endTest (h : Worked σ s t) (a : Aud) : Worked σ s (t.endTest a) := by
  unfold State.endTest
  split
  · next hc =>
    simp only [Bool.and_eq_true] at hc
    exact h.enterEnded a hc.1.1.2 (.inl hc.1.1.1)
  · exact h

theorem Worked.requestFree (h : Worked σ s t) (a : Aud) (k : Nat) (g : FreeTag) : Worked σ s (t.requestFree a k g) :=
  h.store _ _ (by intro; exact ⟨rfl, rfl⟩)

theorem Worked.catchUpWalk (h : Worked σ s t) (a : Aud) (n : StreamNo) : Worked σ s (t.catchUpWalk a n) := by
  unfold State.catchUpWalk
  split
  · next c w hc =>
    split
    · exact .step h (.walk _ _ c w _ hc)
    · exact h
  · exact h

theorem Worked.leaveQueue (h : Worked σ s t) (n : StreamNo) (x : Seq) : Worked σ s (t.leaveQueue n x) :=
  .step (h.catchUpWalk _ n) (.drop _ _ _)

theorem Worked.freeCue (h : Worked σ s t) (n : StreamNo) (c : Cue) (g : FreeTag) : Worked σ s (t.freeCue n c g) :=
  ((h.leaveQueue n c.seq).requestFree _ _ _).endTest _

theorem Worked.chargePorts (h : Worked σ s t) (l : List Port) : Worked σ s (t.chargePorts l) :=
  Worked.foldl (fun _ _ k => .step k (.linkCounters _ _ _ (by intro; rfl))) _ _ h

theorem Worked.expireCue (h : Worked σ s t) (n : StreamNo) (c : Cue) : Worked σ s (t.expireCue n c) :=
  ((h.counters _ _).chargePorts _).freeCue _ _ _

/-! ### `Release.lean` -/

theorem Worked.takeNumber (h : Worked σ s t) (n : StreamNo) : Worked σ s (t.takeNumber n) :=
  h.stream _ _ (by intro; exact ⟨rfl, rfl, rfl, rfl, rfl⟩)

theorem Worked.captionFallsDue (h : Worked σ s t) (n : StreamNo) (x : Seq) : Worked σ s (t.captionFallsDue n x) := by
  unfold State.captionFallsDue
  simp only
  split
  · refine Worked.counters (Worked.takeNumber (Worked.cue h _ _ _ ?_) _) _ _
    intro; exact ⟨rfl, rfl, rfl, rfl, rfl⟩
  · refine Worked.takeNumber (Worked.cue h _ _ _ ?_) _
    intro; exact ⟨rfl, rfl, rfl, rfl, rfl⟩

theorem Worked.reRelease (h : Worked σ s t) (n : StreamNo) (x : Seq) : Worked σ s (t.reRelease n x) := by
  unfold State.reRelease
  simp only
  split
  · exact h
  · refine Worked.counters (Worked.takeNumber (Worked.cue h _ _ _ ?_) _) _ _
    intro; exact ⟨rfl, rfl, rfl, rfl, rfl⟩

theorem Worked.finishBlock (h : Worked σ s t) (n : StreamNo) (c : Cue) (b : Bool) : Worked σ s (t.finishBlock n c b) := by
  have hs : Worked σ s (if b then t.onCounters (audOfStream n) (fun k => { k with skip := bump k.skip }) else t) := by
    split
    · exact h.counters _ _
    · exact h
  unfold State.finishBlock
  simp only
  generalize (if b then t.onCounters (audOfStream n) (fun k => { k with skip := bump k.skip }) else t) = u at hs ⊢
  have hc : Worked σ s (u.onCue n c.seq Cue.finishBlock) := hs.cue _ _ _ (by intro; exact ⟨rfl, rfl, rfl, rfl, rfl⟩)
  split
  · exact hs.freeCue _ _ _
  · split
    · exact hc.requestFree _ _ _
    · exact hc

theorem Worked.lookAtBlocks (n : StreamNo) (x : Seq) (k : Nat) : ∀ {t}, Worked σ s t → Worked σ s (State.lookAtBlocks n x k t) := by
  induction k with
  | zero => exact fun h => h
  | succ k ih =>
    intro t h
    simp only [State.lookAtBlocks]
    split
    · exact h
    · split
      · exact h
      · split
        · have hp : Worked σ s (t.onCue n x (fun y => { y with life := .playing })) :=
            h.cue _ _ _ (by intro; exact ⟨rfl, rfl, rfl, rfl, rfl⟩)
          generalize t.onCue n x (fun y => { y with life := .playing }) = u at hp ⊢
          split
          · exact ih (hp.finishBlock _ _ _)
          · split
            · exact ih (((hp.takeNumber _).counters _ _).finishBlock _ _ _)
            · refine Worked.takeNumber (Worked.cue hp _ _ _ ?_) _
              intro; exact ⟨rfl, rfl, rfl, rfl, rfl⟩
        · exact h

theorem Worked.releaseCue (h : Worked σ s t) (st : Option Nat) (n : StreamNo) (x : Seq) :
    Worked σ s (State.releaseCue st n t x) := by
  unfold State.releaseCue
  split
  · exact h
  · simp only
    split
    · split
      · split
        · exact h.expireCue _ _
        · exact h.captionFallsDue _ _
      · exact h
    · split
      · split
        · exact h.reRelease _ _
        · exact h
      · exact h
    · exact Worked.lookAtBlocks _ _ _ h
    · exact h

theorem Worked.staleCue (h : Worked σ s t) (p : Nat) (n : StreamNo) (x : Seq) : Worked σ s (State.staleCue p n t x) := by
  unfold State.staleCue
  split
  · split
    · exact h.reRelease _ _
    · exact h
  · exact h

theorem Worked.endCue (h : Worked σ s t) (n : StreamNo) (x : Seq) : Worked σ s (State.endCue n t x) := by
  unfold State.endCue
  split
  · exact h
  · simp only
    split
    · split
      · exact h.freeCue _ _ _
      · exact h
    · split
      · exact h.expireCue _ _
      · exact h
    · split
      · split
        · exact Worked.lookAtBlocks _ _ _ ((h.chargePorts _).finishBlock _ _ _)
        · exact h
      · exact h
    · exact h

theorem Worked.eachCue (h : Worked σ s t) (n : StreamNo) (f : StreamNo → State → Seq → State)
    (hf : ∀ t x, Worked σ s t → Worked σ s (f n t x)) : Worked σ s (t.eachCue n f) := Worked.foldl hf _ _ h

theorem Worked.eachCueOf (h : Worked σ s t) (a : Aud) (f : StreamNo → State → Seq → State)
    (hf : ∀ n t x, Worked σ s t → Worked σ s (f n t x)) : Worked σ s (t.eachCueOf a f) :=
  Worked.foldl (fun _ _ k => k.eachCue _ _ (hf _)) _ _ h

theorem Worked.release (h : Worked σ s t) (a : Aud) (st : Option Nat) : Worked σ s (t.release a st) := by
  unfold State.release
  split
  · exact h.eachCueOf _ _ (fun _ _ _ k => k.releaseCue _ _ _)
  · exact h

theorem Worked.endByPosition (h : Worked σ s t) (a : Aud) : Worked σ s (t.endByPosition a) :=
  h.eachCueOf _ _ (fun _ _ _ k => k.endCue _ _)

theorem Worked.handStale (h : Worked σ s t) (a : Aud) (p : Nat) : Worked σ s (t.handStale a p) := by
  unfold State.handStale
  split
  · exact h.eachCueOf _ _ (fun _ _ _ k => k.staleCue _ _ _)
  · exact h.store _ _ (by intro; exact ⟨rfl, rfl⟩)

theorem Worked.settleDue (h : Worked σ s t) (p : Port) (b : Bool) (n : StreamNo) (x : Seq) :
    Worked σ s (t.settleDue p b n x) := by
  unfold State.settleDue
  split
  · exact h
  · split
    · exact h
    · split
      · simp only
        split
        · split
          · exact h.cue _ _ _ (by intro; exact ⟨rfl, rfl, rfl, rfl, rfl⟩)
          · exact Worked.lookAtBlocks _ _ _ (h.finishBlock _ _ _)
        · exact h.cue _ _ _ (by intro; exact ⟨rfl, rfl, rfl, rfl, rfl⟩)
      · exact h

theorem Worked.portOwesNothing (h : Worked σ s t) (p : Port) : Worked σ s (t.portOwesNothing p) := by
  unfold State.portOwesNothing
  refine Worked.foldl (fun t n k => ?_) _ _ h
  refine Worked.eachCue (k.stream _ _ ?_) _ _ (fun _ _ k => ?_)
  · intro; exact ⟨rfl, rfl, rfl, rfl, rfl⟩
  · exact k.settleDue _ _ _ _

/-! ### `Arbiter.lean` -/

theorem emptyBuffer_empty {l : LinkPort} {b : BufNo} (h : l.emptyBuffer = some b) : pick l.buffers b = .empty := by
  have := List.find?_some h
  simpa using this

theorem Worked.startFill (h : Worked σ s t) (p : Port) (b : BufNo) (f : Frame) (hs : (t.link p).state = .serving)
    (hb : (t.link p).emptyBuffer = some b) : Worked σ s (t.startFill p b f) :=
  .step h (.fill _ _ _ _ _ hs (emptyBuffer_empty hb))

theorem Worked.fill (h : Worked σ s t) (p : Port) (hs : (t.link p).state = .serving) : Worked σ s (t.fill p) := by
  unfold State.fill
  split
  · next b hb _ => exact .step (h.startFill _ _ _ hs hb) (.beacon _ _)
  · next b n hb _ => exact (h.startFill _ _ _ hs hb).stream _ _ (by intro; exact ⟨rfl, rfl, rfl, rfl, rfl⟩)
  · next b n x hb _ =>
    split
    · exact h
    · split
      · exact h
      · simp only
        refine Worked.settleDue ?_ _ _ _ _
        split
        · exact (h.startFill _ _ _ hs hb).counters _ _
        · exact h.startFill _ _ _ hs hb
  · exact h

/-- A free order of things holds the same things. -/
theorem anyOrder_perm {α : Type} : ∀ (l : List α) (k : Nat), (anyOrder k l).Perm l
  | [], _ => .nil
  | [_], _ => .refl _
  | x :: y :: rest, k => by
    have ih := anyOrder_perm (y :: rest) (k + 1)
    simp only [anyOrder]
    refine (List.perm_insertIdx x _ ?_).trans (ih.cons x)
    exact Nat.le_of_lt_succ (Nat.mod_lt _ (Nat.succ_pos _))

theorem anyOne_mem {α : Type} {k : Nat} {l : List α} {x : α} (h : anyOne k l = some x) : x ∈ l :=
  (anyOrder_perm l k).mem_iff.mp (List.mem_of_mem_head? h)

theorem mayFill_serving {s : State} {p : Port} (h : s.mayFill p = true) : (s.link p).state = .serving := by
  simp only [State.mayFill, Bool.and_eq_true, beq_iff_eq] at h
  exact h.1.1.1

theorem Worked.settleFillsFuel (k : Nat) : ∀ {t}, Worked σ s t → Worked σ s (State.settleFillsFuel k t) := by
  induction k with
  | zero => exact fun h => h
  | succ k ih =>
    intro t h
    simp only [State.settleFillsFuel]
    split
    · exact h
    · next p hp =>
      have hm := anyOne_mem hp
      rw [List.mem_filter] at hm
      exact ih (Worked.fill (.step h (.draws _ _)) _ (by simpa using mayFill_serving hm.2))

theorem Worked.settleFills (h : Worked σ s t) : Worked σ s t.settleFills := Worked.settleFillsFuel _ h

/-- With no port that may begin a fill, settling begins none. -/
theorem settleFills_none (s : State) (h : ∀ p, s.mayFill p = false) : s.settleFills = s := by
  have : ports.filter s.mayFill = [] := List.filter_eq_nil_iff.mpr (fun p _ => by simp [h p])
  simp [State.settleFills, State.settleFillsFuel, this, anyOne, anyOrder]

/-- A busy port may begin no fill. -/
theorem mayFill_busy {s : State} {p : Port} (h : s.portBusy p) : s.mayFill p = false := by
  by_cases k : (s.link p).state = .serving
  · obtain ⟨b, f, e, hb⟩ | he := h k
    · have : (s.link p).fillingBuffer ≠ none := fun hn =>
        List.find?_eq_none.mp hn b (List.mem_finRange b) (by simp [hb, Buffer.isFilling])
      simp [State.mayFill, this]
    · have : (s.link p).emptyBuffer = none := List.find?_eq_none.mpr (fun b _ => by simp [he b])
      simp [State.mayFill, this]
  · simp [State.mayFill, k]

/-- Where no port can begin a fill, settling begins none. -/
theorem settleFills_busy (s : State) (h : s.ringsBusy) : s.settleFills = s := settleFills_none s (fun p => mayFill_busy (h p))

/-! ### `PurgeWalk.lean` -/

theorem Worked.placeReply (h : Worked σ s t) (a : Aud) (r : Reply) : Worked σ s (t.placeReply a r) := .step h (.reply _ _ _)

theorem Worked.refuse (h : Worked σ s t) (a : Aud) (k : Byte) (x : Seq) (r : Reason) : Worked σ s (t.refuse a k x r) :=
  (h.counters _ _).placeReply _ _

theorem Worked.finishWork (h : Worked σ s t) (w : Work) : Worked σ s (t.finishWork w) := .step h (.finish _ _)

theorem Worked.letGo (h : Worked σ s t) (a : Aud) (x : Context) (hx : x.cue = none) (hc : (t.intake a).context.cue ≠ none) :
    Worked σ s (t.onIntake a (fun i => { i with context := x })) := .step h (.letGo _ _ _ hx hc)

theorem refuse_intake (s : State) (a b : Aud) (k : Byte) (x : Seq) (r : Reason) : (s.refuse a k x r).intake b = s.intake b := by
  unfold State.refuse State.placeReply State.transmit
  simp only
  split
  · split <;> rfl
  · rfl

theorem Worked.removeInProgress (h : Worked σ s t) (a : Aud) : Worked σ s (t.removeInProgress a) := by
  unfold State.removeInProgress
  split
  · next c k hc =>
    exact Worked.letGo (Worked.refuse (h.requestFree _ _ _) _ _ _ _) _ _ rfl
      (by rw [refuse_intake]; simp [State.requestFree, hc, Context.cue])
  · next c w hc =>
    exact Worked.letGo (Worked.refuse (h.requestFree _ _ _) _ _ _ _) _ _ rfl
      (by rw [refuse_intake]; simp [State.requestFree, hc, Context.cue])
  · exact h
  · exact h

theorem Worked.beginPurge (h : Worked σ s t) (a : Aud) (k : PurgeKind) : Worked σ s (t.beginPurge a k) := by
  unfold State.beginPurge
  refine Worked.store ?_ _ _ (by intro; exact ⟨rfl, rfl⟩)
  split
  · exact h.oweClears _
  · exact h.oweClears _
  · exact h.removeInProgress _
  · exact h.removeInProgress _
  · exact h
  · exact h

theorem Worked.endPurge (h : Worked σ s t) (a : Aud) (k : PurgeKind) : Worked σ s (t.endPurge a k) := by
  unfold State.endPurge
  refine Worked.endTest (Worked.store (Worked.release ?_ _ _) _ _ (by intro; exact ⟨rfl, rfl⟩)) _
  have hs : Worked σ s (t.onStore a (fun st => { st with purge := none })) := h.store _ _ (by intro; exact ⟨rfl, rfl⟩)
  generalize t.onStore a (fun st => { st with purge := none }) = u at hs ⊢
  split
  · exact Worked.finishWork (hs.stream _ _ (by intro; exact ⟨rfl, rfl, rfl, rfl, rfl⟩)) _
  · exact hs.finishWork _
  · exact hs

theorem Worked.nextPurge (h : Worked σ s t) (a : Aud) : Worked σ s (t.nextPurge a) := by
  unfold State.nextPurge
  split
  · exact Worked.beginPurge (h.store _ _ (by intro; exact ⟨rfl, rfl⟩)) _ _
  · split
    · exact Worked.beginPurge (h.store _ _ (by intro; exact ⟨rfl, rfl⟩)) _ _
    · exact h

theorem Worked.runPurge (a : Aud) (k : Nat) : ∀ {t}, Worked σ s t → Worked σ s (State.runPurge a k t) := by
  induction k with
  | zero => exact fun h => h
  | succ k ih =>
    intro t h
    simp only [State.runPurge]
    split
    · exact h
    · split
      · exact h
      · split
        · exact h.store _ _ (by intro; exact ⟨rfl, rfl⟩)
        · split
          · exact h.store _ _ (by intro; exact ⟨rfl, rfl⟩)
          · exact ih ((h.endPurge _ _).nextPurge _)

theorem Worked.startPurge (h : Worked σ s t) (a : Aud) (k : PurgeKind) : Worked σ s (t.startPurge a k) :=
  Worked.runPurge _ _ (h.beginPurge _ _)

theorem Worked.purgeRemove (h : Worked σ s t) (a : Aud) (n : StreamNo) (k : PurgeKind) (c : Cue) :
    Worked σ s (t.purgeRemove a n k c) := by
  have h1 : Worked σ s (if k.owesClear c then t.oweClear n else t) := by
    split
    · exact h.oweClear _
    · exact h
  unfold State.purgeRemove
  simp only
  generalize (if k.owesClear c then t.oweClear n else t) = u at h1 ⊢
  refine Worked.store (Worked.freeCue ?_ _ _ _) _ _ (by intro; exact ⟨rfl, rfl⟩)
  split
  · exact h1.counters _ _
  · exact h1

theorem Worked.purgeStep (h : Worked σ s t) (a : Aud) (p : Purge) (x : Slot × Seq) : Worked σ s (t.purgeStep a p x) := by
  have move : ∀ {u : State} (l : List (Slot × Seq)), Worked σ s u → Worked σ s (State.runPurge a purgeFuel
      (u.onStore a (fun st => { st with purge := some { p with todo := l, current := none } }))) := fun l k =>
    Worked.runPurge _ _ (k.store _ _ (by intro; exact ⟨rfl, rfl⟩))
  unfold State.purgeStep
  simp only
  split
  · exact move _ h
  · split
    · exact h.purgeRemove _ _ _ _
    · exact move _ h
    · exact move _ (h.cue _ _ _ (by intro; exact ⟨rfl, rfl, rfl, rfl, rfl⟩))
    · exact move _ (h.cue _ _ _ (by intro; exact ⟨rfl, rfl, rfl, rfl, rfl⟩))

theorem Worked.saturatePosition {a : Aud} (h : Worked (some a) s t) (ha : (t.session a).state.isActive = true)
    (hp : t.position a = Config.maxPosition) : Worked (some a) s (t.saturatePosition a) := by
  unfold State.saturatePosition
  have he := h.enterEnded a ha (.inr ⟨rfl, hp⟩)
  generalize t.enterEnded a = u at he ⊢
  simp only
  split
  · exact he.store _ _ (by intro; exact ⟨rfl, rfl⟩)
  · exact he.startPurge _ _

theorem Worked.positionChanged {a : Aud} (h : Worked (some a) s t) : Worked (some a) s (t.positionChanged a) := by
  unfold State.positionChanged
  have he := h.endByPosition a
  generalize t.endByPosition a = u at he ⊢
  simp only
  split
  · next hc =>
    simp only [State.saturated, Bool.and_eq_true, beq_iff_eq] at hc
    exact he.saturatePosition hc.1 hc.2
  · exact he.release _ _

end Sys2Proof.Machine
end

