-- ==== Sys2Proof/Laws/WorkFacts.lean ====
section
/-! SUPPORT. What background work leaves alone, and what it does to sessions, staging rings and queues: each fact shown for one
nudge and so had for all. -/

namespace Sys2Proof.Machine

variable {σ : Option Aud} {s t : State}

/-! ### Replies -/

/-- A transmitter begins a reply or does nothing: only the port's reply side changes, and no reply joins its queue. -/
theorem transmit_cases (s : State) (a : Aud) :
    ∃ f : CuePort → CuePort, s.transmit a = s.onPort a f ∧
      (f (s.cuePort a)).lineSide = (s.cuePort a).lineSide ∧ (f (s.cuePort a)).replies.length ≤ (s.cuePort a).replies.length := by
  unfold State.transmit
  simp only
  split
  · exact ⟨_, rfl, rfl, le_refl _⟩
  · next r rest _ _ h => exact ⟨_, rfl, rfl, by rw [h]; simp⟩
  · exact ⟨id, by simp [State.onPort, change, pick], rfl, le_refl _⟩

/-- Placing a reply changes only the port's reply side, and keeps at most eight. -/
theorem placeReply_cases (s : State) (a : Aud) (r : Reply) :
    ∃ f : CuePort → CuePort, s.placeReply a r = s.onPort a f ∧
      (f (s.cuePort a)).lineSide = (s.cuePort a).lineSide ∧
      ((s.cuePort a).replies.length ≤ 8 → (f (s.cuePort a)).replies.length ≤ 8) := by
  unfold State.placeReply
  split
  · next h =>
    obtain ⟨g, hg, hl, hr⟩ := transmit_cases (s.onPort a (fun q => { q with replies := q.replies ++ [r] })) a
    refine ⟨fun q => g { q with replies := q.replies ++ [r] }, ?_, ?_, ?_⟩
    · rw [hg]; simp [State.onPort, change, pick]
    · simpa [CuePort.lineSide] using hl
    · intro _
      simp at hr
      exact le_trans hr (by omega)
  · exact ⟨id, by simp [State.onPort, change, pick], rfl, fun h => h⟩

/-! ### The frame -/

/-- What background work leaves alone. -/
def State.workFrame (s : State) := (s.now, s.runPins, s.rxPins, s.clocks, s.freeCells, s.receivers, s.table, s.pending,
  s.attention.deviceWide, s.attention.links)

theorem Nudge.workFrame (h : Nudge σ s t) : t.workFrame = s.workFrame := by
  cases h with
  | reply a r => obtain ⟨f, hf, -⟩ := placeReply_cases s a r; rw [hf]; rfl
  | finish w => unfold State.finishWork; split <;> rfl
  | _ => rfl

/-- The fields that background work leaves alone. -/
theorem Worked.frame (h : Worked σ s t) : t.now = s.now ∧ t.runPins = s.runPins ∧ t.rxPins = s.rxPins ∧ t.clocks = s.clocks ∧
    t.freeCells = s.freeCells ∧ t.receivers = s.receivers ∧ t.table = s.table ∧ t.pending = s.pending ∧
    t.attention.deviceWide = s.attention.deviceWide ∧ t.attention.links = s.attention.links := by
  have := h.keeps (P := State.workFrame) (fun _ _ k => k.workFrame)
  simpa only [State.workFrame, Prod.mk.injEq] using this

theorem Worked.clock_eq (h : Worked σ s t) (a : Aud) : t.clock a = s.clock a := by
  unfold State.clock; rw [h.frame.2.2.2.1]

theorem Worked.position_eq (h : Worked σ s t) (a : Aud) : t.position a = s.position a := by
  unfold State.position; rw [h.clock_eq]

theorem Worked.now_eq (h : Worked σ s t) : t.now = s.now := h.frame.1

/-- An auditorium's quota and used count stand through background work. -/
theorem Worked.cells (h : Worked σ s t) (a : Aud) : (t.store a).quota = (s.store a).quota ∧ (t.store a).used = (s.store a).used := by
  have key := h.keeps (P := fun s => ((s.store a).quota, (s.store a).used)) (by
    intro s t hn
    cases hn with
    | store b f hf => simp only [State.onStore_store]; split <;> simp [hf]
    | reply b r => obtain ⟨f, hf, -⟩ := placeReply_cases s b r; rw [hf]; rfl
    | finish w => unfold State.finishWork; split <;> rfl
    | _ => rfl)
  simpa using key

/-- The counters that background work leaves alone. -/
theorem Worked.own (h : Worked σ s t) (a : Aud) : (t.audCounter a).own = (s.audCounter a).own :=
  h.keeps (P := fun s => (s.audCounter a).own) (by
    intro s t hn
    cases hn with
    | counters b f hf => simp only [State.onCounters_audCounter]; split <;> simp [hf]
    | reply b r => obtain ⟨f, hf, -⟩ := placeReply_cases s b r; rw [hf]; rfl
    | finish w => unfold State.finishWork; split <;> rfl
    | _ => rfl)

/-- The counters of a link port that background work leaves alone. -/
theorem Worked.linkOwn (h : Worked σ s t) (p : Port) : (t.linkCounter p).own = (s.linkCounter p).own :=
  h.keeps (P := fun s => (s.linkCounter p).own) (by
    intro s t hn
    cases hn with
    | linkCounters b f hf => simp only [State.onLinkCounters_linkCounter]; split <;> simp [hf]
    | reply b r => obtain ⟨f, hf, -⟩ := placeReply_cases s b r; rw [hf]; rfl
    | finish w => unfold State.finishWork; split <;> rfl
    | _ => rfl)

/-- A context that holds no cue stands through background work. -/
theorem Worked.context (h : Worked σ s t) (a : Aud) (hs : (s.intake a).context.cue = none) : t.intake a = s.intake a := by
  refine h.carries (P := fun u => u.intake a = s.intake a) ?_ rfl
  intro u v hn hu
  cases hn with
  | walk b c w w' hb =>
    simp only [State.onIntake_intake]
    split
    · next e => subst e; rw [hu] at hb; rw [hb] at hs; simp [Context.cue] at hs
    · exact hu
  | letGo b x _ hc =>
    simp only [State.onIntake_intake]
    split
    · next e => subst e; rw [hu] at hc; exact absurd hs hc
    · exact hu
  | reply b r => obtain ⟨f, hf, -⟩ := placeReply_cases u b r; rw [hf]; exact hu
  | finish w => unfold State.finishWork; split <;> exact hu
  | _ => exact hu

theorem raise_keeps {x j k : Byte} (h : x &&& k = k) : (x ||| j) &&& k = k := by
  apply BitVec.eq_of_getLsbD_eq
  intro i _
  have hi := congrArg (fun y => y.getLsbD i) h
  simp only [BitVec.getLsbD_and, BitVec.getLsbD_or] at hi ⊢
  cases hx : x.getLsbD i <;> cases hk : k.getLsbD i <;> simp_all

/-- A raise leaves pending what is pending. -/
theorem raise_pending {x : AttnRecord} {j k : Byte} (h : x.pending &&& k = k) : (x.raise j).pending &&& k = k := by
  unfold AttnRecord.raise
  split
  · exact raise_keeps h
  · exact h

/-- A raise changes one auditorium's record. -/
@[simp] theorem raiseAud_audRecord (s : State) (a b : Aud) (k : Byte) :
    (s.raiseAud b k).audRecord a = if b = a then (s.audRecord a).raise k else s.audRecord a := by
  simp only [State.audRecord, State.raiseAud, State.onAttention, pick_change]

/-- A kind pending on an auditorium's record stays pending. -/
theorem Worked.raised (h : Worked σ s t) (a : Aud) (k : Byte) (hs : s.raised a k) : t.raised a k := by
  refine h.carries (P := fun u => u.raised a k) ?_ hs
  intro u v hn hu
  cases hn with
  | ended b _ _ =>
    simp only [State.raised, raiseAud_audRecord]
    split
    · exact raise_pending hu
    · exact hu
  | reply b r => obtain ⟨f, hf, -⟩ := placeReply_cases u b r; rw [hf]; exact hu
  | finish w => unfold State.finishWork; split <;> exact hu
  | _ => exact hu

/-- What background work leaves of a cue port. -/
theorem Worked.lineSide (h : Worked σ s t) (a : Aud) : (t.cuePort a).lineSide = (s.cuePort a).lineSide :=
  h.keeps (P := fun s => (s.cuePort a).lineSide) (by
    intro s t hn
    cases hn with
    | reply b r =>
      obtain ⟨f, hf, hl, -⟩ := placeReply_cases s b r
      rw [hf]
      simp only [State.onPort_cuePort]
      split
      · next e => subst e; exact hl
      · rfl
    | finish w => unfold State.finishWork; split <;> rfl
    | _ => rfl)

theorem Worked.outside (h : Worked σ s t) (p : Port) : (t.link p).outside = (s.link p).outside :=
  h.keeps (P := fun s => (s.link p).outside) (by
    intro s t hn
    cases hn with
    | reply b r => obtain ⟨f, hf, -⟩ := placeReply_cases s b r; rw [hf]; rfl
    | finish w => unfold State.finishWork; split <;> rfl
    | fill q b f ends _ _ => simp only [State.onLink_link]; split <;> rfl
    | beacon q => simp only [State.onLink_link]; split <;> rfl
    | _ => rfl)

/-- A buffer that is not EMPTY stands through background work, and one that becomes other than EMPTY is FILLING in a SERVING
port. -/
theorem Worked.buffer (h : Worked σ s t) (p : Port) (b : BufNo) :
    pick (t.link p).buffers b = pick (s.link p).buffers b ∨
      pick (s.link p).buffers b = .empty ∧ (s.link p).state = .serving ∧ ∃ f e, pick (t.link p).buffers b = .filling f e := by
  refine h.carries (P := fun u => (u.link p).state = (s.link p).state ∧ (pick (u.link p).buffers b = pick (s.link p).buffers b ∨
      pick (s.link p).buffers b = .empty ∧ (s.link p).state = .serving ∧ ∃ f e, pick (u.link p).buffers b = .filling f e))
      ?_ ⟨rfl, .inl rfl⟩ |>.2
  intro u v hn hu
  cases hn with
  | reply c r => obtain ⟨f, hf, -⟩ := placeReply_cases u c r; rw [hf]; exact hu
  | finish w => unfold State.finishWork; split <;> exact hu
  | fill q c f ends hs he =>
    simp only [State.onLink_link]
    by_cases e : q = p
    · subst e
      simp only [if_true]
      refine ⟨hu.1, ?_⟩
      simp only [LinkPort.setBuffer, pick_change]
      by_cases eb : c = b
      · subst eb
        simp only [if_true]
        rcases hu.2 with h1 | ⟨h1, h2, f', e', h3⟩
        · exact .inr ⟨h1 ▸ he, hu.1 ▸ hs, _, _, rfl⟩
        · exact .inr ⟨h1, h2, _, _, rfl⟩
      · simp only [if_neg eb]; exact hu.2
    · simp only [if_neg e]; exact hu
  | beacon q => simp only [State.onLink_link]; split <;> exact hu
  | _ => exact hu

/-! ### Sessions -/

/-- All that background work does to a session: it stands, or its show ends, under its ending mark or, for `σ`, at the last position. -/
theorem Worked.session (h : Worked σ s t) (a : Aud) :
    (t.session a = s.session a ∧ t.showRun a = s.showRun a ∧ t.audRecord a = s.audRecord a) ∨
    ((s.session a).state.isActive = true ∧ ((s.session a).ending = true ∨ σ = some a ∧ s.position a = Config.maxPosition) ∧
      t.session a = { s.session a with state := .ended } ∧ t.showRun a = (s.showRun a).atEnd (s.captureHold a) ∧
      t.audRecord a = (s.audRecord a).raise kindEnded) := by
  refine (h.carries (P := fun u => (u.now = s.now ∧ u.clocks = s.clocks) ∧
    ((u.session a = s.session a ∧ u.showRun a = s.showRun a ∧ u.audRecord a = s.audRecord a) ∨
    ((s.session a).state.isActive = true ∧ ((s.session a).ending = true ∨ σ = some a ∧ s.position a = Config.maxPosition) ∧
      u.session a = { s.session a with state := .ended } ∧ u.showRun a = (s.showRun a).atEnd (s.captureHold a) ∧
      u.audRecord a = (s.audRecord a).raise kindEnded))) ?_ ⟨⟨rfl, rfl⟩, .inl ⟨rfl, rfl, rfl⟩⟩).2
  intro u v hn hu
  have hnow : v.now = s.now ∧ v.clocks = s.clocks := by
    have := hn.workFrame
    simp only [State.workFrame, Prod.mk.injEq] at this
    rw [this.1, this.2.2.2.1]; exact hu.1
  refine ⟨hnow, ?_⟩
  cases hn with
  | reply c r => obtain ⟨f, hf, -⟩ := placeReply_cases u c r; rw [hf]; exact hu.2
  | finish w => unfold State.finishWork; split <;> exact hu.2
  | ended b hb hc =>
    have e1 (x : State) : (x.raiseAud b kindEnded).session a = x.session a := rfl
    have e2 (x : State) : (x.raiseAud b kindEnded).showRun a = x.showRun a := rfl
    have e3 : State.audRecord ((u.onRun b (fun r => r.atEnd (u.captureHold b))).onSession b (fun x => { x with state := .ended })) a =
      u.audRecord a := rfl
    simp only [e1, e2, raiseAud_audRecord, e3, State.onSession_session, State.onSession_showRun, State.onRun_session, State.onRun_showRun]
    by_cases e : b = a
    · subst e
      simp only [if_true]
      rcases hu.2 with ⟨h1, h2, h3⟩ | ⟨-, -, h2, -, -⟩
      · refine .inr ⟨h1 ▸ hb, ?_, by rw [h1], ?_, by rw [h3]⟩
        · rw [h1] at hc
          refine hc.imp_right (And.imp_right fun hp => ?_)
          unfold State.position State.clock at hp ⊢
          rw [← hu.1.2]; exact hp
        · rw [h2]
          unfold State.captureHold State.pauseCount
          rw [h2, hu.1.1]
      · rw [h2] at hb
        simp [AudState.isActive] at hb
    · simp only [if_neg e]; exact hu.2
  | _ => exact hu.2

/-- An auditorium whose position has not changed stands, or ends under its ending mark. -/
theorem Worked.standsOrEnds (h : Worked σ s t) {a : Aud} (ha : σ ≠ some a) : s.standsOrEnds t a := by
  rcases h.session a with h1 | ⟨h1, h2 | ⟨h2, -⟩, h3⟩
  · exact .inl h1
  · exact .inr ⟨h1, h2, h3⟩
  · exact absurd h2 ha

/-- The DARK auditoriums are those they were. -/
theorem Worked.dark_iff (h : Worked σ s t) (a : Aud) : (t.session a).state = .dark ↔ (s.session a).state = .dark := by
  rcases h.session a with ⟨h1, -⟩ | ⟨h1, -, h2, -⟩
  · rw [h1]
  · rw [h2]
    constructor
    · intro hc; simp at hc
    · intro hc; rw [hc] at h1; simp [AudState.isActive] at h1

/-! ### The laws that background work keeps -/

theorem changeCue_map (q : List Cue) (x : Seq) (f : Cue → Cue) {β : Type} (g : Cue → β)
    (hg : ∀ c, g (f c) = g c) : (changeCue x f q).map g = q.map g := by
  simp only [changeCue, List.map_map]
  refine List.map_congr_left (fun c _ => ?_)
  simp only [Function.comp]
  split <;> simp [hg]

theorem Worked.queuesOrdered (h : Worked σ s t) (hs : s.queuesOrdered) : t.queuesOrdered := by
  refine h.carries ?_ hs
  intro u v hn hu n
  have hn' := hu n
  cases hn with
  | stream m f hf => simp only [State.onStream_stream]; split <;> simp [hf, hn']
  | cue m x f hf =>
    simp only [State.onCue, State.onStream_stream]
    split
    · simp only
      rw [changeCue_map _ _ _ _ (fun c => (hf c).2.2.2.1)]; exact hn'
    · exact hn'
  | drop m x =>
    simp only [State.onStream_stream]
    split
    · exact List.Pairwise.sublist (List.Sublist.map _ List.filter_sublist) hn'
    · exact hn'
  | reply c r => obtain ⟨f, hf, -⟩ := placeReply_cases u c r; rw [hf]; exact hn'
  | finish w => unfold State.finishWork; split <;> exact hn'
  | _ => exact hn'

theorem sameCue_clashes {c c' d d' : Cue} (h : c'.sameCue c) (k : d'.sameCue d) : c'.clashes d' = c.clashes d := by
  obtain ⟨-, -, h1, h2, h3⟩ := h
  obtain ⟨-, -, k1, k2, k3⟩ := k
  have hf : c'.finish = c.finish := by unfold Cue.finish; rw [h1, h2, h3]
  have kf : d'.finish = d.finish := by unfold Cue.finish; rw [k1, k2, k3]
  simp only [Cue.clashes, Cue.overlaps, hf, kf, h1, h2, k1, k2]

theorem sameCue_refl (c : Cue) : c.sameCue c := ⟨rfl, rfl, rfl, rfl, rfl⟩

theorem mem_changeCue {q : List Cue} {x : Seq} {f : Cue → Cue} (hf : ∀ c, (f c).sameCue c) {d : Cue}
    (h : d ∈ changeCue x f q) : ∃ c ∈ q, d.sameCue c := by
  simp only [changeCue, List.mem_map] at h
  obtain ⟨c, hc, rfl⟩ := h
  refine ⟨c, hc, ?_⟩
  split
  · exact hf c
  · exact sameCue_refl c

theorem changeCue_clashes {q : List Cue} {x : Seq} {f : Cue → Cue} (hf : ∀ c, (f c).sameCue c)
    (h : q.Pairwise (fun c d => c.clashes d = false)) : (changeCue x f q).Pairwise (fun c d => c.clashes d = false) := by
  simp only [changeCue, List.pairwise_map]
  refine h.imp (fun {c d} hcd => ?_)
  have key : ∀ e : Cue, (if e.seq == x then f e else e).sameCue e := fun e => by
    split
    · exact hf e
    · exact sameCue_refl e
  rw [sameCue_clashes (key c) (key d)]; exact hcd

theorem Worked.cuesDistinct (h : Worked σ s t) (hs : s.cuesDistinct) : t.cuesDistinct := by
  refine h.carries ?_ hs
  intro u v hn hu
  cases hn with
  | stream m f hf =>
    refine ⟨fun n => ?_, fun a c hc => ?_⟩
    · simp only [State.onStream_stream]; split <;> simp [hf, hu.1 n]
    · obtain ⟨h1, h2, h3⟩ := hu.2 a c hc
      refine ⟨h1, ?_, ?_⟩ <;> simp only [State.onStream_stream] <;> split <;> first | simpa [hf] using h2 | simpa [hf] using h3
  | cue m x f hf =>
    have hq : ∀ n, seqs ((u.onCue m x f).stream n).queue = seqs (u.stream n).queue := fun n => by
      simp only [State.onCue, State.onStream_stream, seqs]
      split
      · exact changeCue_map _ _ _ _ (fun c => (hf c).2.1)
      · rfl
    refine ⟨fun n => ⟨by rw [hq]; exact (hu.1 n).1, ?_⟩, fun a c hc => ?_⟩
    · simp only [State.onCue, State.onStream_stream]
      split
      · exact changeCue_clashes hf (hu.1 n).2
      · exact (hu.1 n).2
    · obtain ⟨h1, h2, h3⟩ := hu.2 a c hc
      refine ⟨h1, by rw [hq]; exact h2, fun d hd => ?_⟩
      simp only [State.onCue, State.onStream_stream] at hd
      split at hd
      · obtain ⟨e, he, hde⟩ := mem_changeCue hf hd
        rw [sameCue_clashes (sameCue_refl c) hde]
        exact h3 e he
      · exact h3 d hd
  | drop m x =>
    have hq : ∀ n, ((u.onStream m (fun st => { st with queue := dropCue x st.queue })).stream n).queue.Sublist (u.stream n).queue :=
      fun n => by
        simp only [State.onStream_stream]
        split
        · exact List.filter_sublist
        · exact List.Sublist.refl _
    refine ⟨fun n => ⟨(hu.1 n).1.sublist ((hq n).map _), (hu.1 n).2.sublist (hq n)⟩, fun a c hc => ?_⟩
    obtain ⟨h1, h2, h3⟩ := hu.2 a c hc
    exact ⟨h1, fun hm => h2 (((hq _).map _).subset hm), fun d hd => h3 d ((hq _).subset hd)⟩
  | walk b c w w' hb =>
    refine ⟨hu.1, fun a d hd => ?_⟩
    simp only [State.onIntake_intake] at hd
    split at hd
    · next e =>
      subst e
      exact hu.2 b d (by rw [hb]; simpa [Context.cue] using hd)
    · exact hu.2 a d hd
  | letGo b x hx =>
    refine ⟨hu.1, fun a d hd => ?_⟩
    simp only [State.onIntake_intake] at hd
    split at hd
    · rw [hx] at hd; simp at hd
    · exact hu.2 a d hd
  | reply c r => obtain ⟨f, hf, -⟩ := placeReply_cases u c r; rw [hf]; exact hu
  | finish w => unfold State.finishWork; split <;> exact hu
  | _ => exact hu

theorem Worked.cueQueuesWf (h : Worked σ s t) (hs : s.cueQueuesWf) : t.cueQueuesWf := by
  refine h.carries ?_ hs
  intro u v hn hu a
  have ha := hu a
  cases hn with
  | reply c r =>
    obtain ⟨f, hf, hl, hr⟩ := placeReply_cases u c r
    rw [hf]
    simp only [State.onPort_cuePort]
    split
    · next e =>
      subst e
      simp only [CuePort.lineSide, Prod.mk.injEq] at hl
      refine ⟨?_, hr ha.2⟩
      rw [hl.2.2.2.2.2.2.1]; exact ha.1
    · exact ha
  | finish w => unfold State.finishWork; split <;> exact ha
  | _ => exact ha

theorem Worked.quotasWf (h : Worked σ s t) (hs : s.quotasWf) : t.quotasWf := by
  have : t.quotaTotal = s.quotaTotal := by
    unfold State.quotaTotal
    exact congrArg List.sum (List.map_congr_left (fun a _ => (h.cells a).1))
  unfold State.quotasWf; rw [this]; exact hs

/-- A captured pause count is in range (R19). -/
theorem captureHold_le (s : State) (a : Aud) (h : (s.showRun a).pauseHold ≤ Config.maxPause) : s.captureHold a ≤ Config.maxPause := by
  unfold State.captureHold State.pauseCount
  cases (s.showRun a).pauseStart with
  | none => exact h
  | some x => exact Nat.min_le_right _ _

theorem Worked.clocksWf (h : Worked σ s t) (hs : s.clocksWf) : t.clocksWf := by
  intro a
  obtain ⟨h1, h2, h3, h4⟩ := hs a
  rw [h.clock_eq, h.dark_iff]
  refine ⟨h1, h2, ?_⟩
  rcases h.session a with ⟨-, k, -⟩ | ⟨-, -, -, k, -⟩
  · rw [k]; exact ⟨h3, h4⟩
  · rw [k]; exact ⟨captureHold_le s a h3, by intro _ _ e; cases e⟩

theorem Worked.ringsWf (h : Worked σ s t) (hs : s.ringsWf) : t.ringsWf := by
  intro p
  have ho := h.outside p
  simp only [LinkPort.outside, Prod.mk.injEq] at ho
  rw [ho.1, ho.2.2.2.1]
  refine ⟨fun hne b => ?_, fun b hb => ?_⟩
  · rcases h.buffer p b with h1 | ⟨-, h2, -⟩
    · rw [h1]; exact (hs p).1 hne b
    · exact absurd h2 hne
  · rcases h.buffer p b with h1 | ⟨-, -, f, e, h3⟩
    · rw [h1] at hb; exact (hs p).2 b hb
    · rw [h3] at hb; simp [Buffer.isSending] at hb

end Sys2Proof.Machine
end

