-- ==== Sys2Proof/Laws/Take.lean ====
section
/-! SUPPORT. All that a strobe, a record, a character or another event of an auditorium can do to the state, said once: sequences of
the changes of `Take`, background work among them. -/

namespace Sys2Proof.Machine

/-- One change in the taking of an event. -/
inductive Take : State → State → Prop
  | work {s : State} {σ : Option Aud} {t : State} (h : Nudge σ s t) : Take s t
  | raise (s : State) (a : Aud) (k : Byte) : Take s (s.raiseAud a k)
  | place (s : State) (a : Aud) (m : Nat) (h : m ≤ Config.maxPosition) (hs : (s.session a).state ≠ .dark) :
      Take s (s.onClock a (·.place m))
  | raiseSub (s : State) (a : Aud) (e : Nat) : Take s (s.onClock a (·.raiseSub e))
  | ref (s : State) (a : Aud) (x : Nat) : Take s (s.onClock a (fun c => { c with ref := x }))
  | advance (s : State) (a : Aud) (f : Clock → Nat) : Take s (s.onClock a (fun c => { c.advance with ref := f c }))
  | held (s : State) (a : Aud) (k : Nat) (h : k ≤ Config.maxElapsed) (hs : (s.session a).state ≠ .dark) :
      Take s (s.onClock a (fun c => { c with lastHold := k }))
  | period (s : State) (a : Aud) (e : Nat) (r : Rate) (h : (s.clock a).rate = some r) (he : acceptable e r.nominal = true) :
      Take s (s.onClock a (fun c => { c with period := e }))
  | run (s : State) (a : Aud) (f : ShowRun → ShowRun)
      (hp : (f (s.showRun a)).pauseHold = (s.showRun a).pauseHold ∨ (f (s.showRun a)).pauseHold = s.captureHold a)
      (hw : (f (s.showRun a)).window = .closed ∨ (f (s.showRun a)).window = (s.showRun a).window ∨
        ∃ k x, (f (s.showRun a)).window = .opened k x ∧ (k = 0 ∨ k < (s.clock a).windowSize) ∧ (s.session a).state ≠ .dark) :
      Take s (s.onRun a f)
  | counters (s : State) (a : Aud) (f : AudCounters → AudCounters) : Take s (s.onCounters a f)
  | session (s : State) (a : Aud) (x : AudState) (h : (s.session a).state = .dark ↔ x = .dark) :
      Take s (s.onSession a (fun y => { y with state := x }))
  | ending (s : State) (a : Aud) : Take s (s.onSession a (fun y => { y with ending := true }))
  | port (s : State) (a : Aud) (f : CuePort → CuePort)
      (hq : (s.cuePort a).queue.length ≤ 32 → (f (s.cuePort a)).queue.length ≤ 32)
      (hr : (s.cuePort a).replies.length ≤ 8 → (f (s.cuePort a)).replies.length ≤ 8) : Take s (s.onPort a f)
  | cells (s : State) (a : Aud) (f : Store → Store) (g : Nat → Nat) (h : ∀ x, (f x).quota = x.quota) :
      Take s ((s.onStore a f).onFree g)
  | context (s : State) (a : Aud) (f : Intake → Intake)
      (h : ∀ c, (f (s.intake a)).context.cue = some c → ∃ d, (s.intake a).context.cue = some d ∧ c.sameCue d) :
      Take s (s.onIntake a f)
  | opened (s : State) (a : Aud) (c : Cue) (k : Nat)
      (h : audOfStream c.stream = a ∧ c.seq ∉ seqs (s.stream c.stream).queue ∧
        ∀ d ∈ (s.stream c.stream).queue, c.clashes d = false) :
      Take s (s.onIntake a (fun i => { i with context := .opened c k }))
  | placed (s : State) (a : Aud) (c : Cue) (f : AudCounters → AudCounters) (h : (s.intake a).context.cue = some c) :
      Take s (((s.onStream c.stream (fun st => { st with queue := placeCue { c with life := .queued } st.queue })).onCounters
        a f).setContext a .idle)

/-- `t` comes from `s` by a sequence of such changes. -/
inductive Taken (s : State) : State → Prop
  | refl : Taken s s
  | step {t u : State} (h : Taken s t) (hn : Take t u) : Taken s u

theorem Taken.trans {s t u : State} (h : Taken s t) (k : Taken t u) : Taken s u := by
  induction k with
  | refl => exact h
  | step _ hn ih => exact .step ih hn

theorem Taken.worked {σ : Option Aud} {s t u : State} (h : Taken s t) (k : Worked σ t u) : Taken s u := by
  induction k with
  | refl => exact h
  | step _ hn ih => exact .step ih (.work hn)

theorem Taken.keeps {β : Type} {P : State → β} (hP : ∀ s t, Take s t → P t = P s) {s t : State} (h : Taken s t) :
    P t = P s := by
  induction h with
  | refl => rfl
  | step _ hn ih => rw [hP _ _ hn, ih]

theorem Taken.carries {P : State → Prop} (hP : ∀ s t, Take s t → P s → P t) {s t : State} (h : Taken s t) (hs : P s) : P t := by
  induction h with
  | refl => exact hs
  | step _ hn ih => exact hP _ _ hn ih

theorem Taken.foldl {α : Type} {s : State} {f : State → α → State} (hf : ∀ t x, Taken s t → Taken s (f t x)) (l : List α) :
    ∀ t, Taken s t → Taken s (l.foldl f t) := by
  induction l with
  | nil => exact fun t h => h
  | cons x l ih => exact fun t h => ih _ (hf t x h)

variable {s t : State}

/-! ### Background work, and the replies and counters of an event -/

theorem Taken.settleFills (h : Taken s t) : Taken s t.settleFills := h.worked (Worked.settleFills (σ := none) .refl)
theorem Taken.positionChanged (h : Taken s t) (a : Aud) : Taken s (t.positionChanged a) := h.worked (Worked.positionChanged .refl)
theorem Taken.startPurge (h : Taken s t) (a : Aud) (k : PurgeKind) : Taken s (t.startPurge a k) := h.worked (Worked.startPurge (σ := none) .refl a k)
theorem Taken.beginPurge (h : Taken s t) (a : Aud) (k : PurgeKind) : Taken s (t.beginPurge a k) := h.worked (Worked.beginPurge (σ := none) .refl a k)
theorem Taken.runPurge (h : Taken s t) (a : Aud) (k : Nat) : Taken s (State.runPurge a k t) := h.worked (Worked.runPurge (σ := none) a k .refl)
theorem Taken.endByPosition (h : Taken s t) (a : Aud) : Taken s (t.endByPosition a) := h.worked (Worked.endByPosition (σ := none) .refl a)
theorem Taken.endTest (h : Taken s t) (a : Aud) : Taken s (t.endTest a) := h.worked (Worked.endTest (σ := none) .refl a)
theorem Taken.release (h : Taken s t) (a : Aud) (x : Option Nat) : Taken s (t.release a x) := h.worked (Worked.release (σ := none) .refl a x)
theorem Taken.handStale (h : Taken s t) (a : Aud) (x : Nat) : Taken s (t.handStale a x) := h.worked (Worked.handStale (σ := none) .refl a x)
theorem Taken.oweClears (h : Taken s t) (a : Aud) : Taken s (t.oweClears a) := h.worked (Worked.oweClears (σ := none) .refl a)
theorem Taken.requestFree (h : Taken s t) (a : Aud) (k : Nat) (g : FreeTag) : Taken s (t.requestFree a k g) :=
  h.worked (Worked.requestFree (σ := none) .refl a k g)
theorem Taken.purgeStep (h : Taken s t) (a : Aud) (p : Purge) (x : Slot × Seq) : Taken s (t.purgeStep a p x) :=
  h.worked (Worked.purgeStep (σ := none) .refl a p x)
theorem Taken.counters (h : Taken s t) (a : Aud) (f : AudCounters → AudCounters) : Taken s (t.onCounters a f) :=
  .step h (.counters _ _ _)
theorem Taken.raiseAud (h : Taken s t) (a : Aud) (k : Byte) : Taken s (t.raiseAud a k) := .step h (.raise _ _ _)
theorem Taken.finishWork (h : Taken s t) (w : Work) : Taken s (t.finishWork w) := h.worked (Worked.finishWork (σ := none) .refl w)
theorem Taken.store (h : Taken s t) (a : Aud) (f : Store → Store) (hf : ∀ x, (f x).quota = x.quota) : Taken s (t.onStore a f) :=
  .step h (.cells _ a f id hf)
theorem Taken.placeReply (h : Taken s t) (a : Aud) (r : Reply) : Taken s (t.placeReply a r) := h.worked (Worked.placeReply (σ := none) .refl a r)
theorem Taken.refuse (h : Taken s t) (a : Aud) (k : Byte) (x : Seq) (r : Reason) : Taken s (t.refuse a k x r) :=
  h.worked (Worked.refuse (σ := none) .refl a k x r)

/-- A change of a run part that opens no window. -/
theorem Taken.run (h : Taken s t) (a : Aud) (f : ShowRun → ShowRun)
    (hp : (f (t.showRun a)).pauseHold = (t.showRun a).pauseHold ∨ (f (t.showRun a)).pauseHold = t.captureHold a)
    (hw : (f (t.showRun a)).window = .closed ∨ (f (t.showRun a)).window = (t.showRun a).window) : Taken s (t.onRun a f) :=
  .step h (.run _ _ _ hp (hw.imp_right .inl))

/-- A window opened anew, or one strobe on. -/
theorem Taken.window (h : Taken s t) (a : Aud) (k x : Nat) (b : ShowRun → Bool) (hk : k = 0 ∨ k < (t.clock a).windowSize)
    (hs : (t.session a).state ≠ .dark) :
    Taken s (t.onRun a (fun r => { r with window := .opened k x, subFrozen := b r })) :=
  .step h (.run _ _ _ (.inl rfl) (.inr (.inr ⟨k, x, rfl, hk, hs⟩)))

/-- A change of a port that keeps its queues. -/
theorem Taken.port (h : Taken s t) (a : Aud) (f : CuePort → CuePort) (hf : ∀ p, (f p).queue = p.queue ∧ (f p).replies = p.replies) :
    Taken s (t.onPort a f) := .step h (.port _ _ _ (by simp [hf]) (by simp [hf]))

theorem Taken.transmit (h : Taken s t) (a : Aud) : Taken s (t.transmit a) := by
  obtain ⟨f, hf, hl, hr⟩ := transmit_cases t a
  rw [hf]
  simp only [CuePort.lineSide, Prod.mk.injEq] at hl
  exact .step h (.port _ _ _ (by rw [hl.2.2.2.2.2.2.1]; exact id) (fun k => le_trans hr k))

theorem Taken.flow (h : Taken s t) (a : Aud) : Taken s (t.flow a) := by
  unfold State.flow
  split
  · split
    · exact Taken.transmit (h.port _ _ (by intro; exact ⟨rfl, rfl⟩)) _
    · exact h
  · split
    · have hh : Taken s ((t.onPort a (fun p => { p with flowPlace := some .hold, holdOutstanding := true })).transmit a) :=
        Taken.transmit (h.port _ _ (by intro; exact ⟨rfl, rfl⟩)) _
      simp only
      split
      · exact hh.raiseAud _ _
      · exact hh
    · exact h

theorem Taken.lineFault (h : Taken s t) (a : Aud) : Taken s (t.lineFault a) := (h.counters _ _).raiseAud _ _

/-! ### Session moves -/

theorem Taken.settleSub (h : Taken s t) (a : Aud) : Taken s (t.settleSub a) := by
  unfold State.settleSub
  split
  · exact .step h (.raiseSub _ _ _)
  · exact h

theorem Taken.enterRunning (h : Taken s t) (a : Aud) (hs : (t.session a).state ≠ .dark) : Taken s (t.enterRunning a) := by
  have hr : Taken s (((t.onRun a (fun r => { r with window := .closed, pauseHold := t.captureHold a, pauseStart := none, staleMark := false })).onClock a
      (fun c => { c with ref := t.now })).onSession a (fun x => { x with state := .running })) :=
    .step (.step (h.run _ _ (.inr rfl) (.inl rfl)) (.ref _ _ _)) (.session _ _ _ (by simpa using hs))
  unfold State.enterRunning
  simp only
  split
  · exact hr.handStale _ _
  · exact hr

theorem Taken.enterPaused (h : Taken s t) (a : Aud) (hs : (t.session a).state ≠ .dark) : Taken s (t.enterPaused a) :=
  .step (h.run _ _ (.inl rfl) (.inl rfl)) (.session _ _ _ (by simpa using hs))

theorem Taken.runOrGate (h : Taken s t) (a : Aud) : Taken s (t.runOrGate a) := by
  unfold State.runOrGate
  simp only
  split
  · next hc =>
    split
    · exact (h.enterRunning _ (by simp [hc])).settleFills
    · exact h
  · next hc =>
    split
    · exact h
    · exact h.enterPaused _ (by simp [hc])
  · next hc =>
    split
    · exact h
    · exact h.enterPaused _ (by simp [hc])
  all_goals exact h

theorem Taken.firstMark (h : Taken s t) (a : Aud) (m : Nat) (hm : m ≤ Config.maxPosition) (hs : (t.session a).state ≠ .dark) :
    Taken s (t.firstMark a m) := by
  have hp : Taken s (t.onClock a (·.place m)) := .step h (.place _ _ _ hm hs)
  have hs' : ((t.onClock a (·.place m)).session a).state ≠ .dark := by simpa using hs
  unfold State.firstMark
  simp only
  refine Taken.settleFills (Taken.positionChanged ?_ _)
  generalize t.onClock a (·.place m) = u at hp hs' ⊢
  split
  · exact hp.enterRunning _ hs'
  · exact .step hp (.session _ _ _ (by simpa using hs'))

theorem correctedBase_le (s : State) (a : Aud) {m : Nat} (hm : m ≤ Config.maxPosition) : s.correctedBase a m ≤ Config.maxPosition := by
  unfold State.correctedBase
  split
  · exact Nat.min_le_right _ _
  · exact hm

theorem Taken.correction (h : Taken s t) (a : Aud) (m : Nat) (hm : m ≤ Config.maxPosition) (hs : (t.session a).state ≠ .dark) :
    Taken s (t.correction a m) := by
  have hp : Taken s (t.onClock a (·.place (t.correctedBase a m))) := .step h (.place _ _ _ (correctedBase_le t a hm) hs)
  unfold State.correction
  simp only
  generalize t.onClock a (·.place (t.correctedBase a m)) = u at hp ⊢
  split
  · exact h
  · refine Taken.settleFills (Taken.positionChanged (Taken.settleSub ?_ _) _)
    split
    · exact hp
    · exact hp.counters _ _

theorem Taken.jump (h : Taken s t) (a : Aud) (m : Nat) (hm : m ≤ Config.maxPosition) (hs : (t.session a).state ≠ .dark) :
    Taken s (t.jump a m) := by
  have hp : Taken s (((((t.onClock a (·.place m)).onCounters a (fun c => { c with jump := bump c.jump })).settleSub a).placeReply a
      (.jumpSeen (t.clock a).base m)).raiseAud a kindJump) :=
    ((Taken.settleSub (Taken.counters (.step h (.place _ _ _ hm hs)) _ _) _).placeReply _ _).raiseAud _ _
  unfold State.jump
  simp only
  generalize (((((t.onClock a (·.place m)).onCounters a (fun c => { c with jump := bump c.jump })).settleSub a).placeReply a
      (.jumpSeen (t.clock a).base m)).raiseAud a kindJump) = u at hp ⊢
  split
  · exact (hp.positionChanged _).settleFills
  · exact (((hp.beginPurge _ _).endByPosition _).runPurge _ _).settleFills

theorem Taken.takeMark (h : Taken s t) (a : Aud) (m : Nat) : Taken s (t.takeMark a m) := by
  unfold State.takeMark
  split
  · exact h.refuse _ _ _ _
  · exact h.refuse _ _ _ _
  · next hc =>
    split
    · exact h.refuse _ _ _ _
    · next hm => exact h.firstMark _ _ (Nat.le_of_not_lt hm) (by simp [hc])
  all_goals
    next hc =>
    simp only
    split
    · exact h.refuse _ _ _ _
    · next hm =>
      split
      · exact h.correction _ _ (Nat.le_of_not_lt hm) (by simp [hc])
      · exact h.jump _ _ (Nat.le_of_not_lt hm) (by simp [hc])

theorem Taken.takeEnd (h : Taken s t) (a : Aud) : Taken s (t.takeEnd a) := by
  unfold State.takeEnd
  split
  · exact h.refuse _ _ _ _
  · exact h.refuse _ _ _ _
  · exact Taken.settleFills (Taken.endTest (.step h (.ending _ _)) _)

/-! ### The intake -/

theorem Taken.allocate (h : Taken s t) (a : Aud) : Taken s (t.allocate a) :=
  Taken.flow (.step h (.cells _ _ _ _ (by intro; rfl))) _

theorem Taken.returnCell (h : Taken s t) (a : Aud) : Taken s (t.returnCell a) :=
  Taken.flow (.step h (.cells _ _ _ _ (by intro; rfl))) _

/-- A context that holds no cue. -/
theorem Taken.setContext (h : Taken s t) (a : Aud) (x : Context) (hx : x.cue = none) : Taken s (t.setContext a x) :=
  .step h (.context _ _ _ (by simp [hx]))

theorem Taken.context (h : Taken s t) (a : Aud) (f : Intake → Intake)
    (hf : ∀ c, (f (t.intake a)).context.cue = some c → ∃ d, (t.intake a).context.cue = some d ∧ c.sameCue d) :
    Taken s (t.onIntake a f) := .step h (.context _ _ _ hf)

/-- Flow control and an allocation leave intakes and streams as they are. -/
theorem flow_intake_stream (s : State) (a : Aud) : (s.flow a).intakes = s.intakes ∧ (s.flow a).streams = s.streams := by
  have ht : ∀ u : State, (u.transmit a).intakes = u.intakes ∧ (u.transmit a).streams = u.streams := fun u => by
    obtain ⟨f, hf, -⟩ := transmit_cases u a; rw [hf]; exact ⟨rfl, rfl⟩
  unfold State.flow
  split
  · split
    · exact ht _
    · exact ⟨rfl, rfl⟩
  · split
    · simp only
      split
      · exact ht _
      · exact ht _
    · exact ⟨rfl, rfl⟩

theorem allocate_intake_stream (s : State) (a : Aud) : (s.allocate a).intakes = s.intakes ∧ (s.allocate a).streams = s.streams :=
  flow_intake_stream _ _

theorem audOfStream_streamOf (a : Aud) (k : Slot) : audOfStream (streamOf a k) = a := by
  apply Fin.ext
  simp only [audOfStream, streamOf]
  omega

theorem findCue_none {x : Seq} {q : List Cue} (h : findCue x q = none) : x ∉ seqs q := by
  simp only [findCue, List.find?_eq_none, beq_iff_eq] at h
  simp only [seqs, List.mem_map, not_exists, not_and]
  exact fun c hc e => h c hc e

/-- A HEAD that passes its checks opens a cue of its own auditorium, with a new sequence and a free span (R67, R69). -/
theorem checkHead_ok {s : State} {a : Aud} {f : HeadFields} {c : Cue} (h : s.checkHead a f = .ok c) :
    audOfStream c.stream = a ∧ c.seq ∉ seqs (s.stream c.stream).queue ∧
      ∀ d ∈ (s.stream c.stream).queue, c.clashes d = false := by
  unfold State.checkHead at h
  simp only at h
  split at h
  · cases h
  · split at h
    · cases h
    · split at h
      · cases h
      · next k _ =>
        split at h
        · cases h
        · split at h
          · cases h
          · split at h
            · cases h
            · split at h
              · cases h
              · next hd =>
                split at h
                · cases h
                · next ho =>
                  split at h
                  · cases h
                  · split at h
                    · cases h
                    · cases h
                      refine ⟨audOfStream_streamOf a k, ?_, fun d hd' => ?_⟩
                      · refine findCue_none ?_
                        simpa [HeadFields.cue] using hd
                      · simp only [Bool.and_eq_true, not_and, Bool.not_eq_true] at ho
                        simp only [Cue.clashes]
                        by_cases hk : (s.stream (streamOf a k)).kind = .narration
                        · have := ho (by simp [hk])
                          rw [List.any_eq_false] at this
                          have hov := this d hd'
                          simp only [Bool.not_eq_true] at hov
                          rw [Bool.and_assoc, hov, Bool.and_false]
                        · simp [HeadFields.cue, hk]

theorem skipContext_cue (n : Nat) : (skipContext n).cue = none := by
  cases n <;> rfl

theorem Taken.takeHead (h : Taken s t) (a : Aud) (f : List Byte) : Taken s (t.takeHead a f) := by
  unfold State.takeHead
  split
  · exact (h.refuse _ _ _ _).setContext _ _ rfl
  · split
    · exact (h.refuse _ _ _ _).setContext _ _ (skipContext_cue _)
    · next c hc =>
      refine .step (h.allocate a) (.opened _ _ _ _ ?_)
      have hs := (allocate_intake_stream t a).2
      unfold State.stream
      rw [hs]
      exact checkHead_ok hc

theorem Taken.takeOpenBody (h : Taken s t) (a : Aud) (c : Cue) (k : Nat) (l : List Byte)
    (hc : (t.intake a).context.cue = some c) : Taken s (t.takeOpenBody a c k l) := by
  have hi : ((t.allocate a).intake a).context.cue = some c := by
    unfold State.intake; rw [(allocate_intake_stream t a).1]; exact hc
  unfold State.takeOpenBody
  split
  · simp only
    split
    · refine Taken.context (h.allocate _) _ _ (fun d hd => ⟨c, hi, ?_⟩)
      simp only [Context.cue, Option.some.injEq] at hd
      subst hd
      exact ⟨rfl, rfl, rfl, rfl, rfl⟩
    · refine Taken.context (h.allocate _) _ _ (fun d hd => ⟨c, hi, ?_⟩)
      simp only [Context.cue, Option.some.injEq] at hd
      subst hd
      exact ⟨rfl, rfl, rfl, rfl, rfl⟩
  · exact Taken.context (Taken.refuse (h.requestFree _ _ _) _ _ _ _) _ _ (fun d hd => by simp [Context.cue] at hd)

theorem Taken.takeBody (h : Taken s t) (a : Aud) (l : List Byte) : Taken s (t.takeBody a l) := by
  unfold State.takeBody
  split
  · exact h.refuse _ _ _ _
  · next hc => exact h.takeOpenBody _ _ _ _ (by rw [hc]; rfl)
  · exact h.setContext _ _ (skipContext_cue _)
  · exact h
  · exact h

theorem Taken.takeWithdraw (h : Taken s t) (a : Aud) (f : List Byte) : Taken s (t.takeWithdraw a f) := by
  unfold State.takeWithdraw
  split
  · simp only
    split
    · exact h.refuse _ _ _ _
    · split
      · exact h.refuse _ _ _ _
      · split
        · exact h.refuse _ _ _ _
        · split
          · exact h.refuse _ _ _ _
          · split
            · exact h.refuse _ _ _ _
            · exact (h.startPurge _ _).settleFills
  · exact h.refuse _ _ _ _

theorem Taken.takeEndRecord (h : Taken s t) (a : Aud) (f : List Byte) : Taken s (t.takeEndRecord a f) := by
  unfold State.takeEndRecord
  split
  · exact h.takeEnd _
  · exact h.refuse _ _ _ _

theorem Taken.takeQuery (h : Taken s t) (a : Aud) (f : List Byte) : Taken s (t.takeQuery a f) := by
  unfold State.takeQuery
  split
  · exact h.placeReply _ _
  · exact h.refuse _ _ _ _

theorem Taken.takeMarkRecord (h : Taken s t) (a : Aud) (f : List Byte) : Taken s (t.takeMarkRecord a f) := by
  unfold State.takeMarkRecord
  split
  · exact h.takeMark _ _
  · exact h.refuse _ _ _ _

theorem Taken.discardDamaged (h : Taken s t) (a : Aud) (k : Option Byte) : Taken s (t.discardDamaged a k) :=
  (h.refuse _ _ _ _).lineFault _

theorem Taken.takeOther (h : Taken s t) (a : Aud) (r : Record) : Taken s (t.takeOther a r) := by
  unfold State.takeOther
  split
  · split
    · exact h.takeHead _ _
    · split
      · exact h.takeWithdraw _ _
      · split
        · exact h.takeEndRecord _ _
        · split
          · exact h.takeQuery _ _
          · exact h.refuse _ _ _ _
  · exact h.discardDamaged _ _
  · exact h.refuse _ _ _ _

theorem Taken.breakCue (h : Taken s t) (a : Aud) (c : Cue) (r : Record) : Taken s (t.breakCue a c r) :=
  Taken.context (Taken.refuse (h.requestFree _ _ _) _ _ _ _) _ _ (fun d hd => by simp [Context.cue] at hd)

theorem Taken.pairRecord (h : Taken s t) (a : Aud) (r : Record) : Taken s (t.pairRecord a r) := by
  unfold State.pairRecord
  split
  · split
    · exact h.takeMarkRecord _ _
    · split
      · exact h.takeBody _ _
      · split
        · exact h.breakCue _ _ _
        · exact (h.setContext _ _ rfl).takeOther _ _
        · exact h.takeOther _ _
        · exact h.takeOther _ _
  all_goals
    split
    · exact h.breakCue _ _ _
    · exact (h.setContext _ _ rfl).takeOther _ _
    · exact h.takeOther _ _
    · exact h.takeOther _ _

/-- A change of what waits leaves the context. -/
theorem Taken.waits (h : Taken s t) (a : Aud) (f : Intake → List Deferred) :
    Taken s (t.onIntake a (fun i => { i with deferred := f i })) :=
  Taken.context h _ _ (fun d hd => ⟨d, hd, sameCue_refl d⟩)

theorem Taken.handRecord (h : Taken s t) (a : Aud) (r : Record) : Taken s (t.handRecord a r) := by
  unfold State.handRecord
  split
  · exact h.pairRecord _ _
  · exact h.waits _ _

theorem Taken.runDeferred (a : Aud) (k : Nat) : ∀ {t}, Taken s t → Taken s (State.runDeferred a k t) := by
  induction k with
  | zero => exact fun h => h
  | succ k ih =>
    intro t h
    simp only [State.runDeferred]
    split
    · exact h
    · next d rest _ =>
      split
      · exact h
      · refine ih ?_
        have hw : Taken s (t.onIntake a (fun i => { i with deferred := rest })) := h.waits a (fun _ => rest)
        generalize t.onIntake a (fun i => { i with deferred := rest }) = u at hw ⊢
        unfold State.takeDeferred
        split
        · exact hw.pairRecord _ _
        · exact hw.setContext _ _ (skipContext_cue _)

theorem Taken.resumeDeferred (h : Taken s t) (a : Aud) : Taken s (t.resumeDeferred a) := Taken.runDeferred _ _ h

theorem Taken.placeInserted (h : Taken s t) (a : Aud) (c : Cue) (hc : (t.intake a).context.cue = some c) :
    Taken s (t.placeInserted a c) := by
  have hp : Taken s (((t.onStream c.stream (fun st => { st with queue := placeCue { c with life := .queued } st.queue })).onCounters
      a (fun k => { k with accepted := bump k.accepted })).setContext a .idle) := .step h (.placed _ _ _ _ hc)
  unfold State.placeInserted
  simp only
  generalize (((t.onStream c.stream (fun st => { st with queue := placeCue { c with life := .queued } st.queue })).onCounters
      a (fun k => { k with accepted := bump k.accepted })).setContext a .idle) = u at hp ⊢
  split
  · exact Taken.startPurge (hp.store _ _ (by intro; rfl)) _ _
  · exact hp.release _ _

/-! ### The assembler -/

theorem changeLast_length (f : Entry → Entry) : ∀ l, (changeLast f l).length = l.length
  | [] => rfl
  | [_] => rfl
  | _ :: y :: l => by simp [changeLast, changeLast_length f (y :: l)]

theorem Taken.appendEntry (h : Taken s t) (a : Aud) (e : Entry) : Taken s (t.appendEntry a e) := by
  unfold State.appendEntry
  split
  · next hl =>
    refine Taken.flow (.step h (.port _ _ _ (fun _ => ?_) id)) _
    simpa using hl
  · refine Taken.raiseAud (.step h (.port _ _ _ (fun k => ?_) id)) _ _
    simpa [changeLast_length] using k

theorem Taken.setFraming (h : Taken s t) (a : Aud) (f : Framing) (b : Bool) : Taken s (t.setFraming a f b) :=
  h.port _ _ (by intro; exact ⟨rfl, rfl⟩)

theorem Taken.abandon (h : Taken s t) (a : Aud) (f : Framing) (b : Bool) : Taken s (t.abandon a f b) :=
  (h.setFraming _ _ _).handRecord _ _

theorem Taken.completeRecord (h : Taken s t) (a : Aud) (k : Byte) (ok bad : Bool) (l : List Byte) :
    Taken s (t.completeRecord a k ok bad l) := (h.setFraming _ _ _).handRecord _ _

theorem Taken.takeBreak (h : Taken s t) (a : Aud) (b : Bool) : Taken s (t.takeBreak a b) := by
  unfold State.takeBreak
  split
  · exact h.setFraming _ _ _
  · exact h.abandon _ _ _

theorem Taken.takeChar (h : Taken s t) (a : Aud) (v : Byte) (b : Bool) : Taken s (t.takeChar a v b) := by
  unfold State.takeChar
  simp only
  split
  · exact h.lineFault _
  · exact h.setFraming _ _ _
  · split
    · exact h.setFraming _ _ _
    · split
      · exact h.completeRecord _ _ _ _ _
      · exact h.setFraming _ _ _
  · split
    · exact h.completeRecord _ _ _ _ _
    · exact h.setFraming _ _ _

theorem Taken.actOnGap (h : Taken s t) (a : Aud) : Taken s (t.actOnGap a) := by
  unfold State.actOnGap
  split
  · exact h
  · exact h.abandon _ _ _

theorem Taken.takeEntry (h : Taken s t) (a : Aud) (e : Entry) : Taken s (t.takeEntry a e) := by
  unfold State.takeEntry
  have hi : Taken s (match e.item with | .brk => t.takeBreak a e.overrun | .char v => t.takeChar a v e.isError) := by
    split
    · exact h.takeBreak _ _
    · exact h.takeChar _ _ _
  simp only
  split
  · exact hi.actOnGap _
  · exact hi

theorem Taken.drainFuel (a : Aud) (k : Nat) : ∀ {t}, Taken s t → Taken s (State.drainFuel a k t) := by
  induction k with
  | zero => exact fun h => h
  | succ k ih =>
    intro t h
    simp only [State.drainFuel]
    split
    · exact h
    · split
      · exact h
      · next e rest hq =>
        refine ih (Taken.takeEntry (Taken.flow (.step h (.port _ _ _ (fun hl => ?_) id)) _) _ _)
        rw [hq] at hl
        simp at hl ⊢
        omega

theorem Taken.drain (h : Taken s t) (a : Aud) : Taken s (t.drain a) := Taken.drainFuel _ _ h

theorem Taken.receive (h : Taken s t) (a : Aud) (e : Entry) : Taken s (t.receive a e) := (h.appendEntry _ _).drain _

theorem Taken.recordArrives (h : Taken s t) (a : Aud) (k : Byte) (f : List Byte) : Taken s (t.recordArrives a k f) := by
  unfold State.recordArrives
  split
  · exact h.handRecord _ _
  · exact Taken.foldl (fun _ _ k => k.receive _ _) _ _ h

theorem Taken.damagedArrives (h : Taken s t) (a : Aud) (k : Option Byte) : Taken s (t.damagedArrives a k) := by
  unfold State.damagedArrives
  split
  · exact h.handRecord _ _
  · exact Taken.foldl (fun _ _ k => k.receive _ _) _ _ h

/-! ### The show clock's events -/

theorem completeWindow_sessions (s : State) (a : Aud) (k : Nat) : (s.completeWindow a k).sessions = s.sessions := by
  unfold State.completeWindow
  simp only
  split
  · rfl
  · split <;> rfl

theorem Taken.countStrobe (h : Taken s t) (a : Aud) (hs : (t.session a).state ≠ .dark) : Taken s (t.countStrobe a) := by
  unfold State.countStrobe
  split
  · exact h.window _ _ _ ShowRun.subFrozen (.inl rfl) hs
  · split
    · refine Taken.window ?_ _ _ _ ShowRun.subFrozen (.inl rfl) (by rw [State.session, completeWindow_sessions]; exact hs)
      unfold State.completeWindow
      have hh : Taken s (t.onClock a (fun c => { c with lastHold := t.since ‹_› })) :=
        .step h (.held _ _ _ (Nat.min_le_right _ _) hs)
      simp only
      split
      · exact hh
      · next r hr =>
        split
        · next he => exact .step hh (.period _ _ _ r (by simpa using hr) he)
        · exact (hh.counters _ _).raiseAud _ _
    · next hk => exact h.window _ _ _ ShowRun.subFrozen (.inr (by omega)) hs

theorem countStrobe_session (s : State) (a : Aud) : (s.countStrobe a).sessions = s.sessions := by
  unfold State.countStrobe
  split
  · rfl
  · split
    · unfold State.completeWindow
      simp only
      split
      · rfl
      · split <;> rfl
    · rfl

theorem Taken.strobeRunning (h : Taken s t) (a : Aud) (hs : (t.session a).state ≠ .dark) : Taken s (t.strobeRunning a) :=
  Taken.settleFills (Taken.positionChanged (Taken.run (.step (h.countStrobe a hs) (.advance _ _ _)) _ _ (.inl rfl) (.inr rfl)) _)

theorem Taken.strobeCoasting (h : Taken s t) (a : Aud) (hs : (t.session a).state = .coasting) : Taken s (t.strobeCoasting a) := by
  unfold State.strobeCoasting
  refine Taken.settleFills (Taken.positionChanged (.step (Taken.window ?_ _ _ _ (fun _ => false) (.inl rfl) ?_) (.session _ _ _ ?_)) _)
  · split
    · exact .step h (.ref _ _ _)
    · exact Taken.run (.step h (.advance _ _ _)) _ _ (.inl rfl) (.inr rfl)
  · split <;> simp [hs]
  · split <;> simp [hs]

theorem Taken.synthetic (h : Taken s t) (a : Aud) : Taken s (t.synthetic a) :=
  Taken.settleSub (Taken.run (.step h (.advance _ _ _)) _ _ (.inl rfl) (.inr rfl)) _

end Sys2Proof.Machine
end

