-- ==== Sys2Proof/Laws/TakeFacts.lean ====
section
/-! SUPPORT. What the taking of an auditorium's event leaves alone, and the laws it keeps: each shown for one change and so had for
all. -/

namespace Sys2Proof.Machine

variable {s t : State}

/-- What the taking of an event leaves alone. -/
def State.lineFrame (s : State) := (s.now, s.runPins, s.rxPins, s.receivers, s.table, s.pending)

theorem Take.lineFrame (h : Take s t) : t.lineFrame = s.lineFrame := by
  cases h with
  | work hn =>
    have := hn.workFrame
    simp only [State.workFrame, State.lineFrame, Prod.mk.injEq] at *
    simp [this]
  | _ => rfl

/-- The fields that the taking of an event leaves alone. -/
theorem Taken.frame (h : Taken s t) : t.now = s.now ∧ t.runPins = s.runPins ∧ t.rxPins = s.rxPins ∧
    t.receivers = s.receivers ∧ t.table = s.table ∧ t.pending = s.pending := by
  have := h.keeps (P := State.lineFrame) (fun _ _ k => k.lineFrame)
  simpa only [State.lineFrame, Prod.mk.injEq] using this

theorem Taken.quota_eq (h : Taken s t) (a : Aud) : (t.store a).quota = (s.store a).quota :=
  h.keeps (P := fun u => (u.store a).quota) (by
    intro u v hn
    cases hn with
    | work k => exact ((Worked.step .refl k).cells a).1
    | cells b f g hf => simp only [State.onFree_store, State.onStore_store]; split <;> simp [hf]
    | _ => rfl)

/-- A link port's buffers and all else of it but beacon owed, under the taking of an event: as under background work. -/
theorem Taken.outside (h : Taken s t) (p : Port) : (t.link p).outside = (s.link p).outside :=
  h.keeps (P := fun u => (u.link p).outside) (by
    intro u v hn
    cases hn with
    | work k => exact (Worked.step .refl k).outside p
    | _ => rfl)

theorem Taken.dark_iff (h : Taken s t) (a : Aud) : (t.session a).state = .dark ↔ (s.session a).state = .dark := by
  refine h.carries (P := fun u => (u.session a).state = .dark ↔ (s.session a).state = .dark) ?_ Iff.rfl
  intro u v hn hu
  cases hn with
  | work k => exact ((Worked.step .refl k).dark_iff a).trans hu
  | session b x hx =>
    simp only [State.onSession_session]
    split
    · next e => subst e; exact hx.symm.trans hu
    · exact hu
  | ending b => simp only [State.onSession_session]; split <;> exact hu
  | _ => exact hu

/-! ### The laws -/

theorem Taken.quotasWf (h : Taken s t) (hs : s.quotasWf) : t.quotasWf := by
  have : t.quotaTotal = s.quotaTotal := by
    unfold State.quotaTotal
    exact congrArg List.sum (List.map_congr_left (fun a _ => h.quota_eq a))
  unfold State.quotasWf; rw [this]; exact hs

theorem Taken.ringsWf (h : Taken s t) (hs : s.ringsWf) : t.ringsWf := by
  refine h.carries ?_ hs
  intro u v hn hu
  cases hn with
  | work k => exact (Worked.step .refl k).ringsWf hu
  | _ => exact hu

theorem Taken.cueQueuesWf (h : Taken s t) (hs : s.cueQueuesWf) : t.cueQueuesWf := by
  refine h.carries ?_ hs
  intro u v hn hu
  cases hn with
  | work k => exact (Worked.step .refl k).cueQueuesWf hu
  | port b f hq hr =>
    intro a
    simp only [State.onPort_cuePort]
    split
    · next e => subst e; exact ⟨hq (hu b).1, hr (hu b).2⟩
    · exact hu a
  | _ => exact hu

/-- The placed cue keeps the order of its queue (R75). -/
theorem placeCue_ordered (c : Cue) : ∀ q : List Cue, (q.map Cue.start).Pairwise (· ≤ ·) →
    ((placeCue c q).map Cue.start).Pairwise (· ≤ ·) ∧ ∀ d, d ∈ placeCue c q ↔ d = c ∨ d ∈ q
  | [], _ => by simp [placeCue]
  | d :: rest, h => by
    simp only [List.map_cons, List.pairwise_cons, List.mem_map] at h
    obtain ⟨hd, hr⟩ := h
    have ih := placeCue_ordered c rest hr
    simp only [placeCue]
    split
    · next hc =>
      have hdc : d.start ≤ c.start := by
        simp only [Bool.or_eq_true, List.any_eq_true, decide_eq_true_eq] at hc
        rcases hc with ⟨e, he, hec⟩ | hc
        · exact le_trans (hd _ ⟨e, he, rfl⟩) hec
        · exact hc
      refine ⟨?_, fun x => ?_⟩
      · simp only [List.map_cons, List.pairwise_cons, List.mem_map]
        refine ⟨?_, ih.1⟩
        rintro x ⟨e, he, rfl⟩
        rcases (ih.2 e).mp he with rfl | he
        · exact hdc
        · exact hd _ ⟨e, he, rfl⟩
      · simp only [List.mem_cons, ih.2 x]; tauto
    · next hc =>
      simp only [Bool.or_eq_true, not_or, List.any_eq_true, decide_eq_true_eq, not_exists, not_and, not_le] at hc
      refine ⟨?_, fun x => by simp⟩
      simp only [List.map_cons, List.pairwise_cons, List.mem_map, List.mem_cons]
      refine ⟨?_, ?_, hr⟩
      · rintro x (rfl | ⟨e, he, rfl⟩)
        · exact le_of_lt hc.2
        · exact le_of_lt (hc.1 e he)
      · rintro x ⟨e, he, rfl⟩
        exact hd _ ⟨e, he, rfl⟩

theorem Taken.queuesOrdered (h : Taken s t) (hs : s.queuesOrdered) : t.queuesOrdered := by
  refine h.carries ?_ hs
  intro u v hn hu
  cases hn with
  | work k => exact (Worked.step .refl k).queuesOrdered hu
  | placed a c f hc =>
    intro n
    simp only [State.setContext, State.onIntake_stream, State.onCounters_stream, State.onStream_stream]
    split
    · next e => subst e; exact (placeCue_ordered _ _ (hu _)).1
    · exact hu n
  | _ => exact hu

/-- The placed queue is the queue with the cue among it. -/
theorem placeCue_perm (c : Cue) : ∀ q : List Cue, (placeCue c q).Perm (c :: q)
  | [] => .refl _
  | d :: rest => by
    simp only [placeCue]
    split
    · exact ((placeCue_perm c rest).cons d).trans (.swap _ _ _)
    · exact .refl _

theorem clashes_comm (c d : Cue) : c.clashes d = d.clashes c := by
  simp only [Cue.clashes, Cue.overlaps]
  cases c.kind == .narration <;> cases d.kind == .narration <;> simp [Bool.and_comm]

/-- A queue whose cues do not clash stays so with a cue placed that clashes with none. -/
theorem placed_apart {c : Cue} {q : List Cue} (hq : q.Pairwise (fun c d => c.clashes d = false))
    (hc : ∀ d ∈ q, c.clashes d = false) : (placeCue c q).Pairwise (fun c d => c.clashes d = false) := by
  have symm : Std.Symm (fun c d : Cue => c.clashes d = false) := ⟨fun x y h => (clashes_comm y x).trans h⟩
  exact (List.Perm.pairwise_iff (fun {x y} h => symm.symm x y h) (placeCue_perm c q)).mpr (List.pairwise_cons.mpr ⟨hc, hq⟩)

theorem Taken.cuesDistinct (h : Taken s t) (hs : s.cuesDistinct) : t.cuesDistinct := by
  refine h.carries ?_ hs
  intro u v hn hu
  cases hn with
  | work k => exact (Worked.step .refl k).cuesDistinct hu
  | context a f hf =>
    refine ⟨hu.1, fun b c hc => ?_⟩
    simp only [State.onIntake_intake] at hc
    split at hc
    · next e =>
      subst e
      obtain ⟨d, hd, hcd⟩ := hf c hc
      obtain ⟨h1, h2, h3⟩ := hu.2 a d hd
      refine ⟨by rw [hcd.1]; exact h1, by rw [hcd.1, hcd.2.1]; exact h2, fun e he => ?_⟩
      rw [State.onIntake_stream, hcd.1] at he
      rw [sameCue_clashes hcd (sameCue_refl e)]
      exact h3 e he
    · exact hu.2 b c hc
  | opened a c k hc =>
    refine ⟨hu.1, fun b d hd => ?_⟩
    simp only [State.onIntake_intake] at hd
    split at hd
    · next e =>
      subst e
      simp only [Context.cue, Option.some.injEq] at hd
      subst hd
      exact hc
    · exact hu.2 b d hd
  | placed a c f hc =>
    obtain ⟨h1, h2, h3⟩ := hu.2 a c hc
    have hcq : ({ c with life := .queued } : Cue).sameCue c := ⟨rfl, rfl, rfl, rfl, rfl⟩
    refine ⟨fun n => ?_, fun b d hd => ?_⟩
    · simp only [State.setContext, State.onIntake_stream, State.onCounters_stream, State.onStream_stream]
      split
      · next e =>
        subst e
        refine ⟨?_, ?_⟩
        · have hp := (placeCue_perm { c with life := .queued } (u.stream c.stream).queue).map Cue.seq
          exact hp.nodup_iff.mpr (List.nodup_cons.mpr ⟨h2, (hu.1 _).1⟩)
        · exact placed_apart (hu.1 _).2 (fun d hd => (sameCue_clashes hcq (sameCue_refl d)).trans (h3 d hd))
      · exact hu.1 n
    · simp only [State.setContext, State.onIntake_intake, State.onCounters_intake, State.onStream_intake] at hd
      split at hd
      · simp [Context.cue] at hd
      · next e =>
        obtain ⟨k1, k2, k3⟩ := hu.2 b d hd
        have hne : c.stream ≠ d.stream := fun hcd => e (by rw [← h1, ← k1, hcd])
        simp only [State.setContext, State.onIntake_stream, State.onCounters_stream, State.onStream_stream, if_neg hne]
        exact ⟨k1, k2, k3⟩
  | _ => exact hu

theorem tpf_pos (r : Rate) : 0 < r.tpf := by cases r <;> decide

theorem acceptable_inBand {r : Rate} {e : Nat} (h : acceptable e r.nominal = true) : r.inBand e := by
  simp only [acceptable, decide_eq_true_eq] at h
  exact ⟨le_trans (Nat.mul_le_mul_right _ (Nat.le_add_right _ _)) h, le_trans (Nat.mul_le_mul_right _ (Nat.le_add_left _ _)) h⟩

/-- One clock's law under a change of that clock. -/
theorem Taken.clocksWf (h : Taken s t) (hs : s.clocksWf) : t.clocksWf := by
  refine h.carries ?_ hs
  intro u v hn hu
  have onClock : ∀ (a : Aud) (f : Clock → Clock), ((f (u.clock a)).rate = (u.clock a).rate) →
      (f (u.clock a)).windowSize = (u.clock a).windowSize → ((f (u.clock a)).wf) → (u.onClock a f).clocksWf := by
    intro a f hr hws hw b
    simp only [State.onClock_clock, State.onClock_session, State.onClock_showRun]
    split
    · next e => subst e; exact ⟨hw, by rw [hr]; exact (hu a).2.1, by rw [hws]; exact (hu a).2.2⟩
    · exact hu b
  cases hn with
  | work k => exact (Worked.step .refl k).clocksWf hu
  | place a m hm hd =>
    refine onClock a _ rfl rfl ?_
    obtain ⟨⟨-, h2, hw, hl, h3⟩, h4, -⟩ := hu a
    refine ⟨hm, h2, hw, hl, ?_⟩
    cases hr : (u.clock a).rate with
    | none => exact absurd (h4.mpr hr) hd
    | some r =>
      rw [hr] at h3
      simp only [Clock.place, hr]
      exact ⟨tpf_pos r, h3.2⟩
  | raiseSub a e =>
    refine onClock a _ rfl rfl ?_
    obtain ⟨⟨h1, h2, hw, hl, h3⟩, -⟩ := hu a
    refine ⟨h1, h2, hw, hl, ?_⟩
    cases hr : (u.clock a).rate with
    | none =>
      rw [hr] at h3
      simp only [Clock.raiseSub, Clock.subTarget, Clock.tpf, hr]
      obtain ⟨k1, k2, k3, k4⟩ := h3
      exact ⟨k1, k2, by simp [k3], k4⟩
    | some r =>
      rw [hr] at h3
      simp only [Clock.raiseSub, Clock.subTarget, Clock.tpf, hr]
      refine ⟨?_, h3.2⟩
      have := tpf_pos r
      have h5 := Nat.min_le_right (e * r.tpf / (u.clock a).period) (r.tpf - 1)
      exact max_lt h3.1 (by omega)
  | ref a x => exact onClock a _ rfl rfl (hu a).1
  | advance a f =>
    refine onClock a _ rfl rfl ?_
    obtain ⟨⟨h1, h2, hw, hl, h3⟩, -⟩ := hu a
    refine ⟨Nat.min_le_right _ _, h2, hw, hl, ?_⟩
    cases hr : (u.clock a).rate with
    | none =>
      rw [hr] at h3
      simp only [Clock.advance, Clock.tpf, hr]
      exact ⟨h3.1, by simp [h3.2.1], trivial, h3.2.2.2⟩
    | some r =>
      rw [hr] at h3
      simp only [Clock.advance, hr]
      exact ⟨tpf_pos r, h3.2⟩
  | held a k hk hd =>
    refine onClock a _ rfl rfl ?_
    obtain ⟨⟨h1, -, hw, hl, h3⟩, h4, -⟩ := hu a
    refine ⟨h1, hk, hw, hl, ?_⟩
    cases hr : (u.clock a).rate with
    | none => exact absurd (h4.mpr hr) hd
    | some r => rw [hr] at h3; simp only; exact h3
  | period a e r hr he =>
    refine onClock a _ rfl rfl ?_
    obtain ⟨⟨h1, h2, hw, hl, h3⟩, -⟩ := hu a
    rw [hr] at h3
    refine ⟨h1, h2, hw, hl, ?_⟩
    rw [show ({ u.clock a with period := e } : Clock).rate = some r from hr]
    exact ⟨h3.1, acceptable_inBand he⟩
  | session a x hx =>
    intro b
    simp only [State.onSession_clock, State.onSession_session, State.onSession_showRun]
    split
    · next e =>
      subst e
      obtain ⟨h1, h2, h3, h4⟩ := hu a
      exact ⟨h1, hx.symm.trans h2, h3, fun k y e => ⟨(h4 k y e).1, fun hd => (h4 k y e).2 (hx.mpr hd)⟩⟩
    · exact hu b
  | run a f hp hw =>
    intro b
    simp only [State.onRun_clock, State.onRun_session, State.onRun_showRun]
    split
    · next e =>
      subst e
      obtain ⟨h1, h2, h3, h4⟩ := hu a
      refine ⟨h1, h2, ?_, fun k y e => ?_⟩
      · rcases hp with hp | hp
        · rw [hp]; exact h3
        · rw [hp]; exact captureHold_le u a h3
      · rcases hw with hw | hw | ⟨j, x, hw, hj, hd⟩
        · rw [hw] at e; cases e
        · rw [hw] at e; exact h4 k y e
        · rw [hw] at e
          cases e
          refine ⟨?_, hd⟩
          rcases hj with rfl | hj
          · have := h1.2.2.1
            simp only [List.mem_cons, List.not_mem_nil, or_false] at this
            omega
          · exact hj
    · exact hu b
  | ending a =>
    intro b
    simp only [State.onSession_clock, State.onSession_session, State.onSession_showRun]
    split <;> exact hu b
  | _ => exact hu

end Sys2Proof.Machine
end

