-- ==== Sys2Proof/Laws/Show.lean ====
section
/-! SUPPORT. What background work behind an event adds to a statement of `Safety.lean`: the frames of an auditorium's and of a link
port's event, the session's moves, the raised kinds, saturation; and what a command write on the management port comes to. -/

namespace Sys2Proof.Machine

variable {σ : Option Aud} {s t u v : State}

/-! ### Frames -/

/-- An auditorium that stood up to `u` stands up to what background work makes of it, its position not having changed. -/
theorem Worked.audStands (h : Worked σ u t) {b : Aud} (hσ : σ ≠ some b) (hn : u.now = s.now)
    (hb : u.clock b = s.clock b ∧ u.session b = s.session b ∧ u.showRun b = s.showRun b ∧ (u.cuePort b).lineSide = (s.cuePort b).lineSide ∧
      (u.audCounter b).own = (s.audCounter b).own ∧ (u.store b).quota = (s.store b).quota ∧ (u.store b).used = (s.store b).used ∧
      u.audRecord b = s.audRecord b) :
    s.audStands t b := by
  obtain ⟨k1, k2, k3, k4, k5, k6, k7, k8⟩ := hb
  refine ⟨(h.clock_eq b).trans k1, ?_, (h.cells b).1.trans k6, (h.cells b).2.trans k7, (h.lineSide b).trans k4, (h.own b).trans k5⟩
  have := h.standsOrEnds hσ
  simp only [State.standsOrEnds, State.captureHold, State.pauseCount] at this ⊢
  rw [k2, k3, k8, hn] at this
  exact this

/-- A link port that stood up to `u` stands up to what background work makes of it. -/
theorem Worked.portStands (h : Worked σ u t) {p : Port} (hl : u.link p = s.link p) (hc : (u.linkCounter p).own = (s.linkCounter p).own)
    (ha : pick u.attention.links p = pick s.attention.links p) : s.portStands t p := by
  refine ⟨by rw [h.outside, hl], fun b => ?_, (h.linkOwn p).trans hc, by rw [h.frame.2.2.2.2.2.2.2.2.2, ha]⟩
  have := h.buffer p b
  rw [hl] at this
  exact this

/-- The device-wide state stands through background work. -/
theorem Worked.tablesStand (h : Worked σ u t) (k : s.tablesStand u) : s.tablesStand t := by
  obtain ⟨f1, f2, f3, f4, f5, f6, f7, f8, f9, -⟩ := h.frame
  obtain ⟨g1, g2, g3, g4, g5, g6, g7, g8⟩ := k
  exact ⟨f1.trans g1, f2.trans g2, f3.trans g3, f6.trans g4, f7.trans g5, f5.trans g6, f8.trans g7, f9.trans g8⟩

/-- `v` differs from `s` in what an event of auditorium `a`'s show may itself change, and nowhere else. -/
structure Near (s v : State) (a : Aud) : Prop where
  tables : s.tablesStand v
  others : ∀ b, b ≠ a → v.clock b = s.clock b ∧ v.session b = s.session b ∧ v.showRun b = s.showRun b ∧
    (v.cuePort b).lineSide = (s.cuePort b).lineSide ∧ (v.audCounter b).own = (s.audCounter b).own ∧ v.audRecord b = s.audRecord b
  stores : ∀ b, (v.store b).quota = (s.store b).quota ∧ (v.store b).used = (s.store b).used
  links : ∀ p, v.link p = s.link p ∧ (v.linkCounter p).own = (s.linkCounter p).own ∧ pick v.attention.links p = pick s.attention.links p
  line : (v.cuePort a).lineSide = (s.cuePort a).lineSide
  faults : (v.audCounter a).lineFault = (s.audCounter a).lineFault
  accepted : (v.audCounter a).accepted = (s.audCounter a).accepted

/-- What follows is background work in which no position but that of `a` has changed. -/
theorem Near.onlyShow {a : Aud} (h : Near s v a) (hw : Worked σ v t) (hσ : ∀ b, σ = some b → b = a) : s.onlyShow t a := by
  have ho := hw.own a
  simp only [AudCounters.own, Prod.mk.injEq] at ho
  refine ⟨hw.tablesStand h.tables, fun b hb => ?_, fun p => hw.portStands (h.links p).1 (h.links p).2.1 (h.links p).2.2, (hw.cells a).1.trans (h.stores a).1,
    (hw.cells a).2.trans (h.stores a).2, (hw.lineSide a).trans h.line, by rw [ho.2.2.2.2.1, h.faults], by rw [ho.2.2.2.2.2, h.accepted]⟩
  obtain ⟨k1, k2, k3, k4, k5, k6⟩ := h.others b hb
  exact hw.audStands (fun e => hb (hσ b e)) h.tables.1 ⟨k1, k2, k3, k4, k5, (h.stores b).1, (h.stores b).2, k6⟩

/-- A change of clocks, run parts, sessions, auditorium counters and auditorium attention records alone. -/
theorem Near.of_show {a : Aud}
    (hv : v = { s with
      clocks := v.clocks, runs := v.runs, sessions := v.sessions, audCounters := v.audCounters
      attention := { s.attention with auds := v.attention.auds } })
    (h : ∀ b, b ≠ a → v.clock b = s.clock b ∧ v.session b = s.session b ∧ v.showRun b = s.showRun b ∧ (v.audCounter b).own = (s.audCounter b).own ∧
      v.audRecord b = s.audRecord b)
    (h1 : (v.audCounter a).lineFault = (s.audCounter a).lineFault) (h2 : (v.audCounter a).accepted = (s.audCounter a).accepted) : Near s v a := by
  have e1 : v.cuePorts = s.cuePorts := by rw [hv]
  have e2 : v.stores = s.stores := by rw [hv]
  have e3 : v.links = s.links := by rw [hv]
  have e4 : v.linkCounters = s.linkCounters := by rw [hv]
  refine ⟨⟨by rw [hv], by rw [hv], by rw [hv], by rw [hv], by rw [hv], by rw [hv], by rw [hv], by rw [hv]; rfl⟩, fun b hb => ?_, ?_, ?_, ?_, h1, h2⟩
  · obtain ⟨k1, k2, k3, k4, k5⟩ := h b hb
    exact ⟨k1, k2, k3, by unfold State.cuePort; rw [e1], k4, k5⟩
  · intro b; unfold State.store; rw [e2]; exact ⟨rfl, rfl⟩
  · intro p; unfold State.link State.linkCounter; rw [e3, e4]; exact ⟨rfl, rfl, by rw [hv]⟩
  · unfold State.cuePort; rw [e1]

/-- `v` differs from `s` in what an event of link port `p` may itself change, and nowhere else. -/
theorem Worked.onlyPort (h : Worked none v t) {p : Port}
    (hv : v = { s with links := v.links, linkCounters := v.linkCounters, mgmt := v.mgmt
                       attention := { s.attention with links := v.attention.links } })
    (hq : ∀ q, q ≠ p → v.link q = s.link q ∧ (v.linkCounter q).own = (s.linkCounter q).own ∧
      pick v.attention.links q = pick s.attention.links q) : s.onlyPort t p := by
  refine ⟨h.tablesStand ⟨by rw [hv], by rw [hv], by rw [hv], by rw [hv], by rw [hv], by rw [hv], by rw [hv], by rw [hv]; rfl⟩, fun b => ?_,
    fun q hq' => h.portStands (hq q hq').1 (hq q hq').2.1 (hq q hq').2.2⟩
  refine h.audStands (fun e => by cases e) (by rw [hv]) ?_
  have e1 : v.clocks = s.clocks := by rw [hv]
  have e2 : v.sessions = s.sessions := by rw [hv]
  have e3 : v.runs = s.runs := by rw [hv]
  have e4 : v.cuePorts = s.cuePorts := by rw [hv]
  have e5 : v.audCounters = s.audCounters := by rw [hv]
  have e6 : v.stores = s.stores := by rw [hv]
  have e7 : v.attention.auds = s.attention.auds := by rw [hv]
  unfold State.clock State.session State.showRun State.cuePort State.audCounter State.store State.audRecord
  rw [e1, e2, e3, e4, e5, e6, e7]
  exact ⟨rfl, rfl, rfl, rfl, rfl, rfl, rfl, rfl⟩

/-! ### Sessions -/

theorem raise_bits : ∀ k ∈ [(1 : Byte), 2, 4, 8, 16, 32, 64], ∀ p : Byte,
    (p &&& k = 0 → (p ||| k) &&& k = k) ∧ (¬ p &&& k = 0 → p &&& k = k) := by decide

/-- A raised kind is pending (R170). -/
theorem raise_raises {k : Byte} (hk : k ∈ [(1 : Byte), 2, 4, 8, 16, 32, 64]) (x : AttnRecord) : (x.raise k).pending &&& k = k := by
  have := raise_bits k hk x.pending
  unfold AttnRecord.raise
  split
  · next h => exact this.1 h
  · next h => exact this.2 h

theorem Worked.movesTo (h : Worked σ u t) {a : Aud} (hn : u.now = s.now) : s.movesTo t a (u.showRun a) (u.session a) := by
  rcases h.session a with ⟨h1, h2, -⟩ | ⟨h1, hc, h2, h3, h4⟩
  · exact .inl ⟨h1, h2⟩
  · refine .inr ⟨h1, hc.imp_right (fun k => by rw [h.position_eq]; exact k.2), h2, ?_, ?_⟩
    · rw [State.raised, h4]; exact raise_raises (by decide) _
    · rw [h3, State.captureHold, State.pauseCount, hn]

theorem Worked.ended_stays (h : Worked σ u t) {a : Aud} (he : (u.session a).state = .ended) : (t.session a).state = .ended := by
  rcases h.session a with ⟨h1, -⟩ | ⟨-, -, h2, -⟩
  · rw [h1, he]
  · rw [h2]

theorem enterEnded_ended (u : State) (a : Aud) : ((u.enterEnded a).session a).state = .ended := by
  have h : Worked none _ (State.oweClears ((u.onRun a (fun r => r.atEnd (u.captureHold a))).onSession a (fun x => { x with state := .ended })) a) :=
    Worked.oweClears .refl a
  have := h.ended_stays (a := a) (by simp)
  unfold State.enterEnded
  simp only [State.raiseAud_session]
  exact this

/-- A position at its last value has ended an active show (R37). -/
theorem positionChanged_saturates {a : Aud} (ha : (u.session a).state.isActive = true)
    (h : ((u.positionChanged a).settleFills).position a = 43199999) : (((u.positionChanged a).settleFills).session a).state = .ended := by
  have hw : Worked (some a) u (u.endByPosition a) := Worked.endByPosition .refl a
  have hp : u.position a = 43199999 := by
    have : Worked (some a) u ((u.positionChanged a).settleFills) := Worked.settleFills (Worked.positionChanged .refl)
    rw [this.position_eq] at h; exact h
  refine Worked.ended_stays (σ := some a) (Worked.settleFills .refl) ?_
  unfold State.positionChanged
  simp only
  split
  · have := enterEnded_ended (u.endByPosition a) a
    unfold State.saturatePosition
    simp only
    split
    · simpa using this
    · exact Worked.ended_stays (σ := some a) (Worked.startPurge .refl a _) this
  · next hs =>
    refine Worked.ended_stays (σ := some a) (Worked.release .refl a _) ?_
    rcases hw.session a with ⟨h1, -⟩ | ⟨-, -, h2, -⟩
    · simp [State.saturated, hw.position_eq a, hp, h1, ha, Config.maxPosition] at hs
    · rw [h2]

/-- What follows a change of an active auditorium's position. -/
theorem Near.positionChanged {a : Aud} (h : Near s v a) (ha : (v.session a).state.isActive = true) :
    s.onlyShow ((v.positionChanged a).settleFills) a ∧ ((v.positionChanged a).settleFills).clock a = v.clock a ∧
    s.movesTo ((v.positionChanged a).settleFills) a (v.showRun a) (v.session a) ∧
    (((v.positionChanged a).settleFills).audCounter a).own = (v.audCounter a).own ∧
    (∀ k, v.raised a k → ((v.positionChanged a).settleFills).raised a k) ∧
    (((v.positionChanged a).settleFills).position a = 43199999 → (((v.positionChanged a).settleFills).session a).state = .ended) := by
  have hw : Worked (some a) v ((v.positionChanged a).settleFills) := Worked.settleFills (Worked.positionChanged .refl)
  exact ⟨h.onlyShow hw (fun b e => (Option.some.inj e).symm), hw.clock_eq a, hw.movesTo h.tables.1, hw.own a, fun k hk => hw.raised a k hk, positionChanged_saturates ha⟩

/-! ### Attention -/

theorem raised_raiseAud (s : State) (a : Aud) (k : Byte) (hk : k ∈ [(1 : Byte), 2, 4, 8, 16, 32, 64]) : (s.raiseAud a k).raised a k := by
  rw [State.raised, raiseAud_audRecord, if_pos rfl]; exact raise_raises hk _

/-! ### The management port -/

theorem write_taken (h : s.takesCommands) (f : State → State) : s.write f = .next (f (s.onMgmt (fun m => { m with out := [1] }))) := by
  unfold State.write
  cases e : s.mgmt.transport with
  | working w => exact absurd e (h w)
  | idle => rfl
  | held r => rfl

theorem audOf_ofNat (a : Aud) : audOf (BitVec.ofNat 8 a.val) = some a := by revert a; decide
theorem slotOf_ofNat (k : Slot) : slotOf (BitVec.ofNat 8 k.val) = some k := by revert k; decide
theorem portOf_ofNat (p : Port) : portOf (BitVec.ofNat 8 p.val) = some p := by revert p; decide

/-- The transport takes no part in flow control. -/
theorem flow_onMgmt (s : State) (a : Aud) (f : Mgmt → Mgmt) : (s.onMgmt f).flow a = (s.flow a).onMgmt f := by
  have ht (u : State) : (u.onMgmt f).transmit a = (u.transmit a).onMgmt f := by
    unfold State.transmit
    simp only [State.onMgmt_cuePort]
    split <;> rfl
  have e1 : (s.onMgmt f).mayResume a = s.mayResume a := rfl
  have e2 : (s.onMgmt f).queueCause a = s.queueCause a := rfl
  have e3 : (s.onMgmt f).quotaCause a = s.quotaCause a := rfl
  have e4 (g) : (s.onMgmt f).onPort a g = (s.onPort a g).onMgmt f := rfl
  unfold State.flow
  simp only [State.onMgmt_cuePort, e1, e2, e3, e4, ht]
  split
  · split <;> rfl
  · split
    · split <;> rfl
    · rfl

end Sys2Proof.Machine
end

