-- ==== Sys2Proof/WellFormed.lean ====
section
/-! DEFINITION. Which commands the outside can put: the bounds that a frame's length byte and a port's reading of its bytes set
on a command's operands (R50, R123, R163, 10.2, 10.5, 10.6). A command outside them has a meaning all the same. -/

namespace Sys2Proof

/-- A length byte counts them: at most 255. -/
def fitsLength (bytes : List Byte) : Bool := decide (bytes.length ≤ 255)

/-- The command is one that a frame on its port can spell. -/
def Instr.wf : Instr → Bool
  | .unknownKind a kind fields => fitsLength fields && cueRecord a kind fields == .unknownKind a kind fields
  | .mark _ b | .head _ b | .body _ b | .withdraw _ b | .endRecord _ b | .query _ b => fitsLength b
  | .report _ es => decide (1 ≤ es.length) && decide (es.length ≤ 16)
  | .probeWrite _ b => decide (b.length = 64)
  | .malformed p code args => fitsLength args && linkTransaction p code args == .malformed p code args
  | .unknownCommand code args => fitsLength args && managementFrame code args == .unknownCommand code args
  | .configureAuditorium b | .arm b | .disarm b | .setGate b | .openStream b | .closeStream b | .setCuePort b
  | .resetCuePort b | .setFilter b | .setLink b | .resetLinkPort b | .registerReceiver b | .releaseReceiver b
  | .readReceiver b | .setReceiverPolicy b | .takeLost b | .readAuditorium b | .readStream b | .readLink b
  | .readCounters b | .readAttention b | .ackAttention b | .setAttentionEnable b => fitsLength b
  | .deviceReset | .strobe _ | .subStep _ | .strobeLoss _ | .syntheticStrobe _ | .staleEvent _ | .runChange _ _
  | .character _ _ _ _ | .lineBreak _ | .lineReturnsHigh _ | .gap _ | .assemblerResumes _ | .damagedRecord _ _
  | .insertionPlaces _ | .cellFreed _ | .purgeStep _ | .replySent _ | .fillEnds _ | .pull _ _ | .doneSent _
  | .doneAborted _ | .linkQuery _ | .alignStart _ | .probeRead _ | .alignEndPass _ | .alignEndFail _
  | .silenceTimerExpires _ | .beaconTimerExpires _ | .secondTimerExpires | .fetch | .candidateStartBit _ _ => true

end Sys2Proof
end

