-- ==== Sys2Proof/Tests/Slice0.lean ====
section
/-! SUPPORT. Tests. The expected figures of the first two parts are the manual's own worked figures and tables; the last part
shows, for each statement with hypotheses, a concrete state that meets them. -/

namespace Sys2Proof.Tests

open Sys2Proof.Machine

/-! ### What a frame can spell: an ill-formed term for each check -/

theorem test_wf_unknownKind_of_a_known_kind : (Instr.unknownKind 3 1 []).wf = false := by decide
theorem test_wf_fields_beyond_255 : (Instr.head 0 (List.replicate 256 0)).wf = false := by decide +kernel
theorem test_wf_report_without_entries : (Instr.report 0 []).wf = false := by decide
theorem test_wf_report_of_17 : (Instr.report 0 (List.replicate 17 ⟨1, 0, 0, 0⟩)).wf = false := by decide
theorem test_wf_probeWrite_of_63 : (Instr.probeWrite 0 (List.replicate 63 0)).wf = false := by decide
theorem test_wf_malformed_that_is_a_pull : (Instr.malformed 0 1 [0, 7]).wf = false := by decide
theorem test_wf_unknownCommand_that_is_closeStream : (Instr.unknownCommand 6 [0, 0]).wf = false := by decide
theorem test_wf_arguments_beyond_255 : (Instr.arm (List.replicate 256 0)).wf = false := by decide +kernel
theorem test_wf_accepts : (Instr.mark 0 [0, 1, 213, 187]).wf = true ∧ (Instr.probeWrite 1 (List.replicate 64 9)).wf = true ∧
    (Instr.malformed 0 6 (List.replicate 63 0)).wf = true ∧ (Instr.unknownCommand 24 []).wf = true := by decide

/-! ### What the ports read from their bytes (10.2, 10.5, 10.6) -/

/-- 10.2: a MARK for M = 120,251 has the fields 0, 1, 213, 187. -/
theorem test_read_mark : cueRecord 7 1 [0, 1, 213, 187] = .mark 7 [0, 1, 213, 187] ∧ number [0, 1, 213, 187] = 120251 := by decide
theorem test_read_pull : linkTransaction 2 1 [1, 4] = .pull 2 260 := by decide
theorem test_read_done_of_3 : linkTransaction 2 2 [3] = .malformed 2 2 [3] := by decide
/-- A REPORT's entry: receiver 50,331,650 of auditorium 3, slot 0, two misses (8.10). -/
theorem test_read_report : linkTransaction 2 3 [1, 3, 0, 0, 2, 3, 0, 2] = .report 2 [⟨50331650, 3, 0, 2⟩] := by decide
theorem test_read_command : managementFrame 2 [7, 24] = .arm [7, 24] ∧ managementFrame 0 [] = .fetch ∧
    managementFrame 24 [1] = .unknownCommand 24 [1] := by decide

/-! ### The states of the tests -/

/-- What a command leaves has the property. -/
def after (o : Host.Outcome State Fault Refusal) (p : State → Bool) : Bool :=
  match o with
  | .next t => p t
  | _ => false

/-- The part at an instant. -/
def at_ (now : Nat) (s : State) : State := { s with now := now }

/-- Auditorium 0 in a state of a 24 fps show that has never measured a period, its gate on, a quota of 200 cells. -/
def play (st : AudState) : State :=
  ((State.reset.onSession 0 (fun _ => { state := st, gate := true })).onClock 0 (fun c => { c with
    rate := some .r24, period := 614400, base := 120000 })).onStore 0 (fun x => { x with quota := 200 })

/-- The show of the manual's worked figures: E_u = 614,429. -/
def worked (st : AudState) : State :=
  ((play st).onClock 0 (fun c => { c with period := 614429 })).onRun 0 (fun r => { r with subFrozen := false })

/-- A caption cue of stream 0 with one body. -/
def caption (seq : Seq) (start : Nat) : Cue :=
  { stream := 0, seq := seq, kind := .caption, start := start, length := 100, bodyCount := 1, bodies := [some [65]], life := .queued }

/-- Stream 0 open with these cues. -/
def withCues (cues : List Cue) (s : State) : State := s.onStream 0 (fun st => { st with isOpen := true, queue := cues })

def withContext (c : Context) (s : State) : State := s.onIntake 0 (fun i => { i with context := c })

def withPurge (k : PurgeKind) (current : Option (Slot × Seq)) (todo : List (Slot × Seq)) (s : State) : State :=
  s.onStore 0 (fun st => { st with purge := some { kind := k, todo := todo, current := current, stepStart := 0, waiting := false } })

/-- Link port 2 in a state, its first buffers as given. -/
def linked (st : LinkState) (bufs : List Buffer) (ready : List BufNo) (x : Exchange) (s : State) : State :=
  s.onLink 2 (fun l => { l with
    state := st, readyQueue := ready, exchange := x
    buffers := #v[(bufs[0]?).getD .empty, (bufs[1]?).getD .empty, (bufs[2]?).getD .empty] })

/-- A caption frame of stream 0. -/
def captionFrame (finish : Nat) (two : Bool) : Frame :=
  .item { kind := .caption, stream := 0, number := 5, language := 1, start := 0, finish := finish, payload := [65],
          secondCopy := false, twoCopies := two, robust := false, late := false, filter := some 0 }

/-! ### The manual's figures -/

/-- 1.5: H = 9,830,871 gives 614,429; H = 9,830,856 and 9,830,855 round to 614,429 and 614,428; 9,850,000 is rejected. -/
theorem test_estimate : estimate 9830871 16 = 614429 ∧ estimate 9830856 16 = 614429 ∧ estimate 9830855 16 = 614428 ∧
    estimate 9850000 16 = 615625 ∧ acceptable 614429 614400 = true ∧ acceptable 615625 614400 = false := by decide

/-- 1.6: sub steps to 1 at e = 12,289 and is 24 at e = 300,000. -/
theorem test_subStep : (at_ 12288 (worked .running)).subStepDue 0 = false ∧
    after (exec (.subStep 0) (at_ 12289 (worked .running))) (fun t => (t.clock 0).sub == 1) ∧
    after (exec (.subStep 0) (at_ 300000 (worked .running))) (fun t => (t.clock 0).sub == 24 && t.position 0 == 120024) := by decide

/-- 1.6: at e = 650,000 sub is held at 49. -/
theorem test_subStep_held : after (exec (.subStep 0) (at_ 650000 (worked .running))) (fun t => (t.clock 0).sub == 49) := by decide

/-- 1.7: at 921,643 the strobe is supplied: B = 120,050, sub = 24, COASTING, the reference at 614,429. -/
theorem test_strobeLoss : (at_ 921642 (worked .running)).lossDue 0 = false ∧
    after (exec (.strobeLoss 0) (at_ 921643 (worked .running))) (fun t => (t.clock 0).base == 120050 && (t.clock 0).sub == 24 &&
      (t.clock 0).ref == 614429 && (t.session 0).state == .coasting && (t.audCounter 0).strobeLoss == 1) := by decide

/-- 1.7: a real strobe at e = 271,142 in COASTING is a late edge; at 371,142 it is a normal strobe. -/
theorem test_strobe_in_coasting :
    after (exec (.strobe 0) (at_ 271142 (worked .coasting))) (fun t => (t.clock 0).base == 120000 && (t.session 0).state == .running) ∧
    after (exec (.strobe 0) (at_ 371142 (worked .coasting))) (fun t => (t.clock 0).base == 120050) := by decide

/-- R34: a strobe and a correction to M of one base count end with B at M + tpf in both orders, for M equal to B before or after the strobe;
with the strobe first only M = 120,000 is a slip. A base count later, and in PAUSED, M = 120,000 is R30's. -/
theorem test_strobe_and_mark :
    let s := at_ 614429 (worked .running)
    let both (i j : Instr) (base slip : Nat) : Bool := after (exec i s) (fun u => after (exec j u) (fun t =>
      (t.clock 0).base == base && (t.audCounter 0).slip == slip))
    both (.strobe 0) (.mark 0 [0, 1, 212, 192]) 120050 1 ∧ both (.mark 0 [0, 1, 212, 192]) (.strobe 0) 120050 0 ∧
    both (.strobe 0) (.mark 0 [0, 1, 212, 242]) 120100 0 ∧ both (.mark 0 [0, 1, 212, 242]) (.strobe 0) 120100 1 ∧
    after (exec (.strobe 0) s) (fun u => after (exec (.mark 0 [0, 1, 212, 192]) (at_ 614430 u)) (fun t => (t.clock 0).base == 120000)) ∧
    after (exec (.strobe 0) s) (fun u => after (exec (.setGate [0, 0]) u) (fun v => (v.session 0).state == .paused &&
      after (exec (.mark 0 [0, 1, 212, 192]) v) (fun t => (t.clock 0).base == 120000 && (t.audCounter 0).slip == 1))) := by
  decide

/-- R12, R13, R20, R91, R93, R75, R127, R139, R154: one base count before each instant, and the instant. -/
theorem test_due_figures :
    let cell := (play .running).onStore 0 (fun st => { st with freeing := [{ cells := 1, tag := .none }] })
    let walk := withPurge .saturation (some (0, 1)) [] (play .ended)
    let place := withContext (.inserting (caption 7 50) { todo := [2, 1], current := some 3, stepStart := 0 })
      (withCues [caption 1 50, caption 2 51, caption 3 52] (play .armed))
    let port := (linked .serving [] [] .closed State.reset).onLink 2 (fun l => { l with
      silenceLimit := 2, silenceStart := some 0, beaconDue := some 7 })
    let pause := ((play .paused).onClock 0 (fun c => { c with staleLimit := 10 })).onRun 0 (fun r => { r with pauseStart := some 0 })
    (∀ x ∈ [(cell, Instr.cellFreed 0, 16), (walk, .purgeStep 0, 200), (place, .insertionPlaces 0, 800), (port, .silenceTimerExpires 2, 24576),
        (port, .beaconTimerExpires 2, 7), (pause, .staleEvent 0, 122880), (worked .coasting, .syntheticStrobe 0, 614429),
        (State.reset, .secondTimerExpires, 14745600)],
      (at_ (x.2.2 - 1) x.1).dueTest x.2.1 = some false ∧ (at_ x.2.2 x.1).dueTest x.2.1 = some true) := by decide +kernel

/-- 4.3: T = 43,190,000 with D = 40,000 is clamped to 10,000. -/
theorem test_clamp :
    HeadFields.clamped { seq := 1, slot := 0, kind := 1, start := 43190000, length := 40000, bodyCount := 1 } .caption = 10000 := by decide

/-- 8.10: health 124 and a report with a miss give 132 and DEGRADED, counted by streams 18 and 20; from 128 a clean one gives 127, GOOD. -/
theorem test_health :
    let r : Receiver := { state := .good, id := 50331650, auditorium := 3, slots := 5, health := 124 }
    let s := State.reset.onRx 0 (fun _ => r)
    let d := State.reset.onRx 0 (fun _ => { r with state := .degraded, health := 128 })
    after (exec (.report 2 [⟨50331650, 3, 0, 1⟩]) s) (fun t => (t.rx 0).health == 132 && (t.rx 0).state == .degraded &&
      (t.stream 18).degraded == 1 && (t.stream 20).degraded == 1 && (t.stream 19).degraded == 0) ∧
    after (exec (.report 2 [⟨50331650, 3, 0, 0⟩]) d) (fun t => (t.rx 0).health == 127 && (t.rx 0).state == .good) := by decide +kernel

/-- 10.2: a QUERY on the line is a break, then 6 and 0; the STATUS goes out (R58). -/
theorem test_query_on_the_line :
    recordEntries 6 [] = [{ item := .brk }, { item := .char 6 }, { item := .char 0 }] ∧
    after (exec (.query 0 []) (play .running)) (fun t => (t.cuePort 0).transmission.map Transmission.sent ==
      some (.reply (.status .running 120000 0 200 false))) := by decide

/-- 7.8: an unwritten slot reads 255 down to 192. -/
theorem test_probe_filler : after (exec (.probeRead 2) (linked .aligning [] [] .closed State.reset))
    (fun t => (t.link 2).answer == [7, 64] ++ (List.range 64).map (fun k => BitVec.ofNat 8 (255 - k))) := by decide +kernel

/-- R156: the sixteenth clean report in a row returns a LOST receiver with health 0. -/
theorem test_recovery :
    after (exec (.report 2 [⟨9, 3, 0, 0⟩]) (State.reset.onRx 0 (fun _ =>
      { state := .lost, id := 9, auditorium := 3, slots := 1, health := 255, cleanRun := 15 })))
      (fun t => (t.rx 0).state == .good && (t.rx 0).health == 0) := by decide +kernel

/-! ### Witnesses: for each statement with hypotheses, states and operands that meet them -/

theorem takes : State.reset.takesCommands := by intro w h; cases h

/-- A state changed elsewhere takes commands as before. -/
theorem takes_of {s : State} (h : s.mgmt.transport = .idle) : s.takesCommands := by intro w e; rw [h] at e; cases e

theorem noOpen {s : State} {a : Aud} (h : (s.intake a).context = .idle) : ∀ c n, (s.intake a).context ≠ .opened c n := by
  intro c n e; rw [h] at e; cases e

theorem noWait {s : State} {a : Aud} (h : (s.cuePort a).receiver = .idle) : ∀ k, (s.cuePort a).receiver ≠ .waitHigh k := by
  intro k e; rw [h] at e; cases e

/-- O1, O3: a command in front; an empty queue, with an event due and without one; an event that is not due. -/
theorem witness_step : ({ State.reset with pending := [.fetch, .query 0 []] } : State).pending = .fetch :: [.query 0 []] ∧
    State.reset.pending = [] ∧ (at_ 12289 (worked .running)).pending = [] ∧
    (at_ 12289 (worked .running)).dueTest (.subStep 0) = some true ∧ (at_ 12288 (worked .running)).dueTest (.subStep 0) = some false := by
  decide

/-- O6, O7, O9: a running show at its last position is in range and takes a strobe; so do full queues and a SENDING frame. -/
theorem witness_clocks : ((worked .running).clock 0).wf ∧ ((worked .running).showRun 0).wf 16 False ∧
    after (exec (.strobe 0) (worked .running)) (fun _ => true) := by
  refine ⟨⟨by decide, by decide, by decide, by decide, by decide, by decide, by decide⟩, ⟨by decide, fun _ _ e => by cases e⟩, by decide⟩

theorem witness_quotas : ((play .running).quotasWf) ∧ after (step (play .running)) (fun _ => true) := by
  refine ⟨?_, by decide⟩
  show _ ≤ _
  decide

/-- Auditorium 0 with a caption open that has one of its two bodies, its quota 3. -/
def openCue : State := withContext (.opened { caption 7 130000 with bodyCount := 2, life := .assembling } 1)
  { (play .running).onStore 0 (fun x => { x with quota := 3, used := 2 }) with freeCells := 8190 }

/-- O7: with a cell outstanding and one to spare, and what the last body leaves. -/
theorem witness_cells : openCue.cellsWf ∧ after (exec (.body 0 [66]) openCue) (fun t => (t.store 0).used == 3 && t.freeCells == 8189) := by
  have queues : ∀ n, (openCue.stream n).queue = [] := by
    intro n
    show (pick (Vector.replicate 96 ({} : Stream)) n).queue = []
    simp [pick]
  have contexts : ∀ a, a ≠ 0 → (openCue.intake a).context = .idle := by decide
  refine ⟨⟨?_, ⟨fun n => by rw [queues n]; simp [seqs], fun a c h => ?_⟩, by decide, fun a => ⟨?_, ?_, fun c owed h => ?_, ?_, ?_, ?_, ?_⟩⟩, by decide⟩
  · show _ ≤ _
    decide
  · by_cases e : a = 0
    · subst e; cases h; exact ⟨by decide, by rw [queues]; simp [seqs], by rw [queues]; simp⟩
    · rw [contexts a e] at h; cases h
  · have h : ∀ a, (slots.map (fun k => ((openCue.stream (streamOf a k)).queue.map Cue.cells).sum)).sum = 0 := by
      intro a; simp only [queues]; decide
    rw [State.cellsOf, h a]
    revert a
    decide
  · revert a; decide
  · by_cases e : a = 0
    · subst e; cases h; decide
    · rw [contexts a e] at h; cases h
  · have : ∀ a, (openCue.store a).freeing = [] := by decide
    rw [this a]; simp
  · revert a; decide
  · intro n
    have : ∀ a, (openCue.intake a).deferred = [] := by decide
    rw [this a]; simp
  · intro h
    have d : ∀ a, a ≠ 0 → (openCue.store a).purge = none ∧ (openCue.store a).used = 0 := by decide
    by_cases e : a = 0
    · subst e; exact absurd h (by decide)
    · refine ⟨by rw [contexts a e]; rfl, by revert a; decide, ?_⟩
      rw [(d a e).1]; exact (d a e).2

def queueOf32 : State := State.reset.onPort 0 (fun p => { p with
  queue := List.replicate 32 { item := .char 65 }, replies := List.replicate 8 (.jumpSeen 0 1) })

theorem witness_cueQueues : queueOf32.cueQueuesWf ∧ after (step queueOf32) (fun _ => true) := by
  refine ⟨?_, by decide⟩
  show ∀ a, _
  decide

def twoCues : State := withCues [caption 1 100, caption 2 100] (play .running)

theorem witness_streamQueues : twoCues.queuesOrdered ∧ twoCues.cuesDistinct ∧ after (step twoCues) (fun _ => true) := by
  refine ⟨?_, ⟨?_, ?_⟩, by decide⟩
  · show ∀ n, _
    decide +kernel
  · show ∀ n, _ ∧ _
    decide +kernel
  · intro a c h
    have e : ∀ b, (twoCues.intake b).context = .idle := by decide
    rw [e a] at h; cases h

def sendingRing : State := linked .serving [.sending (captionFrame 500 true)] [] (.buffer 0) (play .running)

theorem sendingRing_wf : sendingRing.ringsWf := by
  show ∀ p, _ ∧ _
  decide

theorem witness_rings : sendingRing.ringsWf ∧ after (exec (.pull 2 9) sendingRing) (fun _ => true) := ⟨sendingRing_wf, by decide⟩

/-- One LOST receiver, listed. -/
def oneLost : State := (State.reset.onRx 0 (fun _ => { state := .lost, id := 9, slots := 1, health := 255 })).onTable (fun t =>
  { t with lost := [0] })

theorem rx_oneLost (i : RxIndex) : oneLost.rx i = if i = 0 then { state := .lost, id := 9, slots := 1, health := 255 } else ({} : Receiver) := by
  show pick (change (Vector.replicate 1024 ({} : Receiver)) 0 _) i = _
  rw [pick_change]
  by_cases h : i = 0
  · subst h; simp
  · rw [if_neg h, if_neg (Ne.symm h)]; simp [pick]

theorem witness_receivers : oneLost.receiversWf ∧ oneLost.lostListWf ∧ oneLost.degradedCountsWf ∧
    after (exec (.takeLost []) oneLost) (fun _ => true) := by
  refine ⟨?_, ⟨by decide, by decide⟩, ?_, by decide⟩
  · intro i
    rw [rx_oneLost]
    by_cases h : i = 0
    · rw [if_pos h]; exact ⟨by decide, by decide, by decide⟩
    · rw [if_neg h]; rfl
  · intro a k
    have e : (rxIndexes.filter (fun i => (oneLost.rx i).struggles a k)) = [] := by
      rw [List.filter_eq_nil_iff]
      intro i _
      rw [rx_oneLost]
      by_cases h : i = 0 <;> simp [h, Receiver.struggles]
    rw [e]
    show (pick (Vector.replicate 96 ({} : Stream)) _).degraded = 0
    simp [pick]

/-- O11: a FETCH changes none of the four; a STALE_EVENT's stale mark is of the second part of the clock. -/
theorem witness_whoChanges : changesReceivers .fetch = false ∧ changesTable .fetch = false ∧ changesClocks .fetch = false ∧
    changesRuns .fetch = false ∧ changesClocks (.staleEvent 0) = false ∧ changesRuns (.staleEvent 0) = true ∧
    after (exec .fetch State.reset) (fun _ => true) := by decide

/-- O12: PAUSED; COASTING, on both sides of half a period. -/
theorem witness_strobeOutside : ((play .paused).session 0).state ≠ .running ∧ ((play .paused).session 0).state ≠ .coasting ∧
    ((at_ 307213 (worked .coasting)).session 0).state = .coasting ∧ ((at_ 307213 (worked .coasting)).clock 0).rate = some .r24 ∧
    min (307213 - ((at_ 307213 (worked .coasting)).clock 0).ref) 4294967295 < ((worked .coasting).clock 0).period / 2 ∧
    ¬ min (307214 - ((at_ 307214 (worked .coasting)).clock 0).ref) 4294967295 < ((worked .coasting).clock 0).period / 2 := by decide

/-- No port is SERVING, so that none can begin a fill. -/
theorem busy_of {s : State} (h : ∀ p, (s.link p).state ≠ .serving) : s.ringsBusy := fun p k => absurd k (h p)

/-- Nor can one whose fill is in progress: `ringsBusy` with port 2 SERVING. -/
theorem witness_ringsBusy : (linked .serving [.filling (.beacon []) 9] [] .closed State.reset).ringsBusy ∧
    ((linked .serving [.filling (.beacon []) 9] [] .closed State.reset).link 2).state = .serving := by
  refine ⟨fun p h => ?_, by decide⟩
  by_cases e : p = 2
  · subst e; exact .inl ⟨0, .beacon [], 9, by decide⟩
  · exact absurd h ((by decide : ∀ p, p ≠ 2 → ((linked .serving [.filling (.beacon []) 9] [] .closed State.reset).link p).state ≠ .serving) p e)

/-- The running show at its first sub-frame threshold, P going from 120,000 to 120,001, with one cue. -/
def lone (c : Cue) : State := at_ 12289 (withCues [c] (worked .running))

theorem lone_only (c : Cue) : (lone c).onlyCue 0 c := by
  refine ⟨by simp [lone, at_, withCues, State.stream, State.onStream], fun m h _ => ?_⟩
  show (pick (change (Vector.replicate 96 ({} : Stream)) 0 _) m).queue = []
  rw [pick_change, if_neg (Ne.symm h)]
  simp [pick]

theorem lone_calm (c : Cue) : (lone c).calm 0 := ⟨rfl, rfl, rfl, busy_of ((by decide) : ∀ p, ((worked .running).link p).state ≠ .serving)⟩

/-- A narration cue of stream 0 with two blocks. -/
def narration (start : Nat) : Cue :=
  { stream := 0, seq := 1, kind := .narration, start := start, length := 2, bodyCount := 2, bodies := [some [1], some [2]], life := .queued }

/-- Port 2 SERVING and full, its filter 0 for CAPTION and NARRATION of auditorium 0 in any language: a carrier of stream 0. -/
def carried (s : State) : State := (linked .serving [.ready .notServing, .ready .notServing, .ready .notServing] [0, 1, 2] .closed s).onLink 2
  (fun l => { l with filters := change l.filters 0 (fun _ => { auditoriums := 1, kinds := 3, language := none }) })

/-- A running show whose window has counted `k` strobes since instant 0. -/
def windowed (k now : Nat) : State := at_ now ((worked .running).onRun 0 (fun r => { r with window := .opened k 0 }))

/-- O13: no window; the strobe before the last; the last, its estimate accepted, and rejected. -/
theorem witness_strobeRunning : ((worked .running).showRun 0).window = .closed ∧ ((worked .running).clock 0).rate = some .r24 ∧
    ((windowed 14 9000000).showRun 0).window = .opened 14 0 ∧ 14 + 1 < ((windowed 14 9000000).clock 0).windowSize ∧
    ¬ 15 + 1 < ((windowed 15 9830871).clock 0).windowSize ∧
    after (exec (.strobe 0) (windowed 15 9830871)) (fun t => (t.clock 0).period == 614429 && (t.audCounter 0).rateFault == 0) ∧
    after (exec (.strobe 0) (windowed 15 9850000)) (fun t => (t.clock 0).lastHold == 9850000 && (t.audCounter 0).rateFault == 1) := by
  decide

/-- O13: a strobe that saturates the position, with a cue QUEUED, with a cue open, and beside a purge. -/
theorem witness_saturation : let s := (withCues [caption 1 43199000] (play .running)).onClock 0 (fun c => { c with base := 43199949 })
    let o := withContext (.opened (caption 7 43199990) 2) s
    43199999 ≤ (s.clock 0).base + Rate.tpf .r24 ∧ (∀ p, (s.link p).state ≠ .serving) ∧
    (∀ k, ∀ c ∈ (s.stream (streamOf 0 k)).queue, c.life = .queued) ∧ (s.store 0).closeWaiting = none ∧ (s.store 0).purge = none ∧
    s.cueInProgress 0 = false ∧ s.queuesEmpty 0 = false ∧ (o.intake 0).context.cue = some (caption 7 43199990) ∧
    after (exec (.strobe 0) o) (fun t => (t.intake 0).context == .skipping (some 2) && (t.store 0).freeing == [{ cells := 2, tag := .purge }] &&
      (t.session 0).state == .ended) ∧
    after (exec (.strobe 0) (withPurge (.withdraw 0 1) (some (0, 1)) [] s)) (fun t => (t.store 0).saturationOwed) := by decide +kernel

/-- O14: a caption that is over, or not, at P = 120,001; one that waits for its release time; a block at its end and one before it. -/
theorem witness_release :
    (lone (caption 1 119901)).dueTest (.subStep 0) = some true ∧ (lone (caption 1 119901)).position 0 = 120000 ∧
    (caption 1 119901).start + (caption 1 119901).length = 120001 ∧
    after (exec (.subStep 0) (lone (caption 1 119901))) (fun t => (t.audCounter 0).expired == 1 && (t.stream 0).queue.isEmpty) ∧
    after (exec (.subStep 0) (lone (caption 1 119902))) (fun t => (t.audCounter 0).unrouted == 1 && (t.stream 0).frameSeq == 1) ∧
    after (exec (.subStep 0) (lone (caption 1 120002))) (fun t => (t.stream 0).queue == [caption 1 120002]) ∧
    after (exec (.subStep 0) (lone { caption 1 119901 with life := .onAir })) (fun t => (t.stream 0).queue.isEmpty && (t.audCounter 0).expired == 0) ∧
    after (exec (.subStep 0) (carried (lone (caption 1 120001)))) (fun t =>
      (t.stream 0).queue == [{ caption 1 120001 with life := .due, due := some { number := 0, pending := [2], staged := false } }]) ∧
    after (exec (.subStep 0) (lone { caption 1 119901 with life := .due, due := some { number := 0, pending := [2], staged := false } }))
      (fun t => (t.audCounter 0).expired == 1 && (t.linkCounter 2).lapsed == 1) ∧
    after (exec (.subStep 0) (lone { narration 119977 with life := .playing, due := some { number := 0, pending := [2], staged := false } }))
      (fun t => (t.audCounter 0).skip == 1 && (t.linkCounter 2).lapsed == 1) := by decide +kernel

/-- O14: release looks once at the last block, and at one whose next block lies ahead; a block due before its end, and one at its end. -/
theorem witness_blocks : (lone (narration 120000)).oneLook 0 { narration 120000 with cursor := 1 } ∧ (lone (narration 120000)).oneLook 0 (narration 120000) ∧
    120001 < (narration 119978).start + 24 * ((narration 119978).cursor + 1) ∧ (narration 119977).start + 24 * ((narration 119977).cursor + 1) ≤ 120001 ∧
    (seqs [caption 1 120000, caption 2 120000]).Nodup ∧ (carried (lone (caption 1 1))).carriers 0 = [2] ∧
    (lone (caption 1 1)).insertionRuns 0 = false :=
  ⟨.inl (by decide), .inr (.inl (by decide)), by decide, by decide, by decide, by decide, by decide⟩

/-- O14: a block that starts at 43,199,999 falls due, and one that starts beyond waits, whatever the lead; the last cue, over, of a show with
its ending mark set. -/
theorem witness_beyond :
    let s (start : Nat) : State := (lone { narration start with life := .playing, cursor := 1 }).onClock 0 (fun c => { c with base := 43199900 })
    let far (start : Nat) : State := carried ((s start).onStream 0 (fun st => { st with lead := 2400 }))
    (far 43199976).oneLook 0 { narration 43199976 with cursor := 0 } ∧
    after (exec (.subStep 0) (far 43199975)) (fun t => (t.stream 0).frameSeq == 1) ∧
    after (exec (.subStep 0) (far 43199976)) (fun t => (t.stream 0).frameSeq == 0 && (t.stream 0).queue == ((far 43199976).stream 0).queue) ∧
    (let e := (lone { caption 1 119901 with life := .onAir }).onSession 0 (fun x => { x with ending := true })
    (e.store 0).purge = none ∧ e.insertionRuns 0 = false ∧
    after (exec (.subStep 0) e) (fun t => (t.session 0).state == .ended)) :=
  ⟨.inr (.inr (.inl (by decide))), by decide +kernel, by decide +kernel, by decide, by decide, by decide +kernel⟩

/-- O14 to O16: a threshold, a loss, a synthetic strobe and a stale limit reached. -/
theorem witness_clockEvents : (at_ 12289 (worked .running)).dueTest (.subStep 0) = some true ∧
    (at_ 921643 (worked .running)).dueTest (.strobeLoss 0) = some true ∧
    (at_ 614429 (worked .coasting)).dueTest (.syntheticStrobe 0) = some true ∧
    (at_ (10 * 12288) (((play .paused).onClock 0 (fun c => { c with staleLimit := 10 })).onRun 0 (fun r =>
      { r with pauseStart := some 0 }))).dueTest (.staleEvent 0) = some true := by decide

/-- O18: the level the input has, and the other one; a port that takes commands. -/
theorem witness_runAndGate : (play .paused).runHigh 0 = false ∧ (play .paused).runHigh 0 ≠ true ∧ (play .paused).takesCommands :=
  ⟨by decide, by decide, takes_of rfl⟩

/-- O18: a pause with the stale mark set and a caption on the air that starts at P, and one whose last tick is P; no carrier and one. -/
theorem witness_staleResume :
    let s (start : Nat) : State := (withCues [{ caption 1 start with life := .onAir }] (play .paused)).onRun 0 (fun r =>
      { r with staleMark := true, pauseStart := some 0 })
    (∀ x ∈ [120000, 119901], ((s x).session 0).state = .paused ∧ ((s x).showRun 0).staleMark = true ∧ (s x).runHigh 0 = false ∧
      ((s x).session 0).gate = true ∧ x ≤ (s x).position 0 ∧ (s x).position 0 < x + 100) ∧
    after (exec (.runChange 0 true) (s 120000)) (fun t => (t.audCounter 0).resent == 0) ∧
    after (exec (.runChange 0 true) (carried (s 120000))) (fun t => (t.audCounter 0).resent == 1) ∧
    after (exec (.runChange 0 true) (withPurge (.withdraw 0 1) none [] (s 120000))) (fun t => (t.store 0).staleWaiting == some 120000) := by
  decide +kernel

/-- A freeing request of the intake is in progress: an intake pause. -/
def pausedWith (q : List Entry) : State :=
  ((play .running).onStore 0 (fun st => { st with freeing := [{ cells := 2, tag := .none }] })).onPort 0 (fun p => { p with queue := q })

/-- O19: a receiver that waits; a pause with 31 and with 32 entries queued. -/
theorem witness_completion :
    ((State.reset.onPort 0 (fun p => { p with receiver := .waitHigh true })).cuePort 0).receiver = .waitHigh true ∧
    (∀ k, ((pausedWith []).cuePort 0).receiver ≠ .waitHigh k) ∧
    (pausedWith (List.replicate 31 { item := .brk })).paused 0 = true ∧
    ((pausedWith (List.replicate 31 { item := .brk })).cuePort 0).queue.length < 32 ∧
    (pausedWith (List.replicate 32 { item := .brk })).paused 0 = true ∧
    ¬ ((pausedWith (List.replicate 32 { item := .brk })).cuePort 0).queue.length < 32 :=
  ⟨by decide, noWait (by decide), by decide, by decide, by decide, by decide⟩

def inFraming (f : Framing) : State := State.reset.onPort 0 (fun p => { p with framing := f })

/-- O20: an assembler at rest, at the kind, at the length, at a length taken in error, with two fields to take and with one. -/
theorem witness_assembler : (∀ f, ∀ k, ((inFraming f).cuePort 0).receiver ≠ .waitHigh k) ∧
    (∀ f ∈ [Framing.between, .kind, .length 6 true false, .length 6 true true, .fields 1 true 2 [], .fields 1 true 1 [0, 0, 0]],
      (inFraming f).paused 0 = false ∧ ((inFraming f).cuePort 0).queue = [] ∧ ((inFraming f).cuePort 0).receiver = .idle ∧
      ((inFraming f).cuePort 0).framing = f ∧ ((inFraming f).intake 0).deferred = []) ∧
    after (exec (.character 0 0 false true) (inFraming (.length 6 true false))) (fun t => (t.cuePort 0).transmission.isSome) ∧
    after (exec (.character 0 1 false true) ((inFraming .kind).onPort 0 (fun p => { p with parity := .even })))
      (fun t => (t.cuePort 0).framing == .length 1 false false && (t.cuePort 0).damaged) ∧
    after (exec (.character 0 1 true true) ((inFraming .kind).onPort 0 (fun p => { p with parity := .even })))
      (fun t => (t.cuePort 0).framing == .length 1 true false && !(t.cuePort 0).damaged) :=
  ⟨fun _ => noWait rfl, by decide⟩

/-- O20, O22: a break and a gap inside an undamaged record and inside a damaged one, its kind taken with an error. -/
theorem witness_abandoned :
    let lost (t : State) (reply : Reply) (lineFault : Nat) : Bool := (t.cuePort 0).transmission.any (fun x => x.sent == .reply reply) &&
      (t.audCounter 0).refused == 1 && (t.audCounter 0).lineFault == lineFault
    let good : State := inFraming (.fields 1 true 2 [])
    let bad : State := (inFraming (.length 1 false true)).onPort 0 (fun p => { p with damaged := true })
    let due (s : State) : State := at_ 100 (s.onPort 0 (fun p => { p with gapTimer := some { start := 0, length := 100 } }))
    (due bad).dueTest (.gap 0) = some true ∧ (bad.intake 0).context = .idle ∧ (bad.intake 0).deferred = [] ∧
    (good.cuePort 0).kindTaken = some 1 ∧ (bad.cuePort 0).kindTaken = none ∧
    after (exec (.lineBreak 0) good) (fun t => lost t (.refuse 1 0 .truncated) 0 && (t.cuePort 0).framing == .kind) ∧
    after (exec (.lineBreak 0) bad) (fun t => lost t (.refuse 0 0 .lineError) 1 && (t.cuePort 0).framing == .kind) ∧
    after (exec (.gap 0) (due good)) (fun t => lost t (.refuse 1 0 .truncated) 0 && (t.cuePort 0).framing == .between) ∧
    after (exec (.gap 0) (due bad)) (fun t => lost t (.refuse 0 0 .lineError) 1 && (t.cuePort 0).framing == .between) := by
  decide +kernel

/-- O22: a queue that holds just a QUERY is answered; with an overrun mark on its kind it is damaged; a gap mark on its kind truncates it, and
its length is then a stray character. -/
theorem witness_resumed :
    let queued (x : Entry) : State := State.reset.onPort 0 (fun p => { p with queue := [{ item := .brk }, x, { item := .char 0 }] })
    let sent (t : State) (reply : Reply) : Bool := (t.cuePort 0).transmission.any (fun x => x.sent == .reply reply)
    let run (x : Entry) (check : State → Bool) : Prop :=
      (queued x).dueTest (.assemblerResumes 0) = some true ∧ after (exec (.assemblerResumes 0) (queued x)) check
    run { item := .char 6 } (fun t => (t.cuePort 0).transmission.isSome && (t.audCounter 0).refused == 0 && (t.cuePort 0).queue == []) ∧
    run { item := .char 6, overrun := true } (fun t => sent t (.refuse 0 0 .lineError) && (t.audCounter 0).refused == 1) ∧
    run { item := .char 6, gap := true } (fun t => sent t (.refuse 6 0 .truncated) && (t.audCounter 0).lineFault == 1) := by decide +kernel

/-- O22: a gap due on a queued entry, between records and inside one; entries left behind a pause that has ended. -/
theorem witness_gap : let due (s : State) : State := at_ 100 (s.onPort 0 (fun p => { p with gapTimer := some { start := 0, length := 100 } }))
    (due (State.reset.onPort 0 (fun p => { p with queue := [{ item := .char 1 }] }))).dueTest (.gap 0) = some true ∧
    (due (inFraming .between)).dueTest (.gap 0) = some true ∧ (due (inFraming (.fields 2 true 3 [0]))).dueTest (.gap 0) = some true ∧
    ((due (inFraming (.fields 2 true 3 [0]))).intake 0).context = .idle ∧
    (State.reset.onPort 0 (fun p => { p with queue := [{ item := .brk }] })).dueTest (.assemblerResumes 0) = some true := by decide

/-- O23: for each of the five clauses a port at its boundary. -/
theorem witness_flow :
    let port (st : AudState) (used n : Nat) (held : Bool) : State := ((play st).onStore 0 (fun x => { x with used := used })).onPort 0 (fun p =>
      { p with queue := List.replicate n { item := .brk }, holdOutstanding := held })
    let left (s : State) : Nat := (s.store 0).quota - (s.store 0).used
    (((port .running 167 24 false).cuePort 0).queue.length = 24 ∧ left (port .running 167 24 false) = 33) ∧
    left (port .running 168 0 false) = 32 ∧
    (((port .running 167 23 false).cuePort 0).queue.length = 23) ∧
    (((port .running 104 8 true).cuePort 0).queue.length ≤ 8 ∧ left (port .running 104 8 true) = 96) ∧
    (8 < ((port .running 0 9 true).cuePort 0).queue.length ∧ left (port .running 105 8 true) = 95) := by decide

/-- O24: a reply whose last character has been sent. -/
theorem witness_replySent : (at_ 5000 (State.reset.onPort 0 (fun p => { p with
    transmission := some { sent := .flow .hold, boundary := 1408, left := 2, divisor := 8, parity := .none } }))).dueTest (.replySent 0)
    = some true := by decide

/-- O25: a pause with room for one more entry than the damaged record has, and with just enough. -/
theorem witness_waitingRecords : (pausedWith (List.replicate 27 { item := .brk })).paused 0 = true ∧ 28 + 4 ≤ 32 ∧
    after (exec (.damagedRecord 0 (some 2)) (pausedWith (List.replicate 28 { item := .brk }))) (fun t => (t.cuePort 0).queue.length == 32 &&
      (t.audCounter 0).refused == 0) ∧ cueRecord 0 6 [] = .query 0 [] := by decide

/-- O25, O26, O29 to O31: a line side at rest and one that is not. -/
theorem witness_atRest : State.reset.atRest 0 = true ∧ (inFraming .kind).atRest 0 = false ∧
    (∀ c n, (State.reset.intake 0).context ≠ .opened c n) ∧ (play .ended).atRest 0 = true ∧ ((play .ended).session 0).state = .ended ∧
    (withContext (.skipping (some 1)) State.reset).atRest 0 = true ∧ (withContext (.skipping (some 2)) State.reset).atRest 0 = true ∧
    (withContext (.skipping none) State.reset).atRest 0 = true :=
  ⟨by decide, by decide, noOpen rfl, by decide, by decide, by decide, by decide, by decide⟩

/-- O26: marks and WITHDRAWs at the first position beyond the last; a slot that is closed, and one that is none. -/
theorem witness_refusals : 43199999 < number [2, 147, 46, 0] ∧ slotOf 5 = some 5 ∧ slotOf 6 = none ∧
    ((play .running).stream (streamOf 0 5)).isOpen = false := by decide

/-- O27: the first mark of an ARMED auditorium; a mark equal to B and one two frames away. -/
theorem witness_marks : (play .armed).atRest 0 = true ∧ ((play .armed).session 0).state = .armed ∧
    number [2, 147, 45, 255] = 43199999 ∧ (play .running).atRest 0 = true ∧ ((play .running).session 0).state.isReleasing = true ∧
    number [0, 1, 212, 192] = ((play .running).clock 0).base ∧
    number [0, 1, 213, 36] - ((play .running).clock 0).base = 2 * Rate.tpf .r24 ∧
    after (exec (.strobe 0) (at_ 614429 (worked .running))) (fun t => decide ((t.showRun 0).strobedAt = some t.now) && t.atRest 0) := by decide

/-- O28: a mark one tick further, forward and backward, with a QUEUED cue. -/
theorem witness_jump : let s := withCues [caption 1 130000] (play .running)
    s.atRest 0 = true ∧ (s.session 0).state.isReleasing = true ∧
    number [0, 1, 213, 37] - (s.clock 0).base = 2 * Rate.tpf .r24 + 1 ∧
    (s.clock 0).base - number [0, 1, 212, 91] = 2 * Rate.tpf .r24 + 1 ∧ s.queuesEmpty 0 = false ∧
    (∀ k, ∀ c ∈ (s.stream (streamOf 0 k)).queue, c.life = .queued) ∧ ∀ p, (s.link p).state ≠ .serving := by decide +kernel

/-- O28: a jump purge's walk begins with slot 0 and ends with slot 2, each from head to tail. -/
theorem test_jump_walk :
    let s := (withCues [caption 1 130000, caption 2 130500] (play .running)).onStream 2 (fun st => { st with
      isOpen := true, queue := [caption 3 125000, caption 4 126000] })
    let p : Purge := { kind := .backward 119899, current := some (0, 1), todo := [(0, 2), (2, 3), (2, 4)], stepStart := s.now, waiting := false }
    after (exec (.mark 0 [0, 1, 212, 91]) s) (fun t => (t.store 0).purge == some p) := by decide +kernel

/-- O29, O30: a HEAD that fails a check, and one that passes the nine. -/
theorem witness_head :
    let h : HeadFields := { seq := 7, slot := 0, kind := 1, start := 130000, length := 100, bodyCount := 2 }
    headFields [0, 1, 0, 7, 0, 1, 251, 208, 0, 100, 2] = some h ∧ (play .running).headFails 0 h = some .streamClosed ∧
    (withCues [] (play .running)).headFails 0 h = none ∧
    (let n (d : Cue) : State := (withCues [d] (play .running)).onStream 0 (fun st => { st with kind := .narration })
    let g : HeadFields := { h with kind := 2, length := 2 }
    (n (narration 130047)).headFails 0 g = some .overlap ∧ (n (narration 130048)).headFails 0 g = none ∧
      (n { caption 1 130000 with seq := 1 }).headFails 0 g = none ∧
      after (exec (.head 0 [0, 2, 0, 7, 0, 1, 251, 208, 0, 2, 2]) (n (caption 1 130000))) (fun t => (t.audCounter 0).refused == 0)) ∧ (withCues [caption 7 1] (play .running)).headFails 0 h = some .duplicate ∧
    slotOf h.slot = some 0 ∧ (withCues [] (play .running)).atRest 0 = true := by decide

/-- O32: an open cue, bodies at both ends of its range and beyond it, and a record that breaks it. -/
theorem witness_openCue : let s := withContext (.opened { caption 7 130000 with bodies := [], bodyCount := 2 } 2) (withCues [] (play .running))
    s.atRest 0 = true ∧ (s.intake 0).context = .opened { caption 7 130000 with bodies := [], bodyCount := 2 } 2 ∧
    (List.replicate 60 (65 : Byte)).length ≤ 60 ∧ 60 < (List.replicate 61 (65 : Byte)).length ∧
    breaks 0 (.query 0 []) = some (.framed 6 []) ∧ breaks 0 (.damagedRecord 0 none) = some (.damaged none) ∧ breaks 0 (.mark 0 []) = none := by
  decide

/-- O33, O34: a WITHDRAW of an open stream with a cue; an END with cues and without; a QUERY. -/
theorem witness_withdrawEnd : let s := withCues [caption 1 100, caption 2 130000] (play .paused)
    s.atRest 0 = true ∧ (s.intake 0).context = .idle ∧ (s.session 0).state ≠ .dark ∧ (s.session 0).state ≠ .ended ∧
    slotOf (([0, 2, 147, 45, 255] : List Byte).headD 0) = some 0 ∧ (s.stream (streamOf 0 0)).isOpen = true ∧
    number ([0, 2, 147, 45, 255] : List Byte).tail ≤ 43199999 ∧ (seqs (s.stream (streamOf 0 0)).queue).reverse = 2 :: [1] ∧
    (∀ p, (s.link p).state ≠ .serving) ∧ (s.session 0).state.isActive = true ∧ s.queuesEmpty 0 = false ∧
    (play .paused).queuesEmpty 0 = true := by decide

/-- O35: an insertion whose placing step has had its 200 base counts. -/
theorem witness_insertion : let s := at_ 200 (withContext (.inserting (caption 7 50) { todo := [], current := none, stepStart := 0 })
      (withCues [caption 1 50, caption 2 51] (play .armed)))
    s.placingDue 0 = some (caption 7 50) ∧ (s.session 0).state.isReleasing = false ∧ (s.store 0).closeWaiting = none ∧
    ∀ p, (s.link p).state ≠ .serving := by decide

/-- O35: placed into empty queues in a show: a caption at its release time, and a narration cue. -/
theorem witness_placedAndReleased : let s (c : Cue) : State := at_ 200 (withContext (.inserting c { todo := [], current := none, stepStart := 0 })
      (play .running))
    (∀ c ∈ [caption 7 120000, narration 120000], (s c).placingDue 0 = some c ∧ ((s c).session 0).state.isReleasing = true ∧
      (s c).position 0 < 43199999 ∧ ((s c).store 0).purge = none ∧ ((s c).session 0).ending = false ∧ (s c).queuesEmpty 0 = true ∧
      audOfStream c.stream = 0 ∧ c.due = none ∧ ∀ p, ((s c).link p).state ≠ .serving) ∧
    after (exec (.insertionPlaces 0) (carried (s (caption 7 120000)))) (fun t => (t.stream 0).queue.map Cue.life == [.due]) ∧
    after (exec (.insertionPlaces 0) (s (caption 7 120001))) (fun t => (t.stream 0).queue.map Cue.life == [.queued]) := by decide +kernel

/-- O35: placed between two captions that wait, in a show: it waits, falls due, is expired; and with a CLOSE-STREAM waiting, for this stream
and for an empty one. -/
theorem witness_placedAmongOthers :
    let s (c : Cue) : State := at_ 200 (withContext (.inserting c { todo := [], current := none, stepStart := 0 })
      (withCues [{ caption 1 119950 with life := .onAir }, caption 2 120005] (play .running)))
    let order (c : Cue) (l : List Seq) : Bool := after (exec (.insertionPlaces 0) (carried (s c))) (fun t => seqs (t.stream 0).queue == l)
    let closing (k : Slot) : State := ((s (caption 7 120001)).onStore 0 (fun st => { st with closeWaiting := some k })).onMgmt (fun m =>
      { m with transport := .working (.closeStream 0) })
    (∀ x ∈ [120000, 120001], ((s (caption 7 x)).session 0).state.isReleasing = true ∧ order (caption 7 x) [1, 7, 2]) ∧
    order { caption 7 119960 with length := 40 } [1, 2] ∧
    after (exec (.insertionPlaces 0) (closing 0)) (fun t => (t.store 0).purge.map Purge.current == some (some (0, 1)) &&
      (t.store 0).purge.map Purge.todo == some [(0, 7), (0, 2)]) ∧
    after (exec (.insertionPlaces 0) (closing 1)) (fun t => (t.store 0).purge.isNone && seqs (t.stream 0).queue == [1, 7, 2] &&
      t.mgmt.transport == .held { code := .done, command := 6, fields := [] }) := by decide +kernel

/-- O35: what waits, at its last tick; what does not. -/
theorem witness_waits : let s := lone (caption 1 1)
    s.waits 0 (caption 1 120001) ∧ ¬ s.waits 0 (caption 1 120000) ∧ s.waits 0 { caption 1 1 with life := .onAir } ∧ s.waits 0 (narration 120001) := by
  refine ⟨fun _ => by decide, fun h => absurd (h rfl) (by decide), (fun h => by cases h), fun _ => by decide⟩

/-- O36: a request of two cells and one of its last cell. -/
theorem witness_cell : let s (n : Nat) : State := at_ 16 ((play .running).onStore 0 (fun st => { st with
      used := 9, freeing := [{ cells := n, tag := .resetPort }] }))
    (∀ n ∈ [1, 2], (s n).dueTest (.cellFreed 0) = some true ∧ ((s n).store 0).freeing = { cells := n, tag := .resetPort } :: [] ∧
      ((s n).store 0).purge = none ∧ ((s n).intake 0).deferred = []) := by decide

/-- O36: the rest of a record's taking goes on while a request placed after it is served: a skip, a QUERY (whose used count is one less),
a HEAD of a wrong length. -/
theorem witness_taking : let s (d : Deferred) : State := at_ 16 (((play .running).onStore 0 (fun st => { st with
      used := 9, freeing := [{ cells := 1, tag := .intake }, { cells := 1, tag := .none }] })).onIntake 0 (fun _ => { context := .idle, deferred := [d] }))
    let statusOf (t : State) : Bool := match (t.cuePort 0).transmission.map Transmission.sent with
      | some (.reply (.status _ _ used _ _)) => used == 8
      | _ => false
    (∀ d ∈ [Deferred.skip 2, .record (.framed queryCode []), .record (.framed headCode [])], (s d).dueTest (.cellFreed 0) = some true ∧
      ((s d).store 0).freeing = { cells := 1, tag := .intake } :: [{ cells := 1, tag := .none }] ∧
      ((s d).store 0).purge = none ∧ ((s d).intake 0).context = .idle ∧ ((s d).intake 0).deferred = [d]) ∧
    after (exec (.cellFreed 0) (s (.skip 2))) (fun t => (t.intake 0).context == .skipping (some 2)) ∧
    after (exec (.cellFreed 0) (s (.record (.framed queryCode [])))) (fun t => (t.intake 0).deferred == [] &&
      (t.store 0).freeing == [{ cells := 1, tag := .none }] && statusOf t) ∧
    after (exec (.cellFreed 0) (s (.record (.framed headCode [])))) (fun t => (t.intake 0).context == .skipping none &&
      (t.audCounter 0).refused == 1) := by decide +kernel

/-- O36: purges that wait for their last cell: one with a cue to walk to, a CLOSE-STREAM, a teardown, and one behind which a saturation is owed. -/
theorem witness_purgeEnds :
    let s (st : AudState) (k : PurgeKind) (todo : List (Slot × Seq)) (w : Work) (owed : Bool) (cues : List Cue) : State :=
      at_ 16 (((withCues cues (play st)).onStore 0 (fun x => { x with
        used := 9, freeing := [{ cells := 1, tag := .purge }], saturationOwed := owed,
        purge := some { kind := k, todo := todo, current := none, stepStart := 0, waiting := true } })).onMgmt (fun m => { m with transport := .working w }))
    (s .ended (.close 0) [] (.closeStream 0) false []).dueTest (.cellFreed 0) = some true ∧
    after (exec (.cellFreed 0) (s .paused (.withdraw 0 1) [(0, 9), (0, 1)] (.disarm 1) false [caption 1 5])) (fun t =>
      (t.store 0).purge.map Purge.current == some (some (0, 1))) ∧
    after (exec (.cellFreed 0) (s .ended (.close 0) [] (.closeStream 0) false [])) (fun t =>
      !(t.stream 0).isOpen && t.mgmt.transport == .held { code := .done, command := 6, fields := [] }) ∧
    after (exec (.cellFreed 0) (s .dark .teardown [] (.disarm 0) false [])) (fun t =>
      t.mgmt.transport == .held { code := .done, command := 3, fields := [] } && (t.store 0).purge.isNone) ∧
    after (exec (.cellFreed 0) (s .ended (.withdraw 0 1) [(0, 9)] (.disarm 1) true [caption 1 5])) (fun t =>
      (t.store 0).purge.map Purge.kind == some .saturation && !(t.store 0).saturationOwed) := by decide +kernel

theorem not_inQueue {s : State} {a : Aud} {x : Slot × Seq} (h : s.findCue (streamOf a x.1) x.2 = none) : ¬ s.inQueue a x := by
  rintro ⟨d, hd, he⟩
  have := List.find?_eq_none.mp h d hd
  simp [he] at this

/-- O36, O37: a place whose cue has left its queue, and one whose cue stands there. -/
theorem witness_inQueue : let s := withCues [caption 1 5] (play .paused)
    ¬ s.inQueue 0 (0, 9) ∧ s.inQueue 0 (0, 1) := by
  refine ⟨not_inQueue (by decide), caption 1 5, by decide, by decide⟩

/-- O37: the last step of a WITHDRAW that leaves a QUEUED caption at its release time; one that removes a caption on the air owes a clear. -/
theorem witness_lastStep :
    let s := at_ 200 (withPurge (.withdraw 0 120001) (some (0, 1)) [] (withCues [caption 1 120000] (play .paused)))
    (s.stepDue 0).isSome = true ∧ (PurgeKind.withdraw 0 120001).ruling (caption 1 120000) = .leave ∧ (s.session 0).ending = false ∧
    (s.intake 0).deferred = [] ∧ (s.store 0).saturationOwed = false ∧ (s.store 0).staleWaiting = none ∧ s.position 0 < 43199999 ∧
    after (exec (.purgeStep 0) (carried s)) (fun t => (t.store 0).purge.isNone && (t.stream 0).queue.map Cue.life == [.due]) ∧
    after (exec (.purgeStep 0) (carried (at_ 200 (withPurge (.withdraw 0 120000) (some (0, 1)) []
      (withCues [{ caption 1 120000 with life := .onAir }] (play .paused)))))) (fun t => (t.stream 0).clearOwed == [2]) := by decide +kernel

/-- O37: a step of a WITHDRAW on a cue at its from-time, and one of a backward jump with a cue behind it. -/
theorem witness_purgeStep :
    let s := at_ 200 (withPurge (.withdraw 0 100) (some (0, 1)) [] (withCues [caption 1 100] (play .paused)))
    let r := at_ 200 (withPurge (.backward 99) (some (0, 1)) [(0, 2)] (withCues [{ caption 1 100 with life := .onAir }, caption 2 101] (play .paused)))
    (s.stepDue 0).isSome = true ∧ s.findCue (streamOf 0 0) 1 = some (caption 1 100) ∧
    (PurgeKind.withdraw 0 100).ruling (caption 1 100) = .remove ∧ s.insertionRuns 0 = false ∧ (∀ p, (s.link p).state ≠ .serving) ∧
    (r.stepDue 0).isSome = true ∧ r.findCue (streamOf 0 0) 1 = some { caption 1 100 with life := .onAir } ∧
    (PurgeKind.backward 99).ruling { caption 1 100 with life := .onAir } = .toQueued ∧ r.findCue 0 2 = some (caption 2 101) := by
  decide

/-- O38: a fill that has had its time. -/
theorem witness_fill : (at_ 400 (linked .serving [.ready .notServing, .filling (.beacon []) 400] [0] .closed State.reset)).fillDue 2
    = some (1, .beacon []) := by decide

/-- Port 2 with a fill that ends and an EMPTY buffer, its filter 0 as in `carried`. -/
def fillState (owed : Bool) (clears : List Port) (cues : List Cue) : State :=
  at_ 400 ((linked .serving [.ready .notServing, .filling (.beacon []) 400] [0] .closed ((withCues cues (play .running)).onStream 0 (fun st =>
    { st with clearOwed := clears, clearNumber := 4, degraded := 1 }))).onLink 2 (fun l => { l with
      beaconOwed := owed, filters := change l.filters 0 (fun _ => { auditoriums := 1, kinds := 3, language := none }) }))

/-- O38: a beacon before a clear before a narration block before a caption, in buffer 2, the lowest EMPTY one; with none of them, no fill. A
caption late by one tick starts at P = 120,000 and is counted; a beacon entry is auditorium 0, RUNNING, 120,000, 24. -/
theorem witness_arbiter :
    let d : Option DueRecord := some { number := 5, pending := [2], staged := false }
    let c : Cue := { caption 1 119999 with life := .due, due := d }
    let n : Cue := { narration 120000 with seq := 2, life := .playing, due := d }
    let shows (owed : Bool) (clears : List Port) (cues : List Cue) (kind len : Nat) : Bool :=
      after (exec (.fillEnds 2) (fillState owed clears cues)) (fun t => match pick (t.link 2).buffers 2 with
        | .filling f ends => f.kindCode == kind && ends == 400 + 4 * len
        | _ => false)
    shows true [2] [c, n] 4 9 ∧ shows false [2] [c, n] 3 15 ∧ shows false [] [c, n] 2 16 ∧ shows false [] [c] 1 16 ∧
    after (exec (.fillEnds 2) (fillState false [1] [caption 1 119999])) (fun t => pick (t.link 2).buffers 2 == .empty) ∧
    after (exec (.fillEnds 2) (fillState false [] [c])) (fun t => (t.audCounter 0).late == 1 && (t.stream 0).queue.map Cue.life == [.onAir] &&
      pick (t.link 2).buffers 2 == .filling (.item { kind := .caption, stream := 0, number := 5, language := 0, start := 120000, finish := 120099,
                                                     payload := [65], secondCopy := false, twoCopies := true, robust := false, late := true,
                                                     filter := some 0 }) 464) ∧
    (fillState true [] []).beaconEntries 2 = [{ auditorium := 0, state := .running, position := 120000, rate := some .r24 }] := by decide +kernel

/-- O38: the operands that its clauses name. -/
theorem witness_candidates : let d : DueRecord := { number := 5, pending := [2, 3], staged := false }
    let c : Cue := { caption 1 119999 with life := .due, due := some d }
    let s := fillState false [2] [c]
    s.fillDue 2 = some (1, .beacon []) ∧ (∀ q, q ≠ 2 → (s.link q).state ≠ .serving) ∧ s.candidateClear 2 0 ∧ s.candidateCue 2 .caption .due 0 c ∧
    s.lowestFilter 2 0 (some 0) ∧ pick (s.link 2).buffers 2 = .empty ∧ d.pending.filter (fun q => !(q == 2)) ≠ [] := by
  refine ⟨by decide, by decide, ⟨by decide, by decide⟩, ⟨by decide, by decide, rfl, rfl, _, rfl, by decide⟩,
    ⟨⟨by decide, by decide, .inl (by decide)⟩, by intro j h; exact absurd h (Nat.not_lt_zero _)⟩, by decide, by decide⟩

/-- O39: DOWN, ALIGNING, and STALLED with an empty ring. -/
theorem witness_pullOutside : (State.reset.link 2).state = .down ∧
    ((linked .aligning [] [] .closed State.reset).link 2).state = .aligning ∧
    ((linked .stalled [] [] .void State.reset).link 2).state = .stalled ∧
    (∀ b, pick ((linked .stalled [] [] .void State.reset).link 2).buffers b = .empty) ∧
    ((linked .stalled [] [] .void State.reset).link 2).readyQueue = [] := by decide

/-- O40: a frame that the baseband holds. -/
theorem witness_rePull : sendingRing.ringsWf ∧ (sendingRing.link 2).exchange = .buffer 0 ∧
    pick (sendingRing.link 2).buffers 0 = .sending (captionFrame 500 true) := ⟨sendingRing_wf, by decide, by decide⟩

/-- O41: an expired frame before one that is not, and an empty READY queue with a beacon owed and without. -/
theorem witness_pullServed :
    let s := linked .serving [.ready (captionFrame 120000 false), .ready (captionFrame 120001 false)] [0, 1] .direct (play .running)
    (s.link 2).state = .serving ∧ (∀ c g, (s.link 2).exchange = .buffer c → pick (s.link 2).buffers c ≠ .sending g) ∧
    (s.link 2).readyQueue = [0] ++ 1 :: [] ∧ (s.link 2).readyQueue.Nodup ∧
    s.frameExpired (captionFrame 120000 false) = true ∧ s.frameExpired (captionFrame 120001 false) = false ∧
    pick (s.link 2).buffers 0 = .ready (captionFrame 120000 false) ∧ pick (s.link 2).buffers 1 = .ready (captionFrame 120001 false) := by
  refine ⟨by decide, ?_, by decide, by decide, by decide, by decide, by decide, by decide⟩
  intro c g h; cases h

theorem witness_pullEmpty :
    let s := linked .serving [] [] .closed State.reset
    let o := s.onLink 2 (fun l => { l with beaconOwed := true })
    (s.link 2).state = .serving ∧ (s.link 2).readyQueue = [] ∧ (s.link 2).beaconOwed = false ∧ (o.link 2).beaconOwed = true ∧
    (o.link 2).readyQueue = [] ∧ ∀ c g, (o.link 2).exchange = .buffer c → pick (o.link 2).buffers c ≠ .sending g := by
  refine ⟨by decide, by decide, by decide, by decide, by decide, ?_⟩
  intro c g h; cases h

/-- O41: a READY queue whose only frame is expired. -/
theorem witness_pullExpired :
    let s := linked .serving [.ready (captionFrame 120000 false)] [0] .closed State.reset
    (s.link 2).state = .serving ∧ (s.link 2).readyQueue = [0] ∧ (s.link 2).readyQueue.Nodup ∧
    pick (s.link 2).buffers 0 = .ready (captionFrame 120000 false) ∧ s.frameExpired (captionFrame 120000 false) = true ∧
    ∀ c g, (s.link 2).exchange = .buffer c → pick (s.link 2).buffers c ≠ .sending g := by
  refine ⟨by decide, by decide, by decide, by decide, by decide, ?_⟩
  intro c g h; cases h

/-- O42: the four exchanges; a caption owed its second copy, one that is expired, and a beacon. -/
theorem witness_done : (State.reset.link 2).exchange = .closed ∧ ((linked .serving [] [] .direct State.reset).link 2).exchange = .direct ∧
    ((linked .stalled [] [] .void State.reset).link 2).exchange = .void ∧ (sendingRing.link 2).exchange = .buffer 0 ∧
    pick (sendingRing.link 2).buffers 0 = .sending (captionFrame 500 true) ∧ sendingRing.frameExpired (captionFrame 500 true) = true ∧
    sendingRing.frameExpired (captionFrame 120001 true) = false ∧ sendingRing.frameExpired (.beacon []) = false := by decide

/-- O43: 1, 16, 0 and 17 entries; a matched receiver at the edges of DEGRADED and LOST. -/
theorem witness_reports : 1 ≤ ([⟨9, 0, 0, 1⟩] : List ReportEntry).length ∧ (List.replicate 16 (⟨9, 0, 0, 1⟩ : ReportEntry)).length ≤ 16 ∧
    16 < (List.replicate 17 (⟨9, 0, 0, 1⟩ : ReportEntry)).length := by decide

/-- O43: a DEGRADED receiver one miss from LOST meets the law of the health. -/
theorem witness_reportLaw : let s : State := State.reset.onRx 0 (fun _ => { state := .degraded, id := 9, slots := 1, health := 247 })
    s.receiversWf ∧ (s.rx 0).health = 247 ∧ after (exec (.report 2 [⟨9, 0, 0, 1⟩]) s) (fun t => t.table.lost == [0]) := by
  refine ⟨?_, by decide, by decide +kernel⟩
  intro i
  show (pick (change (Vector.replicate 1024 ({} : Receiver)) 0 (fun _ => { state := .degraded, id := 9, slots := 1, health := 247 })) i).wf
  rw [pick_change]
  by_cases h : i = 0
  · subst h; rw [if_pos rfl]; exact ⟨by decide, by decide, by decide⟩
  · rw [if_neg (Ne.symm h)]; simp [pick, Receiver.wf]

/-- O43, O50: a DEGRADED receiver of health 247, the list empty, holding another, full and holding it; two reports after one another. -/
theorem witness_lostList :
    let s (lost : List RxIndex) : State := ((State.reset.onRx 0 (fun _ => { state := .degraded, id := 9, slots := 1, health := 247 })).onTable
      (fun t => { t with lost := lost })).onStream 0 (fun st => { st with degraded := 1 })
    let full : List RxIndex := (List.range 16).map (fun k => Fin.ofNat 1024 (k + 1))
    let miss : ReportEntry := ⟨9, 0, 0, 1⟩
    let to_ (lost : List RxIndex) (es : List ReportEntry) (l : List RxIndex) (overflow : Bool) (pending : Byte) : Bool :=
      after (exec (.report 2 es) (s lost)) (fun t => t.table.lost == l && t.table.overflow == overflow && t.attention.table.pending == pending)
    to_ [] [miss] [0] false 1 ∧ to_ [5] [miss] [5, 0] false 0 ∧ to_ full [miss] full true 2 ∧ to_ [0] [miss] [0] false 0 ∧
    to_ [] [⟨9, 0, 0, 0⟩, miss] [] false 0 := by decide +kernel

/-- O45, O46: the three ways out of SERVING, and states outside it. -/
theorem witness_leaves :
    let s := at_ 147456 ((linked .serving [.ready (captionFrame 500 true)] [0] .direct State.reset).onLink 2 (fun l => { l with
      silenceLimit := 12, silenceStart := some 0 }))
    s.leavesServing 2 (.silenceTimerExpires 2) .stalled ∧ s.leavesServing 2 (.alignStart 2) .aligning ∧
    s.leavesServing 2 (.resetLinkPort [2]) .down ∧ s.cuesDistinct ∧ (State.reset.link 2).state ≠ .serving ∧ State.reset.takesCommands ∧
    after (exec (.alignStart 2) s) (fun _ => true) := by
  refine ⟨⟨by decide, .inl ⟨rfl, rfl, by decide⟩⟩, ⟨by decide, .inr (.inl ⟨rfl, rfl⟩)⟩, ⟨by decide, .inr (.inr ⟨rfl, rfl, takes_of rfl⟩)⟩,
    ⟨?_, ?_⟩, by decide, takes, by decide +kernel⟩
  · show ∀ n, _ ∧ _
    decide +kernel
  · intro a c h
    have e : ∀ b, (State.reset.intake b).context = .idle := by decide
    change (State.reset.intake a).context.cue = some c at h
    rw [e a] at h; cases h

/-- O46: the last port of a caption's pending set leaves, one of two, and the last of a narration block's, unstaged and staged. -/
theorem witness_leavingSets :
    let s (c : Cue) (pending : List Port) (staged : Bool) : State := linked .serving [] [] .closed (withCues
      [{ c with life := if c.kind = .caption then .due else .playing, due := some { number := 5, pending := pending, staged := staged } }]
      (play .ended))
    let left (c : Cue) (pending : List Port) (staged : Bool) (p : State → Bool) : Bool := after (exec (.alignStart 2) (s c pending staged)) p
    (∀ q, q ≠ 2 → ((s (caption 1 5) [2] false).link q).state ≠ .serving) ∧
    left (caption 1 5) [2] false (fun t => (t.stream 0).queue == [{ caption 1 5 with life := .onAir }]) ∧
    left (caption 1 5) [2, 3] false (fun t => (t.stream 0).queue.map Cue.outstanding == [[3]]) ∧
    left (narration 5) [2] false (fun t => (t.stream 0).queue.map Cue.cursor == [1] && (t.audCounter 0).skip == 1) ∧
    left (narration 5) [2] true (fun t => (t.stream 0).queue.map Cue.cursor == [1] && (t.audCounter 0).skip == 0 &&
      (t.store 0).freeing == [{ cells := 1, tag := .none }]) := by decide +kernel

/-- O47, O48: 63 and 64 bytes; ALIGNING, the rings in order, with the probe ring unbalanced and balanced. -/
theorem witness_alignment :
    let s := linked .aligning [] [] .closed State.reset
    let w := s.onLink 2 (fun l => { l with probe := { l.probe with writePtr := 3, readPtr := 3, writeCount := 1 } })
    (List.replicate 63 (1 : Byte)).length ≠ 64 ∧ (List.replicate 64 (1 : Byte)).length = 64 ∧ (s.link 2).state = .aligning ∧
    ¬ (1 ≤ (s.link 2).probe.writeCount ∧ (s.link 2).probe.readPtr = (s.link 2).probe.writePtr) ∧
    (1 ≤ (w.link 2).probe.writeCount ∧ (w.link 2).probe.readPtr = (w.link 2).probe.writePtr) ∧ (State.reset.link 2).state ≠ .aligning ∧
    w.ringsWf ∧ (∀ q, q ≠ 2 → (w.link q).state ≠ .serving) ∧
    after (exec (.alignEndPass 2) w) (fun t => pick (t.link 2).buffers 0 == .filling (.beacon []) 8 && !(t.link 2).beaconOwed) := by
  refine ⟨by decide, by decide, by decide, by decide, by decide, by decide, ?_, by decide, by decide⟩
  show ∀ p, _ ∧ _
  decide

/-- O49, O50: both timers at their instants. -/
theorem witness_timers :
    (at_ 7 ((linked .serving [] [] .closed State.reset).onLink 2 (fun l => { l with beaconDue := some 7 }))).dueTest (.beaconTimerExpires 2)
      = some true ∧
    (∀ b, pick ((linked .serving [.ready .notServing, .ready .notServing, .ready .notServing] [] .closed State.reset).link 2).buffers b ≠ .empty) ∧
    (∀ b, pick ((linked .serving [.ready .notServing] [] .closed State.reset).link 2).buffers b ≠ .filling .notServing 0) ∧
    pick ((linked .serving [.ready .notServing] [] .closed State.reset).link 2).buffers 1 = .empty ∧
    (at_ 14745600 State.reset).dueTest .secondTimerExpires = some true := by decide

/-- O51: a WORKING transport; arguments of the wrong length; an auditorium 16 and a port 4. -/
theorem witness_transport : ({ transport := .working (.disarm 3) } : Mgmt).transport = .working (.disarm 3) ∧ State.reset.takesCommands ∧
    commandForm (.arm [0]) = some (2, 2, [0]) ∧ [(0 : Byte)].length ≠ 2 ∧ commandForm (.arm [16, 24]) = some (2, 2, [16, 24]) ∧
    choicesOf (.arm [16, 24]) = some 16 ∧ 16 ≤ (([16, 24] : List Byte).headD 0).toNat ∧ choicesOf (.readLink [4]) = some 4 ∧
    4 ≤ (([4] : List Byte).headD 0).toNat ∧ namesNothing (.setGate [0, 2]) = true ∧ namesNothing (.setGate [0, 1]) = false :=
  ⟨rfl, takes, by decide, by decide, by decide, by decide, by decide, by decide, by decide, by decide, by decide⟩

/-- O53: a FILLING frame of the auditorium leaves the ring, one of another auditorium goes on. -/
theorem witness_torn :
    let other : Frame := .item { kind := .caption, stream := 6, number := 5, language := 1, start := 0, finish := 9, payload := [65]
                                 secondCopy := false, twoCopies := false, robust := false, late := false, filter := some 0 }
    let s (f : Frame) : State := linked .serving [.filling f 100, .sending other, .sending other] [] .closed (play .ended)
    after (exec (.disarm [0]) (s (captionFrame 500 false))) (fun t =>
      pick (t.link 2).buffers 0 == .empty && (t.linkCounter 2).discarded == 1) ∧
    after (exec (.disarm [0]) (s other)) (fun t => pick (t.link 2).buffers 0 == .filling other 100) := by decide +kernel

/-- O52 to O60: a port that takes commands; DISARM in DARK, beside a purge, of an empty auditorium and of one with cues. -/
theorem witness_disarm : State.reset.takesCommands ∧ (State.reset.session 0).state = .dark ∧ (play .ended).takesCommands ∧
    ((play .ended).session 0).state ≠ .dark ∧ ((play .ended).store 0).purge = none ∧
    ((withPurge .saturation none [] (play .ended)).store 0).purge ≠ none ∧ (play .ended).queuesEmpty 0 = true ∧
    (play .ended).cueInProgress 0 = false ∧ ((play .ended).store 0).freeing = [] ∧ ((play .ended).store 0).closeWaiting = none ∧
    (withCues [caption 1 1] (play .running)).queuesEmpty 0 = false ∧
    ((withContext (.opened (caption 7 50) 2) (play .ended)).intake 0).context.cue = some (caption 7 50) ∧
    after (exec (.disarm [0]) (withContext (.opened (caption 7 50) 2) (play .ended))) (fun t =>
      (t.intake 0).context == .skipping (some 2) && (t.audCounter 0).refused == 1) :=
  ⟨takes, by decide, takes_of rfl, by decide, by decide, by decide, by decide, by decide, by decide, by decide, by decide, by decide,
    by decide +kernel⟩

/-- O54: a CLOSE-STREAM beside a purge, of a closed slot, during an insertion, with a cue and without. -/
theorem witness_closeStream :
    let s := withCues [] (play .armed)
    let i := withContext (.inserting (caption 7 50) { todo := [], current := none, stepStart := 0 }) s
    s.takesCommands ∧ (s.store 0).purge = none ∧ (s.stream (streamOf 0 1)).isOpen = false ∧ (s.stream (streamOf 0 0)).isOpen = true ∧
    i.insertionRuns 0 = true ∧ s.insertionRuns 0 = false ∧ (s.stream (streamOf 0 0)).queue = [] ∧
    (s.session 0).state.isReleasing = false ∧ (s.session 0).ending = false ∧ (s.store 0).saturationOwed = false ∧
    (s.store 0).closeWaiting = none ∧
    seqs ((withCues [caption 1 1] (play .armed)).stream (streamOf 0 0)).queue = 1 :: [] ∧ ∀ p, (s.link p).state ≠ .serving :=
  ⟨takes_of rfl, by decide, by decide, by decide, by decide, by decide, by decide, by decide, by decide, by decide, by decide, by decide,
    by decide⟩

/-- O55: RESET-CUE-PORT with a cue open. -/
theorem witness_resetCuePort : let s := withContext (.opened (caption 7 50) 1) (play .running)
    s.takesCommands ∧ (s.intake 0).context = .opened (caption 7 50) 1 ∧ ∀ c n, (State.reset.intake 0).context ≠ .opened c n :=
  ⟨takes_of rfl, by decide, noOpen rfl⟩

/-- O55: SET-CUE-PORT to d = 16 in a HOLD's break, at the last base count of its first character, and as its second begins; the line's d is 8. -/
theorem test_setCuePort_retimes :
    let hold : Transmission := { sent := .flow .hold, boundary := 1408, left := 2, divisor := 8, parity := .none }
    let s (now : Nat) : State := at_ now (State.reset.onPort 0 (fun p => { p with transmission := some hold }))
    let then_ (now : Nat) (boundary left : Nat) : Bool := decide (after (exec (.setCuePort [0, 16, 0]) (s now)) (fun t =>
      (t.cuePort 0).transmission == some { hold with boundary := boundary, left := left, divisor := 16 }))
    (s 1407).takesCommands ∧ then_ 1407 1408 2 = true ∧ then_ 2687 2688 1 = true ∧ then_ 2688 3968 0 = true :=
  ⟨takes_of rfl, by decide, by decide, by decide⟩

/-- O24, O41: a STATUS and a REFUSE on the line, a late caption's copy 2 of 2 by filter 3 and a beacon on the air, written out from 10.3 and 10.4. -/
theorem test_layouts :
    (Reply.status .running 66051 258 772 true).bytes = [21, 10, 3, 0, 1, 2, 3, 1, 2, 3, 4, 1] ∧
    (Reply.refuse 2 513 .brokenCue).bytes = [19, 4, 2, 2, 1, 12] ∧
    (Frame.item { kind := .caption, stream := 95, number := 7, language := 513, start := 258, finish := 66051, payload := [65, 66]
                  secondCopy := true, twoCopies := true, robust := false, late := true, filter := some 3 }).bytes =
      [1, 95, 7, 0b00111011, 0, 0, 1, 2, 0, 1, 2, 3, 2, 1, 2, 65, 66] ∧
    (Frame.beacon [{ auditorium := 15, state := .coasting, rate := some .r60, position := 66051 }]).bytes =
      [4, 1, 15, 4, 0, 1, 2, 3, 60] := by decide

/-- O57: a registered id and an unknown one, with entry 0 in use and entry 1 the lowest FREE one; a full table. -/
theorem witness_receiverCommands : let full : State := { State.reset with receivers := Vector.replicate 1024 { state := .good, id := 9 } }
    oneLost.takesCommands ∧ ((oneLost.rx 0).state ≠ .free ∧ (oneLost.rx 0).id = 9) ∧ (∀ j, (oneLost.rx j).state ≠ .free → (oneLost.rx j).id ≠ 10) ∧
    (oneLost.rx 1).state = .free ∧ (∀ j, j < 1 → (oneLost.rx j).state ≠ .free) ∧
    (∀ j, (full.rx j).state ≠ .free → (full.rx j).id ≠ 10) ∧ (∀ j, (full.rx j).state ≠ .free) ∧
    BitVec.ofNat 32 (number [0, 0, 0, 10]) = 10 ∧ oneLost.table.lost = 0 :: [] := by
  have e (j : RxIndex) : pick (Vector.replicate 1024 ({ state := .good, id := 9 } : Receiver)) j = { state := .good, id := 9 } := by simp [pick]
  refine ⟨takes_of rfl, by decide, ?_, by decide, ?_, ?_, ?_, by decide, by decide⟩
  · intro j h
    rw [rx_oneLost] at h ⊢
    by_cases z : j = 0
    · subst z; decide
    · rw [if_neg z] at h; exact absurd rfl h
  · intro j h
    have z : j = 0 := Fin.ext (Nat.lt_one_iff.mp h)
    subst z; decide
  · intro j _
    show (pick (Vector.replicate 1024 ({ state := .good, id := 9 } : Receiver)) j).id ≠ 10
    rw [e j]; decide
  · intro j
    show (pick (Vector.replicate 1024 ({ state := .good, id := 9 } : Receiver)) j).state ≠ .free
    rw [e j]; decide

/-- O58: the first index beyond the table, and its last. -/
theorem witness_reading : 1024 ≤ number [4, 0] ∧ (1023 : RxIndex).val = number [3, 255] ∧ State.reset.takesCommands :=
  ⟨by decide, by decide, takes⟩

/-- O59, O60: sources, options and kind sets at their bounds; a kind pending and one that is not. -/
theorem witness_attention : 20 < (21 : Byte).toNat ∧ 1 < (2 : Byte).toNat ∧ 127 < (128 : Byte).toNat ∧ (127 : Byte).toNat ≤ 127 ∧
    (7 : Byte).toNat ≤ 7 ∧ (3 : Byte).toNat ≤ 3 ∧ State.reset.takesCommands ∧
    ({ pending := 5 } : AttnRecord).pending.getLsbD 0 = true ∧ ({ pending := 5 } : AttnRecord).pending.getLsbD 1 = false :=
  ⟨by decide, by decide, by decide, by decide, by decide, by decide, takes, by decide, by decide⟩

end Sys2Proof.Tests
end

section
/-! PROOFS. The records of a cue port's intake: what a refusal does to the state, how a BODY reaches the intake, and the BODY taken
with no cue open. -/

namespace Sys2Proof.Machine

/-! ### Replies and refusals (R57, R58, R63) -/

/-- A transmitter that sends already begins nothing. -/
theorem transmit_of_sending {s : State} {a : Aud} (h : (s.cuePort a).transmission.isSome) : s.transmit a = s := by
  obtain ⟨x, hx⟩ := Option.isSome_iff_exists.mp h
  simp [State.transmit, hx]

/-- An idle transmitter with no flow-control character waiting begins the reply at the head of its queue. -/
theorem transmit_cuePort_of_idle {s : State} {a : Aud} {r : Reply} {rest : List Reply} (ht : (s.cuePort a).transmission = none)
    (hf : (s.cuePort a).flowPlace = none) (hr : (s.cuePort a).replies = r :: rest) :
    (s.transmit a).cuePort a =
      { s.cuePort a with transmission := some (s.transmission (s.cuePort a) (.reply r)), replies := rest } := by
  simp [State.transmit, ht, hf, hr]

theorem placeReply_of_full {s : State} {a : Aud} {r : Reply} (h : 8 ≤ (s.cuePort a).replies.length) : s.placeReply a r = s :=
  if_neg (Nat.not_lt.mpr h)

theorem placeReply_of_room {s : State} {a : Aud} {r : Reply} (h : (s.cuePort a).replies.length < 8) :
    s.placeReply a r = (s.onPort a (fun q => { q with replies := q.replies ++ [r] })).transmit a :=
  if_pos h

theorem placeReply_gainsReply (s : State) (a : Aud) (r : Reply) :
    (s.cuePort a).gainsReply ((s.placeReply a r).cuePort a) r := by
  refine ⟨fun full => ?_, fun room sending => ?_, fun idle noFlow empty => ?_⟩
  · rw [placeReply_of_full full]
  · rw [placeReply_of_room room, transmit_of_sending (by simpa using sending)]
    simp
  · have room : (s.cuePort a).replies.length < 8 := by simp [empty]
    rw [placeReply_of_room room, transmit_cuePort_of_idle (r := r) (rest := []) (by simpa using idle) (by simpa using noFlow)
      (by simp [empty])]
    simp [noFlow, State.transmission]

/-- What `State.refused` says of a refusal is what the intake's refusal does. -/
theorem refused_refuse (s : State) (a : Aud) (kind : Byte) (seq : Seq) (reason : Reason) :
    s.refused (s.refuse a kind seq reason) a kind seq reason := by
  have gains := placeReply_gainsReply (s.onCounters a (fun c => { c with refused := bump c.refused })) a (.refuse kind seq reason)
  obtain ⟨f, placed, line, -⟩ :=
    placeReply_cases (s.onCounters a (fun c => { c with refused := bump c.refused })) a (.refuse kind seq reason)
  have refuse_eq : s.refuse a kind seq reason = (s.onCounters a (fun c => { c with refused := bump c.refused })).onPort a f := placed
  rw [placed, ← refuse_eq] at gains
  refine ⟨?_, fun b hb => ?_, ?_, gains, ?_⟩
  · rw [refuse_eq]; rfl
  · rw [refuse_eq]; simp [Ne.symm hb]
  · rw [refuse_eq]; simp
  · rw [refuse_eq]; simpa using line

/-! ### A BODY on its way to the intake (R53, R64) -/

theorem deferred_of_atRest {s : State} {a : Aud} (h : s.atRest a = true) : (s.intake a).deferred.isEmpty = true := by
  simp only [State.atRest, Bool.and_eq_true] at h
  exact h.2

/-- A whole record on a line at rest is paired with the assembly context at once. -/
theorem recordArrives_of_atRest {s : State} {a : Aud} (h : s.atRest a = true) (kind : Byte) (fields : List Byte) :
    s.recordArrives a kind fields = s.pairRecord a (.framed kind fields) := by
  rw [State.recordArrives, if_pos h, State.handRecord, if_pos (deferred_of_atRest h)]

theorem pairRecord_body (s : State) (a : Aud) (payload : List Byte) :
    s.pairRecord a (.framed bodyCode payload) = s.takeBody a payload := by
  have body_ne_mark : bodyCode ≠ markCode := by decide
  simp only [State.pairRecord, if_neg body_ne_mark, if_pos]

/-- A BODY on a line at rest is taken as its context says. -/
theorem exec_body_of_atRest {s : State} {a : Aud} (h : s.atRest a = true) (payload : List Byte) :
    exec (.body a payload) s = .next (s.takeBody a payload) := by
  have exec_eq : exec (.body a payload) s = .next (s.recordArrives a bodyCode payload) := rfl
  rw [exec_eq, recordArrives_of_atRest h, pairRecord_body]

/-! ### A BODY with no cue open (R66) -/

theorem takeBody_of_idle {s : State} {a : Aud} (h : (s.intake a).context = .idle) (payload : List Byte) :
    s.takeBody a payload = s.refuse a bodyCode 0 .orphanBody := by
  rw [State.takeBody, h]

theorem takeBody_of_skipping {s : State} {a : Aud} {n : Nat} (h : (s.intake a).context = .skipping (some n)) (payload : List Byte) :
    s.takeBody a payload = s.setContext a (skipContext (n - 1)) := by
  rw [State.takeBody, h]

theorem takeBody_of_skipping_openEnded {s : State} {a : Aud} (h : (s.intake a).context = .skipping none) (payload : List Byte) :
    s.takeBody a payload = s := by
  rw [State.takeBody, h]

/-- The context one BODY on: IDLE after the last of the bodies to skip. -/
theorem skipContext_pred (n : Nat) : skipContext (n - 1) = if n ≤ 1 then .idle else .skipping (some (n - 1)) := by
  match n with
  | 0 => rfl
  | 1 => rfl
  | n + 2 => simp [skipContext]

/-- Settles O31: a line at rest hands the BODY to the intake at once, and the assembly context decides what it comes to. -/
theorem orphanAndSkippedBody : Obligations.OrphanAndSkippedBody := by
  intro a payload s rest
  rw [exec_body_of_atRest rest]
  refine ⟨fun idle => ?_, fun n skipping => ?_, fun openEnded => ?_⟩
  · exact ⟨_, by rw [takeBody_of_idle idle], refused_refuse s a bodyCode 0 .orphanBody⟩
  · rw [takeBody_of_skipping skipping, skipContext_pred]
  · rw [takeBody_of_skipping_openEnded openEnded]

end Sys2Proof.Machine
end

section
/-! PROOFS. The patron link ports: the frame that the baseband holds, and the PULL that asks for it again. -/

namespace Sys2Proof.Machine

/-! ### The held frame (R126, R134) -/

theorem heldFrame_of_sending {l : LinkPort} {b : BufNo} {f : Frame} (exchange : l.exchange = .buffer b) (sending : pick l.buffers b = .sending f) :
    l.heldFrame = some (b, f) := by
  simp only [LinkPort.heldFrame, exchange, sending]

/-- Only a SERVING port has a frame that is SENDING (R126). -/
theorem serving_of_sending {s : State} {p : Port} {b : BufNo} {f : Frame} (rings : s.ringsWf)
    (sending : pick (s.link p).buffers b = .sending f) : (s.link p).state = .serving := by
  by_contra away
  have empty := (rings p).1 away b
  rw [sending] at empty
  cases empty

/-! ### The re-pull (R136) -/

/-- The port as a PULL that finds a frame held leaves it. -/
def LinkPort.rePulled (l : LinkPort) (now : Nat) (slot : BitVec 16) (f : Frame) : LinkPort :=
  { l with
    lastSlot := slot
    silenceStart := if l.silenceLimit = 0 then none else some now
    answer := answerData 6 f.bytes }

@[simp] theorem LinkPort.rePulled_state (l : LinkPort) (now : Nat) (slot : BitVec 16) (f : Frame) : (l.rePulled now slot f).state = l.state := rfl
@[simp] theorem LinkPort.rePulled_buffers (l : LinkPort) (now : Nat) (slot : BitVec 16) (f : Frame) :
    (l.rePulled now slot f).buffers = l.buffers := rfl

section
variable {s : State} {p : Port} {b : BufNo} {f : Frame} (held : (s.link p).heldFrame = some (b, f)) (slot : BitVec 16)
include held

/-- A frame held is answered again, and nothing is dropped, taken from the READY queue or formed. -/
theorem pullServing_of_held : s.pullServing p slot =
    ((s.onLink p (fun l => { l with lastSlot := slot, silenceStart := if l.silenceLimit = 0 then none else some s.now })).onLinkCounters p
      (fun c => { c with repull := bump c.repull })).answerFrame p f := by
  simp only [State.pullServing, held]

theorem pullServing_link_of_held (q : Port) :
    (s.pullServing p slot).link q = if p = q then (s.link q).rePulled s.now slot f else s.link q := by
  rw [pullServing_of_held held]
  by_cases e : p = q
  · simp [State.answerFrame, State.answer, LinkPort.rePulled, e]
  · simp [State.answerFrame, State.answer, e]

theorem pullServing_linkCounter_of_held (q : Port) :
    (s.pullServing p slot).linkCounter q =
      if p = q then { s.linkCounter q with repull := bump (s.linkCounter q).repull } else s.linkCounter q := by
  rw [pullServing_of_held held]
  simp [State.answerFrame, State.answer]

/-- Fills that follow a re-pull, of any port, leave all but the port and its counters as they found it. -/
theorem onlyPort_rePull {t : State} (fills : Worked none (s.pullServing p slot) t) : s.onlyPort t p := by
  refine fills.onlyPort (by rw [pullServing_of_held held]; rfl) fun q other => ⟨?_, ?_, ?_⟩
  · rw [pullServing_link_of_held held, if_neg other.symm]
  · rw [pullServing_linkCounter_of_held held, if_neg other.symm]
  · rw [pullServing_of_held held]; rfl

/-- The fills that follow may fill an EMPTY buffer of the port; the SENDING and READY ones stand. -/
theorem bufferStands_rePull {t : State} (fills : Worked none (s.pullServing p slot) t) (c : BufNo) : (s.link p).bufferStands (t.link p) c := by
  have buffer := fills.buffer p c
  rwa [pullServing_link_of_held held, if_pos rfl, LinkPort.rePulled_buffers, LinkPort.rePulled_state] at buffer

end

theorem exec_pull_of_serving {s : State} {p : Port} (h : (s.link p).state = .serving) (slot : BitVec 16) :
    exec (.pull p slot) s = .next (s.pullServing p slot).settleFills := by
  have exec_eq : exec (.pull p slot) s = execPull p slot s := rfl
  rw [exec_eq, execPull, h]

/-- Settles O40: the port is SERVING, since it has a SENDING frame; the PULL answers that frame, and what follows is fills alone. -/
theorem rePull : Obligations.RePull := by
  intro p slot b f s rings exchange sending
  have held := heldFrame_of_sending exchange sending
  have fills : Worked none (s.pullServing p slot) (s.pullServing p slot).settleFills := Worked.settleFills .refl
  refine ⟨_, exec_pull_of_serving (serving_of_sending rings sending) slot, onlyPort_rePull held slot fills, ?_, ?_,
    bufferStands_rePull held slot fills⟩
  · rw [fills.linkOwn, pullServing_linkCounter_of_held held, if_pos rfl]
  · rw [fills.outside, pullServing_link_of_held held, if_pos rfl, LinkPort.rePulled]

end Sys2Proof.Machine
end

section
/-! PROOFS. What a command can do to the whole part, said once: a sequence of the changes of `Deed`, each allowed only to the commands
that the manual gives it to. Every invariant and every frame over all commands is had from it. -/

namespace Sys2Proof.Machine

/-- A link port's part of `State.ringsWf`: no frames outside SERVING, and the exchange names the SENDING buffer (R126). -/
def LinkPort.ringWf (l : LinkPort) : Prop :=
  (l.state ≠ .serving → ∀ b, pick l.buffers b = .empty) ∧ ∀ b, (pick l.buffers b).isSending = true → l.exchange = .buffer b

/-- Nothing that the law of the cue store reads is other in `t` than in `s` (R88, R90). -/
structure State.sameCells (s t : State) : Prop where
  free : t.freeCells = s.freeCells
  stores : t.stores = s.stores
  intakes : t.intakes = s.intakes
  sessions : ∀ a, (t.session a).state = (s.session a).state
  queues : ∀ n, (t.stream n).queue = (s.stream n).queue

theorem State.sameCells.refl (s : State) : s.sameCells s := ⟨rfl, rfl, rfl, fun _ => rfl, fun _ => rfl⟩

theorem State.sameCells.trans {s t u : State} (h : s.sameCells t) (k : t.sameCells u) : s.sameCells u :=
  ⟨k.free.trans h.free, k.stores.trans h.stores, k.intakes.trans h.intakes, fun a => (k.sessions a).trans (h.sessions a),
    fun n => (k.queues n).trans (h.queues n)⟩

/-- The commands that can touch the cue store, what fills it or what empties it: those whose work can end a show, CONFIGURE-AUDITORIUM, ARM and
DISARM, and RESET-CUE-PORT (R59, R89, R91). -/
def changesCells (i : Instr) : Bool :=
  changesRuns i || changesClocks i || match i with
    | .resetCuePort _ => true
    | _ => false

theorem changesCells_of_runs {i : Instr} (h : changesRuns i = true) : changesCells i = true := by simp only [changesCells, h, Bool.true_or]

/-- One change that command `i` makes. Changes of receivers, table, clocks and run parts need a command that may make them. -/
inductive Deed (i : Instr) : State → State → Prop
  | take {s t : State} (h : Take s t) (hc : changesClocks i = true ∨ t.clocks = s.clocks)
      (hr : changesRuns i = true ∨ t.runs = s.runs) (hs : changesCells i = true ∨ s.sameCells t) : Deed i s t
  | link (s : State) (p : Port) (f : LinkPort → LinkPort) (h : (s.link p).ringWf → (f (s.link p)).ringWf) : Deed i s (s.onLink p f)
  | linkCounters (s : State) (p : Port) (f : LinkCounters → LinkCounters) : Deed i s (s.onLinkCounters p f)
  | attention (s : State) (f : Attention → Attention) : Deed i s (s.onAttention f)
  | mgmt (s : State) (f : Mgmt → Mgmt) : Deed i s (s.onMgmt f)
  | runPin (s : State) (a : Aud) (v : Bool) : Deed i s (s.setRunPin a v)
  | gate (s : State) (a : Aud) (v : Bool) : Deed i s (s.onSession a (fun x => { x with gate := v }))
  | rxPin (s : State) (a : Aud) (v : Bool) : Deed i s (s.setRxPin a v)
  | stream (s : State) (n : StreamNo) (f : Stream → Stream) (h : ∀ x, (f x).queue = x.queue)
      (hd : changesReceivers i = true ∨ ∀ x, (f x).degraded = x.degraded) : Deed i s (s.onStream n f)
  | receivers (s : State) (v : Vector Receiver 1024) (h : changesReceivers i = true) : Deed i s { s with receivers := v }
  | table (s : State) (f : RxTable → RxTable) (h : changesTable i = true) : Deed i s (s.onTable f)
  | configured (s : State) (a : Aud) (q w l : Nat) (h : changesClocks i = true) (dark : (s.session a).state = .dark)
      (hw : w ∈ [8, 16, 32, 64]) (hl : l ≤ 65535) (hq : s.quotaSum a q ≤ Config.cells) :
      Deed i s ((s.onStore a (fun st => { st with quota := q })).onClock a (fun c => { c with windowSize := w, staleLimit := l }))
  | armed (s : State) (a : Aud) (r : Rate) (hc : changesClocks i = true) (hr : changesRuns i = true) :
      Deed i s (((s.onClock a (fun c => { c with rate := some r, period := r.nominal, lastHold := 0, base := 0, sub := 0 })).onRun a
        (fun _ => { window := .closed, subFrozen := true, pauseStart := none, pauseHold := 0, staleMark := false })).onSession a
        (fun x => { x with state := .armed, ending := false }))
  | disarmed (s : State) (a : Aud) (hc : changesClocks i = true) (hr : changesRuns i = true) :
      Deed i s (((s.onClock a (fun c => { c with rate := none, period := 0, lastHold := 0, base := 0, sub := 0 })).onRun a
        (fun _ => { window := .closed, subFrozen := true, pauseStart := none, pauseHold := 0, staleMark := false })).onSession a
        (fun x => { x with state := .dark, ending := false }))

/-- `t` comes from `s` by a sequence of changes that command `i` may make. -/
inductive Done (i : Instr) (s : State) : State → Prop
  | refl : Done i s s
  | step {t u : State} (h : Done i s t) (hd : Deed i t u) : Done i s u

variable {i : Instr} {s t u : State}

theorem Done.keeps {β : Type} {P : State → β} (hP : ∀ s t, Deed i s t → P t = P s) (h : Done i s t) : P t = P s := by
  induction h with
  | refl => rfl
  | step _ hd ih => rw [hP _ _ hd, ih]

theorem Done.carries {P : State → Prop} (hP : ∀ s t, Deed i s t → P s → P t) (h : Done i s t) (hs : P s) : P t := by
  induction h with
  | refl => exact hs
  | step _ hd ih => exact hP _ _ hd ih

theorem Done.foldl {α : Type} {f : State → α → State} (hf : ∀ t x, Done i s t → Done i s (f t x)) (l : List α) :
    ∀ t, Done i s t → Done i s (l.foldl f t) := by
  induction l with
  | nil => exact fun _ h => h
  | cons x l ih => exact fun t h => ih _ (hf t x h)

/-! ### The taking of an event, and background work -/

theorem Done.taken (h : Done i s t) (k : Taken t u) (hc : changesClocks i = true := by rfl) (hr : changesRuns i = true := by rfl) :
    Done i s u := by
  induction k with
  | refl => exact h
  | step _ hn ih => exact .step ih (.take hn (.inl hc) (.inl hr) (.inl (changesCells_of_runs hr)))

theorem Nudge.clocks_eq {σ : Option Aud} (h : Nudge σ s t) : t.clocks = s.clocks := (Worked.step .refl h).frame.2.2.2.1

theorem Done.worked (h : Done i s t) {σ : Option Aud} (k : Worked σ t u) (hr : changesRuns i = true := by rfl) : Done i s u := by
  induction k with
  | refl => exact h
  | step _ hn ih => exact .step ih (.take (.work hn) (.inr hn.clocks_eq) (.inl hr) (.inl (changesCells_of_runs hr)))

theorem Done.settleFills (h : Done i s t) (hr : changesRuns i = true := by rfl) : Done i s t.settleFills :=
  h.worked (σ := none) (.settleFills .refl) hr

/-! ### Changes that any command may make -/

theorem Done.port (h : Done i s t) (a : Aud) (f : CuePort → CuePort) (hq : (f (t.cuePort a)).queue.length ≤ (t.cuePort a).queue.length)
    (hr : (f (t.cuePort a)).replies.length ≤ (t.cuePort a).replies.length) : Done i s (t.onPort a f) :=
  .step h (.take (.port _ _ _ (fun k => hq.trans k) (fun k => hr.trans k)) (.inr rfl) (.inr rfl) (.inr ⟨rfl, rfl, rfl, fun _ => rfl, fun _ => rfl⟩))

theorem Done.raiseAud (h : Done i s t) (a : Aud) (k : Byte) : Done i s (t.raiseAud a k) := .step h (.attention _ _)

theorem Done.transmit (h : Done i s t) (a : Aud) : Done i s (t.transmit a) := by
  obtain ⟨f, hf, hl, hr⟩ := transmit_cases t a
  simp only [CuePort.lineSide, Prod.mk.injEq] at hl
  obtain ⟨-, -, -, -, -, -, queue, -⟩ := hl
  rw [hf]
  exact h.port a f (by rw [queue]) hr

theorem Done.flow (h : Done i s t) (a : Aud) : Done i s (t.flow a) := by
  have hold : Done i s ((t.onPort a (fun p => { p with flowPlace := some .hold, holdOutstanding := true })).transmit a) :=
    (h.port a _ (le_refl _) (le_refl _)).transmit a
  unfold State.flow
  split
  · split
    · exact (h.port a _ (le_refl _) (le_refl _)).transmit a
    · exact h
  · split
    · dsimp only
      split
      · exact hold.raiseAud a _
      · exact hold
    · exact h

theorem Done.intake (h : Done i s t) (a : Aud) (f : Intake → Intake)
    (hf : ∀ c, (f (t.intake a)).context.cue = some c → ∃ d, (t.intake a).context.cue = some d ∧ c.sameCue d)
    (hs : changesCells i = true := by rfl) : Done i s (t.onIntake a f) :=
  .step h (.take (.context _ _ _ hf) (.inr rfl) (.inr rfl) (.inl hs))

theorem Done.requestFree (h : Done i s t) (a : Aud) (k : Nat) (g : FreeTag) (hs : changesCells i = true := by rfl) :
    Done i s (t.requestFree a k g) :=
  .step h (.take (.work (σ := none) (.store _ _ _ (fun _ => ⟨rfl, rfl⟩))) (.inr rfl) (.inr rfl) (.inl hs))

theorem Done.audCounters (h : Done i s t) (a : Aud) (f : AudCounters → AudCounters) : Done i s (t.onCounters a f) :=
  .step h (.take (.counters _ _ _) (.inr rfl) (.inr rfl) (.inr ⟨rfl, rfl, rfl, fun _ => rfl, fun _ => rfl⟩))

theorem Done.draws (h : Done i s t) (f : Nat → Nat) : Done i s (t.onDraws f) :=
  .step h (.take (.work (σ := none) (.draws _ _)) (.inr rfl) (.inr rfl) (.inr ⟨rfl, rfl, rfl, fun _ => rfl, fun _ => rfl⟩))

/-- A change of a link port that leaves its state, buffers and exchange. -/
theorem Done.linkRest (h : Done i s t) (p : Port) (f : LinkPort → LinkPort)
    (hf : ∀ l, (f l).state = l.state ∧ (f l).buffers = l.buffers ∧ (f l).exchange = l.exchange) : Done i s (t.onLink p f) := by
  obtain ⟨hs, hb, he⟩ := hf (t.link p)
  exact .step h (.link _ _ _ (by simp only [LinkPort.ringWf, hs, hb, he]; exact id))

theorem Done.answer (h : Done i s t) (p : Port) (b : List Byte) : Done i s (t.answer p b) := h.linkRest p _ (fun _ => ⟨rfl, rfl, rfl⟩)

theorem Done.linkCount (h : Done i s t) (p : Port) (f : LinkCounters → LinkCounters) : Done i s (t.onLinkCounters p f) :=
  .step h (.linkCounters _ _ _)

theorem Done.raiseLink (h : Done i s t) (p : Port) (k : Byte) : Done i s (t.raiseLink p k) := .step h (.attention _ _)

theorem Done.malformed (h : Done i s t) (p : Port) : Done i s (t.answerMalformedTo p) := ((h.linkCount p _).raiseLink p _).answer p _

theorem Done.hold (h : Done i s t) (c : Byte) (x : Answer) : Done i s (t.hold c x) := .step h (.mgmt _ _)

/-- A command write does no more than what it does where it is taken. -/
theorem Done.write (taken : State → State) (h : ∀ t, Done i s t → Done i s (taken t)) : ∃ t, s.write taken = .next t ∧ Done i s t := by
  have written : ∀ f, Done i s (s.onMgmt f) := fun f => .step .refl (.mgmt _ f)
  unfold State.write
  split
  · exact ⟨_, rfl, written _⟩
  · exact ⟨_, rfl, h _ (written _)⟩
  · exact ⟨_, rfl, h _ (written _)⟩
end Sys2Proof.Machine
end

section
/-! PROOFS. Every command but DEVICE_RESET answers a next state, and comes to it by changes it may make. -/

namespace Sys2Proof.Machine

/-! ### Show clock and session -/

variable {a : Aud} {p : Port} {s : State}

theorem session_ne_dark {x : AudState} (h : (s.session a).state = x) (hx : x ≠ .dark) : (s.session a).state ≠ .dark := by rw [h]; exact hx

theorem done_strobe (a : Aud) (s : State) : ∃ t, exec (.strobe a) s = .next t ∧ Done (.strobe a) s t := by
  change ∃ t, execStrobe a s = .next t ∧ _
  unfold execStrobe
  have ref : Done (.strobe a) s (s.onClock a (fun c => { c with ref := s.now })) := Done.refl.taken (.step .refl (.ref _ _ _))
  split
  case h_5 running => exact ⟨_, rfl, Done.refl.taken (Taken.refl.strobeRunning a (session_ne_dark running (by decide)))⟩
  case h_6 coasting => exact ⟨_, rfl, Done.refl.taken (Taken.refl.strobeCoasting a coasting)⟩
  all_goals exact ⟨_, rfl, ref⟩

theorem done_subStep (a : Aud) (s : State) : ∃ t, exec (.subStep a) s = .next t ∧ Done (.subStep a) s t := by
  change ∃ t, execSubStep a s = .next t ∧ _
  unfold execSubStep
  split
  · exact ⟨_, rfl, Done.refl.taken ((Taken.refl.settleSub a).positionChanged a).settleFills⟩
  · exact ⟨_, rfl, .refl⟩

theorem done_strobeLoss (a : Aud) (s : State) : ∃ t, exec (.strobeLoss a) s = .next t ∧ Done (.strobeLoss a) s t := by
  change ∃ t, execStrobeLoss a s = .next t ∧ _
  unfold execStrobeLoss
  split
  · next due =>
    simp only [State.lossDue, Bool.and_eq_true, beq_iff_eq] at due
    have coasts : Taken s (s.onSession a (fun x => { x with state := .coasting })) :=
      .step .refl (.session _ _ _ (by simp [due.1.1]))
    have closed := coasts.run a (fun r => { r with window := .closed }) (.inl rfl) (.inl rfl)
    exact ⟨_, rfl, Done.refl.taken (((((closed.counters a _).raiseAud a _).synthetic a).positionChanged a).settleFills)⟩
  · exact ⟨_, rfl, .refl⟩

theorem done_syntheticStrobe (a : Aud) (s : State) : ∃ t, exec (.syntheticStrobe a) s = .next t ∧ Done (.syntheticStrobe a) s t := by
  change ∃ t, execSyntheticStrobe a s = .next t ∧ _
  unfold execSyntheticStrobe
  split
  · exact ⟨_, rfl, Done.refl.taken ((Taken.refl.synthetic a).positionChanged a).settleFills⟩
  · exact ⟨_, rfl, .refl⟩

theorem done_staleEvent (a : Aud) (s : State) : ∃ t, exec (.staleEvent a) s = .next t ∧ Done (.staleEvent a) s t := by
  change ∃ t, execStaleEvent a s = .next t ∧ _
  unfold execStaleEvent
  split
  · have marked : Done (.staleEvent a) s (s.onRun a (fun r => { r with staleMark := true })) :=
      .step .refl (.take (.run _ _ _ (.inl rfl) (.inr (.inl rfl))) (.inr rfl) (.inl rfl) (.inl rfl))
    exact ⟨_, rfl, ((marked.raiseAud a _).worked (σ := none) (Worked.refl.oweClears a)).settleFills⟩
  · exact ⟨_, rfl, .refl⟩

theorem done_runChange (a : Aud) (high : Bool) (s : State) : ∃ t, exec (.runChange a high) s = .next t ∧ Done (.runChange a high) s t := by
  change ∃ t, execRunChange a high s = .next t ∧ _
  unfold execRunChange
  split
  · exact ⟨_, rfl, .refl⟩
  · exact ⟨_, rfl, Done.taken (.step .refl (.runPin _ _ _)) (Taken.refl.runOrGate a)⟩

/-! ### The cue port's lines -/

theorem Done.port' {i : Instr} {s t : State} (h : Done i s t) (a : Aud) (f : CuePort → CuePort)
    (hf : ∀ p, (f p).queue = p.queue ∧ (f p).replies = p.replies) : Done i s (t.onPort a f) :=
  h.port a f (by rw [(hf _).1]) (by rw [(hf _).2])

theorem Done.completeOnLine {i : Instr} (a : Aud) (v : Byte) (pb sb : Bool) (s : State) (hc : changesClocks i = true) (hr : changesRuns i = true) :
    Done i s (s.completeOnLine a v pb sb) := by
  have latched : Done i s (s.latchIfIdle a) := by
    unfold State.latchIfIdle
    split
    · exact Done.refl.port' a _ (by intro; exact ⟨rfl, rfl⟩)
    · exact .refl
  have pinned := Done.step latched (.rxPin _ a sb)
  unfold State.completeOnLine
  dsimp only
  split
  · exact ((pinned.port' a _ (by intro; exact ⟨rfl, rfl⟩)).port' a _ (by intro; exact ⟨rfl, rfl⟩)).taken (Taken.refl.receive a _) hc hr
  · exact ((pinned.port' a _ (by intro; exact ⟨rfl, rfl⟩)).port' a _ (by intro; exact ⟨rfl, rfl⟩)).taken (Taken.refl.receive a _) hc hr

theorem done_character (a : Aud) (v : Byte) (pb sb : Bool) (s : State) :
    ∃ t, exec (.character a v pb sb) s = .next t ∧ Done (.character a v pb sb) s t := by
  change ∃ t, execCharacter a v pb sb s = .next t ∧ _
  unfold execCharacter
  split
  · exact ⟨_, rfl, .refl⟩
  · exact ⟨_, rfl, Done.completeOnLine a v pb sb s rfl rfl⟩

theorem done_lineBreak (a : Aud) (s : State) : ∃ t, exec (.lineBreak a) s = .next t ∧ Done (.lineBreak a) s t := by
  change ∃ t, execLineBreak a s = .next t ∧ _
  unfold execLineBreak
  split
  · exact ⟨_, rfl, .refl⟩
  · exact ⟨_, rfl, Done.completeOnLine a _ _ _ s rfl rfl⟩

theorem done_lineReturnsHigh (a : Aud) (s : State) : ∃ t, exec (.lineReturnsHigh a) s = .next t ∧ Done (.lineReturnsHigh a) s t := by
  change ∃ t, execLineReturnsHigh a s = .next t ∧ _
  have high : Done (.lineReturnsHigh a) s (s.setRxPin a true) := .step .refl (.rxPin _ _ _)
  unfold execLineReturnsHigh
  dsimp only
  split
  · exact ⟨_, rfl, (high.port' a _ (by intro; exact ⟨rfl, rfl⟩)).port' a _ (by intro; exact ⟨rfl, rfl⟩)⟩
  · exact ⟨_, rfl, high.port' a _ (by intro; exact ⟨rfl, rfl⟩)⟩
  all_goals exact ⟨_, rfl, high⟩

theorem done_gap (a : Aud) (s : State) : ∃ t, exec (.gap a) s = .next t ∧ Done (.gap a) s t := by
  change ∃ t, execGap a s = .next t ∧ _
  have stopped : Done (.gap a) s (s.stopGapTimer a) := Done.refl.port' a _ (by intro; exact ⟨rfl, rfl⟩)
  unfold execGap
  split
  · dsimp only
    split
    · exact ⟨_, rfl, stopped.taken (Taken.refl.actOnGap a)⟩
    · exact ⟨_, rfl, stopped.port a _ (by simp [changeLast_length]) (le_refl _)⟩
  · exact ⟨_, rfl, .refl⟩

theorem done_assemblerResumes (a : Aud) (s : State) : ∃ t, exec (.assemblerResumes a) s = .next t ∧ Done (.assemblerResumes a) s t := by
  change ∃ t, execAssemblerResumes a s = .next t ∧ _
  unfold execAssemblerResumes
  split
  · exact ⟨_, rfl, Done.refl.taken ((Taken.refl.resumeDeferred a).drain a)⟩
  · exact ⟨_, rfl, .refl⟩

theorem done_replySent (a : Aud) (s : State) : ∃ t, exec (.replySent a) s = .next t ∧ Done (.replySent a) s t := by
  change ∃ t, execReplySent a s = .next t ∧ _
  unfold execReplySent
  split
  · exact ⟨_, rfl, (Done.refl.port' a _ (by intro; exact ⟨rfl, rfl⟩)).transmit a⟩
  · exact ⟨_, rfl, .refl⟩

theorem done_candidateStartBit (a : Aud) (b : Bool) (s : State) :
    ∃ t, exec (.candidateStartBit a b) s = .next t ∧ Done (.candidateStartBit a b) s t := by
  change ∃ t, execCandidateStartBit a b s = .next t ∧ _
  have started : Done (.candidateStartBit a b) s ((s.setRxPin a false).onPort a (fun p => { p.latchLine with receiver := .receiving })) :=
    Done.port' (.step .refl (.rxPin _ _ _)) a _ (by intro; exact ⟨rfl, rfl⟩)
  unfold execCandidateStartBit
  split
  · exact ⟨_, rfl, .refl⟩
  · dsimp only
    split
    · exact ⟨_, rfl, started.port' a _ (by intro; exact ⟨rfl, rfl⟩)⟩
    · exact ⟨_, rfl, started⟩

/-! ### The store -/

theorem done_insertionPlaces (a : Aud) (s : State) : ∃ t, exec (.insertionPlaces a) s = .next t ∧ Done (.insertionPlaces a) s t := by
  change ∃ t, execInsertionPlaces a s = .next t ∧ _
  unfold execInsertionPlaces
  split
  · next c due =>
    have inserting : (s.intake a).context.cue = some c := by
      unfold State.placingDue at due
      split at due
      · next c' w hctx =>
        split at due
        · cases due; rw [hctx]; rfl
        · cases due
      · cases due
    have placed : Done (.insertionPlaces a) s _ := .step .refl (.take (.placed s a c (fun k => { k with accepted := bump k.accepted }) inserting)
      (.inr rfl) (.inr rfl) (.inl rfl))
    refine ⟨_, rfl, Done.settleFills ?_⟩
    unfold State.placeInserted
    dsimp only
    split
    · exact placed.worked (σ := none) ((Worked.refl.store a _ (by intro; exact ⟨rfl, rfl⟩)).startPurge a _)
    · exact placed.worked (σ := none) (Worked.refl.release a none)
  · exact ⟨_, rfl, .refl⟩

theorem Taken.wakePurge {s t : State} (h : Taken s t) (a : Aud) (g : FreeTag) : Taken s (t.wakePurge a g) := by
  unfold State.wakePurge
  split
  · split
    · exact ((h.store a _ (by intro; rfl)).runPurge a _).settleFills
    · exact h
  · exact h

theorem Taken.requestServed {s t : State} (h : Taken s t) (a : Aud) (g : FreeTag) : Taken s (t.requestServed a g) := by
  unfold State.requestServed
  split
  · exact ((h.finishWork _).wakePurge a g).resumeDeferred a
  · exact (h.wakePurge a g).resumeDeferred a

theorem Taken.freeOneCell {s t : State} (h : Taken s t) (a : Aud) : Taken s (t.freeOneCell a) := by
  unfold State.freeOneCell
  split
  · exact h
  · next r rest _ =>
    have returned : Taken s (if r.cells = 0 then t else t.returnCell a) := by
      split
      · exact h
      · exact h.returnCell a
    dsimp only
    split
    · exact (returned.store a _ (by intro; rfl)).requestServed a _
    · exact returned.store a _ (by intro; rfl)

theorem done_cellFreed (a : Aud) (s : State) : ∃ t, exec (.cellFreed a) s = .next t ∧ Done (.cellFreed a) s t := by
  change ∃ t, execCellFreed a s = .next t ∧ _
  unfold execCellFreed
  split
  · exact ⟨_, rfl, Done.refl.taken (Taken.refl.freeOneCell a)⟩
  · exact ⟨_, rfl, .refl⟩

theorem done_purgeStep (a : Aud) (s : State) : ∃ t, exec (.purgeStep a) s = .next t ∧ Done (.purgeStep a) s t := by
  change ∃ t, execPurgeStep a s = .next t ∧ _
  unfold execPurgeStep
  split
  · exact ⟨_, rfl, Done.refl.taken (((Taken.refl.purgeStep a _ _).settleFills).resumeDeferred a)⟩
  · exact ⟨_, rfl, .refl⟩

/-! ### The link ports -/

theorem Done.link {i : Instr} {s t : State} (h : Done i s t) (p : Port) (f : LinkPort → LinkPort)
    (hf : (t.link p).ringWf → (f (t.link p)).ringWf) : Done i s (t.onLink p f) := .step h (.link _ _ _ hf)

/-- A SERVING port whose exchange names no SENDING buffer has none. -/
theorem LinkPort.ringWf.none_sending {l : LinkPort} (h : l.ringWf) (hx : ∀ b, l.exchange = .buffer b → (pick l.buffers b).isSending = false) (b : BufNo) :
    (pick l.buffers b).isSending = false := by
  by_contra sending
  rw [Bool.not_eq_false] at sending
  rw [hx b (h.2 b sending)] at sending
  cases sending

theorem LinkPort.ringWf.emptyOut {l : LinkPort} (h : l.ringWf) (b : BufNo) : (l.emptyOut b).ringWf := by
  refine ⟨fun away c => ?_, fun c sending => ?_⟩
  · simp only [LinkPort.emptyOut, LinkPort.setBuffer, pick_change]
    split
    · rfl
    · exact h.1 away c
  · simp only [LinkPort.emptyOut, LinkPort.setBuffer, pick_change] at sending ⊢
    split at sending
    · cases sending
    · exact h.2 c sending

/-- A buffer that is not EMPTY turns READY. -/
theorem LinkPort.ringWf.setReady {l : LinkPort} (h : l.ringWf) (b : BufNo) (f : Frame) (q : List BufNo) (hb : pick l.buffers b ≠ .empty) :
    ({ l.setBuffer b (.ready f) with readyQueue := q } : LinkPort).ringWf := by
  refine ⟨fun away => absurd (h.1 away b) hb, fun c sending => ?_⟩
  simp only [LinkPort.setBuffer, pick_change] at sending ⊢
  split at sending
  · cases sending
  · exact h.2 c sending

/-- An exchange that names no SENDING buffer may close, or open anew. -/
theorem LinkPort.ringWf.exchange {l : LinkPort} (h : l.ringWf) (hx : ∀ b, l.exchange = .buffer b → (pick l.buffers b).isSending = false) (x : Exchange) :
    ({ l with exchange := x } : LinkPort).ringWf :=
  ⟨h.1, fun b sending => absurd sending (by rw [h.none_sending hx b]; decide)⟩

theorem fillDue_filling {b : BufNo} {f : Frame} (h : s.fillDue p = some (b, f)) : pick (s.link p).buffers b ≠ .empty := by
  unfold State.fillDue at h
  split at h
  · split at h
    · next filling =>
      split at h
      · cases h; rw [filling]; exact Buffer.noConfusion
      · cases h
    · cases h
  · cases h

theorem done_fillEnds (p : Port) (s : State) : ∃ t, exec (.fillEnds p) s = .next t ∧ Done (.fillEnds p) s t := by
  change ∃ t, execFillEnds p s = .next t ∧ _
  unfold execFillEnds
  split
  · next b f due => exact ⟨_, rfl, (Done.refl.link p _ (fun h => h.setReady b f _ (fillDue_filling due))).settleFills⟩
  · exact ⟨_, rfl, .refl⟩

theorem Done.dropExpired {i : Instr} {s : State} (p : Port) (q : List BufNo) : ∀ {t}, Done i s t → Done i s (State.dropExpired p q t) := by
  induction q with
  | nil => exact fun h => h
  | cons b rest ih =>
    intro t h
    unfold State.dropExpired
    split
    · split
      · exact ih ((h.link p _ (fun hw => hw.emptyOut b)).linkCount p _)
      · exact h
    · exact h

/-- Dropping expired frames leaves the port's state and exchange. -/
theorem dropExpired_link (p : Port) (q : List BufNo) : ∀ t : State, ((State.dropExpired p q t).link p).state = (t.link p).state ∧
    ((State.dropExpired p q t).link p).exchange = (t.link p).exchange := by
  induction q with
  | nil => exact fun _ => ⟨rfl, rfl⟩
  | cons b rest ih =>
    intro t
    unfold State.dropExpired
    split
    · split
      · obtain ⟨state, exchange⟩ := ih _
        exact ⟨by rw [state]; simp [LinkPort.emptyOut, LinkPort.setBuffer], by rw [exchange]; simp [LinkPort.emptyOut, LinkPort.setBuffer]⟩
      · exact ⟨rfl, rfl⟩
    · exact ⟨rfl, rfl⟩

theorem heldFrame_none {l : LinkPort} (h : l.heldFrame = none) (b : BufNo) (hx : l.exchange = .buffer b) : (pick l.buffers b).isSending = false := by
  rw [LinkPort.heldFrame, hx] at h
  cases hb : pick l.buffers b with
  | sending f => simp [hb] at h
  | _ => rfl

/-- The frame first in the READY queue turns SENDING in an exchange of its own. -/
theorem LinkPort.ringWf.send {l : LinkPort} (h : l.ringWf) (hs : l.state = .serving) (hx : l.exchange = .closed) (b : BufNo) (f : Frame) (q : List BufNo) :
    ({ l.setBuffer b (.sending f) with readyQueue := q, exchange := .buffer b } : LinkPort).ringWf := by
  refine ⟨fun away => absurd hs away, fun c sending => ?_⟩
  by_cases e : b = c
  · rw [e]
  · simp only [LinkPort.setBuffer, pick_change, if_neg e] at sending
    rw [h.none_sending (by simp [hx]) c] at sending
    cases sending

theorem Done.pullFresh {i : Instr} {s t : State} (h : Done i s t) (p : Port) (hs : (t.link p).state = .serving)
    (held : (t.link p).heldFrame = none) : Done i s (t.pullFresh p) := by
  have closed : Done i s (t.onLink p (fun l => { l with exchange := .closed })) :=
    h.link p _ (fun hw => hw.exchange (heldFrame_none held) _)
  obtain ⟨state, exchange⟩ := dropExpired_link p ((t.onLink p (fun l => { l with exchange := .closed })).link p).readyQueue
    (t.onLink p (fun l => { l with exchange := .closed }))
  simp only [State.onLink_link, if_true] at state exchange
  have direct : ∀ (u : State) (f : LinkPort → LinkPort), Done i s u → (u.link p).exchange = .closed →
      (∀ l, (f l).state = l.state ∧ (f l).buffers = l.buffers) → Done i s (u.onLink p f) := fun u f hu hx hf =>
    hu.link p f (fun hw => ⟨by rw [(hf _).1, (hf _).2]; exact hw.1, fun b sending => by
      rw [(hf _).2, hw.none_sending (by simp [hx]) b] at sending; cases sending⟩)
  unfold State.pullFresh
  dsimp only
  split
  · exact ((closed.dropExpired p _).link p _ (fun hw => hw.send (by rw [← hs]; simpa using state) (by simpa using exchange) _ _ _)).answer p _
  · split
    · exact (direct _ _ (closed.dropExpired p _) (by simpa using exchange) (by intro; exact ⟨rfl, rfl⟩)).answer p _
    · exact ((direct _ _ (closed.dropExpired p _) (by simpa using exchange) (by intro; exact ⟨rfl, rfl⟩)).linkCount p _).answer p _

theorem Done.pullServing {i : Instr} {s t : State} (h : Done i s t) (p : Port) (slot : BitVec 16) (hs : (t.link p).state = .serving) :
    Done i s (t.pullServing p slot) := by
  have recorded : Done i s (t.onLink p (fun l => { l with lastSlot := slot, silenceStart := if l.silenceLimit = 0 then none else some t.now })) :=
    h.linkRest p _ (by intro; exact ⟨rfl, rfl, rfl⟩)
  unfold State.pullServing
  dsimp only
  split
  · exact (recorded.linkCount p _).answer p _
  · next none_held =>
    exact recorded.pullFresh p (by simpa using hs) (by simpa [LinkPort.heldFrame] using none_held)

theorem Done.enterServing {i : Instr} {s t : State} (h : Done i s t) (p : Port) : Done i s (t.enterServing p) :=
  h.link p _ (fun hw => ⟨fun away => absurd rfl away, hw.2⟩)

theorem done_pull (p : Port) (slot : BitVec 16) (s : State) : ∃ t, exec (.pull p slot) s = .next t ∧ Done (.pull p slot) s t := by
  change ∃ t, execPull p slot s = .next t ∧ _
  have direct : (s.link p).state ≠ .serving → Done (.pull p slot) s (s.onLink p (fun l => { l with lastSlot := slot, exchange := .direct })) :=
    fun away => Done.refl.link p _ (fun hw => ⟨hw.1, fun b sending => by
      have empty : pick (s.link p).buffers b = .empty := hw.1 away b
      simp only [empty] at sending
      cases sending⟩)
  unfold execPull
  split
  · next e => exact ⟨_, rfl, (direct (by rw [e]; decide)).answer p _⟩
  · next e => exact ⟨_, rfl, (direct (by rw [e]; decide)).answer p _⟩
  · next e => exact ⟨_, rfl, (Done.refl.pullServing p slot e).settleFills⟩
  · exact ⟨_, rfl, ((Done.refl.enterServing p).pullServing p slot (by simp [State.enterServing])).settleFills⟩

theorem Done.closeExchange {i : Instr} {s t : State} (h : Done i s t) (p : Port)
    (hx : ∀ b, (t.link p).exchange = .buffer b → (pick (t.link p).buffers b).isSending = false) : Done i s (t.closeExchange p) :=
  (h.link p _ (fun hw => hw.exchange hx _)).answer p _

theorem Done.noFrame {i : Instr} {s t : State} (h : Done i s t) (p : Port) : Done i s (t.noFrame p) := ((h.linkCount p _).raiseLink p _).answer p _

theorem secondCopy_frame {x : Buffer} {f : Frame} (h : x.frame.bind s.secondCopy = some f) : x ≠ .empty := by
  rintro rfl; cases h

/-- An exchange that names buffer `b` alone closes once that buffer is not SENDING. -/
theorem exchange_names {l m : LinkPort} {b : BufNo} (hl : l.exchange = .buffer b) (hm : m.exchange = l.exchange)
    (hb : (pick m.buffers b).isSending = false) : ∀ c, m.exchange = .buffer c → (pick m.buffers c).isSending = false := by
  intro c hc
  rw [hm, hl] at hc
  cases hc
  exact hb

theorem done_doneSent (p : Port) (s : State) : ∃ t, exec (.doneSent p) s = .next t ∧ Done (.doneSent p) s t := by
  change ∃ t, execDoneSent p s = .next t ∧ _
  unfold execDoneSent
  split
  · exact ⟨_, rfl, Done.refl.noFrame p⟩
  · next e => exact ⟨_, rfl, Done.refl.closeExchange p (by simp [e])⟩
  · next e => exact ⟨_, rfl, Done.refl.closeExchange p (by simp [e])⟩
  · next b e =>
    have counted : Done (.doneSent p) s (s.onLinkCounters p (fun c => { c with sent := bump c.sent })) := Done.refl.linkCount p _
    refine ⟨_, rfl, Done.settleFills (Done.closeExchange ?_ p (exchange_names (b := b) e ?_ ?_))⟩
    · split
      · next f again => exact counted.link p _ (fun hw => hw.setReady b f _ (secondCopy_frame again))
      · exact counted.link p _ (fun hw => hw.emptyOut b)
    all_goals split <;> simp [LinkPort.setBuffer, LinkPort.emptyOut, Buffer.isSending]

theorem done_doneAborted (p : Port) (s : State) : ∃ t, exec (.doneAborted p) s = .next t ∧ Done (.doneAborted p) s t := by
  change ∃ t, execDoneAborted p s = .next t ∧ _
  unfold execDoneAborted
  split
  · exact ⟨_, rfl, Done.refl.noFrame p⟩
  · next e => exact ⟨_, rfl, Done.refl.closeExchange p (by simp [e])⟩
  · next e => exact ⟨_, rfl, Done.refl.closeExchange p (by simp [e])⟩
  · next b e =>
    have counted : Done (.doneAborted p) s (s.onLinkCounters p (fun c => { c with abort := bump c.abort })) := Done.refl.linkCount p _
    cases hb : (pick (s.link p).buffers b).frame with
    | none =>
      refine ⟨_, rfl, Done.settleFills (Done.closeExchange counted p (exchange_names e rfl ?_))⟩
      cases hp : pick (s.link p).buffers b with
      | empty => simp [hp, Buffer.isSending]
      | _ => simp [hp, Buffer.frame] at hb
    | some f =>
      have held : pick (s.link p).buffers b ≠ .empty := fun empty => by simp [empty, Buffer.frame] at hb
      dsimp only
      split
      · exact ⟨_, rfl, Done.settleFills (Done.closeExchange ((counted.link p _ (fun hw => hw.emptyOut b)).linkCount p _) p
          (exchange_names (b := b) e (by simp [LinkPort.setBuffer, LinkPort.emptyOut]) (by simp [LinkPort.setBuffer, LinkPort.emptyOut, Buffer.isSending])))⟩
      · exact ⟨_, rfl, Done.settleFills (Done.closeExchange (counted.link p _ (fun hw => hw.setReady b f _ held)) p
          (exchange_names (b := b) e (by simp [LinkPort.setBuffer]) (by simp [LinkPort.setBuffer, Buffer.isSending])))⟩

theorem Done.leaveServing {i : Instr} {s t : State} (h : Done i s t) (p : Port) (dest : LinkState) (hr : changesRuns i = true) :
    Done i s (t.leaveServing p dest) := by
  refine ((h.linkCount p _).link p _ (fun _ => ⟨fun _ b => ?_, fun b sending => ?_⟩)).worked (σ := none) (Worked.refl.portOwesNothing p) hr
  · simp [pick]
  · simp [pick, Buffer.isSending] at sending

theorem leaveServing_state (s : State) (p : Port) (dest : LinkState) : ((s.leaveServing p dest).link p).state = dest := by
  have outside := (Worked.portOwesNothing (σ := none) (s := _) .refl p).outside (t := s.leaveServing p dest) p
  simp only [LinkPort.outside, Prod.mk.injEq] at outside
  rw [outside.1]
  simp

theorem done_alignStart (p : Port) (s : State) : ∃ t, exec (.alignStart p) s = .next t ∧ Done (.alignStart p) s t := by
  change ∃ t, execAlignStart p s = .next t ∧ _
  unfold execAlignStart
  refine ⟨_, rfl, (Done.linkRest ?_ p _ (by intro; exact ⟨rfl, rfl, rfl⟩)).answer p _⟩
  split
  · exact (Done.refl.leaveServing p _ rfl).settleFills
  · next away => exact Done.refl.link p _ (fun hw => ⟨fun _ => hw.1 (by simpa using away), hw.2⟩)

theorem done_probeWrite (p : Port) (b : List Byte) (s : State) : ∃ t, exec (.probeWrite p b) s = .next t ∧ Done (.probeWrite p b) s t := by
  change ∃ t, execProbeWrite p b s = .next t ∧ _
  unfold execProbeWrite
  split
  · split
    · exact ⟨_, rfl, (Done.refl.linkRest p _ (by intro; exact ⟨rfl, rfl, rfl⟩)).answer p _⟩
    · exact ⟨_, rfl, Done.refl.answer p _⟩
  · exact ⟨_, rfl, Done.refl.malformed p⟩

theorem done_probeRead (p : Port) (s : State) : ∃ t, exec (.probeRead p) s = .next t ∧ Done (.probeRead p) s t := by
  change ∃ t, execProbeRead p s = .next t ∧ _
  unfold execProbeRead
  split
  · exact ⟨_, rfl, (Done.refl.linkRest p _ (by intro; exact ⟨rfl, rfl, rfl⟩)).answer p _⟩
  · exact ⟨_, rfl, Done.refl.answer p _⟩

theorem done_alignEndPass (p : Port) (s : State) : ∃ t, exec (.alignEndPass p) s = .next t ∧ Done (.alignEndPass p) s t := by
  change ∃ t, execAlignEndPass p s = .next t ∧ _
  unfold execAlignEndPass
  split
  · split
    · exact ⟨_, rfl, ((Done.refl.enterServing p).answer p _).settleFills⟩
    · exact ⟨_, rfl, Done.refl.answer p _⟩
  · exact ⟨_, rfl, Done.refl.answer p _⟩

theorem done_alignEndFail (p : Port) (s : State) : ∃ t, exec (.alignEndFail p) s = .next t ∧ Done (.alignEndFail p) s t := by
  change ∃ t, execAlignEndFail p s = .next t ∧ _
  unfold execAlignEndFail
  split
  · split
    · exact ⟨_, rfl, ((Done.refl.linkRest p _ (by intro; exact ⟨rfl, rfl, rfl⟩)).raiseLink p _).answer p _⟩
    · exact ⟨_, rfl, Done.refl.answer p _⟩
  · exact ⟨_, rfl, Done.refl.answer p _⟩

theorem done_silenceTimerExpires (p : Port) (s : State) :
    ∃ t, exec (.silenceTimerExpires p) s = .next t ∧ Done (.silenceTimerExpires p) s t := by
  change ∃ t, execSilenceTimerExpires p s = .next t ∧ _
  unfold execSilenceTimerExpires
  split
  · exact ⟨_, rfl, ((Done.refl.leaveServing p _ rfl).raiseLink p _).settleFills⟩
  · exact ⟨_, rfl, .refl⟩

theorem done_beaconTimerExpires (p : Port) (s : State) :
    ∃ t, exec (.beaconTimerExpires p) s = .next t ∧ Done (.beaconTimerExpires p) s t := by
  change ∃ t, execBeaconTimerExpires p s = .next t ∧ _
  have reloaded : Done (.beaconTimerExpires p) s (s.onLink p (fun l =>
      { l with beaconDue := some (s.now + l.beaconPeriod * Config.tick), beaconOwed := true })) := Done.refl.linkRest p _ (by intro; exact ⟨rfl, rfl, rfl⟩)
  unfold execBeaconTimerExpires
  split
  · dsimp only
    split
    · exact ⟨_, rfl, (reloaded.linkCount p _).settleFills⟩
    · exact ⟨_, rfl, reloaded.settleFills⟩
  · exact ⟨_, rfl, .refl⟩

end Sys2Proof.Machine
end

section
/-! PROOFS. The records, the receiver table and the management port among the commands, and what follows from all of them: the answer
of every command, who changes what, and the laws of clocks, queues and rings. -/

namespace Sys2Proof.Machine

variable {i : Instr} {s t : State}

/-! ### Receivers -/

theorem Done.rx (h : Done i s t) (j : RxIndex) (f : Receiver → Receiver) (hi : changesReceivers i = true) : Done i s (t.onRx j f) :=
  .step h (.receivers _ _ hi)

theorem changesTable_of_receivers (h : changesReceivers i = true) : changesTable i = true := by cases i <;> first | rfl | cases h

theorem Done.table (h : Done i s t) (f : RxTable → RxTable) (hi : changesTable i = true) : Done i s (t.onTable f) := .step h (.table _ _ hi)

theorem Done.onDegraded (h : Done i s t) (r : Receiver) (f : Nat → Nat) (hi : changesReceivers i = true) : Done i s (t.onDegraded r f) :=
  Done.foldl (fun u k hu => .step hu (.stream u (streamOf r.auditorium k) _ (by intro; rfl) (.inl hi))) _ _ h

theorem Done.offerLost (h : Done i s t) (j : RxIndex) (hi : changesReceivers i = true) : Done i s (t.offerLost j) := by
  have ht := changesTable_of_receivers hi
  unfold State.offerLost
  split
  · exact h
  · split
    · dsimp only
      split
      · exact .step (h.table _ ht) (.attention _ _)
      · exact h.table _ ht
    · exact .step (h.table _ ht) (.attention _ _)

theorem Done.loseReceiver (h : Done i s t) (j : RxIndex) (hi : changesReceivers i = true) : Done i s (t.loseReceiver j) := by
  unfold State.loseReceiver
  dsimp only
  split
  · exact ((h.onDegraded _ _ hi).rx j _ hi).offerLost j hi
  · exact (h.rx j _ hi).offerLost j hi

theorem Done.applyHealth (h : Done i s t) (j : RxIndex) (x : Nat) (hi : changesReceivers i = true) : Done i s (t.applyHealth j x) := by
  unfold State.applyHealth
  dsimp only
  split
  · exact (h.rx j _ hi).loseReceiver j hi
  · split
    · exact ((h.rx j _ hi).rx j _ hi).onDegraded _ _ hi
    · split
      · exact ((h.rx j _ hi).rx j _ hi).onDegraded _ _ hi
      · exact h.rx j _ hi

theorem Done.applyReport (h : Done i s t) (j : RxIndex) (m : Nat) (hi : changesReceivers i = true) : Done i s (t.applyReport j m) := by
  have aged := h.rx j (fun x => { x with age := 0 }) hi
  unfold State.applyReport
  dsimp only
  split
  · exact aged
  · split
    · exact aged.applyHealth j _ hi
    · exact aged.applyHealth j _ hi
  · split
    · exact aged.applyHealth j _ hi
    · exact aged.applyHealth j _ hi
  · split
    · split
      · exact aged.rx j _ hi
      · exact aged.rx j _ hi
    · exact aged.rx j _ hi

theorem Done.reportEntry (h : Done i s t) (e : ReportEntry) (hi : changesReceivers i = true) : Done i s (t.reportEntry e) := by
  have ht := changesTable_of_receivers hi
  unfold State.reportEntry
  split
  · exact h.table _ ht
  · split
    · exact h.applyReport _ _ hi
    · exact h.table _ ht

theorem done_report (p : Port) (es : List ReportEntry) (s : State) : ∃ t, exec (.report p es) s = .next t ∧ Done (.report p es) s t := by
  change ∃ t, execReport p es s = .next t ∧ _
  unfold execReport
  split
  · exact ⟨_, rfl, (Done.foldl (fun _ e h => h.reportEntry e rfl) es _ (Done.refl.linkCount p _)).answer p _⟩
  · exact ⟨_, rfl, Done.refl.malformed p⟩

theorem done_secondTimerExpires (s : State) : ∃ t, exec .secondTimerExpires s = .next t ∧ Done .secondTimerExpires s t := by
  change ∃ t, execSecondTimerExpires s = .next t ∧ _
  unfold execSecondTimerExpires
  split
  · have aged : Done .secondTimerExpires s ((s.onTable (fun t => { t with secondStart := s.now })).ageAll) :=
      .step (Done.refl.table _ rfl) (.receivers _ _ rfl)
    exact ⟨_, rfl, Done.foldl (fun _ j h => h.loseReceiver j rfl) _ _ (aged.draws _)⟩
  · exact ⟨_, rfl, .refl⟩

/-! ### The management port: the auditoriums -/

theorem Done.configure (h : Done i s t) (a : Aud) (q w l : Nat) (hi : changesClocks i = true) (hl : l ≤ 65535) : Done i s (t.configure a q w l) := by
  unfold State.configure
  split
  · exact h.hold _ _
  · next dark =>
    split
    · exact h.hold _ _
    · split
      · exact h.hold _ _
      · next range =>
        split
        · exact h.hold _ _
        · next sum =>
          have hw : w ∈ [8, 16, 32, 64] := by
            simp only [Bool.or_eq_true, Bool.not_eq_true', Bool.or_eq_false_iff, not_or, not_and_or] at range
            simpa [or_assoc] using range.2
          exact ((Done.step h (.configured t a q w l hi (by simpa using dark) hw hl (Nat.not_lt.mp sum))).flow a).hold _ _

theorem number_two_le (x y : Byte) : number [x, y] ≤ 65535 := by
  have hx := x.isLt
  have hy := y.isLt
  simp only [number, List.length_cons, List.length_nil]
  omega

theorem done_configureAuditorium (args : List Byte) (s : State) : ∃ t, exec (.configureAuditorium args) s = .next t ∧ Done (.configureAuditorium args) s t := by
  change ∃ t, execConfigureAuditorium args s = .next t ∧ _
  unfold execConfigureAuditorium
  refine Done.write _ fun t h => ?_
  split
  · split
    · exact h.configure _ _ _ _ rfl (number_two_le _ _)
    · exact h.hold _ _
  · exact h.hold _ _

theorem done_arm (args : List Byte) (s : State) : ∃ t, exec (.arm args) s = .next t ∧ Done (.arm args) s t := by
  change ∃ t, execArm args s = .next t ∧ _
  unfold execArm
  refine Done.write _ fun t h => ?_
  split
  · split
    · split
      · exact h.hold _ _
      · split
        · exact ((Done.step h (.armed _ _ _ rfl rfl)).flow _).hold _ _
        · exact h.hold _ _
    · exact h.hold _ _
  · exact h.hold _ _

theorem LinkPort.ringWf.emptyOut_foldl (q : List BufNo) : ∀ {l : LinkPort}, l.ringWf → (q.foldl LinkPort.emptyOut l).ringWf := by
  induction q with
  | nil => exact fun h => h
  | cons b q ih => exact fun h => ih (h.emptyOut b)

theorem Done.tearRing (a : Aud) (h : Done i s t) (p : Port) : Done i s (State.tearRing a t p) :=
  (h.link p _ (fun hw => hw.emptyOut_foldl _)).linkCount p _

theorem Done.clearSession (h : Done i s t) (a : Aud) (hc : changesClocks i = true) (hr : changesRuns i = true) : Done i s (t.clearSession a) := by
  have cleared : ∀ u, Done i s u → Done i s (slots.foldl (fun t k => t.onStream (streamOf a k) (fun st => { st with clearOwed := [] })) u) :=
    Done.foldl (fun u k hu => .step hu (.stream u (streamOf a k) _ (by intro; rfl) (.inr (by intro; rfl)))) slots
  exact Done.taken (cleared _ (.step h (.disarmed t a hc hr))) (Taken.refl.store a _ (by intro; rfl)) hc hr

theorem Done.disarmSession (h : Done i s t) (a : Aud) (hc : changesClocks i = true) (hr : changesRuns i = true) :
    Done i s (t.disarmSession a) := by
  have torn := Done.foldl (fun u p hu => Done.tearRing a (t := u) hu p) ports _ ((h.clearSession a hc hr).flow a)
  exact (torn.worked (σ := none) (Worked.refl.startPurge a _) hr).settleFills hr

theorem Done.work (h : Done i s t) (w : Work) : Done i s (t.work w) := .step h (.mgmt _ _)

theorem done_disarm (args : List Byte) (s : State) : ∃ t, exec (.disarm args) s = .next t ∧ Done (.disarm args) s t := by
  change ∃ t, execDisarm args s = .next t ∧ _
  unfold execDisarm
  refine Done.write _ fun t h => ?_
  split
  · split
    · split
      · exact h.hold _ _
      · split
        · exact h.hold _ _
        · exact (h.work _).disarmSession _ rfl rfl
    · exact h.hold _ _
  · exact h.hold _ _

theorem Done.setGate (h : Done i s t) (a : Aud) (on : Bool) (hc : changesClocks i = true) (hr : changesRuns i = true) :
    Done i s (t.setGate a on) := by
  unfold State.setGate
  split
  · exact h
  · exact Done.taken (.step h (.gate _ _ _)) (Taken.refl.runOrGate a) hc hr

theorem done_setGate (args : List Byte) (s : State) : ∃ t, exec (.setGate args) s = .next t ∧ Done (.setGate args) s t := by
  change ∃ t, execSetGate args s = .next t ∧ _
  unfold execSetGate
  refine Done.write _ fun t h => ?_
  split
  · split
    · exact (h.setGate _ _ rfl rfl).hold _ _
    · exact h.hold _ _
  · exact h.hold _ _

/-! ### The management port: streams and cue ports -/

theorem done_openStream (args : List Byte) (s : State) : ∃ t, exec (.openStream args) s = .next t ∧ Done (.openStream args) s t := by
  change ∃ t, execOpenStream args s = .next t ∧ _
  unfold execOpenStream
  refine Done.write _ fun t h => ?_
  split
  · split
    · split
      · exact h.hold _ _
      · split
        · exact h.hold _ _
        · split
          · exact h.hold _ _
          · split
            · exact h.hold _ _
            · exact (Done.step h (.stream _ _ _ (by intro; rfl) (.inr (by intro; rfl)))).hold _ _
    · exact h.hold _ _
  · exact h.hold _ _

theorem Done.closeSlot (h : Done i s t) (a : Aud) (k : Slot) (hr : changesRuns i = true) : Done i s (t.closeSlot a k) := by
  unfold State.closeSlot
  split
  · exact h.worked (σ := none) (Worked.refl.store a _ (by intro; exact ⟨rfl, rfl⟩)) hr
  · exact (h.worked (σ := none) (Worked.refl.startPurge a _) hr).settleFills hr

theorem done_closeStream (args : List Byte) (s : State) : ∃ t, exec (.closeStream args) s = .next t ∧ Done (.closeStream args) s t := by
  change ∃ t, execCloseStream args s = .next t ∧ _
  unfold execCloseStream
  refine Done.write _ fun t h => ?_
  split
  · split
    · split
      · exact h.hold _ _
      · split
        · exact h.hold _ _
        · exact (h.work _).closeSlot _ _ rfl
    · exact h.hold _ _
  · exact h.hold _ _

theorem done_setCuePort (args : List Byte) (s : State) : ∃ t, exec (.setCuePort args) s = .next t ∧ Done (.setCuePort args) s t := by
  change ∃ t, execSetCuePort args s = .next t ∧ _
  unfold execSetCuePort
  refine Done.write _ fun t h => ?_
  split
  · split
    · split
      · exact h.hold _ _
      · split
        · split
          · exact h.hold _ _
          · exact (h.port' _ _ (by intro; exact ⟨rfl, rfl⟩)).hold _ _
        · exact h.hold _ _
    · exact h.hold _ _
  · exact h.hold _ _

theorem Done.resetPort (h : Done i s t) (a : Aud) (hs : changesCells i = true) : Done i s (t.resetPort a) := by
  have cleared : Done i s (t.onPort a (fun p => p.cleared (t.rxHigh a))) := h.port a _ (by simp [CuePort.cleared]) (by simp [CuePort.cleared])
  unfold State.resetPort
  dsimp only
  split
  · exact (((cleared.intake a _ (by intro c hc; cases hc) hs).requestFree a _ _ hs).flow a).work _
  · exact ((cleared.intake a _ (by intro c hc; cases hc) hs).flow a).hold _ _
  · exact ((cleared.intake a _ (by intro c hc; cases hc) hs).flow a).hold _ _
  · exact ((cleared.intake a _ (fun c hc => ⟨c, hc, sameCue_refl c⟩) hs).flow a).hold _ _

theorem done_resetCuePort (args : List Byte) (s : State) : ∃ t, exec (.resetCuePort args) s = .next t ∧ Done (.resetCuePort args) s t := by
  change ∃ t, execResetCuePort args s = .next t ∧ _
  unfold execResetCuePort
  refine Done.write _ fun t h => ?_
  split
  · split
    · exact h.resetPort _ rfl
    · exact h.hold _ _
  · exact h.hold _ _

/-! ### The management port: link ports -/

theorem done_setFilter (args : List Byte) (s : State) : ∃ t, exec (.setFilter args) s = .next t ∧ Done (.setFilter args) s t := by
  change ∃ t, execSetFilter args s = .next t ∧ _
  unfold execSetFilter
  refine Done.write _ fun t h => ?_
  split
  · split
    · split
      · exact h.hold _ _
      · exact (h.linkRest _ _ (by intro; exact ⟨rfl, rfl, rfl⟩)).hold _ _
    · exact h.hold _ _
  · exact h.hold _ _

theorem LinkPort.configure_rest (l : LinkPort) (now period limit : Nat) : (l.configure now period limit).state = l.state ∧
    (l.configure now period limit).buffers = l.buffers ∧ (l.configure now period limit).exchange = l.exchange := by
  unfold LinkPort.configure
  split <;> exact ⟨rfl, rfl, rfl⟩

theorem done_setLink (args : List Byte) (s : State) : ∃ t, exec (.setLink args) s = .next t ∧ Done (.setLink args) s t := by
  change ∃ t, execSetLink args s = .next t ∧ _
  unfold execSetLink
  refine Done.write _ fun t h => ?_
  split
  · split
    · dsimp only
      split
      · exact h.hold _ _
      · exact (h.linkRest _ _ (fun _ => LinkPort.configure_rest _ _ _ _)).hold _ _
    · exact h.hold _ _
  · exact h.hold _ _

theorem Done.resetLink (h : Done i s t) (p : Port) (hr : changesRuns i = true) : Done i s (t.resetLink p) := by
  have empties : ∀ u : State, (u.link p).state ≠ .serving → Done i s u → Done i s (u.onLink p (fun l =>
      { l with state := .down, exchange := .closed, probe := {}, beaconOwed := false, beaconDue := none, silenceStart := none })) :=
    fun u away hu => hu.link p _ (fun hw => ⟨fun _ => hw.1 away, fun b sending => by
      have empty : pick (u.link p).buffers b = .empty := hw.1 away b
      simp only [empty] at sending
      cases sending⟩)
  unfold State.resetLink
  dsimp only
  split
  · refine empties _ ?_ ((h.leaveServing p _ hr).settleFills hr)
    have outside := (Worked.settleFills (σ := none) (s := t.leaveServing p .down) .refl).outside p
    simp only [LinkPort.outside, Prod.mk.injEq] at outside
    rw [outside.1, leaveServing_state]
    decide
  · next away => exact empties _ (by simpa using away) h

theorem done_resetLinkPort (args : List Byte) (s : State) : ∃ t, exec (.resetLinkPort args) s = .next t ∧ Done (.resetLinkPort args) s t := by
  change ∃ t, execResetLinkPort args s = .next t ∧ _
  unfold execResetLinkPort
  refine Done.write _ fun t h => ?_
  split
  · split
    · exact (h.resetLink _ rfl).hold _ _
    · exact h.hold _ _
  · exact h.hold _ _

/-! ### The management port: receivers, readings and attention -/

theorem done_registerReceiver (args : List Byte) (s : State) : ∃ t, exec (.registerReceiver args) s = .next t ∧ Done (.registerReceiver args) s t := by
  change ∃ t, execRegisterReceiver args s = .next t ∧ _
  unfold execRegisterReceiver
  refine Done.write _ fun t h => ?_
  split
  · split
    · dsimp only
      split
      · exact h.hold _ _
      · split
        · exact h.hold _ _
        · split
          · exact h.hold _ _
          · exact (h.rx _ _ rfl).hold _ _
    · exact h.hold _ _
  · exact h.hold _ _

theorem Done.releaseRx (h : Done i s t) (j : RxIndex) (hi : changesReceivers i = true) : Done i s (t.releaseRx j) := by
  have ht := changesTable_of_receivers hi
  unfold State.releaseRx
  dsimp only
  split
  · exact ((h.onDegraded _ _ hi).table _ ht).rx j _ hi
  · exact (h.table _ ht).rx j _ hi

theorem done_releaseReceiver (args : List Byte) (s : State) : ∃ t, exec (.releaseReceiver args) s = .next t ∧ Done (.releaseReceiver args) s t := by
  change ∃ t, execReleaseReceiver args s = .next t ∧ _
  unfold execReleaseReceiver
  refine Done.write _ fun t h => ?_
  split
  · dsimp only
    split
    · exact h.hold _ _
    · split
      · exact h.hold _ _
      · exact (h.releaseRx _ rfl).hold _ _
  · exact h.hold _ _

theorem done_readReceiver (args : List Byte) (s : State) : ∃ t, exec (.readReceiver args) s = .next t ∧ Done (.readReceiver args) s t := by
  change ∃ t, execReadReceiver args s = .next t ∧ _
  unfold execReadReceiver
  refine Done.write _ fun t h => ?_
  split
  · split
    · exact h.hold _ _
    · exact h.hold _ _
  · exact h.hold _ _

theorem done_setReceiverPolicy (args : List Byte) (s : State) : ∃ t, exec (.setReceiverPolicy args) s = .next t ∧ Done (.setReceiverPolicy args) s t := by
  change ∃ t, execSetReceiverPolicy args s = .next t ∧ _
  unfold execSetReceiverPolicy
  refine Done.write _ fun t h => ?_
  split
  · split
    · exact (h.table _ rfl).hold _ _
    · exact h.hold _ _
  · exact h.hold _ _

theorem done_takeLost (args : List Byte) (s : State) : ∃ t, exec (.takeLost args) s = .next t ∧ Done (.takeLost args) s t := by
  change ∃ t, execTakeLost args s = .next t ∧ _
  unfold execTakeLost
  refine Done.write _ fun t h => ?_
  split
  · exact (h.table _ rfl).hold _ _
  · exact h.hold _ _

theorem done_readAuditorium (args : List Byte) (s : State) : ∃ t, exec (.readAuditorium args) s = .next t ∧ Done (.readAuditorium args) s t := by
  change ∃ t, execReadAuditorium args s = .next t ∧ _
  unfold execReadAuditorium
  refine Done.write _ fun t h => ?_
  split
  · split
    · exact h.hold _ _
    · exact h.hold _ _
  · exact h.hold _ _

theorem done_readStream (args : List Byte) (s : State) : ∃ t, exec (.readStream args) s = .next t ∧ Done (.readStream args) s t := by
  change ∃ t, execReadStream args s = .next t ∧ _
  unfold execReadStream
  refine Done.write _ fun t h => ?_
  split
  · split
    · exact h.hold _ _
    · exact h.hold _ _
  · exact h.hold _ _

theorem done_readLink (args : List Byte) (s : State) : ∃ t, exec (.readLink args) s = .next t ∧ Done (.readLink args) s t := by
  change ∃ t, execReadLink args s = .next t ∧ _
  unfold execReadLink
  refine Done.write _ fun t h => ?_
  split
  · split
    · exact (h.draws _).hold _ _
    · exact h.hold _ _
  · exact h.hold _ _

theorem Done.clearCounters (h : Done i s t) (x : Source) (hi : changesTable i = true) : Done i s (t.clearCounters x) := by
  cases x with
  | aud a => exact h.audCounters a _
  | link p => exact h.linkCount p _
  | table => exact h.table (fun t => { t with unknown := 0, mismatch := 0 }) hi

theorem done_readCounters (args : List Byte) (s : State) : ∃ t, exec (.readCounters args) s = .next t ∧ Done (.readCounters args) s t := by
  change ∃ t, execReadCounters args s = .next t ∧ _
  unfold execReadCounters
  refine Done.write _ fun t h => ?_
  split
  · split
    · refine Done.hold ?_ _ _
      split
      · exact h.clearCounters _ rfl
      · exact h
    · exact h.hold _ _
  · exact h.hold _ _

theorem done_readAttention (args : List Byte) (s : State) : ∃ t, exec (.readAttention args) s = .next t ∧ Done (.readAttention args) s t := by
  change ∃ t, execReadAttention args s = .next t ∧ _
  unfold execReadAttention
  refine Done.write _ fun t h => ?_
  split
  · exact h.hold _ _
  · exact h.hold _ _

theorem done_ackAttention (args : List Byte) (s : State) : ∃ t, exec (.ackAttention args) s = .next t ∧ Done (.ackAttention args) s t := by
  change ∃ t, execAckAttention args s = .next t ∧ _
  unfold execAckAttention
  refine Done.write _ fun t h => ?_
  split
  · split
    · split
      · exact (Done.step h (.attention _ _)).hold _ _
      · exact h.hold _ _
    · exact h.hold _ _
  · exact h.hold _ _

theorem done_setAttentionEnable (args : List Byte) (s : State) : ∃ t, exec (.setAttentionEnable args) s = .next t ∧ Done (.setAttentionEnable args) s t := by
  change ∃ t, execSetAttentionEnable args s = .next t ∧ _
  unfold execSetAttentionEnable
  refine Done.write _ fun t h => ?_
  split
  · split
    · exact (Done.step h (.attention _ _)).hold _ _
    · exact h.hold _ _
  · exact h.hold _ _

/-! ### Every command -/

theorem done_record (a : Aud) (kind : Byte) (fields : List Byte) (s : State) (hc : changesClocks i = true := by rfl) (hr : changesRuns i = true := by rfl) :
    ∃ t, (.next (s.recordArrives a kind fields) : Host.Outcome State Fault Refusal) = .next t ∧ Done i s t :=
  ⟨_, rfl, Done.refl.taken (Taken.refl.recordArrives a kind fields) hc hr⟩

/-- Every command but DEVICE_RESET answers a next state that it comes to by its own changes. -/
theorem exec_done (i : Instr) (s : State) (hi : i ≠ .deviceReset) : ∃ t, exec i s = .next t ∧ Done i s t := by
  cases i with
  | deviceReset => exact absurd rfl hi
  | strobe a => exact done_strobe a s
  | subStep a => exact done_subStep a s
  | strobeLoss a => exact done_strobeLoss a s
  | syntheticStrobe a => exact done_syntheticStrobe a s
  | staleEvent a => exact done_staleEvent a s
  | runChange a high => exact done_runChange a high s
  | character a v pb sb => exact done_character a v pb sb s
  | lineBreak a => exact done_lineBreak a s
  | lineReturnsHigh a => exact done_lineReturnsHigh a s
  | gap a => exact done_gap a s
  | assemblerResumes a => exact done_assemblerResumes a s
  | damagedRecord a kind => exact ⟨_, rfl, Done.refl.taken (Taken.refl.damagedArrives a kind)⟩
  | unknownKind a kind fields => exact done_record a kind fields s
  | mark a fields => exact done_record a markCode fields s
  | head a fields => exact done_record a headCode fields s
  | body a payload => exact done_record a bodyCode payload s
  | withdraw a fields => exact done_record a withdrawCode fields s
  | endRecord a fields => exact done_record a endCode fields s
  | query a fields => exact done_record a queryCode fields s
  | insertionPlaces a => exact done_insertionPlaces a s
  | cellFreed a => exact done_cellFreed a s
  | purgeStep a => exact done_purgeStep a s
  | replySent a => exact done_replySent a s
  | fillEnds p => exact done_fillEnds p s
  | pull p slot => exact done_pull p slot s
  | doneSent p => exact done_doneSent p s
  | doneAborted p => exact done_doneAborted p s
  | report p es => exact done_report p es s
  | linkQuery p => exact ⟨_, rfl, Done.refl.answer p _⟩
  | alignStart p => exact done_alignStart p s
  | probeWrite p b => exact done_probeWrite p b s
  | probeRead p => exact done_probeRead p s
  | alignEndPass p => exact done_alignEndPass p s
  | alignEndFail p => exact done_alignEndFail p s
  | malformed p code args => exact ⟨_, rfl, Done.refl.malformed p⟩
  | silenceTimerExpires p => exact done_silenceTimerExpires p s
  | beaconTimerExpires p => exact done_beaconTimerExpires p s
  | secondTimerExpires => exact done_secondTimerExpires s
  | fetch => exact ⟨_, rfl, .step .refl (.mgmt _ _)⟩
  | unknownCommand code args => exact Done.write _ fun t h => h.hold _ _
  | configureAuditorium args => exact done_configureAuditorium args s
  | arm args => exact done_arm args s
  | disarm args => exact done_disarm args s
  | setGate args => exact done_setGate args s
  | openStream args => exact done_openStream args s
  | closeStream args => exact done_closeStream args s
  | setCuePort args => exact done_setCuePort args s
  | resetCuePort args => exact done_resetCuePort args s
  | setFilter args => exact done_setFilter args s
  | setLink args => exact done_setLink args s
  | resetLinkPort args => exact done_resetLinkPort args s
  | registerReceiver args => exact done_registerReceiver args s
  | releaseReceiver args => exact done_releaseReceiver args s
  | readReceiver args => exact done_readReceiver args s
  | setReceiverPolicy args => exact done_setReceiverPolicy args s
  | takeLost args => exact done_takeLost args s
  | readAuditorium args => exact done_readAuditorium args s
  | readStream args => exact done_readStream args s
  | readLink args => exact done_readLink args s
  | readCounters args => exact done_readCounters args s
  | readAttention args => exact done_readAttention args s
  | ackAttention args => exact done_ackAttention args s
  | setAttentionEnable args => exact done_setAttentionEnable args s
  | candidateStartBit a b => exact done_candidateStartBit a b s

end Sys2Proof.Machine
end

section
/-! PROOFS. The machine as a whole: a step, the answer of every command, who changes what, and the laws that every step keeps. -/

namespace Sys2Proof.Machine

variable {i : Instr} {s t : State}

/-- Settles O1: that is what `step` does with a queue that is not empty. -/
theorem stepRunsFrontCommand : Obligations.StepRunsFrontCommand := by
  intro c rest s h
  rw [step, h]

/-! ### Frames -/

/-- The queue and the time base stand. -/
theorem Deed.frame (h : Deed i s t) : (t.pending, t.now) = (s.pending, s.now) := by
  cases h with
  | take h =>
    obtain ⟨now, -, -, -, -, pending⟩ := (Taken.step .refl h).frame
    rw [now, pending]
  | _ => exact rfl

/-- Settles O2: DEVICE_RESET keeps the queue, and no change of another command touches queue or time base. -/
theorem everyCommandAnswersNext : Obligations.EveryCommandAnswersNext := by
  intro i s
  by_cases reset : i = .deviceReset
  · subst reset
    exact ⟨_, rfl, rfl, fun h => absurd rfl h⟩
  · obtain ⟨t, next, done⟩ := exec_done i s reset
    have frame := done.keeps (P := fun s => (s.pending, s.now)) (fun _ _ => Deed.frame)
    simp only [Prod.mk.injEq] at frame
    exact ⟨t, next, frame.1, fun _ => frame.2⟩

theorem Deed.receivers_eq (h : Deed i s t) (hi : changesReceivers i = false) : t.receivers = s.receivers := by
  cases h with
  | take h => exact (Taken.step .refl h).frame.2.2.2.1
  | receivers _ hr => rw [hi] at hr; cases hr
  | _ => exact rfl

theorem Deed.table_eq (h : Deed i s t) (hi : changesTable i = false) : t.table = s.table := by
  cases h with
  | take h => exact (Taken.step .refl h).frame.2.2.2.2.1
  | table _ hr => rw [hi] at hr; cases hr
  | _ => exact rfl

theorem Deed.clocks_eq (h : Deed i s t) (hi : changesClocks i = false) : t.clocks = s.clocks := by
  cases h with
  | take h hc => exact hc.resolve_left (by rw [hi]; decide)
  | configured _ _ _ _ hc | armed _ _ hc | disarmed _ hc => rw [hi] at hc; cases hc
  | _ => exact rfl

theorem Deed.runs_eq (h : Deed i s t) (hi : changesRuns i = false) : t.runs = s.runs := by
  cases h with
  | take h _ hr => exact hr.resolve_left (by rw [hi]; decide)
  | armed _ _ _ hr | disarmed _ _ hr => rw [hi] at hr; cases hr
  | _ => exact rfl

/-- Settles O11: each change of these fields asks for a command that may make it. -/
theorem whoChangesWhat : Obligations.WhoChangesWhat := by
  intro i s t next
  by_cases reset : i = .deviceReset
  · subst reset
    exact ⟨(nomatch ·), (nomatch ·), (nomatch ·), (nomatch ·)⟩
  · obtain ⟨u, answered, done⟩ := exec_done i s reset
    rw [next] at answered
    cases answered
    exact ⟨fun hi => done.keeps fun _ _ h => h.receivers_eq hi, fun hi => done.keeps fun _ _ h => h.table_eq hi,
      fun hi => done.keeps fun _ _ h => h.clocks_eq hi, fun hi => done.keeps fun _ _ h => h.runs_eq hi⟩

/-! ### Laws that hold at reset and that every change keeps -/

/-- The part as DEVICE_RESET leaves it. -/
def State.afterReset (s : State) : State :=
  { State.reset with
    draws := s.draws
    runPins := s.runPins
    rxPins := s.rxPins
    cuePorts := Vector.ofFn (fun a => { receiver := if s.rxHigh a then .idle else .waitHigh false })
    pending := s.pending }

theorem exec_deviceReset (s : State) : exec .deviceReset s = .next s.afterReset := rfl

/-- A law that ignores the queue, the time base and the free choices, that reset meets, and that the commands keep, every step keeps. -/
theorem step_keeps {P : State → Prop} (hidle : ∀ s now draws pending, P s → P { s with now := now, draws := draws, pending := pending })
    (hreset : ∀ s : State, P s.afterReset) (hexec : ∀ i s t, i ≠ .deviceReset → exec i s = .next t → P s → P t)
    {s t : State} (hs : P s) (h : step s = .next t) : P t := by
  unfold step at h
  split at h
  · next c rest _ =>
    have hs' : P { s with pending := rest } := hidle s s.now s.draws rest hs
    by_cases reset : c = .deviceReset
    · rw [reset, exec_deviceReset] at h
      cases h
      exact hreset _
    · exact hexec c _ t reset h hs'
  · cases h
    unfold State.idle
    split
    · exact hidle s _ s.draws s.pending hs
    · exact hidle s s.now _ _ hs

/-- The same, of a law that each change keeps. -/
theorem step_keeps_of_deeds {P : State → Prop} (hidle : ∀ s now draws pending, P s → P { s with now := now, draws := draws, pending := pending })
    (hreset : ∀ s : State, P s.afterReset) (hdeed : ∀ i s t, Deed i s t → P s → P t)
    {s t : State} (hs : P s) (h : step s = .next t) : P t := by
  refine step_keeps hidle hreset (fun i s t hi next hs => ?_) hs h
  obtain ⟨u, answered, done⟩ := exec_done i s hi
  rw [next] at answered
  cases answered
  exact done.carries (hdeed i) hs

section reset
variable (s : State)

/-! The readers at reset. -/
@[simp] theorem reset_clock (a : Aud) : State.reset.clock a = {} := by simp [State.reset, State.clock, pick]
@[simp] theorem reset_showRun (a : Aud) : State.reset.showRun a = {} := by simp [State.reset, State.showRun, pick]
@[simp] theorem reset_session (a : Aud) : State.reset.session a = {} := by simp [State.reset, State.session, pick]
@[simp] theorem reset_audCounter (a : Aud) : State.reset.audCounter a = {} := by simp [State.reset, State.audCounter, pick]
@[simp] theorem reset_cuePort (a : Aud) : State.reset.cuePort a = {} := by simp [State.reset, State.cuePort, pick]
@[simp] theorem reset_intake (a : Aud) : State.reset.intake a = {} := by simp [State.reset, State.intake, pick]
@[simp] theorem reset_store (a : Aud) : State.reset.store a = {} := by simp [State.reset, State.store, pick]
@[simp] theorem reset_stream (n : StreamNo) : State.reset.stream n = {} := by simp [State.reset, State.stream, pick]
@[simp] theorem reset_link (p : Port) : State.reset.link p = {} := by simp [State.reset, State.link, pick]
@[simp] theorem reset_linkCounter (p : Port) : State.reset.linkCounter p = {} := by simp [State.reset, State.linkCounter, pick]
@[simp] theorem reset_rx (j : RxIndex) : State.reset.rx j = {} := by simp [State.reset, State.rx, pick]

@[simp] theorem afterReset_cuePort (a : Aud) :
    s.afterReset.cuePort a = { receiver := if s.rxHigh a then .idle else .waitHigh false } := by simp [State.afterReset, State.cuePort, pick]

end reset

theorem reset_clocksWf : State.reset.clocksWf := by
  intro a
  simp [Clock.wf, ShowRun.wf]

theorem reset_quotasWf : State.reset.quotasWf := by simp [State.quotasWf, State.quotaTotal]

theorem reset_queuesOrdered : State.reset.queuesOrdered := by simp [State.queuesOrdered]

theorem reset_cuesDistinct : State.reset.cuesDistinct := by simp [State.cuesDistinct, seqs, Context.cue]

theorem reset_ringsWf : State.reset.ringsWf := by simp [State.ringsWf, pick, Buffer.isSending]

theorem reset_receiversWf : State.reset.receiversWf := by simp [State.receiversWf, Receiver.wf]

theorem reset_lostListWf : State.reset.lostListWf := by simp [State.lostListWf, State.reset]

theorem reset_degradedCountsWf : State.reset.degradedCountsWf := by simp [State.degradedCountsWf, Receiver.struggles]

theorem reset_cellsWf : State.reset.cellsWf := by
  refine ⟨reset_quotasWf, reset_cuesDistinct, ?_, fun a => ?_⟩
  · have free : State.reset.freeCells = 8192 := rfl
    simp [free]
  · simp [State.cellsOf, Context.cue, State.darkCells]

theorem reset_cueQueuesWf : State.reset.cueQueuesWf := by simp [State.cueQueuesWf]

/-- Settles O5: each law by the values of the reset state. -/
theorem resetIsSafe : Obligations.ResetIsSafe :=
  ⟨reset_clocksWf, reset_quotasWf, reset_cueQueuesWf, reset_queuesOrdered, reset_cuesDistinct, reset_cellsWf, reset_ringsWf,
    reset_receiversWf, reset_lostListWf, reset_degradedCountsWf⟩

/-! ### The clocks -/

theorem nominal_inBand (r : Rate) : r.inBand r.nominal := by simp [Rate.inBand]

theorem Deed.clocksWf (h : Deed i s t) (hs : s.clocksWf) : t.clocksWf := by
  cases h with
  | take h => exact (Taken.step .refl h).clocksWf hs
  | configured a q w l _ dark hw hl =>
    intro b
    obtain ⟨⟨hbase, hhold, hw', hl', hrate⟩, hdark, hrun⟩ := hs b
    by_cases e : a = b
    · subst e
      simp only [State.onClock_clock, State.onClock_session, State.onClock_showRun, State.onStore_clock, State.onStore_session, State.onStore_showRun, if_pos]
      exact ⟨⟨hbase, hhold, hw, hl, hrate⟩, hdark, hrun.1, fun k x open_ => absurd dark (hrun.2 k x open_).2⟩
    · simp only [State.onClock_clock, State.onClock_session, State.onClock_showRun, State.onStore_clock, State.onStore_session, State.onStore_showRun, if_neg e]
      exact hs b
  | armed a r =>
    intro b
    by_cases e : a = b
    · subst e
      obtain ⟨⟨-, -, hw, hl, -⟩, -⟩ := hs a
      simp [Clock.wf, ShowRun.wf, hl, tpf_pos, nominal_inBand]
      simpa using hw
    · simpa [e] using hs b
  | disarmed a =>
    intro b
    by_cases e : a = b
    · subst e
      obtain ⟨⟨-, -, hw, hl, -⟩, -⟩ := hs a
      simp [Clock.wf, ShowRun.wf, hl]
      simpa using hw
    · simpa [e] using hs b
  | gate a v =>
    intro b
    by_cases e : a = b
    · subst e; simpa using hs a
    · simpa [e] using hs b
  | _ => exact hs

/-- Settles O6: reset is in range, and every change a command makes keeps the ranges. -/
theorem stepKeepsClocks : Obligations.StepKeepsClocks := fun _ _ hs h =>
  step_keeps_of_deeds (fun _ _ _ _ h => h) (fun _ => reset_clocksWf) (fun _ _ _ hd => hd.clocksWf) hs h

/-! ### The stream queues -/

theorem onStream_queue {n : StreamNo} {f : Stream → Stream} (hf : ∀ x, (f x).queue = x.queue) (m : StreamNo) :
    ((s.onStream n f).stream m).queue = (s.stream m).queue := by
  rw [State.onStream_stream]
  split
  · exact hf _
  · rfl

theorem Deed.queuesOrdered (h : Deed i s t) (hs : s.queuesOrdered) : t.queuesOrdered := by
  cases h with
  | take h => exact (Taken.step .refl h).queuesOrdered hs
  | stream n f hf =>
    intro m
    rw [onStream_queue hf]
    exact hs m
  | _ => exact hs

theorem Deed.cuesDistinct (h : Deed i s t) (hs : s.cuesDistinct) : t.cuesDistinct := by
  cases h with
  | take h => exact (Taken.step .refl h).cuesDistinct hs
  | stream n f hf =>
    simp only [State.cuesDistinct, onStream_queue hf]
    exact hs
  | _ => exact hs

/-- Settles O8: no change of a command disturbs the order of a queue or brings two cues of one sequence or span together. -/
theorem stepKeepsStreamQueues : Obligations.StepKeepsStreamQueues :=
  ⟨fun _ _ hs h => step_keeps_of_deeds (fun _ _ _ _ h => h) (fun _ => reset_queuesOrdered) (fun _ _ _ hd => hd.queuesOrdered) hs h,
    fun _ _ hs h => step_keeps_of_deeds (fun _ _ _ _ h => h) (fun _ => reset_cuesDistinct) (fun _ _ _ hd => hd.cuesDistinct) hs h⟩

/-! ### The staging rings -/

theorem Deed.ringsWf (h : Deed i s t) (hs : s.ringsWf) : t.ringsWf := by
  cases h with
  | take h => exact (Taken.step .refl h).ringsWf hs
  | link p f hf =>
    intro q
    rw [State.onLink_link]
    split
    · next e => subst e; exact hf (hs p)
    · exact hs q
  | _ => exact hs

/-- Settles O9: a change of a link port is one that keeps its ring's law. -/
theorem stepKeepsRings : Obligations.StepKeepsRings := fun _ _ hs h =>
  step_keeps_of_deeds (fun _ _ _ _ h => h) (fun _ => reset_ringsWf) (fun _ _ _ hd => hd.ringsWf) hs h

/-! ### Quotas and the cue ports' queues -/

theorem Deed.quotasWf (h : Deed i s t) (hs : s.quotasWf) : t.quotasWf := by
  cases h with
  | take h => exact (Taken.step .refl h).quotasWf hs
  | configured a q w l _ _ _ _ hq =>
    have total : ∀ b, (((s.onStore a (fun st => { st with quota := q })).onClock a (fun c => { c with windowSize := w, staleLimit := l })).store b).quota =
        if b = a then q else (s.store b).quota := by
      intro b
      by_cases e : b = a
      · subst e; simp
      · simp [e, Ne.symm e]
    simp only [State.quotasWf, State.quotaTotal, total]
    exact hq
  | _ => exact hs

theorem step_keeps_quotasWf (hs : s.quotasWf) (h : step s = .next t) : t.quotasWf :=
  step_keeps_of_deeds (fun _ _ _ _ h => h) (fun _ => reset_quotasWf) (fun _ _ _ hd => hd.quotasWf) hs h

theorem Deed.cueQueuesWf (h : Deed i s t) (hs : s.cueQueuesWf) : t.cueQueuesWf := by
  cases h with
  | take h => exact (Taken.step .refl h).cueQueuesWf hs
  | _ => exact hs

theorem step_keeps_cueQueuesWf (hs : s.cueQueuesWf) (h : step s = .next t) : t.cueQueuesWf :=
  step_keeps_of_deeds (fun _ _ _ _ h => h) (fun s a => by simp) (fun _ _ _ hd => hd.cueQueuesWf) hs h

end Sys2Proof.Machine
end

section
/-! PROOFS. The dispatch, command by command. -/

namespace Sys2Proof.Machine

theorem exec_strobe_eq (a : Aud) (s : State) : exec (.strobe a) s = execStrobe a s := rfl
theorem exec_subStep_eq (a : Aud) (s : State) : exec (.subStep a) s = execSubStep a s := rfl
theorem exec_strobeLoss_eq (a : Aud) (s : State) : exec (.strobeLoss a) s = execStrobeLoss a s := rfl
theorem exec_syntheticStrobe_eq (a : Aud) (s : State) : exec (.syntheticStrobe a) s = execSyntheticStrobe a s := rfl
theorem exec_staleEvent_eq (a : Aud) (s : State) : exec (.staleEvent a) s = execStaleEvent a s := rfl
theorem exec_runChange_eq (a : Aud) (high : Bool) (s : State) : exec (.runChange a high) s = execRunChange a high s := rfl
theorem exec_character_eq (a : Aud) (value : Byte) (parityBit stopBit : Bool) (s : State) : exec (.character a value parityBit stopBit) s = execCharacter a value parityBit stopBit s := rfl
theorem exec_lineBreak_eq (a : Aud) (s : State) : exec (.lineBreak a) s = execLineBreak a s := rfl
theorem exec_lineReturnsHigh_eq (a : Aud) (s : State) : exec (.lineReturnsHigh a) s = execLineReturnsHigh a s := rfl
theorem exec_gap_eq (a : Aud) (s : State) : exec (.gap a) s = execGap a s := rfl
theorem exec_assemblerResumes_eq (a : Aud) (s : State) : exec (.assemblerResumes a) s = execAssemblerResumes a s := rfl
theorem exec_damagedRecord_eq (a : Aud) (kind : Option Byte) (s : State) : exec (.damagedRecord a kind) s = execDamagedRecord a kind s := rfl
theorem exec_unknownKind_eq (a : Aud) (kind : Byte) (fields : List Byte) (s : State) : exec (.unknownKind a kind fields) s = execUnknownKind a kind fields s := rfl
theorem exec_mark_eq (a : Aud) (fields : List Byte) (s : State) : exec (.mark a fields) s = execMark a fields s := rfl
theorem exec_head_eq (a : Aud) (fields : List Byte) (s : State) : exec (.head a fields) s = execHead a fields s := rfl
theorem exec_withdraw_eq (a : Aud) (fields : List Byte) (s : State) : exec (.withdraw a fields) s = execWithdraw a fields s := rfl
theorem exec_endRecord_eq (a : Aud) (fields : List Byte) (s : State) : exec (.endRecord a fields) s = execEndRecord a fields s := rfl
theorem exec_query_eq (a : Aud) (fields : List Byte) (s : State) : exec (.query a fields) s = execQuery a fields s := rfl
theorem exec_insertionPlaces_eq (a : Aud) (s : State) : exec (.insertionPlaces a) s = execInsertionPlaces a s := rfl
theorem exec_cellFreed_eq (a : Aud) (s : State) : exec (.cellFreed a) s = execCellFreed a s := rfl
theorem exec_purgeStep_eq (a : Aud) (s : State) : exec (.purgeStep a) s = execPurgeStep a s := rfl
theorem exec_replySent_eq (a : Aud) (s : State) : exec (.replySent a) s = execReplySent a s := rfl
theorem exec_fillEnds_eq (p : Port) (s : State) : exec (.fillEnds p) s = execFillEnds p s := rfl
theorem exec_pull_eq (p : Port) (slot : BitVec 16) (s : State) : exec (.pull p slot) s = execPull p slot s := rfl
theorem exec_doneSent_eq (p : Port) (s : State) : exec (.doneSent p) s = execDoneSent p s := rfl
theorem exec_doneAborted_eq (p : Port) (s : State) : exec (.doneAborted p) s = execDoneAborted p s := rfl
theorem exec_linkQuery_eq (p : Port) (s : State) : exec (.linkQuery p) s = execLinkQuery p s := rfl
theorem exec_alignStart_eq (p : Port) (s : State) : exec (.alignStart p) s = execAlignStart p s := rfl
theorem exec_probeWrite_eq (p : Port) (bytes : List Byte) (s : State) : exec (.probeWrite p bytes) s = execProbeWrite p bytes s := rfl
theorem exec_probeRead_eq (p : Port) (s : State) : exec (.probeRead p) s = execProbeRead p s := rfl
theorem exec_alignEndPass_eq (p : Port) (s : State) : exec (.alignEndPass p) s = execAlignEndPass p s := rfl
theorem exec_silenceTimerExpires_eq (p : Port) (s : State) : exec (.silenceTimerExpires p) s = execSilenceTimerExpires p s := rfl
theorem exec_beaconTimerExpires_eq (p : Port) (s : State) : exec (.beaconTimerExpires p) s = execBeaconTimerExpires p s := rfl
theorem exec_secondTimerExpires_eq (s : State) : exec .secondTimerExpires s = execSecondTimerExpires s := rfl
theorem exec_fetch_eq (s : State) : exec .fetch s = execFetch s := rfl
theorem exec_unknownCommand_eq (code : Byte) (args : List Byte) (s : State) : exec (.unknownCommand code args) s = execUnknownCommand code args s := rfl
theorem exec_configureAuditorium_eq (args : List Byte) (s : State) : exec (.configureAuditorium args) s = execConfigureAuditorium args s := rfl
theorem exec_arm_eq (args : List Byte) (s : State) : exec (.arm args) s = execArm args s := rfl
theorem exec_disarm_eq (args : List Byte) (s : State) : exec (.disarm args) s = execDisarm args s := rfl
theorem exec_setGate_eq (args : List Byte) (s : State) : exec (.setGate args) s = execSetGate args s := rfl
theorem exec_openStream_eq (args : List Byte) (s : State) : exec (.openStream args) s = execOpenStream args s := rfl
theorem exec_closeStream_eq (args : List Byte) (s : State) : exec (.closeStream args) s = execCloseStream args s := rfl
theorem exec_setCuePort_eq (args : List Byte) (s : State) : exec (.setCuePort args) s = execSetCuePort args s := rfl
theorem exec_resetCuePort_eq (args : List Byte) (s : State) : exec (.resetCuePort args) s = execResetCuePort args s := rfl
theorem exec_setFilter_eq (args : List Byte) (s : State) : exec (.setFilter args) s = execSetFilter args s := rfl
theorem exec_setLink_eq (args : List Byte) (s : State) : exec (.setLink args) s = execSetLink args s := rfl
theorem exec_resetLinkPort_eq (args : List Byte) (s : State) : exec (.resetLinkPort args) s = execResetLinkPort args s := rfl
theorem exec_registerReceiver_eq (args : List Byte) (s : State) : exec (.registerReceiver args) s = execRegisterReceiver args s := rfl
theorem exec_releaseReceiver_eq (args : List Byte) (s : State) : exec (.releaseReceiver args) s = execReleaseReceiver args s := rfl
theorem exec_readReceiver_eq (args : List Byte) (s : State) : exec (.readReceiver args) s = execReadReceiver args s := rfl
theorem exec_setReceiverPolicy_eq (args : List Byte) (s : State) : exec (.setReceiverPolicy args) s = execSetReceiverPolicy args s := rfl
theorem exec_takeLost_eq (args : List Byte) (s : State) : exec (.takeLost args) s = execTakeLost args s := rfl
theorem exec_readAuditorium_eq (args : List Byte) (s : State) : exec (.readAuditorium args) s = execReadAuditorium args s := rfl
theorem exec_readStream_eq (args : List Byte) (s : State) : exec (.readStream args) s = execReadStream args s := rfl
theorem exec_readLink_eq (args : List Byte) (s : State) : exec (.readLink args) s = execReadLink args s := rfl
theorem exec_readCounters_eq (args : List Byte) (s : State) : exec (.readCounters args) s = execReadCounters args s := rfl
theorem exec_readAttention_eq (args : List Byte) (s : State) : exec (.readAttention args) s = execReadAttention args s := rfl
theorem exec_ackAttention_eq (args : List Byte) (s : State) : exec (.ackAttention args) s = execAckAttention args s := rfl
theorem exec_setAttentionEnable_eq (args : List Byte) (s : State) : exec (.setAttentionEnable args) s = execSetAttentionEnable args s := rfl
theorem exec_candidateStartBit_eq (a : Aud) (breakBegins : Bool) (s : State) : exec (.candidateStartBit a breakBegins) s = execCandidateStartBit a breakBegins s := rfl

end Sys2Proof.Machine
end

section
/-! PROOFS. The receiver table: what a report, a silent second and a release do to receivers, to the streams' degraded counts and to the
lost list, and the laws that every step keeps of them. -/

namespace Sys2Proof.Machine

variable {s t u : State}

/-! ### Streams and slots -/

theorem streamOf_eq_iff (a : Aud) (k : Slot) (n : StreamNo) : streamOf a k = n ↔ audOfStream n = a ∧ slotOfStream n = k := by
  simp only [streamOf, audOfStream, slotOfStream, Fin.ext_iff]
  omega

theorem slotOfStream_streamOf (a : Aud) (k : Slot) : slotOfStream (streamOf a k) = k := ((streamOf_eq_iff a k _).mp rfl).2

theorem streamOf_self (n : StreamNo) : streamOf (audOfStream n) (slotOfStream n) = n := (streamOf_eq_iff _ _ n).mpr ⟨rfl, rfl⟩

/-! ### The degraded-subscriber counts (R87, R157) -/

/-- A stream with another degraded count. -/
def Stream.withDegraded (st : Stream) (d : Nat) : Stream := { st with degraded := d }

theorem onDegraded_eq (s : State) (r : Receiver) (f : Nat → Nat) : s.onDegraded r f = { s with streams := (s.onDegraded r f).streams } := by
  have fold : ∀ (l : List Slot) (u : State), u = { s with streams := u.streams } →
      (l.foldl (fun t k => t.onStream (streamOf r.auditorium k) (fun st => { st with degraded := f st.degraded })) u) =
        { s with streams := (l.foldl (fun t k => t.onStream (streamOf r.auditorium k) (fun st => { st with degraded := f st.degraded })) u).streams } := by
    intro l
    induction l with
    | nil => exact fun _ h => h
    | cons k l ih => exact fun u h => ih _ (by rw [h]; rfl)
  exact fold _ s rfl

theorem onDegraded_stream (s : State) (r : Receiver) (f : Nat → Nat) (n : StreamNo) :
    (s.onDegraded r f).stream n = (s.stream n).withDegraded
      (if r.auditorium = audOfStream n ∧ r.slots.getLsbD (slotOfStream n).val = true then f (s.stream n).degraded else (s.stream n).degraded) := by
  have fold : ∀ (l : List Slot) (u : State), l.Nodup →
      (l.foldl (fun t k => t.onStream (streamOf r.auditorium k) (fun st => { st with degraded := f st.degraded })) u).stream n =
        (u.stream n).withDegraded
          (if r.auditorium = audOfStream n ∧ slotOfStream n ∈ l then f (u.stream n).degraded else (u.stream n).degraded) := by
    intro l
    induction l with
    | nil => intro u _; simp [Stream.withDegraded]
    | cons k l ih =>
      intro u nodup
      obtain ⟨fresh, nodup⟩ := List.nodup_cons.mp nodup
      rw [List.foldl_cons, ih _ nodup, State.onStream_stream]
      by_cases here : streamOf r.auditorium k = n
      · obtain ⟨ha, hk⟩ := (streamOf_eq_iff _ _ _).mp here
        have absent : slotOfStream n ∉ l := by rw [hk]; exact fresh
        rw [if_pos here]
        simp [ha, fresh, hk, Stream.withDegraded]
      · have other : ¬ (r.auditorium = audOfStream n ∧ slotOfStream n = k) := fun h => here ((streamOf_eq_iff _ _ _).mpr ⟨h.1.symm, h.2⟩)
        have same : (r.auditorium = audOfStream n ∧ (slotOfStream n = k ∨ slotOfStream n ∈ l)) ↔
            (r.auditorium = audOfStream n ∧ slotOfStream n ∈ l) :=
          ⟨fun h => ⟨h.1, h.2.resolve_left (fun e => other ⟨h.1, e⟩)⟩, fun h => ⟨h.1, .inr h.2⟩⟩
        simp only [if_neg here, List.mem_cons, same]
  have mem : slotOfStream n ∈ slots.filter (fun k => r.slots.getLsbD k.val) ↔ r.slots.getLsbD (slotOfStream n).val = true := by
    simp [slots]
  have nodup : (slots.filter (fun k => r.slots.getLsbD k.val)).Nodup := (List.nodup_finRange 6).filter _
  rw [State.onDegraded, fold _ s nodup]
  simp only [mem]

/-! ### The lost list (R158) -/

/-- An index offered changes the lost list, its overflow flag and the table's attention record. -/
theorem offerLost_eq (s : State) (i : RxIndex) : s.offerLost i = { s with
    table := { s.table with lost := (s.offerLost i).table.lost, overflow := (s.offerLost i).table.overflow }
    attention := { s.attention with table := (s.offerLost i).attention.table } } := by
  unfold State.offerLost
  split
  · rfl
  · split
    · dsimp only
      split <;> rfl
    · rfl

/-- An index listed already is offered in vain. -/
theorem offerLost_listed {i : RxIndex} (h : i ∈ s.table.lost) : s.offerLost i = s := by simp [State.offerLost, h]

theorem lostOffered_refl (s : State) : s.lostOffered s [] := by simp [State.lostOffered, Nat.repeat]

theorem lostOffered_one {i : RxIndex} (h : i ∉ s.table.lost) : s.lostOffered (s.offerLost i) [i] := by
  unfold State.offerLost
  rw [if_neg (by simpa using h)]
  split
  · next room =>
    obtain ⟨m, hm⟩ : ∃ m, 16 - s.table.lost.length = m + 1 := ⟨15 - s.table.lost.length, by omega⟩
    dsimp only
    split
    · next empty => simp_all [State.lostOffered, Nat.repeat, State.raiseTable]
    · next listed => simp_all [State.lostOffered, Nat.repeat]
  · next full =>
    have zero : 16 - s.table.lost.length = 0 := by omega
    have some_lost : s.table.lost ≠ [] := fun e => by simp [e] at full
    simp [State.lostOffered, zero, Nat.repeat, State.raiseTable, some_lost]

theorem repeat_add {α : Type} (f : α → α) (m n : Nat) (x : α) : Nat.repeat f m (Nat.repeat f n x) = Nat.repeat f (m + n) x := by
  induction m with
  | zero => simp [Nat.repeat]
  | succ m ih => rw [Nat.add_right_comm]; simp only [Nat.repeat, ih]

/-- Offers one after another. -/
theorem lostOffered_trans {l m : List RxIndex} (h : s.lostOffered t l) (k : t.lostOffered u m) : s.lostOffered u (l ++ m) := by
  by_cases hl : l = []
  · subst hl
    obtain ⟨lost, flag, attention⟩ := h
    simp only [List.take_nil, List.append_nil, List.length_nil, Nat.not_lt_zero, decide_false, Bool.or_false, Nat.zero_sub, ne_eq,
      not_true_eq_false, and_false, if_false, Nat.repeat] at lost flag attention
    simpa only [State.lostOffered, lost, flag, attention, List.nil_append] using k
  · obtain ⟨lost, flag, attention⟩ := h
    obtain ⟨lost', flag', attention'⟩ := k
    have positive : 0 < l.length := List.length_pos_iff.mpr hl
    have listed : t.table.lost ≠ [] := by
      rw [lost]
      intro e
      obtain ⟨none_before, none_taken⟩ := List.append_eq_nil_iff.mp e
      rw [none_before, List.take_eq_nil_iff] at none_taken
      exact none_taken.elim (by simp) hl
    have room : 16 - t.table.lost.length = 16 - s.table.lost.length - l.length := by
      rw [lost, List.length_append, List.length_take]
      omega
    refine ⟨?_, ?_, ?_⟩
    · rw [lost', lost, List.append_assoc, List.take_append, ← room, lost]
    · rw [flag', flag, room, Bool.or_assoc, List.length_append]
      congr 1
      rw [Bool.eq_iff_iff]
      simp only [Bool.or_eq_true, decide_eq_true_eq]
      omega
    · rw [attention', if_neg (fun e => listed e.1), attention, repeat_add, room, List.length_append]
      congr 2
      · omega
      · simp [hl]

/-! ### What a receiver operation may change -/

/-- `t` differs from `s` in receivers, degraded counts, the lost list, the table's two counters and its attention record alone. -/
def State.receiversOnly (s t : State) : Prop :=
  t = { s with
    receivers := t.receivers, streams := t.streams, attention := { s.attention with table := t.attention.table }
    table := { s.table with lost := t.table.lost, overflow := t.table.overflow, unknown := t.table.unknown, mismatch := t.table.mismatch } } ∧
  ∀ n, t.stream n = (s.stream n).withDegraded (t.stream n).degraded

theorem receiversOnly_refl (s : State) : s.receiversOnly s := ⟨rfl, fun _ => rfl⟩

theorem receiversOnly_trans (h : s.receiversOnly t) (k : t.receiversOnly u) : s.receiversOnly u := by
  obtain ⟨ht, hn⟩ := h
  obtain ⟨hu, hm⟩ := k
  refine ⟨hu.trans ?_, fun n => by rw [hm n, hn n]; rfl⟩
  generalize u.receivers = a, u.streams = b, u.attention.table = c, u.table = d
  rw [ht]

theorem receiversOnly_foldl {α : Type} {f : State → α → State} (hf : ∀ (t : State) x, t.receiversOnly (f t x)) (l : List α) :
    ∀ s : State, s.receiversOnly (l.foldl f s) := by
  induction l with
  | nil => exact receiversOnly_refl
  | cons x l ih => exact fun s => receiversOnly_trans (hf s x) (ih _)

theorem receiversOnly_onRx (s : State) (i : RxIndex) (f : Receiver → Receiver) : s.receiversOnly (s.onRx i f) := ⟨rfl, fun _ => rfl⟩

theorem receiversOnly_onDegraded (s : State) (r : Receiver) (f : Nat → Nat) : s.receiversOnly (s.onDegraded r f) := by
  refine ⟨?_, fun n => by rw [onDegraded_stream]; rfl⟩
  rw [onDegraded_eq]

theorem receiversOnly_offerLost (s : State) (i : RxIndex) : s.receiversOnly (s.offerLost i) :=
  ⟨by rw [offerLost_eq], fun n => by rw [offerLost_eq]; rfl⟩

/-! ### A receiver goes LOST (R153) -/

theorem onDegraded_rx (s : State) (r : Receiver) (f : Nat → Nat) (j : RxIndex) : (s.onDegraded r f).rx j = s.rx j := by rw [onDegraded_eq]; rfl
theorem offerLost_rx (s : State) (i j : RxIndex) : (s.offerLost i).rx j = s.rx j := by rw [offerLost_eq]; rfl
theorem offerLost_stream (s : State) (i : RxIndex) (n : StreamNo) : (s.offerLost i).stream n = s.stream n := by rw [offerLost_eq]; rfl

/-- A receiver's entry as its loss leaves it. -/
def Receiver.nowLost (r : Receiver) : Receiver := { r with state := .lost, cleanRun := 0 }

theorem loseReceiver_rx (s : State) (i j : RxIndex) :
    (s.loseReceiver i).rx j = if i = j then (s.rx j).nowLost else s.rx j := by
  unfold State.loseReceiver
  dsimp only
  rw [offerLost_rx, State.onRx_rx]
  split <;> split <;> simp [onDegraded_rx, Receiver.nowLost]

theorem struggles_iff (r : Receiver) (a : Aud) (k : Slot) :
    r.struggles a k = true ↔ r.state = .degraded ∧ r.auditorium = a ∧ r.slots.getLsbD k.val = true := by
  simp [Receiver.struggles, and_assoc]

theorem loseReceiver_stream (s : State) (i : RxIndex) (n : StreamNo) :
    (s.loseReceiver i).stream n = (s.stream n).withDegraded
      (if (s.rx i).struggles (audOfStream n) (slotOfStream n) then (s.stream n).degraded - 1 else (s.stream n).degraded) := by
  unfold State.loseReceiver
  dsimp only
  rw [offerLost_stream, State.onRx_stream]
  by_cases h : (s.rx i).state = .degraded
  · simp [h, onDegraded_stream, struggles_iff]
  · simp [h, struggles_iff, Stream.withDegraded]

/-- Loss offers the index, whatever else it does. -/
theorem lostOffered_loseReceiver (s : State) (i : RxIndex) : s.lostOffered (s.loseReceiver i) (if i ∈ s.table.lost then [] else [i]) := by
  have offered : ∀ u : State, u.table = s.table → u.attention.table = s.attention.table →
      s.lostOffered (u.offerLost i) (if i ∈ s.table.lost then [] else [i]) := by
    intro u ht ha
    have one : u.lostOffered (u.offerLost i) (if i ∈ u.table.lost then [] else [i]) := by
      split
      · next listed => rw [offerLost_listed listed]; exact lostOffered_refl u
      · next fresh => exact lostOffered_one fresh
    simpa only [State.lostOffered, ht, ha] using one
  unfold State.loseReceiver
  dsimp only
  split
  · exact offered _ (by rw [State.onRx_table, onDegraded_eq]) (by rw [State.onRx_attention, onDegraded_eq])
  · exact offered _ rfl rfl

theorem receiversOnly_loseReceiver (s : State) (i : RxIndex) : s.receiversOnly (s.loseReceiver i) := by
  unfold State.loseReceiver
  dsimp only
  refine receiversOnly_trans (receiversOnly_trans ?_ (receiversOnly_onRx _ _ _)) (receiversOnly_offerLost _ _)
  split
  · exact receiversOnly_onDegraded _ _ _
  · exact receiversOnly_refl s

end Sys2Proof.Machine
end

section
/-! PROOFS. A report entry on its receiver, and the laws of the receiver table. -/

namespace Sys2Proof.Machine

variable {s t u : State}

/-! ### Health (R152) -/

/-- A receiver's entry under a new health. -/
def Receiver.withHealth (r : Receiver) (health : Nat) : Receiver :=
  match r.state with
  | .good => { r with health := health, state := if 128 ≤ health then .degraded else .good }
  | .degraded =>
    if health = 255 then { r with health := 255, state := .lost, cleanRun := 0 }
    else { r with health := health, state := if health ≤ 127 then .good else .degraded }
  | .free | .lost => { r with health := health }

/-- A stream's degraded count after a receiver that struggled for it `before` does so `after`. -/
def degradedAfter (d : Nat) (before after : Bool) : Nat :=
  match before, after with
  | true, false => d - 1
  | false, true => d + 1
  | true, true | false, false => d

@[simp] theorem degradedAfter_same (d : Nat) (b : Bool) : degradedAfter d b b = d := by cases b <;> rfl

theorem withDegraded_self (st : Stream) : st.withDegraded st.degraded = st := rfl

theorem applyHealth_rx (s : State) (i j : RxIndex) (health : Nat) :
    (s.applyHealth i health).rx j = if i = j then (s.rx j).withHealth health else s.rx j := by
  unfold State.applyHealth Receiver.withHealth
  by_cases e : i = j
  · subst e
    cases hs : (s.rx i).state with
    | free | lost => simp [hs]
    | good =>
      by_cases high : 128 ≤ health
      · simp [hs, high, onDegraded_rx]
      · simp [hs, high]
    | degraded =>
      by_cases top : health = 255
      · simp [hs, top, loseReceiver_rx, Receiver.nowLost]
      · by_cases low : health ≤ 127
        · simp [hs, top, low, onDegraded_rx]
        · simp [hs, top, low]
  · dsimp only
    simp only [if_neg e]
    split
    · rw [loseReceiver_rx, if_neg e, State.onRx_rx, if_neg e]
    · split
      · rw [onDegraded_rx, State.onRx_rx, if_neg e, State.onRx_rx, if_neg e]
      · split
        · rw [onDegraded_rx, State.onRx_rx, if_neg e, State.onRx_rx, if_neg e]
        · rw [State.onRx_rx, if_neg e]

theorem not_struggles {r : Receiver} (h : r.state ≠ .degraded) (a : Aud) (k : Slot) : r.struggles a k = false := by
  simp [Receiver.struggles, h]

/-- The receiver subscribes to the stream of slot `k` of auditorium `a`. -/
def Receiver.subscribes (r : Receiver) (a : Aud) (k : Slot) : Bool := r.auditorium == a && r.slots.getLsbD k.val

theorem struggles_eq (r : Receiver) (a : Aud) (k : Slot) : r.struggles a k = (decide (r.state = .degraded) && r.subscribes a k) := by
  rw [Bool.eq_iff_iff, struggles_iff]
  simp [Receiver.subscribes]

theorem onDegraded_stream_subscribed (s : State) (r : Receiver) (f : Nat → Nat) (n : StreamNo) :
    (s.onDegraded r f).stream n = (s.stream n).withDegraded
      (if r.subscribes (audOfStream n) (slotOfStream n) then f (s.stream n).degraded else (s.stream n).degraded) := by
  rw [onDegraded_stream]
  simp [Receiver.subscribes]

theorem withHealth_subscribes (r : Receiver) (health : Nat) (a : Aud) (k : Slot) : (r.withHealth health).subscribes a k = r.subscribes a k := by
  unfold Receiver.withHealth
  split
  · rfl
  · split <;> rfl
  all_goals rfl

theorem applyHealth_stream (s : State) (i : RxIndex) (health : Nat) (n : StreamNo) :
    (s.applyHealth i health).stream n = (s.stream n).withDegraded (degradedAfter (s.stream n).degraded
      ((s.rx i).struggles (audOfStream n) (slotOfStream n)) (((s.rx i).withHealth health).struggles (audOfStream n) (slotOfStream n))) := by
  have kept : ∀ r : Receiver, r.state = (s.rx i).state → r.auditorium = (s.rx i).auditorium → r.slots = (s.rx i).slots →
      r.struggles (audOfStream n) (slotOfStream n) =
        (decide ((s.rx i).state = .degraded) && (s.rx i).subscribes (audOfStream n) (slotOfStream n)) := by
    intro r h1 h2 h3
    rw [struggles_eq, Receiver.subscribes, h1, h2, h3]
    rfl
  rw [struggles_eq ((s.rx i).withHealth health), withHealth_subscribes, struggles_eq (s.rx i)]
  unfold State.applyHealth Receiver.withHealth
  cases hs : (s.rx i).state with
  | free | lost => simp [hs, withDegraded_self]
  | good =>
    by_cases high : 128 ≤ health
    · cases subscribed : (s.rx i).subscribes (audOfStream n) (slotOfStream n) <;>
        simp [hs, high, onDegraded_stream_subscribed, subscribed, degradedAfter]
    · simp [hs, high, withDegraded_self]
  | degraded =>
    by_cases top : health = 255
    · cases subscribed : (s.rx i).subscribes (audOfStream n) (slotOfStream n) <;>
        simp [hs, top, loseReceiver_stream, kept, subscribed, degradedAfter]
    · by_cases low : health ≤ 127
      · cases subscribed : (s.rx i).subscribes (audOfStream n) (slotOfStream n) <;>
          simp [hs, top, low, onDegraded_stream_subscribed, subscribed, degradedAfter]
      · simp [hs, top, low, withDegraded_self]

/-- A new health offers the index where a DEGRADED receiver's reaches 255. -/
theorem lostOffered_applyHealth (s : State) (i : RxIndex) (health : Nat) :
    s.lostOffered (s.applyHealth i health) (if (s.rx i).state = .degraded ∧ health = 255 ∧ i ∉ s.table.lost then [i] else []) := by
  have stands : ∀ t : State, t.table = s.table → t.attention = s.attention → s.lostOffered t [] := by
    intro t ht ha
    have self := lostOffered_refl s
    simpa only [State.lostOffered, ht, ha] using self
  unfold State.applyHealth
  by_cases lost : (s.rx i).state = .degraded ∧ health = 255
  · obtain ⟨hs, top⟩ := lost
    have offered := lostOffered_loseReceiver (s.onRx i (fun x => { x with health := health })) i
    by_cases listed : i ∈ s.table.lost <;> simpa [hs, top, listed, State.lostOffered] using offered
  · have keep : ¬ ((s.rx i).state = .degraded ∧ health = 255 ∧ i ∉ s.table.lost) := fun h => lost ⟨h.1, h.2.1⟩
    rw [if_neg keep]
    dsimp only
    split
    · next h => exact absurd (by simpa using h) lost
    · split
      · exact stands _ (by rw [onDegraded_eq]; rfl) (by rw [onDegraded_eq]; rfl)
      · split
        · exact stands _ (by rw [onDegraded_eq]; rfl) (by rw [onDegraded_eq]; rfl)
        · exact stands _ rfl rfl

theorem receiversOnly_applyHealth (s : State) (i : RxIndex) (health : Nat) : s.receiversOnly (s.applyHealth i health) := by
  unfold State.applyHealth
  dsimp only
  split
  · exact receiversOnly_trans (receiversOnly_onRx _ _ _) (receiversOnly_loseReceiver _ _)
  · split
    · exact receiversOnly_trans (receiversOnly_trans (receiversOnly_onRx _ _ _) (receiversOnly_onRx _ _ _)) (receiversOnly_onDegraded _ _ _)
    · split
      · exact receiversOnly_trans (receiversOnly_trans (receiversOnly_onRx _ _ _) (receiversOnly_onRx _ _ _)) (receiversOnly_onDegraded _ _ _)
      · exact receiversOnly_onRx _ _ _

/-! ### A matched missed count (R151, R152, R156) -/

/-- The health after a report. -/
def Receiver.newHealth (r : Receiver) (missed : Nat) : Nat := if missed = 0 then r.health - 1 else min (r.health + 8) 255

/-- A receiver's entry after a report. -/
def Receiver.reported (r : Receiver) (missed : Nat) : Receiver :=
  match r.state with
  | .free => { r with age := 0 }
  | .good | .degraded => ({ r with age := 0 } : Receiver).withHealth (r.newHealth missed)
  | .lost =>
    if missed = 0 then
      if 16 ≤ r.cleanRun + 1 then { r with age := 0, state := .good, health := 0, cleanRun := 0 }
      else { r with age := 0, cleanRun := r.cleanRun + 1 }
    else { r with age := 0, cleanRun := 0 }

theorem reported_of_health {r : Receiver} (h : r.state = .good ∨ r.state = .degraded) (missed : Nat) :
    r.reported missed = ({ r with age := 0 } : Receiver).withHealth (r.newHealth missed) := by
  rcases h with h | h <;> simp only [Receiver.reported, h]

/-- A report is no more than a change of the receiver's entry, or a new health. -/
theorem applyReport_cases (s : State) (i : RxIndex) (missed : Nat) :
    ((s.rx i).state ≠ .good ∧ (s.rx i).state ≠ .degraded ∧ ((s.rx i).reported missed).state ≠ .degraded ∧
      s.applyReport i missed = s.onRx i (fun _ => (s.rx i).reported missed)) ∨
    (((s.rx i).state = .good ∨ (s.rx i).state = .degraded) ∧
      (s.rx i).reported missed = ({ s.rx i with age := 0 } : Receiver).withHealth ((s.rx i).newHealth missed) ∧
      s.applyReport i missed = (s.onRx i (fun x => { x with age := 0 })).applyHealth i ((s.rx i).newHealth missed)) := by
  have twice : ∀ f g : Receiver → Receiver, (s.onRx i f).onRx i g = s.onRx i (fun _ => g (f (s.rx i))) := by
    intro f g
    simp only [State.onRx]
    congr 1
    refine bank_ext fun j => ?_
    simp only [pick_change]
    split
    · next e => subst e; rfl
    · rfl
  have once : ∀ f : Receiver → Receiver, s.onRx i f = s.onRx i (fun _ => f (s.rx i)) := by
    intro f
    simp only [State.onRx, change]
    rfl
  cases hs : (s.rx i).state with
  | free =>
    have rep : (s.rx i).reported missed = { s.rx i with age := 0 } := by simp only [Receiver.reported, hs]
    refine .inl ⟨by decide, by decide, by rw [rep]; simp [hs], ?_⟩
    rw [rep, ← once (fun x => { x with age := 0 })]
    simp [State.applyReport, hs]
  | good =>
    refine .inr ⟨.inl rfl, reported_of_health (.inl hs) missed, ?_⟩
    by_cases clean : missed = 0 <;> simp [State.applyReport, hs, clean, Receiver.newHealth]
  | degraded =>
    refine .inr ⟨.inr rfl, reported_of_health (.inr hs) missed, ?_⟩
    by_cases clean : missed = 0 <;> simp [State.applyReport, hs, clean, Receiver.newHealth]
  | lost =>
    refine .inl ⟨by decide, by decide, ?_, ?_⟩
    · by_cases clean : missed = 0 <;> by_cases run : 16 ≤ (s.rx i).cleanRun + 1 <;> simp [Receiver.reported, hs, clean, run]
    · by_cases clean : missed = 0
      · by_cases run : 16 ≤ (s.rx i).cleanRun + 1 <;> simp [State.applyReport, Receiver.reported, hs, clean, run, twice]
      · simp [State.applyReport, Receiver.reported, hs, clean, twice]

theorem applyReport_rx (s : State) (i j : RxIndex) (missed : Nat) :
    (s.applyReport i missed).rx j = if i = j then (s.rx j).reported missed else s.rx j := by
  rcases applyReport_cases s i missed with ⟨-, -, -, h⟩ | ⟨-, reported, h⟩
  · rw [h, State.onRx_rx]
    split
    · next e => rw [e]
    · rfl
  · rw [h, applyHealth_rx, State.onRx_rx]
    split
    · next e => subst e; rw [reported]
    · rfl

theorem applyReport_stream (s : State) (i : RxIndex) (missed : Nat) (n : StreamNo) :
    (s.applyReport i missed).stream n = (s.stream n).withDegraded (degradedAfter (s.stream n).degraded
      ((s.rx i).struggles (audOfStream n) (slotOfStream n)) (((s.rx i).reported missed).struggles (audOfStream n) (slotOfStream n))) := by
  rcases applyReport_cases s i missed with ⟨-, before, after, h⟩ | ⟨-, reported, h⟩
  · rw [h, State.onRx_stream, not_struggles before, not_struggles after, degradedAfter_same, withDegraded_self]
  · rw [h, applyHealth_stream, reported, State.onRx_rx, if_pos rfl]
    rfl

theorem receiversOnly_applyReport (s : State) (i : RxIndex) (missed : Nat) : s.receiversOnly (s.applyReport i missed) := by
  rcases applyReport_cases s i missed with ⟨-, -, -, h⟩ | ⟨-, -, h⟩
  · rw [h]; exact receiversOnly_onRx _ _ _
  · rw [h]; exact receiversOnly_trans (receiversOnly_onRx _ _ _) (receiversOnly_applyHealth _ _ _)

theorem lostOffered_applyReport (s : State) (i : RxIndex) (missed : Nat) : s.lostOffered (s.applyReport i missed)
    (if (s.rx i).state = .degraded ∧ (s.rx i).newHealth missed = 255 ∧ i ∉ s.table.lost then [i] else []) := by
  rcases applyReport_cases s i missed with ⟨-, before, -, h⟩ | ⟨-, -, h⟩
  · rw [h, if_neg (fun e => before e.1)]
    exact lostOffered_refl s
  · have offered := lostOffered_applyHealth (s.onRx i (fun x => { x with age := 0 })) i ((s.rx i).newHealth missed)
    rw [h]
    simpa [State.lostOffered] using offered

/-! ### The law of the degraded counts (R87) -/

/-- How many of a list meet a test, when one of them changes its answer. -/
theorem countP_change {α : Type} [DecidableEq α] {p q : α → Bool} {x : α} (h : ∀ y, y ≠ x → q y = p y) : ∀ l : List α, l.Nodup →
    l.countP q + (if x ∈ l then (p x).toNat else 0) = l.countP p + (if x ∈ l then (q x).toNat else 0)
  | [], _ => rfl
  | y :: l, nodup => by
    obtain ⟨fresh, nodup⟩ := List.nodup_cons.mp nodup
    have ih := countP_change h l nodup
    by_cases e : y = x
    · subst e
      rw [if_neg fresh, if_neg fresh] at ih
      simp only [List.countP_cons, List.mem_cons, true_or, if_true]
      cases p y <;> cases q y <;> simp <;> omega
    · have mem : x ∈ y :: l ↔ x ∈ l := by simp [Ne.symm e]
      simp only [List.countP_cons, mem, h y e]
      omega

/-- The count of DEGRADED subscribers of a stream. -/
def State.strugglers (s : State) (a : Aud) (k : Slot) : Nat := rxIndexes.countP (fun i => (s.rx i).struggles a k)

theorem degradedCountsWf_iff (s : State) : s.degradedCountsWf ↔ ∀ a k, (s.stream (streamOf a k)).degraded = s.strugglers a k := by
  simp only [State.degradedCountsWf, State.strugglers, List.countP_eq_length_filter]

theorem mem_rxIndexes (i : RxIndex) : i ∈ rxIndexes := List.mem_finRange i

theorem strugglers_change {i : RxIndex} (h : ∀ j, j ≠ i → t.rx j = s.rx j) (a : Aud) (k : Slot) :
    t.strugglers a k + ((s.rx i).struggles a k).toNat = s.strugglers a k + ((t.rx i).struggles a k).toNat := by
  have count := countP_change (p := fun j => (s.rx j).struggles a k) (q := fun j => (t.rx j).struggles a k) (x := i)
    (fun j hj => by rw [h j hj]) rxIndexes (List.nodup_finRange 1024)
  rw [if_pos (mem_rxIndexes i), if_pos (mem_rxIndexes i)] at count
  exact count

/-- A struggling receiver is counted. -/
theorem strugglers_pos {i : RxIndex} {a : Aud} {k : Slot} (h : (s.rx i).struggles a k = true) : 0 < s.strugglers a k :=
  List.countP_pos_iff.mpr ⟨i, mem_rxIndexes i, h⟩

/-- One receiver's change, with the counts of its streams changed to match, keeps the law. -/
theorem degradedCountsWf_change {i : RxIndex} (hs : s.degradedCountsWf) (hr : ∀ j, j ≠ i → t.rx j = s.rx j)
    (hn : ∀ n, (t.stream n).degraded = degradedAfter (s.stream n).degraded ((s.rx i).struggles (audOfStream n) (slotOfStream n))
      ((t.rx i).struggles (audOfStream n) (slotOfStream n))) : t.degradedCountsWf := by
  rw [degradedCountsWf_iff] at hs ⊢
  intro a k
  have count := strugglers_change hr a k
  have positive := strugglers_pos (s := s) (i := i) (a := a) (k := k)
  rw [hn, audOfStream_streamOf, slotOfStream_streamOf, hs a k]
  cases before : (s.rx i).struggles a k <;> cases after : (t.rx i).struggles a k <;>
    simp only [before, after, degradedAfter, Bool.toNat_true, Bool.toNat_false] at count positive ⊢
  · omega
  · omega
  · have := positive trivial; omega
  · omega

/-- Where no receiver struggles otherwise than before and the counts stand, the law stands. -/
theorem degradedCountsWf_congr (hs : s.degradedCountsWf) (hr : ∀ j a k, (t.rx j).struggles a k = (s.rx j).struggles a k)
    (hn : ∀ n, (t.stream n).degraded = (s.stream n).degraded) : t.degradedCountsWf := by
  rw [degradedCountsWf_iff] at hs ⊢
  intro a k
  rw [hn, hs a k]
  simp only [State.strugglers, hr]

theorem degradedCountsWf_applyReport (hs : s.degradedCountsWf) (i : RxIndex) (missed : Nat) : (s.applyReport i missed).degradedCountsWf :=
  degradedCountsWf_change (i := i) hs (fun j hj => by rw [applyReport_rx, if_neg (Ne.symm hj)])
    (fun n => by rw [applyReport_stream, applyReport_rx, if_pos rfl]; rfl)

theorem degradedCountsWf_loseReceiver (hs : s.degradedCountsWf) (i : RxIndex) : (s.loseReceiver i).degradedCountsWf := by
  refine degradedCountsWf_change (i := i) hs (fun j hj => by rw [loseReceiver_rx, if_neg (Ne.symm hj)]) (fun n => ?_)
  rw [loseReceiver_stream, loseReceiver_rx, if_pos rfl, not_struggles (r := (s.rx i).nowLost) (by simp [Receiver.nowLost])]
  cases (s.rx i).struggles (audOfStream n) (slotOfStream n) <;> rfl

/-! ### The laws of the entries and of the lost list (R148, R158) -/

theorem wf_withHealth_good {r : Receiver} (hs : r.state = .good) (clean : r.cleanRun = 0) (age : r.age ≤ 255) {health : Nat}
    (bound : health ≤ 254) : (r.withHealth health).wf := by
  unfold Receiver.withHealth
  rw [hs]
  by_cases high : 128 ≤ health
  · simp [high, Receiver.wf, clean, age, bound]
  · simp [high, Receiver.wf, clean, age]; omega

theorem wf_withHealth_degraded {r : Receiver} (hs : r.state = .degraded) (clean : r.cleanRun = 0) (age : r.age ≤ 255) {health : Nat}
    (bound : health ≤ 255) : (r.withHealth health).wf := by
  unfold Receiver.withHealth
  rw [hs]
  by_cases top : health = 255
  · simp [top, Receiver.wf, age]
  · by_cases low : health ≤ 127
    · simp [top, low, Receiver.wf, clean, age]
    · simp [top, low, Receiver.wf, clean, age]; omega

theorem newHealth_le (r : Receiver) (h : r.health ≤ 255) (missed : Nat) :
    r.newHealth missed ≤ 255 ∧ (r.health ≤ 127 → r.newHealth missed ≤ 135) := by
  unfold Receiver.newHealth
  split <;> omega

theorem wf_reported {r : Receiver} (h : r.wf) (missed : Nat) : (r.reported missed).wf := by
  cases hs : r.state with
  | free =>
    simp only [Receiver.wf, hs] at h
    simp [Receiver.reported, Receiver.wf, h]
  | good =>
    simp only [Receiver.wf, hs] at h
    obtain ⟨health, clean, -⟩ := h
    rw [reported_of_health (.inl hs)]
    exact wf_withHealth_good (r := { r with age := 0 }) hs clean (Nat.zero_le _) (((newHealth_le r (by omega) missed).2 health).trans (by decide))
  | degraded =>
    simp only [Receiver.wf, hs] at h
    obtain ⟨-, health, clean, -⟩ := h
    rw [reported_of_health (.inr hs)]
    exact wf_withHealth_degraded (r := { r with age := 0 }) hs clean (Nat.zero_le _) (newHealth_le r (by omega) missed).1
  | lost =>
    simp only [Receiver.wf, hs] at h
    obtain ⟨health, clean, -⟩ := h
    simp only [Receiver.reported, hs]
    split
    · split
      · simp [Receiver.wf]
      · simp only [Receiver.wf]; omega
    · simp only [Receiver.wf]; omega

theorem lostListWf_offered {l : List RxIndex} (hs : s.lostListWf) (h : s.lostOffered t l) (fresh : ∀ i ∈ l, i ∉ s.table.lost) (nodup : l.Nodup) :
    t.lostListWf := by
  obtain ⟨short, distinct⟩ := hs
  obtain ⟨lost, -⟩ := h
  refine ⟨by rw [lost, List.length_append, List.length_take]; omega, ?_⟩
  rw [lost]
  exact distinct.append (nodup.sublist (List.take_sublist _ _)) (fun i hi ht => fresh i (List.mem_of_mem_take ht) hi)

end Sys2Proof.Machine
end

section
/-! PROOFS. The commands of the receiver table: reports, the second timer, registration and release. -/

namespace Sys2Proof.Machine

variable {i : Instr} {s t u : State}

/-! ### What no other command changes -/

theorem Nudge.degraded_eq {σ : Option Aud} (h : Nudge σ s t) (n : StreamNo) : (t.stream n).degraded = (s.stream n).degraded := by
  cases h with
  | stream m f hf =>
    rw [State.onStream_stream]
    split
    · obtain ⟨-, -, -, -, degraded⟩ := hf (s.stream n)
      exact degraded
    · rfl
  | cue m x f _ | drop m x => simp only [State.onCue, State.onStream_stream]; split <;> rfl
  | reply a r =>
    obtain ⟨f, placed, -⟩ := placeReply_cases s a r
    rw [placed]
    rfl
  | finish w => unfold State.finishWork; split <;> rfl
  | _ => rfl

theorem Take.degraded_eq (h : Take s t) (n : StreamNo) : (t.stream n).degraded = (s.stream n).degraded := by
  cases h with
  | work h => exact h.degraded_eq n
  | placed a c f _ => simp only [State.setContext, State.onIntake_stream, State.onCounters_stream, State.onStream_stream]; split <;> rfl
  | _ => rfl

theorem Deed.degraded_eq (h : Deed i s t) (hi : changesReceivers i = false) (n : StreamNo) : (t.stream n).degraded = (s.stream n).degraded := by
  cases h with
  | take h => exact h.degraded_eq n
  | stream m f _ hd =>
    rw [State.onStream_stream]
    split
    · exact (hd.resolve_left (by rw [hi]; decide)) _
    · rfl
  | _ => rfl

/-- A command that cannot change receivers changes no degraded count. -/
theorem Done.degraded_eq (h : Done i s t) (hi : changesReceivers i = false) (n : StreamNo) : (t.stream n).degraded = (s.stream n).degraded :=
  h.keeps (P := fun s => (s.stream n).degraded) fun _ _ hd => hd.degraded_eq hi n

/-! ### The table's laws, together -/

/-- The receivers' and the lost list's law. -/
def State.tableWf (s : State) : Prop := s.receiversWf ∧ s.lostListWf

theorem tableWf_congr (hr : t.receivers = s.receivers) (hl : t.table.lost = s.table.lost) (hs : s.tableWf) : t.tableWf := by
  simpa only [State.tableWf, State.receiversWf, State.lostListWf, State.rx, hr, hl] using hs

theorem tableWf_change {j : RxIndex} {l : List RxIndex} (hs : s.tableWf) (hr : ∀ k, k ≠ j → t.rx k = s.rx k) (hj : (t.rx j).wf)
    (h : s.lostOffered t l) (hl : l = [] ∨ (l = [j] ∧ j ∉ s.table.lost)) : t.tableWf := by
  refine ⟨fun k => ?_, lostListWf_offered hs.2 h ?_ ?_⟩
  · by_cases e : k = j
    · rw [e]; exact hj
    · rw [hr k e]; exact hs.1 k
  · rintro k hk
    rcases hl with rfl | ⟨rfl, fresh⟩
    · cases hk
    · rw [List.mem_singleton.mp hk]; exact fresh
  · rcases hl with rfl | ⟨rfl, -⟩ <;> simp

theorem wf_nowLost {r : Receiver} (h : r.wf) : r.nowLost.wf := by
  cases hs : r.state with
  | free =>
    simp only [Receiver.wf, hs] at h
    simp [Receiver.nowLost, Receiver.wf, h]
  | good | degraded | lost =>
    simp only [Receiver.wf, hs] at h
    simp only [Receiver.nowLost, Receiver.wf]
    omega

theorem tableWf_loseReceiver (hs : s.tableWf) (j : RxIndex) : (s.loseReceiver j).tableWf := by
  refine tableWf_change (j := j) hs (fun k hk => by rw [loseReceiver_rx, if_neg (Ne.symm hk)])
    (by rw [loseReceiver_rx, if_pos rfl]; exact wf_nowLost (hs.1 j)) (lostOffered_loseReceiver s j) ?_
  split
  · exact .inl rfl
  · next fresh => exact .inr ⟨rfl, fresh⟩

theorem tableWf_applyReport (hs : s.tableWf) (j : RxIndex) (missed : Nat) : (s.applyReport j missed).tableWf := by
  refine tableWf_change (j := j) hs (fun k hk => by rw [applyReport_rx, if_neg (Ne.symm hk)])
    (by rw [applyReport_rx, if_pos rfl]; exact wf_reported (hs.1 j) missed) (lostOffered_applyReport s j missed) ?_
  split
  · next lost => exact .inr ⟨rfl, lost.2.2⟩
  · exact .inl rfl

theorem foldl_carries {α β : Type} {P : β → Prop} {f : β → α → β} (hf : ∀ t x, P t → P (f t x)) (l : List α) : ∀ {t}, P t → P (l.foldl f t) := by
  induction l with
  | nil => exact fun h => h
  | cons x l ih => exact fun h => ih (hf _ x h)

/-! ### Reports -/

theorem tableWf_reportEntry (hs : s.tableWf) (e : ReportEntry) : (s.reportEntry e).tableWf := by
  unfold State.reportEntry
  split
  · exact tableWf_congr rfl rfl hs
  · split
    · exact tableWf_applyReport hs _ _
    · exact tableWf_congr rfl rfl hs

theorem degradedCountsWf_reportEntry (hs : s.degradedCountsWf) (e : ReportEntry) : (s.reportEntry e).degradedCountsWf := by
  unfold State.reportEntry
  split
  · exact hs
  · split
    · exact degradedCountsWf_applyReport hs _ _
    · exact hs

/-! ### The second timer -/

theorem ageAll_rx (s : State) (j : RxIndex) : s.ageAll.rx j = if s.ages j then (s.rx j).older else s.rx j := by
  simp [State.ageAll, State.rx, pick]

theorem ageAll_table (s : State) : s.ageAll.table = s.table := by simp only [State.ageAll]
theorem ageAll_stream (s : State) (n : StreamNo) : s.ageAll.stream n = s.stream n := by simp only [State.ageAll, State.stream]

theorem wf_older {r : Receiver} (h : r.wf) (used : r.state ≠ .free) : r.older.wf := by
  have bound : ∀ n, n ≤ 255 → saturate 255 n ≤ 255 := fun n hn => by unfold saturate; split <;> omega
  cases hs : r.state with
  | free => exact absurd hs used
  | good | degraded | lost =>
    simp only [Receiver.wf, hs] at h
    simp only [Receiver.older, Receiver.wf, hs]
    have := bound r.age (by omega)
    omega

theorem ages_used {j : RxIndex} (h : s.ages j = true) : (s.rx j).state ≠ .free := by
  simp only [State.ages, Bool.and_eq_true, Bool.not_eq_true', beq_eq_false_iff_ne] at h
  exact h.1

theorem tableWf_secondPasses (hs : s.tableWf) : s.secondPasses.tableWf := by
  refine foldl_carries (P := State.tableWf) (fun _ j h => tableWf_loseReceiver h j) _ ⟨fun j => ?_, ?_⟩
  · rw [State.onDraws_rx, ageAll_rx]
    split
    · next ages => exact wf_older (hs.1 j) (ages_used ages)
    · exact hs.1 j
  · rw [State.lostListWf, State.onDraws_table, ageAll_table]
    exact hs.2

theorem degradedCountsWf_secondPasses (hs : s.degradedCountsWf) : s.secondPasses.degradedCountsWf := by
  refine foldl_carries (P := State.degradedCountsWf) (fun _ j h => degradedCountsWf_loseReceiver h j) _
    (degradedCountsWf_congr hs (fun j a k => ?_) (fun n => by rw [State.onDraws_stream, ageAll_stream]; rfl))
  rw [State.onDraws_rx, ageAll_rx]
  split <;> rfl

/-! ### Registration and release -/

theorem freeEntry_free {j : RxIndex} (h : s.freeEntry = some j) : (s.rx j).state = .free := by
  have found := List.find?_some h
  simpa using found

theorem tableWf_register (hs : s.tableWf) (j : RxIndex) (id : BitVec 32) (a : Aud) (slots : Byte) :
    (s.onRx j (fun _ => { state := .good, id := id, auditorium := a, slots := slots })).tableWf :=
  tableWf_change (j := j) hs (fun k hk => by rw [State.onRx_rx, if_neg (Ne.symm hk)]) (by simp [Receiver.wf])
    (lostOffered_refl s) (.inl rfl)

theorem degradedCountsWf_register (hs : s.degradedCountsWf) {j : RxIndex} (free : (s.rx j).state = .free) (id : BitVec 32) (a : Aud) (slots : Byte) :
    (s.onRx j (fun _ => { state := .good, id := id, auditorium := a, slots := slots })).degradedCountsWf := by
  refine degradedCountsWf_change (i := j) hs (fun k hk => by rw [State.onRx_rx, if_neg (Ne.symm hk)]) (fun n => ?_)
  rw [not_struggles (r := s.rx j) (by rw [free]; decide), not_struggles (by simp)]
  rfl

theorem releaseRx_rx (s : State) (j k : RxIndex) : (s.releaseRx j).rx k = if j = k then {} else s.rx k := by
  unfold State.releaseRx
  dsimp only
  rw [State.onRx_rx, State.onTable_rx]
  split
  · rfl
  · split
    · rw [onDegraded_rx]
    · rfl

theorem releaseRx_stream (s : State) (j : RxIndex) (n : StreamNo) : (s.releaseRx j).stream n = (s.stream n).withDegraded
    (if (s.rx j).struggles (audOfStream n) (slotOfStream n) then (s.stream n).degraded - 1 else (s.stream n).degraded) := by
  unfold State.releaseRx
  dsimp only
  rw [State.onRx_stream, State.onTable_stream]
  by_cases h : (s.rx j).state = .degraded
  · simp [h, onDegraded_stream, struggles_iff]
  · simp [h, struggles_iff, Stream.withDegraded]

theorem releaseRx_lost (s : State) (j : RxIndex) : (s.releaseRx j).table = { s.table with lost := s.table.lost.filter (fun k => !(k == j)) } := by
  unfold State.releaseRx
  dsimp only
  rw [State.onRx_table, State.onTable_table]
  split
  · rw [onDegraded_eq]
  · rfl

theorem tableWf_releaseRx (hs : s.tableWf) (j : RxIndex) : (s.releaseRx j).tableWf := by
  obtain ⟨receivers, short, distinct⟩ := hs
  refine ⟨fun k => ?_, ?_, ?_⟩
  · rw [releaseRx_rx]
    split
    · rfl
    · exact receivers k
  · rw [releaseRx_lost]
    exact (List.length_filter_le _ _).trans short
  · rw [releaseRx_lost]
    exact distinct.filter _

theorem degradedCountsWf_releaseRx (hs : s.degradedCountsWf) (j : RxIndex) : (s.releaseRx j).degradedCountsWf := by
  refine degradedCountsWf_change (i := j) hs (fun k hk => by rw [releaseRx_rx, if_neg (Ne.symm hk)]) (fun n => ?_)
  rw [releaseRx_stream, releaseRx_rx, if_pos rfl, not_struggles (r := {}) (by decide)]
  cases (s.rx j).struggles (audOfStream n) (slotOfStream n) <;> rfl

/-! ### Every step (R87, R148, R158) -/

/-- A law that no change of the transport touches, and that a command keeps where it is taken, a command write keeps. -/
theorem write_keeps {P : State → Prop} {taken : State → State} (hm : ∀ (s : State) f, P s → P (s.onMgmt f)) (ht : ∀ t, P t → P (taken t))
    (hs : P s) (h : s.write taken = .next t) : P t := by
  unfold State.write at h
  split at h <;> cases h
  · exact hm _ _ hs
  · exact ht _ (hm _ _ hs)
  · exact ht _ (hm _ _ hs)

theorem tableWf_onMgmt (s : State) (f : Mgmt → Mgmt) (hs : s.tableWf) : (s.onMgmt f).tableWf := hs

theorem degradedCountsWf_onMgmt (s : State) (f : Mgmt → Mgmt) (hs : s.degradedCountsWf) : (s.onMgmt f).degradedCountsWf := hs

/-- A law of the receiver table that the table's own commands keep, every command keeps that others do not touch. -/
theorem exec_keeps_table {P : State → Prop} (hm : ∀ (s : State) f, P s → P (s.onMgmt f))
    (report : ∀ (s : State) e, P s → P (s.reportEntry e)) (count : ∀ (s : State) p f, P s → P (s.onLinkCounters p f))
    (malformed : ∀ (s : State) p, P s → P (s.answerMalformedTo p)) (answer : ∀ (s : State) p b, P s → P (s.answer p b))
    (second : ∀ s : State, P s → P s.secondPasses)
    (register : ∀ (s : State) j id a sl, (s.rx j).state = .free → P s → P (s.onRx j (fun _ => { state := .good, id := id, auditorium := a, slots := sl })))
    (release : ∀ (s : State) j, P s → P (s.releaseRx j)) {i : Instr} (hi : changesReceivers i = true) (reset : i ≠ .deviceReset)
    (hs : P s) (h : exec i s = .next t) : P t := by
  have hold : ∀ (t : State) c x, P t → P (t.hold c x) := fun _ _ _ ht => hm _ _ ht
  cases i with
  | deviceReset => exact absurd rfl reset
  | report p es =>
    change execReport p es s = .next t at h
    unfold execReport at h
    split at h <;> cases h
    · exact answer _ _ _ (foldl_carries (P := P) (fun _ e h => report _ e h) _ (count _ _ _ hs))
    · exact malformed _ _ hs
  | secondTimerExpires =>
    change execSecondTimerExpires s = .next t at h
    unfold execSecondTimerExpires at h
    split at h <;> cases h
    · exact second _ hs
    · exact hs
  | registerReceiver args =>
    change execRegisterReceiver args s = .next t at h
    unfold execRegisterReceiver at h
    refine write_keeps hm (fun t ht => ?_) hs h
    split
    · split
      · dsimp only
        split
        · exact hold _ _ _ ht
        · split
          · exact hold _ _ _ ht
          · split
            · exact hold _ _ _ ht
            · next j free => exact hold _ _ _ (register _ _ _ _ _ (freeEntry_free free) ht)
      · exact hold _ _ _ ht
    · exact hold _ _ _ ht
  | releaseReceiver args =>
    change execReleaseReceiver args s = .next t at h
    unfold execReleaseReceiver at h
    refine write_keeps hm (fun t ht => ?_) hs h
    split
    · dsimp only
      split
      · exact hold _ _ _ ht
      · split
        · exact hold _ _ _ ht
        · exact hold _ _ _ (release _ _ ht)
    · exact hold _ _ _ ht
  | _ => cases hi

theorem exec_keeps_tableWf (reset : i ≠ .deviceReset) (hs : s.tableWf) (h : exec i s = .next t) : t.tableWf := by
  obtain ⟨u, answered, done⟩ := exec_done i s reset
  rw [h] at answered
  cases answered
  by_cases hi : changesReceivers i = true
  · exact exec_keeps_table tableWf_onMgmt (fun _ e hs => tableWf_reportEntry hs e) (fun _ _ _ hs => hs) (fun _ _ hs => hs) (fun _ _ _ hs => hs)
      (fun _ hs => tableWf_secondPasses hs) (fun _ j id a sl _ hs => tableWf_register hs j id a sl) (fun _ j hs => tableWf_releaseRx hs j)
      hi reset hs h
  · rw [Bool.not_eq_true] at hi
    have receivers : t.receivers = s.receivers := done.keeps fun _ _ hd => hd.receivers_eq hi
    by_cases ht : changesTable i = true
    · refine ⟨fun j => by rw [State.rx, receivers]; exact hs.1 j, ?_⟩
      cases i with
      | setReceiverPolicy args =>
        change execSetReceiverPolicy args s = .next t at h
        unfold execSetReceiverPolicy at h
        refine write_keeps (P := State.lostListWf) (fun _ _ hs => hs) (fun t kept => ?_) hs.2 h
        split
        · split <;> exact kept
        · exact kept
      | takeLost args =>
        change execTakeLost args s = .next t at h
        unfold execTakeLost at h
        refine write_keeps (P := State.lostListWf) (fun _ _ hs => hs) (fun t kept => ?_) hs.2 h
        split
        · exact ⟨((List.tail_sublist _).length_le).trans kept.1, kept.2.tail⟩
        · exact kept
      | readCounters args =>
        change execReadCounters args s = .next t at h
        unfold execReadCounters at h
        refine write_keeps (P := State.lostListWf) (fun _ _ hs => hs) (fun t kept => ?_) hs.2 h
        split
        · split
          · next x clear _ _ => cases clear <;> cases x <;> exact kept
          · exact kept
        · exact kept
      | deviceReset => cases hi
      | report p es | registerReceiver args | releaseReceiver args | secondTimerExpires => cases hi
      | _ => cases ht
    · rw [Bool.not_eq_true] at ht
      have table : t.table = s.table := done.keeps fun _ _ hd => hd.table_eq ht
      exact tableWf_congr receivers (by rw [table]) hs

theorem exec_keeps_degradedCountsWf (reset : i ≠ .deviceReset) (hs : s.degradedCountsWf) (h : exec i s = .next t) : t.degradedCountsWf := by
  obtain ⟨u, answered, done⟩ := exec_done i s reset
  rw [h] at answered
  cases answered
  by_cases hi : changesReceivers i = true
  · exact exec_keeps_table degradedCountsWf_onMgmt (fun _ e hs => degradedCountsWf_reportEntry hs e) (fun _ _ _ hs => hs) (fun _ _ hs => hs)
      (fun _ _ _ hs => hs) (fun _ hs => degradedCountsWf_secondPasses hs)
      (fun _ j id a sl free hs => degradedCountsWf_register hs free id a sl) (fun _ j hs => degradedCountsWf_releaseRx hs j) hi reset hs h
  · rw [Bool.not_eq_true] at hi
    have receivers : t.receivers = s.receivers := done.keeps fun _ _ hd => hd.receivers_eq hi
    exact degradedCountsWf_congr hs (fun j a k => by simp only [State.rx, receivers]) (done.degraded_eq hi)

/-- Settles O10: a report, a silent second, a registration and a release each keep entries, lost list and degraded counts in agreement, and
no other command touches more of them than the table's own settings and the head of the lost list. -/
theorem stepKeepsReceiverTable : Obligations.StepKeepsReceiverTable := by
  refine ⟨fun s t receivers lost h => ?_, fun s t counts h => ?_⟩
  · exact step_keeps (P := State.tableWf) (fun _ _ _ _ h => h) (fun _ => ⟨reset_receiversWf, reset_lostListWf⟩)
      (fun _ _ _ reset next hs => exec_keeps_tableWf reset hs next) ⟨receivers, lost⟩ h
  · exact step_keeps (P := State.degradedCountsWf) (fun _ _ _ _ h => h) (fun _ => reset_degradedCountsWf)
      (fun _ _ _ reset next hs => exec_keeps_degradedCountsWf reset hs next) counts h

end Sys2Proof.Machine
end

section
/-! PROOFS. Reports, the silent second, registration and release, in the manual's figures. -/

namespace Sys2Proof.Machine

variable {s t u : State}

/-- The first of `n` numbered things, in order, that meets a test. -/
theorem find_finRange {n : Nat} (p : Fin n → Bool) (i : Fin n) :
    (List.finRange n).find? p = some i ↔ p i = true ∧ ∀ j, j < i → p j = false := by
  rw [List.find?_eq_some_iff_getElem]
  refine and_congr_right fun _ => ⟨?_, fun first => ⟨i.val, by simp, by simp, fun j hj => ?_⟩⟩
  · rintro ⟨k, hk, here, first⟩ j hj
    have ki : k = i.val := by simpa [Fin.ext_iff] using here
    simpa using first j.val (ki ▸ hj)
  · simpa using first ⟨j, hj.trans i.isLt⟩ hj

theorem find_finRange_none {n : Nat} (p : Fin n → Bool) : (List.finRange n).find? p = none ↔ ∀ i, p i = false := by
  simp [List.find?_eq_none]

/-! ### The receiver an id names (R151) -/

theorem findReceiver_iff (s : State) (id : BitVec 32) (i : RxIndex) : s.findReceiver id = some i ↔
    id ≠ 0 ∧ (s.rx i).state ≠ .free ∧ (s.rx i).id = id ∧ ∀ j, j < i → (s.rx j).state ≠ .free → (s.rx j).id ≠ id := by
  unfold State.findReceiver
  split
  · next zero => simp [zero]
  · next nonzero =>
    rw [rxIndexes, find_finRange]
    simp only [Bool.and_eq_true, Bool.not_eq_true', beq_eq_false_iff_ne, beq_iff_eq, Bool.and_eq_false_iff, Bool.not_eq_false']
    constructor
    · rintro ⟨⟨used, same⟩, first⟩
      exact ⟨nonzero, used, same, fun j hj other e => (first j hj).elim other (fun ne => ne e)⟩
    · rintro ⟨-, used, same, first⟩
      refine ⟨⟨used, same⟩, fun j hj => ?_⟩
      by_cases free : (s.rx j).state = .free
      · exact .inl free
      · exact .inr (first j hj free)

theorem findReceiver_none {id : BitVec 32} (h : ∀ j, (s.rx j).state ≠ .free → (s.rx j).id ≠ id) : s.findReceiver id = none := by
  by_contra found
  obtain ⟨i, hi⟩ := Option.ne_none_iff_exists'.mp found
  obtain ⟨-, used, same, -⟩ := (findReceiver_iff s id i).mp hi
  exact h i used same

/-! ### Reports and the link ports

A report entry neither reads nor writes the link ports, so that a REPORT's answer and its count may be set apart from its entries. -/

/-- The part with other link ports and counters. -/
def State.withLinks (s : State) (l : Vector LinkPort 4) (c : Vector LinkCounters 4) : State := { s with links := l, linkCounters := c }

section
variable (s) (l : Vector LinkPort 4) (c : Vector LinkCounters 4)

theorem onDegraded_withLinks (r : Receiver) (f : Nat → Nat) : (s.withLinks l c).onDegraded r f = (s.onDegraded r f).withLinks l c := by
  have fold : ∀ (ks : List Slot) (u : State),
      ks.foldl (fun t k => t.onStream (streamOf r.auditorium k) (fun st => { st with degraded := f st.degraded })) (u.withLinks l c) =
        (ks.foldl (fun t k => t.onStream (streamOf r.auditorium k) (fun st => { st with degraded := f st.degraded })) u).withLinks l c := by
    intro ks
    induction ks with
    | nil => exact fun _ => rfl
    | cons k ks ih => exact fun u => ih (u.onStream (streamOf r.auditorium k) (fun st => { st with degraded := f st.degraded }))
  exact fold _ s

theorem offerLost_withLinks (i : RxIndex) : (s.withLinks l c).offerLost i = (s.offerLost i).withLinks l c := by
  have table : (s.withLinks l c).table = s.table := rfl
  unfold State.offerLost
  rw [table]
  split
  · rfl
  · split
    · dsimp only
      split <;> rfl
    · rfl

theorem loseReceiver_withLinks (i : RxIndex) : (s.withLinks l c).loseReceiver i = (s.loseReceiver i).withLinks l c := by
  have rx : (s.withLinks l c).rx i = s.rx i := rfl
  unfold State.loseReceiver
  rw [rx]
  dsimp only
  rw [← offerLost_withLinks]
  split
  · rw [onDegraded_withLinks]; rfl
  · rfl

theorem applyHealth_withLinks (i : RxIndex) (health : Nat) : (s.withLinks l c).applyHealth i health = (s.applyHealth i health).withLinks l c := by
  have rx : (s.withLinks l c).rx i = s.rx i := rfl
  have onRx : ∀ (u : State) f, (u.withLinks l c).onRx i f = (u.onRx i f).withLinks l c := fun _ _ => rfl
  unfold State.applyHealth
  rw [rx]
  dsimp only
  simp only [onRx, loseReceiver_withLinks, onDegraded_withLinks]
  split
  · rfl
  · split
    · rfl
    · split <;> rfl

theorem applyReport_withLinks (i : RxIndex) (missed : Nat) : (s.withLinks l c).applyReport i missed = (s.applyReport i missed).withLinks l c := by
  have rx : (s.withLinks l c).rx i = s.rx i := rfl
  have onRx : ∀ (u : State) f, (u.withLinks l c).onRx i f = (u.onRx i f).withLinks l c := fun _ _ => rfl
  rcases applyReport_cases s i missed with ⟨h1, h2, -, h⟩ | ⟨h1, -, h⟩
  · rcases applyReport_cases (s.withLinks l c) i missed with ⟨-, -, -, k⟩ | ⟨k1, -, k⟩
    · rw [h, k]; rfl
    · exact absurd k1 (by rw [rx]; simp [h1, h2])
  · rcases applyReport_cases (s.withLinks l c) i missed with ⟨k1, k2, -, k⟩ | ⟨-, -, k⟩
    · exact absurd h1 (by rw [← rx]; simp [k1, k2])
    · rw [h, k, rx, onRx, applyHealth_withLinks]

theorem reportEntry_withLinks (e : ReportEntry) : (s.withLinks l c).reportEntry e = (s.reportEntry e).withLinks l c := by
  have found : (s.withLinks l c).findReceiver e.receiver = s.findReceiver e.receiver := rfl
  have rx : ∀ i, (s.withLinks l c).rx i = s.rx i := fun _ => rfl
  unfold State.reportEntry
  rw [found]
  cases s.findReceiver e.receiver with
  | none => rfl
  | some i =>
    dsimp only
    rw [rx, applyReport_withLinks]
    split <;> rfl

theorem reportEntries_withLinks (es : List ReportEntry) :
    es.foldl State.reportEntry (s.withLinks l c) = (es.foldl State.reportEntry s).withLinks l c := by
  induction es generalizing s with
  | nil => rfl
  | cons e es ih => rw [List.foldl_cons, reportEntry_withLinks, ih, List.foldl_cons]

end

theorem receiversOnly_reportEntry (s : State) (e : ReportEntry) : s.receiversOnly (s.reportEntry e) := by
  unfold State.reportEntry
  split
  · exact ⟨rfl, fun _ => rfl⟩
  · split
    · exact receiversOnly_applyReport _ _ _
    · exact ⟨rfl, fun _ => rfl⟩

/-- The part after the entries of a REPORT, its count and its answer (R145). -/
def State.afterReport (s : State) (p : Port) (es : List ReportEntry) : State :=
  (es.foldl State.reportEntry s).withLinks (change s.links p (fun l => { l with answer := [1, 0] }))
    (change s.linkCounters p (fun c => { c with reports := bumpBy es.length c.reports }))

theorem exec_report (p : Port) {es : List ReportEntry} (h1 : 1 ≤ es.length) (h2 : es.length ≤ 16) (s : State) :
    exec (.report p es) s = .next (s.afterReport p es) := by
  have counted := reportEntries_withLinks s s.links (change s.linkCounters p (fun c => { c with reports := bumpBy es.length c.reports })) es
  have counted_eq : s.onLinkCounters p (fun c => { c with reports := bumpBy es.length c.reports }) =
      s.withLinks s.links (change s.linkCounters p (fun c => { c with reports := bumpBy es.length c.reports })) := rfl
  change execReport p es s = _
  unfold execReport
  rw [if_pos (by simp [h1, h2])]
  dsimp only
  rw [counted_eq, counted]
  rfl

theorem change_change {α : Type} {n : Nat} (v : Vector α n) (i : Fin n) (f g : α → α) : change (change v i f) i g = change v i (fun x => g (f x)) := by
  refine bank_ext fun j => ?_
  simp only [pick_change]
  split <;> rfl

/-- The entries of a REPORT may come in REPORTs one after another. -/
theorem afterReport_cons (s : State) (p : Port) (e : ReportEntry) (rest : List ReportEntry) :
    (s.afterReport p [e]).afterReport p rest = s.afterReport p (e :: rest) := by
  have entries : rest.foldl State.reportEntry (s.afterReport p [e]) = ((e :: rest).foldl State.reportEntry s).withLinks
      (change s.links p (fun l => { l with answer := [1, 0] })) (change s.linkCounters p (fun c => { c with reports := bump c.reports })) :=
    reportEntries_withLinks _ _ _ rest
  unfold State.afterReport
  rw [State.afterReport] at entries
  rw [entries]
  simp only [State.withLinks, change_change]
  rfl

/-! ### One entry -/

theorem matchesEntry_iff (r : Receiver) (e : ReportEntry) : r.matchesEntry e = true ↔
    e.auditorium.toNat = r.auditorium.val ∧ ∃ k, slotOf e.slot = some k ∧ r.slots.getLsbD k.val = true := by
  unfold Receiver.matchesEntry
  cases slotOf e.slot <;> simp

theorem loseReceiver_counts (s : State) (i : RxIndex) : (s.loseReceiver i).table.unknown = s.table.unknown ∧
    (s.loseReceiver i).table.mismatch = s.table.mismatch := by
  unfold State.loseReceiver
  dsimp only
  rw [offerLost_eq]
  split
  · rw [onDegraded_eq]; exact ⟨rfl, rfl⟩
  · exact ⟨rfl, rfl⟩

theorem applyHealth_counts (s : State) (i : RxIndex) (health : Nat) : (s.applyHealth i health).table.unknown = s.table.unknown ∧
    (s.applyHealth i health).table.mismatch = s.table.mismatch := by
  unfold State.applyHealth
  dsimp only
  split
  · exact loseReceiver_counts _ _
  · split
    · rw [onDegraded_eq]; exact ⟨rfl, rfl⟩
    · split
      · rw [onDegraded_eq]; exact ⟨rfl, rfl⟩
      · exact ⟨rfl, rfl⟩

theorem applyReport_counts (s : State) (i : RxIndex) (missed : Nat) : (s.applyReport i missed).table.unknown = s.table.unknown ∧
    (s.applyReport i missed).table.mismatch = s.table.mismatch := by
  rcases applyReport_cases s i missed with ⟨-, -, -, h⟩ | ⟨-, -, h⟩
  · rw [h]; exact ⟨rfl, rfl⟩
  · rw [h]; exact applyHealth_counts _ _ _

/-- A receiver's entry after a report, by its state (R151, R152, R156). -/
theorem reported_eq (r : Receiver) (missed : Byte) :
    let health := if missed = 0 then r.health - 1 else min (r.health + 8) 255
    r.reported missed.toNat = match r.state with
      | .good => { r with age := 0, health := health, state := if 128 ≤ health then .degraded else .good }
      | .degraded =>
        if health = 255 then { r with age := 0, health := 255, state := .lost, cleanRun := 0 }
        else { r with age := 0, health := health, state := if health ≤ 127 then .good else .degraded }
      | .lost =>
        if missed ≠ 0 then { r with age := 0, cleanRun := 0 }
        else if r.cleanRun + 1 < 16 then { r with age := 0, cleanRun := r.cleanRun + 1 }
        else { r with age := 0, state := .good, health := 0, cleanRun := 0 }
      | .free => { r with age := 0 } := by
  have zero : missed.toNat = 0 ↔ missed = 0 := by
    rw [← BitVec.toNat_inj]; rfl
  obtain ⟨state, id, auditorium, slots, health, cleanRun, age⟩ := r
  cases state with
  | free => rfl
  | good | degraded => simp only [Receiver.reported, Receiver.withHealth, Receiver.newHealth, zero]
  | lost =>
    simp only [Receiver.reported, zero]
    by_cases clean : missed = 0
    · by_cases run : 16 ≤ cleanRun + 1
      · simp [clean, run, Nat.not_lt.mpr run]
      · simp [clean, run, Nat.lt_of_not_le run]
    · rw [if_neg clean, if_pos clean]

/-- A DEGRADED receiver is lost by a report of missed frames at a health of 247 or more. -/
theorem newHealth_lost {r : Receiver} (h : r.wf) (hs : r.state = .degraded) (missed : Byte) :
    r.newHealth missed.toNat = 255 ↔ missed ≠ 0 ∧ 247 ≤ r.health := by
  have zero : missed.toNat = 0 ↔ missed = 0 := by
    rw [← BitVec.toNat_inj]; rfl
  simp only [Receiver.wf, hs] at h
  simp only [Receiver.newHealth, zero]
  by_cases clean : missed = 0
  · simp only [clean, if_true, ne_eq, not_true_eq_false, false_and, iff_false]; omega
  · simp only [clean, if_false, ne_eq, not_false_eq_true, true_and]; omega

theorem reportEntry_of_none {e : ReportEntry} (h : s.findReceiver e.receiver = none) :
    s.reportEntry e = s.onTable (fun t => { t with unknown := bump t.unknown }) := by rw [State.reportEntry, h]

theorem reportEntry_of_mismatch {e : ReportEntry} {i : RxIndex} (h : s.findReceiver e.receiver = some i) (hm : ¬ (s.rx i).matchesEntry e = true) :
    s.reportEntry e = s.onTable (fun t => { t with mismatch := bump t.mismatch }) := by
  rw [State.reportEntry, h]
  exact if_neg hm

theorem reportEntry_of_match {e : ReportEntry} {i : RxIndex} (h : s.findReceiver e.receiver = some i) (hm : (s.rx i).matchesEntry e = true) :
    s.reportEntry e = s.applyReport i e.missed.toNat := by
  rw [State.reportEntry, h]
  exact if_pos hm

theorem lostOffered_reportEntry (hs : s.receiversWf) (e : ReportEntry) :
    s.lostOffered (s.reportEntry e) (match s.findReceiver e.receiver with
      | none => []
      | some i =>
        let r := s.rx i
        if e.auditorium.toNat = r.auditorium.val ∧ (∃ k, slotOf e.slot = some k ∧ r.slots.getLsbD k.val = true) ∧ e.missed ≠ 0 ∧
          r.state = .degraded ∧ 247 ≤ r.health ∧ i ∉ s.table.lost then [i] else []) := by
  cases found : s.findReceiver e.receiver with
  | none => rw [reportEntry_of_none found]; exact lostOffered_refl s
  | some i =>
    dsimp only
    by_cases hm : (s.rx i).matchesEntry e = true
    · obtain ⟨here, subscribed⟩ := (matchesEntry_iff _ _).mp hm
      have offered := lostOffered_applyReport s i e.missed.toNat
      rw [reportEntry_of_match found hm]
      have same : ((s.rx i).state = .degraded ∧ (s.rx i).newHealth e.missed.toNat = 255 ∧ i ∉ s.table.lost) ↔
          (e.auditorium.toNat = (s.rx i).auditorium.val ∧ (∃ k, slotOf e.slot = some k ∧ (s.rx i).slots.getLsbD k.val = true) ∧ e.missed ≠ 0 ∧
          (s.rx i).state = .degraded ∧ 247 ≤ (s.rx i).health ∧ i ∉ s.table.lost) := by
        constructor
        · rintro ⟨degraded, top, fresh⟩
          obtain ⟨missed, high⟩ := (newHealth_lost (hs i) degraded e.missed).mp top
          exact ⟨here, subscribed, missed, degraded, high, fresh⟩
        · rintro ⟨-, -, missed, degraded, high, fresh⟩
          exact ⟨degraded, (newHealth_lost (hs i) degraded e.missed).mpr ⟨missed, high⟩, fresh⟩
      simpa only [same] using offered
    · rw [reportEntry_of_mismatch found hm, if_neg (fun h => hm ((matchesEntry_iff _ _).mpr ⟨h.1, h.2.1⟩))]
      exact lostOffered_refl s

/-- Settles O43: a REPORT is its entries one after another, with its count and its answer; each entry is unknown, mismatched or a report on
its receiver. -/
theorem reports : Obligations.Reports := by
  refine ⟨fun id i s => findReceiver_iff s id i, fun p es s => ⟨fun h1 h2 => ?_, fun h => ?_⟩, fun p e s => ?_, fun p e s hs => ?_,
    fun p e rest s h1 h2 => ?_⟩
  · refine ⟨_, exec_report p h1 h2 s, ?_⟩
    obtain ⟨he, hn⟩ := receiversOnly_foldl receiversOnly_reportEntry es s
    refine ⟨?_, hn⟩
    unfold State.afterReport
    generalize es.foldl State.reportEntry s = w at he
    conv_lhs => rw [he]
    rfl
  · change execReport p es s = _
    unfold execReport
    rw [if_neg]
    · rfl
    · simp only [Bool.and_eq_true, decide_eq_true_eq, not_and_or]; omega
  · refine ⟨_, exec_report p (by simp) (by simp) s, ?_⟩
    change match s.findReceiver e.receiver with
      | none => (s.reportEntry e).receivers = s.receivers ∧ (s.reportEntry e).table = { s.table with unknown := bump s.table.unknown }
      | some i => _
    cases found : s.findReceiver e.receiver with
    | none => rw [reportEntry_of_none found]; exact ⟨rfl, rfl⟩
    | some i =>
      by_cases hm : (s.rx i).matchesEntry e = true
      · have entry := reportEntry_of_match found hm
        obtain ⟨unknown, mismatch⟩ := applyReport_counts s i e.missed.toNat
        have rx : ∀ j, (s.afterReport p [e]).rx j = (s.applyReport i e.missed.toNat).rx j := by
          rw [← entry]; exact fun _ => rfl
        have table : (s.afterReport p [e]).table = (s.applyReport i e.missed.toNat).table := by
          rw [← entry]; rfl
        dsimp only
        rw [if_pos ((matchesEntry_iff _ _).mp hm), table, rx, applyReport_rx, if_pos rfl]
        exact ⟨fun j hj => by rw [rx, applyReport_rx, if_neg (Ne.symm hj)], unknown, mismatch, reported_eq _ _⟩
      · have entry := reportEntry_of_mismatch found hm
        have rx : ∀ j, (s.afterReport p [e]).rx j = s.rx j := by
          intro j
          change (s.reportEntry e).rx j = _
          rw [entry]; rfl
        have table : (s.afterReport p [e]).table = { s.table with mismatch := bump s.table.mismatch } := by
          change (s.reportEntry e).table = _
          rw [entry]; rfl
        dsimp only
        rw [if_neg (fun h => hm ((matchesEntry_iff _ _).mpr h)), table]
        exact ⟨fun j _ => rx j, rfl, rx i, rfl⟩
  · exact ⟨_, exec_report p (by simp) (by simp) s, lostOffered_reportEntry hs e⟩
  · have nonempty : 1 ≤ rest.length := List.length_pos_iff.mpr h1
    refine ⟨_, _, exec_report p (by simp) (by simp) s, exec_report p nonempty (by omega) _, ?_⟩
    rw [exec_report p (by simp) (by simp only [List.length_cons]; omega), afterReport_cons]

/-! ### The silent second (R153 to R155, R158) -/

/-- Receivers that go LOST one after another. -/
theorem loseReceivers_rx (l : List RxIndex) (j : RxIndex) : ∀ s : State,
    (l.foldl State.loseReceiver s).rx j = if j ∈ l then (s.rx j).nowLost else s.rx j := by
  induction l with
  | nil => exact fun _ => by simp
  | cons i l ih =>
    intro s
    rw [List.foldl_cons, ih, loseReceiver_rx]
    by_cases e : i = j
    · subst e
      by_cases again : i ∈ l <;> simp [again, Receiver.nowLost]
    · simp [e, Ne.symm e]

/-- The receivers not listed are offered, in their order. -/
theorem lostOffered_loseReceivers (l : List RxIndex) : ∀ s : State, l.Nodup →
    ∀ m : List RxIndex, (∀ i ∈ l, i ∈ s.table.lost ↔ i ∈ m) →
      s.lostOffered (l.foldl State.loseReceiver s) (l.filter (fun i => !m.contains i)) := by
  induction l with
  | nil => exact fun s _ _ _ => lostOffered_refl s
  | cons i l ih =>
    intro s nodup m hm
    obtain ⟨fresh, nodup⟩ := List.nodup_cons.mp nodup
    have first := lostOffered_loseReceiver s i
    have listed : ∀ j ∈ l, j ∈ (s.loseReceiver i).table.lost ↔ j ∈ m := by
      intro j hj
      have ne : j ≠ i := fun e => fresh (e ▸ hj)
      rw [first.1, List.mem_append, ← hm j (List.mem_cons_of_mem _ hj)]
      refine or_iff_left fun taken => ?_
      have := List.mem_of_mem_take taken
      split at this
      · cases this
      · exact ne (List.mem_singleton.mp this)
    have next := lostOffered_trans first (ih _ nodup m listed)
    rw [List.foldl_cons, List.filter_cons]
    by_cases here : i ∈ m
    · simpa [here, (hm i List.mem_cons_self).mpr here] using next
    · have out : i ∉ s.table.lost := fun h => here ((hm i List.mem_cons_self).mp h)
      simpa [here, out] using next

theorem mem_silenced (s : State) (i : RxIndex) : i ∈ s.silenced ↔ s.table.silenceLimit ≠ 0 ∧ s.ages i = true ∧
    ((s.rx i).state = .good ∨ (s.rx i).state = .degraded) ∧ s.table.silenceLimit ≤ (s.rx i).older.age := by
  unfold State.silenced
  split
  · next zero => simp [zero]
  · next limit => simp [limit, mem_rxIndexes, and_assoc]

theorem silenced_nodup (s : State) : s.silenced.Nodup := by
  unfold State.silenced
  split
  · exact List.nodup_nil
  · exact (List.nodup_finRange 1024).filter _

theorem ages_iff (s : State) (i : RxIndex) : s.ages i = true ↔ (s.rx i).state ≠ .free ∧ (s.session (s.rx i).auditorium).state.isRunning = true := by
  simp [State.ages]

/-- A receiver's entry when a second has passed. -/
theorem secondPasses_rx (s : State) (i : RxIndex) : s.secondPasses.rx i =
    if i ∈ s.silenced then (s.rx i).older.nowLost else if s.ages i then (s.rx i).older else s.rx i := by
  unfold State.secondPasses
  dsimp only
  rw [loseReceivers_rx, State.onDraws_rx, ageAll_rx]
  simp only [(anyOrder_perm _ _).mem_iff]
  have ages : ∀ f, (s.onTable f).ages i = s.ages i := fun _ => rfl
  rw [ages]
  split
  · next silent => rw [if_pos ((mem_silenced s i).mp silent).2.1]; rfl
  · rfl

/-- What a second's passing may change. -/
theorem secondPasses_frame (s : State) :
    s.secondPasses = { s with
      receivers := s.secondPasses.receivers, streams := s.secondPasses.streams, draws := s.secondPasses.draws
      attention := { s.attention with table := s.secondPasses.attention.table }
      table := { s.table with secondStart := s.now, lost := s.secondPasses.table.lost, overflow := s.secondPasses.table.overflow } } ∧
    ∀ n, s.secondPasses.stream n = (s.stream n).withDegraded (s.secondPasses.stream n).degraded := by
  have counts := foldl_carries (P := fun u : State => u.table.unknown = s.table.unknown ∧ u.table.mismatch = s.table.mismatch)
    (f := State.loseReceiver) (fun u i hu => ⟨(loseReceiver_counts u i).1.trans hu.1, (loseReceiver_counts u i).2.trans hu.2⟩)
    (anyOrder s.draws s.silenced) (t := ((s.onTable (fun t => { t with secondStart := s.now })).ageAll).onDraws (· + drawsOf s.silenced))
    (by rw [State.onDraws_table, ageAll_table]; exact ⟨rfl, rfl⟩)
  obtain ⟨he, hn⟩ := receiversOnly_foldl receiversOnly_loseReceiver (anyOrder s.draws s.silenced)
    (((s.onTable (fun t => { t with secondStart := s.now })).ageAll).onDraws (· + drawsOf s.silenced))
  refine ⟨?_, fun n => ?_⟩
  · unfold State.secondPasses
    dsimp only
    generalize (anyOrder s.draws s.silenced).foldl State.loseReceiver _ = w at he counts ⊢
    obtain ⟨unknown, mismatch⟩ := counts
    have draws := congrArg State.draws he
    rw [unknown, mismatch] at he
    conv_lhs => rw [he]
    rw [draws]
    simp only [State.ageAll, State.onDraws, State.onTable]
  · have kept := hn n
    rw [State.onDraws_stream, ageAll_stream] at kept
    exact kept

/-- Settles O50: the second ages every receiver of a running show; those it silences go LOST in some order, and those among them that are
not listed are offered in that order. -/
theorem secondPasses : Obligations.SecondPasses := by
  intro s due
  have due' : s.secondDue = true := Option.some.inj due
  obtain ⟨frame, streams⟩ := secondPasses_frame s
  have silent_not_lost : ∀ i ∈ s.silenced, (s.rx i).state ≠ .lost := fun i hi => by
    obtain ⟨-, -, hs | hs, -⟩ := (mem_silenced s i).mp hi <;> rw [hs] <;> decide
  refine ⟨s.secondPasses, if_pos due', frame, streams, ?_, fun i => ?_⟩
  · refine ⟨(anyOrder s.draws s.silenced).filter (fun i => !s.table.lost.contains i), ?_, ?_⟩
    · refine ((anyOrder_perm _ _).filter _).trans (List.Perm.of_eq ?_)
      by_cases limit : s.table.silenceLimit = 0
      · have none_silent : s.silenced = [] := by simp [State.silenced, limit]
        rw [none_silent, List.filter_nil, eq_comm, List.filter_eq_nil_iff]
        intro i _
        rw [secondPasses_rx, none_silent]
        simp only [List.not_mem_nil, if_false]
        split <;> simp [Receiver.older]
      · rw [State.silenced, if_neg limit, List.filter_filter]
        refine List.filter_congr fun i _ => ?_
        rw [secondPasses_rx]
        by_cases silent : i ∈ s.silenced
        · have not_lost := silent_not_lost i silent
          obtain ⟨-, ages, hs, age⟩ := (mem_silenced s i).mp silent
          rw [if_pos silent]
          have live : ((s.rx i).state == .good || (s.rx i).state == .degraded) = true := by simpa using hs
          have alive : ((s.rx i).state == .lost) = false := by simpa using not_lost
          simp [Receiver.nowLost, alive, live, ages, age]
        · rw [if_neg silent]
          have quiet : ¬ (s.ages i = true ∧ ((s.rx i).state = .good ∨ (s.rx i).state = .degraded) ∧ s.table.silenceLimit ≤ (s.rx i).older.age) :=
            fun h => silent ((mem_silenced s i).mpr ⟨limit, h⟩)
          have left : (s.ages i && ((s.rx i).state == .good || (s.rx i).state == .degraded) &&
              decide (s.table.silenceLimit ≤ (s.rx i).older.age)) = false := by
            rw [Bool.eq_false_iff]
            simpa [and_assoc] using quiet
          have right : ((if s.ages i then (s.rx i).older else s.rx i).state == .lost && !((s.rx i).state == .lost)) = false := by
            split <;> simp [Receiver.older]
          rw [left, right]
          simp
    · have offered := lostOffered_loseReceivers (anyOrder s.draws s.silenced)
        (((s.onTable (fun t => { t with secondStart := s.now })).ageAll).onDraws (· + drawsOf s.silenced))
        ((anyOrder_perm _ _).nodup_iff.mpr (silenced_nodup s)) s.table.lost
        (fun i _ => by rw [State.onDraws_table, ageAll_table]; exact Iff.rfl)
      simp only [State.lostOffered, State.onDraws_table, ageAll_table, State.onDraws_attention] at offered ⊢
      exact offered
  · have older : ∀ r : Receiver, r.older.age = if r.age < 255 then r.age + 1 else r.age := fun _ => rfl
    rw [secondPasses_rx]
    by_cases ages : s.ages i = true
    · have counts := (ages_iff s i).mp ages
      have age : (if ((s.rx i).state ≠ .free ∧ (s.session (s.rx i).auditorium).state.isRunning = true) ∧ (s.rx i).age < 255
          then (s.rx i).age + 1 else (s.rx i).age) = (s.rx i).older.age := by
        simp only [counts, older, true_and, ne_eq, not_false_eq_true]
      have silent : i ∈ s.silenced ↔ ((s.rx i).state ≠ .free ∧ (s.session (s.rx i).auditorium).state.isRunning = true) ∧
          ((s.rx i).state = .good ∨ (s.rx i).state = .degraded) ∧ s.table.silenceLimit ≠ 0 ∧ s.table.silenceLimit ≤ (s.rx i).older.age := by
        rw [mem_silenced]
        exact ⟨fun ⟨limit, _, hs, old⟩ => ⟨counts, hs, limit, old⟩, fun ⟨_, hs, limit, old⟩ => ⟨limit, ages, hs, old⟩⟩
      dsimp only
      simp only [age, silent, if_pos ages]
      split <;> rfl
    · have counts : ¬ ((s.rx i).state ≠ .free ∧ (s.session (s.rx i).auditorium).state.isRunning = true) := fun h => ages ((ages_iff s i).mpr h)
      simp [mem_silenced, ages, counts]

end Sys2Proof.Machine
end

section
/-! PROOFS. The management port's receiver, counter, attention, link and reading commands, the transport, and LINK-QUERY. -/

namespace Sys2Proof.Machine

variable {s t u : State}

/-- A command write taken answers as the command does. -/
theorem respond_of_write (h : s.takesCommands) {taken : State → State} {r : State}
    (hr : taken (s.onMgmt (fun m => { m with out := [1] })) = r) : s.write taken = .next r := by
  rw [write_taken h, hr]

/-! ### Operand bytes -/

theorem slotOf_none {b : Byte} (h : 6 ≤ b.toNat) : slotOf b = none := dif_neg (Nat.not_lt.mpr h)
theorem audOf_none {b : Byte} (h : 16 ≤ b.toNat) : audOf b = none := dif_neg (Nat.not_lt.mpr h)
theorem portOf_none {b : Byte} (h : 4 ≤ b.toNat) : portOf b = none := dif_neg (Nat.not_lt.mpr h)

theorem flagOf_bool (v : Bool) : flagOf (if v then 1 else 0) = some v := by cases v <;> rfl

theorem flagOf_none {b : Byte} (h : 2 ≤ b.toNat) : flagOf b = none := by
  unfold flagOf
  split
  · omega
  · omega
  · rfl

theorem sourceOf_aud (a : Aud) : sourceOf (BitVec.ofNat 8 a.val) = some (.aud a) := by revert a; decide
theorem sourceOf_link (p : Port) : sourceOf (BitVec.ofNat 8 (16 + p.val)) = some (.link p) := by revert p; decide

theorem sourceOf_none {b : Byte} (h : 20 < b.toNat) : sourceOf b = none := by
  unfold sourceOf
  rw [dif_neg (by omega), dif_neg (by omega), if_neg (by omega)]

theorem toNat_eq_zero (b : Byte) : b.toNat = 0 ↔ b = 0 := by rw [← BitVec.toNat_inj]; rfl

/-- The kinds that lie in a class with the lowest `n` bits. -/
theorem within_audKinds (ks : Byte) : ks &&& ~~~audKinds = 0 ↔ ks.toNat ≤ 127 := by revert ks; decide
theorem within_linkKinds (ks : Byte) : ks &&& ~~~linkKinds = 0 ↔ ks.toNat ≤ 7 := by revert ks; decide
theorem within_tableKinds (ks : Byte) : ks &&& ~~~tableKinds = 0 ↔ ks.toNat ≤ 3 := by revert ks; decide

/-! ### Receivers (R149, R150, R155, R159) -/

theorem freeEntry_iff (s : State) (i : RxIndex) : s.freeEntry = some i ↔ (s.rx i).state = .free ∧ ∀ j, j < i → (s.rx j).state ≠ .free := by
  rw [State.freeEntry, rxIndexes, find_finRange]
  simp

theorem freeEntry_none (h : ∀ j, (s.rx j).state ≠ .free) : s.freeEntry = none := by
  rw [State.freeEntry, rxIndexes, find_finRange_none]
  simpa using h

/-- The part as a command write leaves it before the command is taken. -/
def State.told (s : State) : State := s.onMgmt (fun m => { m with out := [1] })

theorem findReceiver_told (s : State) (id : BitVec 32) : s.told.findReceiver id = s.findReceiver id := rfl

theorem onDegraded_onMgmt (s : State) (r : Receiver) (f : Nat → Nat) (g : Mgmt → Mgmt) : (s.onMgmt g).onDegraded r f = (s.onDegraded r f).onMgmt g := by
  have fold : ∀ (ks : List Slot) (u : State),
      ks.foldl (fun t k => t.onStream (streamOf r.auditorium k) (fun st => { st with degraded := f st.degraded })) (u.onMgmt g) =
        (ks.foldl (fun t k => t.onStream (streamOf r.auditorium k) (fun st => { st with degraded := f st.degraded })) u).onMgmt g := by
    intro ks
    induction ks with
    | nil => exact fun _ => rfl
    | cons k ks ih => exact fun u => ih (u.onStream (streamOf r.auditorium k) (fun st => { st with degraded := f st.degraded }))
  exact fold _ s

theorem releaseRx_told (s : State) (j : RxIndex) : s.told.releaseRx j = (s.releaseRx j).told := by
  have rx : s.told.rx j = s.rx j := rfl
  unfold State.releaseRx
  rw [rx]
  dsimp only
  rw [State.told, onDegraded_onMgmt]
  split <;> rfl

theorem releaseRx_eq (s : State) (j : RxIndex) : s.releaseRx j = { s with
    receivers := change s.receivers j (fun _ => {}), table := { s.table with lost := s.table.lost.filter (fun k => !(k == j)) }
    streams := (s.releaseRx j).streams } := by
  unfold State.releaseRx
  dsimp only
  split
  · rw [onDegraded_eq]; rfl
  · rfl

theorem exec_registerReceiver (h : s.takesCommands) (i3 i2 i1 i0 : Byte) (a : Aud) (k : Byte) :
    exec (.registerReceiver [i3, i2, i1, i0, BitVec.ofNat 8 a.val, k]) s = .next
      (let id := BitVec.ofNat 32 (number [i3, i2, i1, i0])
        if id = 0 || k = 0 || decide (63 < k.toNat) then s.respond 12 .refusedRange []
        else if (s.findReceiver id).isSome then s.respond 12 .refusedDuplicate []
        else match s.freeEntry with
        | none => s.respond 12 .refusedFull []
        | some i => (s.onRx i (fun _ => { state := .good, id := id, auditorium := a, slots := k })).respond 12 .done (byte2 i.val)) := by
  rw [exec_registerReceiver_eq, execRegisterReceiver]
  refine respond_of_write h ?_
  have found := findReceiver_told s (BitVec.ofNat 32 (number [i3, i2, i1, i0]))
  have free : s.told.freeEntry = s.freeEntry := rfl
  unfold State.told at found free
  simp only [audOf_ofNat, found, free]
  split
  · rfl
  · split
    · rfl
    · cases s.freeEntry <;> rfl

theorem exec_releaseReceiver (h : s.takesCommands) (i3 i2 i1 i0 : Byte) :
    exec (.releaseReceiver [i3, i2, i1, i0]) s = .next
      (let id := BitVec.ofNat 32 (number [i3, i2, i1, i0])
        if id = 0 then s.respond 13 .refusedRange []
        else match s.findReceiver id with
        | none => s.respond 13 .refusedUnknown []
        | some i => (s.releaseRx i).respond 13 .done []) := by
  rw [exec_releaseReceiver_eq, execReleaseReceiver]
  refine respond_of_write h ?_
  have found := findReceiver_told s (BitVec.ofNat 32 (number [i3, i2, i1, i0]))
  have released := releaseRx_told s
  unfold State.told at found released
  dsimp only
  rw [found]
  split
  · rfl
  · cases s.findReceiver (BitVec.ofNat 32 (number [i3, i2, i1, i0])) with
    | none => rfl
    | some i => dsimp only; rw [released]; rfl

/-- Settles O57: the checks of registration and release in their order, and the policy and lost-list commands by their one test. -/
theorem receiverCommands : Obligations.ReceiverCommands := by
  refine ⟨fun i3 i2 i1 i0 s h => ?_, fun s h => ⟨fun limit => ?_, ?_⟩⟩
  · dsimp only
    have release := exec_releaseReceiver h i3 i2 i1 i0
    generalize hid : BitVec.ofNat 32 (number [i3, i2, i1, i0]) = id at release ⊢
    refine ⟨fun a k => ?_, fun zero => ?_, fun nonzero unknown => ?_, fun nonzero i used same first => ?_⟩
    · have register := exec_registerReceiver h i3 i2 i1 i0 a k
      rw [hid] at register
      dsimp only at register
      refine ⟨fun bad => ?_, fun nonzero slots few => ⟨fun duplicate => ?_, fun fresh => ⟨fun full => ?_, fun i free first => ?_⟩⟩⟩
      · rw [register, if_pos (by simpa [or_assoc] using bad)]
      all_goals
        have ok : ¬ (decide (id = 0) || decide (k = 0) || decide (63 < k.toNat)) = true := by
          simp only [Bool.or_eq_true, decide_eq_true_eq, not_or]
          exact ⟨⟨nonzero, slots⟩, Nat.not_lt.mpr few⟩
        rw [register, if_neg ok]
      · obtain ⟨j, used, same⟩ := duplicate
        rw [if_pos]
        rw [Option.isSome_iff_ne_none]
        intro missing
        rw [State.findReceiver, if_neg nonzero, rxIndexes, find_finRange_none] at missing
        have := missing j
        simp [same] at this
        exact used this
      · rw [if_neg (by rw [findReceiver_none fresh]; decide), freeEntry_none full]
      · rw [if_neg (by rw [findReceiver_none fresh]; decide), (freeEntry_iff s i).mpr ⟨free, first⟩]
        rfl
    · rw [release, if_pos zero]
    · rw [release, if_neg nonzero, findReceiver_none unknown]
    · rw [release, if_neg nonzero, (findReceiver_iff s id i).mpr ⟨nonzero, used, same, first⟩]
      exact ⟨_, rfl, releaseRx_eq s i, releaseRx_stream s i⟩
  · rw [exec_setReceiverPolicy_eq, execSetReceiverPolicy]
    refine respond_of_write h ?_
    have zero := toNat_eq_zero limit
    by_cases ok : limit = 0 ∨ 5 ≤ limit.toNat
    · rw [if_pos ok]
      dsimp only
      rw [if_pos (by simpa [zero] using ok)]
      rfl
    · rw [if_neg ok]
      dsimp only
      rw [if_neg (by simpa [zero] using ok)]
      rfl
  · have taken : exec (.takeLost []) s =
        .next ((s.onTable (fun t => { t with lost := t.lost.tail, overflow := false })).respond 16 .done s.lostBytes) := by
      rw [exec_takeLost_eq, execTakeLost]
      exact respond_of_write h rfl
    refine ⟨s.lostBytes, taken, fun empty => ?_, fun i rest listed => ?_⟩
    · rw [State.lostBytes, empty]
      rfl
    · rw [State.lostBytes, listed]
      simp [byteFlag, byte2, byte1]

end Sys2Proof.Machine
end

section
/-! PROOFS. Counters and attention, the transport, the link settings and the reading commands; the reset state in full. -/

namespace Sys2Proof.Machine

variable {s t u : State}

/-! ### Counters (00_scope, Counters; R167, R168) -/

theorem bumpBy_eq (k n : Nat) (h : n ≤ 65535) : bumpBy k n = min (n + k) 65535 := by
  induction k generalizing n with
  | zero => simp only [bumpBy]; omega
  | succ k ih =>
    have one : bump n = if n < 65535 then n + 1 else n := rfl
    rw [bumpBy, ih (bump n) (by rw [one]; split <;> omega), one]
    split <;> omega

theorem exec_readCounters (h : s.takesCommands) {b : Byte} {x : Source} (hb : sourceOf b = some x) (clear : Bool) :
    exec (.readCounters [b, if clear then 1 else 0]) s = .next ((if clear then s.clearCounters x else s).respond 20 .done (s.counterBytes x)) := by
  rw [exec_readCounters_eq, execReadCounters]
  refine respond_of_write h ?_
  simp only [hb, flagOf_bool]
  cases clear <;> cases x <;> rfl

theorem exec_readCounters_refused (h : s.takesCommands) {b v : Byte} (bad : 20 < b.toNat ∨ 1 < v.toNat) :
    exec (.readCounters [b, v]) s = .next (s.respond 20 .refusedRange []) := by
  rw [exec_readCounters_eq, execReadCounters]
  refine respond_of_write h ?_
  rcases bad with bad | bad
  · simp only [sourceOf_none bad]; rfl
  · simp only [flagOf_none bad]
    cases sourceOf b <;> rfl

/-! ### Acknowledging and enabling (R171, R173) -/

theorem exec_ackAttention (h : s.takesCommands) {b : Byte} {x : Source} (hb : sourceOf b = some x) {ks : Byte} (hk : ks &&& ~~~x.kinds = 0) :
    exec (.ackAttention [b, ks]) s = .next
      ((s.onAttention (fun y => y.onRecord x (·.acknowledge ks))).respond 22 .done
        (((s.attention.onRecord x (·.acknowledge ks)).record x).bytes)) := by
  rw [exec_ackAttention_eq, execAckAttention]
  refine respond_of_write h ?_
  simp only [hb, hk, if_true]
  rfl

theorem exec_ackAttention_refused (h : s.takesCommands) {b ks : Byte} (hb : ∀ x, sourceOf b = some x → ks &&& ~~~x.kinds ≠ 0) :
    exec (.ackAttention [b, ks]) s = .next (s.respond 22 .refusedRange []) := by
  rw [exec_ackAttention_eq, execAckAttention]
  refine respond_of_write h ?_
  cases hx : sourceOf b with
  | none => simp only [hx]; rfl
  | some x => simp only [hx, if_neg (hb x hx)]; rfl

/-- A source byte within its class's numbers. -/
theorem sourceOf_some {b : Byte} {x : Source} (h : sourceOf b = some x) :
    match x with
    | .aud _ => b.toNat < 16
    | .link _ => 16 ≤ b.toNat ∧ b.toNat < 20
    | .table => b.toNat = 20 := by
  unfold sourceOf at h
  split at h
  · cases h; assumption
  · split at h
    · cases h; simp only; omega
    · split at h
      · cases h; assumption
      · cases h

/-- Which kind set each class takes. -/
theorem enable_eq (x : Attention) (c ks : Byte) : x.enable c.toNat ks =
    if c = 0 ∧ ks.toNat ≤ 127 then some { x with audEnable := ks }
    else if c = 1 ∧ ks.toNat ≤ 7 then some { x with linkEnable := ks }
    else if c = 2 ∧ ks.toNat ≤ 3 then some { x with tableEnable := ks }
    else none := by
  simp only [← within_audKinds, ← within_linkKinds, ← within_tableKinds]
  by_cases h0 : c = 0
  · subst h0; simp [Attention.enable]
  by_cases h1 : c = 1
  · subst h1; simp [Attention.enable]
  by_cases h2 : c = 2
  · subst h2; simp [Attention.enable]
  have other : x.enable c.toNat ks = none := by
    unfold Attention.enable
    split
    · next e => exact absurd (BitVec.eq_of_toNat_eq e) h0
    · next e => exact absurd (BitVec.eq_of_toNat_eq e) h1
    · next e => exact absurd (BitVec.eq_of_toNat_eq e) h2
    · rfl
  rw [other, if_neg (fun e => h0 e.1), if_neg (fun e => h1 e.1), if_neg (fun e => h2 e.1)]

theorem exec_setAttentionEnable (h : s.takesCommands) (c ks : Byte) : exec (.setAttentionEnable [c, ks]) s = .next
    (if c = 0 ∧ ks.toNat ≤ 127 then State.respond { s with attention := { s.attention with audEnable := ks } } 23 .done []
    else if c = 1 ∧ ks.toNat ≤ 7 then State.respond { s with attention := { s.attention with linkEnable := ks } } 23 .done []
    else if c = 2 ∧ ks.toNat ≤ 3 then State.respond { s with attention := { s.attention with tableEnable := ks } } 23 .done []
    else s.respond 23 .refusedRange []) := by
  rw [exec_setAttentionEnable_eq, execSetAttentionEnable]
  refine respond_of_write h ?_
  simp only [enable_eq]
  split_ifs <;> rfl

/-- Settles O59: counters stop at their maximum; each command of counters and attention by its source byte. -/
theorem countersAndAttention : Obligations.CountersAndAttention := by
  refine ⟨fun k n => ⟨rfl, bumpBy_eq k n⟩, fun s h => ⟨fun b v bad => exec_readCounters_refused h bad, fun clear => ⟨fun a => ?_, fun p => ?_, ?_⟩⟩,
    fun ks s h => ⟨fun b bad => ?_, fun a few => ?_, fun p few => ?_, fun few => ?_, fun c => ?_⟩⟩
  · rw [exec_readCounters h (sourceOf_aud a)]
    simp [State.clearCounters, State.counterBytes, AudCounters.bytes]
  · rw [exec_readCounters h (sourceOf_link p)]
    simp [State.clearCounters, State.counterBytes, LinkCounters.bytes]
  · exact exec_readCounters h (x := .table) rfl clear
  · refine exec_ackAttention_refused h fun x hx => ?_
    have range := sourceOf_some hx
    cases x with
    | aud a => exact fun e => absurd ((within_audKinds ks).mp e) (by simp only at range; omega)
    | link p => exact fun e => absurd ((within_linkKinds ks).mp e) (by simp only at range; omega)
    | table => exact fun e => absurd ((within_tableKinds ks).mp e) (by simp only at range; omega)
  · rw [exec_ackAttention h (sourceOf_aud a) ((within_audKinds ks).mpr few)]
    simp [Attention.onRecord, Attention.record, AttnRecord.bytes, AttnRecord.acknowledge, byte1]
    rfl
  · rw [exec_ackAttention h (sourceOf_link p) ((within_linkKinds ks).mpr few)]
    simp [Attention.onRecord, Attention.record, AttnRecord.bytes, AttnRecord.acknowledge, byte1]
    rfl
  · rw [exec_ackAttention h (x := .table) rfl ((within_tableKinds ks).mpr few)]
    rfl
  · exact exec_setAttentionEnable h c ks

/-! ### Raising a kind (R170) and the ATTENTION line (R171) -/

theorem bit_twoPow (k : Fin 8) : (BitVec.ofNat 8 (2 ^ k.val) : Byte) = BitVec.twoPow 8 k.val := by
  revert k; decide

theorem raise_fresh {x : Byte} {n : Nat} {k : Fin 8} (h : x.getLsbD k.val = false) :
    AttnRecord.raise ⟨x, n⟩ (BitVec.ofNat 8 (2 ^ k.val)) = ⟨x ||| BitVec.ofNat 8 (2 ^ k.val), n⟩ := by
  rw [AttnRecord.raise, if_pos]
  rw [bit_twoPow, BitVec.and_twoPow, h]
  rfl

theorem raise_again {x : Byte} {n : Nat} {k : Fin 8} (h : x.getLsbD k.val = true) :
    AttnRecord.raise ⟨x, n⟩ (BitVec.ofNat 8 (2 ^ k.val)) = ⟨x, if n < 255 then n + 1 else n⟩ := by
  have nonzero : ∀ k : Fin 8, BitVec.twoPow 8 k.val ≠ (0 : Byte) := by decide
  rw [AttnRecord.raise, if_neg]
  · rfl
  · rw [bit_twoPow, BitVec.and_twoPow, h]
    exact nonzero k

/-- A kind raised leaves the other bits. -/
theorem or_bit_getLsbD (x : Byte) {j k : Fin 8} (h : j ≠ k) : (x ||| BitVec.ofNat 8 (2 ^ j.val)).getLsbD k.val = x.getLsbD k.val := by
  have ne : j.val ≠ k.val := fun e => h (Fin.ext e)
  rw [bit_twoPow, BitVec.getLsbD_or, BitVec.getLsbD_twoPow]
  simp [ne]

/-- Settles O60: a raise looks at its own bit alone, and the line at every record. -/
theorem raisingAndTheLine : Obligations.RaisingAndTheLine := by
  refine ⟨⟨rfl, rfl, rfl⟩, fun r j k => ⟨raise_fresh, raise_again, fun ne => ?_⟩, fun s => ?_⟩
  · obtain ⟨x, n⟩ := r
    have hjk := or_bit_getLsbD x ne
    have hkj := or_bit_getLsbD x (Ne.symm ne)
    cases hj : x.getLsbD j.val <;> cases hk : x.getLsbD k.val <;> rw [hk] at hjk <;> rw [hj] at hkj
    · rw [raise_fresh hj, raise_fresh hk, raise_fresh hjk, raise_fresh hkj, BitVec.or_assoc, BitVec.or_assoc, BitVec.or_comm (BitVec.ofNat 8 _)]
    · rw [raise_fresh hj, raise_again hk, raise_again hjk, raise_fresh hj]
    · rw [raise_again hj, raise_fresh hk, raise_fresh hk, raise_again hkj]
    · rw [raise_again hj, raise_again hk, raise_again hk, raise_again hj]
  · simp [State.attentionLine, auds, ports, or_assoc]

/-! ### LINK-QUERY (R146) -/

/-- Settles O44: the answer's data are 23 bytes, and a malformed transaction is counted, raised and answered. -/
theorem linkQueryAndMalformed : Obligations.LinkQueryAndMalformed := by
  intro p code args s
  refine ⟨?_, rfl⟩
  rw [exec_linkQuery_eq, execLinkQuery]
  simp [State.linkRecord, LinkCounters.bytes, byteFlag, byte1, byte2, answerData, State.answer]
  rfl

end Sys2Proof.Machine
end

section
/-! PROOFS. The management transport, the link settings and the reading commands (chapters 9 and 10). -/

namespace Sys2Proof.Machine

variable {s t u : State}

/-! ### The transport (R162 to R164, R174) -/

/-- A command write in WORKING is answered BUSY. -/
theorem write_busy {w : Work} (h : s.mgmt.transport = .working w) (taken : State → State) :
    s.write taken = .next { s with mgmt := { s.mgmt with out := [2] } } := by
  simp only [State.write, h, State.onMgmt]

/-- Every command in the table of 10.6 is a command write. -/
theorem exec_command (i : Instr) {f : Byte × Nat × List Byte} (h : commandForm i = some f) : ∃ taken, exec i s = s.write taken := by
  cases i <;> cases h <;> dsimp only [exec] <;> exact ⟨_, rfl⟩

/-- The checks of form (R163, R174): a command with its arguments' length wrong, or with a byte that names nothing, is refused before any
other check. -/
theorem exec_illFormed (h : s.takesCommands) (i : Instr) {code : Byte} {length : Nat} {args : List Byte}
    (form : commandForm i = some (code, length, args))
    (bad : args.length ≠ length ∨ (∃ n, choicesOf i = some n ∧ n ≤ (args.headD 0).toNat) ∨ namesNothing i = true) :
    exec i s = .next (s.respond code .refusedRange []) := by
  cases i
  case configureAuditorium | arm | disarm | setCuePort | resetCuePort | readAuditorium =>
    cases form
    dsimp only [exec]
    refine respond_of_write h ?_
    split
    · simp [choicesOf, namesNothing] at bad
      simp only [audOf_none bad]; rfl
    · rfl
  case setFilter | setLink | resetLinkPort | readLink =>
    cases form
    dsimp only [exec]
    refine respond_of_write h ?_
    split
    · simp [choicesOf, namesNothing] at bad
      simp only [portOf_none bad]; rfl
    · rfl
  case openStream | closeStream | readStream =>
    cases form
    dsimp only [exec]
    refine respond_of_write h ?_
    split
    · simp [choicesOf, namesNothing] at bad
      rcases bad with bad | bad
      · simp only [audOf_none bad]; rfl
      · simp only [slotOf_none bad]
        cases audOf _ <;> rfl
    · rfl
  case setGate =>
    cases form
    dsimp only [exec]
    refine respond_of_write h ?_
    split
    · simp [choicesOf, namesNothing] at bad
      rcases bad with bad | bad
      · simp only [audOf_none bad]; rfl
      · simp only [flagOf_none bad]
        cases audOf _ <;> rfl
    · rfl
  case registerReceiver =>
    cases form
    dsimp only [exec]
    refine respond_of_write h ?_
    split
    · simp [choicesOf, namesNothing] at bad
      simp only [audOf_none bad]; rfl
    · rfl
  case releaseReceiver | readReceiver | setReceiverPolicy | takeLost | readCounters | readAttention | ackAttention | setAttentionEnable =>
    cases form
    dsimp only [exec]
    refine respond_of_write h ?_
    split
    · simp [choicesOf, namesNothing] at bad
    · rfl
  all_goals exact absurd form (by simp [commandForm])

/-- Settles O51: FETCH by the transport's state, a command write in WORKING, an unknown code, the checks of form. -/
theorem managementTransport : Obligations.ManagementTransport := by
  refine ⟨rfl, fun s => ?_, fun s => ⟨fun w h => ⟨fun i f form => ?_, fun code args => by rw [exec_unknownCommand_eq]; exact write_busy h _⟩, fun h => ⟨fun code args => ?_, fun i code length args => exec_illFormed h i⟩⟩⟩
  · rw [exec_fetch_eq, execFetch]
    cases e : s.mgmt.transport with
    | idle => rfl
    | working w => cases w <;> rfl
    | held r => rfl
  · obtain ⟨taken, eq⟩ := exec_command (s := s) i form
    rw [eq, write_busy h]
  · rw [exec_unknownCommand_eq]
    exact respond_of_write h rfl

/-! ### The link settings (R130, R141) -/

theorem exec_setFilter (h : s.takesCommands) (p : Port) (k a1 a0 kinds any l1 l0 : Byte) :
    exec (.setFilter [BitVec.ofNat 8 p.val, k, a1, a0, kinds, any, l1, l0]) s = .next
      (if h : k.toNat < 4 ∧ kinds.toNat ≤ 3 ∧ any.toNat ≤ 1 then
        (s.onLink p (fun l => { l with filters := change l.filters ⟨k.toNat, h.1⟩ (fun _ => {
          auditoriums := BitVec.ofNat 16 (number [a1, a0]), kinds := kinds
          language := if any = 1 then none else some (BitVec.ofNat 16 (number [l1, l0])) }) })).respond 9 .done []
      else s.respond 9 .refusedRange []) := by
  rw [exec_setFilter_eq, execSetFilter]
  refine respond_of_write h ?_
  simp only [portOf_ofNat]
  by_cases hk : k.toNat < 4
  · have ek : portOf k = some ⟨k.toNat, hk⟩ := dif_pos hk
    by_cases ha : any.toNat ≤ 1
    · have yes : any = if decide (any = 1) then 1 else 0 := by
        by_cases e : any = 1
        · rw [e]; rfl
        · have : any.toNat ≠ 1 := fun x => e (BitVec.eq_of_toNat_eq x)
          rw [decide_eq_false e]
          exact (toNat_eq_zero any).mp (by omega)
      have ea : flagOf any = some (decide (any = 1)) := by
        rw [yes, flagOf_bool, ← yes]
      by_cases hs : kinds.toNat ≤ 3
      · rw [dif_pos ⟨hk, hs, ha⟩]
        simp only [ek, ea, if_neg (Nat.not_lt.mpr hs), decide_eq_true_eq]
        rfl
      · rw [dif_neg (fun e => hs e.2.1)]
        simp only [ek, ea, if_pos (Nat.not_le.mp hs)]
        rfl
    · rw [dif_neg (fun e => ha e.2.2)]
      simp only [ek, flagOf_none (Nat.not_le.mp ha)]
      rfl
  · rw [dif_neg (fun e => hk e.1)]
    simp only [portOf_none (Nat.not_lt.mp hk)]
    rfl

theorem exec_setLink (h : s.takesCommands) (p : Port) (p1 p0 l1 l0 : Byte) :
    exec (.setLink [BitVec.ofNat 8 p.val, p1, p0, l1, l0]) s = .next
      (if 12 ≤ number [p1, p0] ∧ number [p1, p0] ≤ 1200 ∧ (number [l1, l0] = 0 ∨ 12 ≤ number [l1, l0] ∧ number [l1, l0] ≤ 1200) then
        (s.onLink p (fun l => l.configure s.now (number [p1, p0]) (number [l1, l0]))).respond 10 .done []
      else s.respond 10 .refusedRange []) := by
  rw [exec_setLink_eq, execSetLink]
  refine respond_of_write h ?_
  simp only [portOf_ofNat]
  by_cases ok : 12 ≤ number [p1, p0] ∧ number [p1, p0] ≤ 1200 ∧ (number [l1, l0] = 0 ∨ 12 ≤ number [l1, l0] ∧ number [l1, l0] ≤ 1200)
  · rw [if_pos ok, if_neg]
    · rfl
    · simp; omega
  · rw [if_neg ok, if_pos]
    · rfl
    · simp; omega

/-- Settles O56: SET-FILTER by the ranges of its bytes, SET-LINK by the ranges of its two numbers and the port's state. -/
theorem linkSettings : Obligations.LinkSettings := by
  refine fun p s h => ⟨fun k a1 a0 kinds any l1 l0 => exec_setFilter h p k a1 a0 kinds any l1 l0, fun p1 p0 l1 l0 => ?_⟩
  dsimp only
  rw [exec_setLink h]
  have configured : ∀ l : LinkPort, l.configure s.now (number [p1, p0]) (number [l1, l0]) = { l with
      beaconPeriod := number [p1, p0], silenceLimit := number [l1, l0]
      beaconDue := if l.state = .serving then some (s.now + number [p1, p0] * 12288) else l.beaconDue
      silenceStart := if l.state = .serving then (if number [l1, l0] = 0 then none else some s.now) else l.silenceStart } := by
    intro l
    by_cases e : l.state = .serving <;> simp [LinkPort.configure, e, Config.tick]
  simp only [configured]

/-! ### The reading commands (R102, R146, R160, R166, R172) -/

theorem indexOf_val (i : RxIndex) : indexOf i.val = some i := dif_pos i.isLt
theorem indexOf_none {n : Nat} (h : 1024 ≤ n) : indexOf n = none := dif_neg (Nat.not_lt.mpr h)

theorem exec_readReceiver (h : s.takesCommands) {i1 i0 : Byte} {i : RxIndex} (e : i.val = number [i1, i0]) :
    exec (.readReceiver [i1, i0]) s = .next (s.respond 14 .done (s.rx i).bytes) := by
  rw [exec_readReceiver_eq, execReadReceiver]
  refine respond_of_write h ?_
  simp only [← e, indexOf_val]
  rfl

theorem exec_readReceiver_refused (h : s.takesCommands) {i1 i0 : Byte} (e : 1024 ≤ number [i1, i0]) :
    exec (.readReceiver [i1, i0]) s = .next (s.respond 14 .refusedRange []) := by
  rw [exec_readReceiver_eq, execReadReceiver]
  refine respond_of_write h ?_
  simp only [indexOf_none e]
  rfl

theorem exec_readAuditorium (h : s.takesCommands) (a : Aud) :
    exec (.readAuditorium [BitVec.ofNat 8 a.val]) s = .next (s.respond 17 .done (s.audBytes a)) := by
  rw [exec_readAuditorium_eq, execReadAuditorium]
  refine respond_of_write h ?_
  simp only [audOf_ofNat]
  rfl

theorem exec_readStream (h : s.takesCommands) (a : Aud) (k : Slot) :
    exec (.readStream [BitVec.ofNat 8 a.val, BitVec.ofNat 8 k.val]) s = .next (s.respond 18 .done (s.stream (streamOf a k)).bytes) := by
  rw [exec_readStream_eq, execReadStream]
  refine respond_of_write h ?_
  simp only [audOf_ofNat, slotOf_ofNat]
  rfl

theorem exec_readLink (h : s.takesCommands) (p : Port) :
    exec (.readLink [BitVec.ofNat 8 p.val]) s = .next (State.respond { s with draws := s.draws + 11 } 19 .done ((s.link p).bytes s.draws)) := by
  rw [exec_readLink_eq, execReadLink]
  refine respond_of_write h ?_
  simp only [portOf_ofNat]
  rfl

theorem exec_readAttention (h : s.takesCommands) :
    exec (.readAttention []) s = .next (s.respond 21 .done s.attention.bytes) := by
  rw [exec_readAttention_eq, execReadAttention]
  exact respond_of_write h rfl

/-- Settles O58: each response's bytes are the fields in their order. -/
theorem readingCommands : Obligations.ReadingCommands := by
  refine ⟨fun x => by cases x <;> rfl, rfl, rfl, fun b => rfl, rfl, fun s h => ⟨fun i1 i0 => ⟨exec_readReceiver_refused h, fun i e => ?_⟩,
    fun a => ?_, fun a k => ?_, fun p => ?_, ?_⟩⟩
  · rw [exec_readReceiver h e]
    simp [Receiver.bytes, byte1, byte4]
  · rw [exec_readAuditorium h]
    have rate : rateCode (s.clock a).rate = match (s.clock a).rate with | some r => r.fps | none => 0 := by cases (s.clock a).rate <;> rfl
    have purge : (if (s.store a).purge.isSome = true then 1#8 else 0#8) = if (s.store a).purge = none then 0#8 else 1#8 := by cases (s.store a).purge <;> rfl
    simp [State.audBytes, byte1, byteFlag, rate, purge, State.position, Clock.position, Config.maxPosition] <;> rfl
  · rw [exec_readStream h]
    have kind : byte1 (s.stream (streamOf a k)).kind.code = [if (s.stream (streamOf a k)).kind = .caption then 1 else 2] := by
      cases (s.stream (streamOf a k)).kind <;> rfl
    simp [Stream.bytes, byteFlag, kind]
  · refine ⟨fun b => Config.freeByte (s.draws + b.val), fun f => Config.freeByte (s.draws + 3 + 2 * f.val),
      fun f => Config.freeByte (s.draws + 4 + 2 * f.val), ?_⟩
    rw [exec_readLink h, LinkPort.bytes]
    simp only [byte1, byteFlag, List.append_assoc, List.cons_append, List.nil_append, bufNos, ports]
    congr! 8 with b
    · cases pick (s.link p).buffers b with
      | empty => rfl
      | filling f ends => cases f <;> rfl
      | ready f => cases f <;> rfl
      | sending f => cases f <;> rfl
    · cases (s.link p).exchange <;> rfl
    · congr! 6
      funext f
      unfold Filter.bytes
      cases (pick (s.link p).filters f).language <;> simp [byteFlag]
  · rw [exec_readAttention h]
    simp [Attention.bytes, AttnRecord.bytes, byte1, auds, ports]

/-! ### Edges on the receive line (R45, R46, R49) -/

/-- Settles O21: an edge by what the receiver is doing. -/
theorem lineEdges : Obligations.LineEdges := by
  intro a breakBegins s
  rw [exec_candidateStartBit_eq, execCandidateStartBit, exec_lineReturnsHigh_eq, execLineReturnsHigh, State.waitsHigh]
  cases (s.cuePort a).receiver with
  | waitHigh k => cases k <;> refine ⟨rfl, ?_⟩ <;> simp [State.onPort, State.setRxPin, State.startGapTimer, change_change, CuePort.gapLength]
  | idle => cases breakBegins <;> refine ⟨?_, rfl⟩ <;> simp [State.onPort, State.setRxPin, State.stopGapTimer, change_change, CuePort.latchLine]
  | receiving => cases breakBegins <;> refine ⟨?_, rfl⟩ <;> simp [State.onPort, State.setRxPin, State.stopGapTimer, change_change, CuePort.latchLine]

/-! ### The probe ring (R143) -/

theorem nextPtr_val (i : Fin 4) : (nextPtr i).val = (i.val + 1) % 4 := by revert i; decide

/-- Settles O47: in ALIGNING each pointer moves by its own command, and elsewhere only the answer is given. -/
theorem probeRing : Obligations.ProbeRing := by
  intro p bytes s
  rw [exec_probeWrite_eq, execProbeWrite, exec_probeRead_eq, execProbeRead]
  refine ⟨fun h => by rw [if_neg h]; rfl, fun h => ⟨fun full => ?_, ?_⟩, fun h => ⟨fun full => ?_, ?_⟩⟩
  · rw [if_pos full, if_pos (by simp [h])]
    refine ⟨_, rfl, rfl, fun q ne => ?_, ?_, fun k => ?_, ?_, ?_, ?_⟩
    · simp [State.answer, ne.symm]
    · simp [State.answer, answerTaken]
    · simp [State.answer, Probe.write, pick_change, eq_comm]
    · simp [State.answer, Probe.write, nextPtr_val]
    · simp [State.answer, Probe.write]
    · simp [State.answer, Probe.write]
  · rw [if_pos (by simp [h])]
    have read : ∀ data, (match pick (s.link p).probe.slots (s.link p).probe.readPtr with
          | some x => data = x
          | none => data = (List.range 64).map (fun k => BitVec.ofNat 8 (255 - k))) → data = (s.link p).probe.read := by
      intro data e
      rw [Probe.read]
      cases x : pick (s.link p).probe.slots (s.link p).probe.readPtr <;> simp only [x] at e <;> exact e
    refine ⟨_, rfl, rfl, fun q ne => ?_, fun data e => ?_, ?_, ?_, ?_, ?_⟩
    · simp [State.answer, ne.symm]
    · rw [read data e]
      simp [State.answer]
    · simp [State.answer]
    · simp [State.answer]
    · simp [State.answer, nextPtr_val]
    · simp [State.answer]
  · rw [if_pos full, if_neg (by simp [h])]
    rfl
  · rw [if_neg (by simp [h])]
    rfl

/-! ### The reset state (R3, R24, R44 to R50, R62, R82, R88 to R90, R122, R148, R162, R169) -/

/-- Settles O4: each block's reader at reset. -/
theorem deviceResetState : Obligations.DeviceResetState := by
  intro s
  refine ⟨_, exec_deviceReset s, fun a => ?_, reset_stream, rfl, fun p => ?_, reset_rx, rfl, ?_, ?_, rfl, rfl, rfl⟩
  · have counters : s.afterReset.audCounter a = {} := reset_audCounter a
    have intake : s.afterReset.intake a = {} := reset_intake a
    have store : s.afterReset.store a = {} := reset_store a
    refine ⟨reset_clock a, reset_showRun a, reset_session a, by rw [counters]; rfl, ?_⟩
    simp [intake, store]
  · have link : s.afterReset.link p = {} := reset_link p
    have counters : s.afterReset.linkCounter p = {} := reset_linkCounter p
    rw [link, counters]
    simp [pick] <;> rfl
  · have zeros : Attention.bytes {} = List.replicate 45 0 := by decide
    exact zeros
  · simp [State.attentionLine, State.afterReset, State.reset, pick]

end Sys2Proof.Machine
end

section
/-! PROOFS. The commands that name an instant of the time base: which of them the idle part hands itself, and when each instant has come. -/

namespace Sys2Proof.Machine

variable {s t u : State}

/-! ### The instants that have come -/

theorem reached_iff (s : State) (d : Nat) : s.reached d = true ↔ d ≤ s.now := decide_eq_true_iff

theorem mem_ready {due : Bool} {c i : Instr} : i ∈ ready due c ↔ due = true ∧ i = c := by
  cases due <;> simp [ready]

theorem ready_sublist (due : Bool) (c : Instr) : (ready due c).Sublist [c] := by
  cases due <;> simp [ready]

/-- The time-driven commands of an auditorium, and of a link port. -/
def audTimed (a : Aud) : List Instr :=
  [.subStep a, .strobeLoss a, .syntheticStrobe a, .staleEvent a, .gap a, .assemblerResumes a, .insertionPlaces a, .cellFreed a, .purgeStep a,
    .replySent a]

def portTimed (p : Port) : List Instr := [.fillEnds p, .silenceTimerExpires p, .beaconTimerExpires p]

theorem audEvents_sublist (s : State) (a : Aud) : (s.audEvents a).Sublist (audTimed a) :=
  ((((((((((ready_sublist _ _).append (ready_sublist _ _)).append (ready_sublist _ _)).append (ready_sublist _ _)).append
    (ready_sublist _ _)).append (ready_sublist _ _)).append (ready_sublist _ _)).append (ready_sublist _ _)).append
    (ready_sublist _ _)).append (ready_sublist _ _))

theorem portEvents_sublist (s : State) (p : Port) : (s.portEvents p).Sublist (portTimed p) :=
  ((ready_sublist _ _).append (ready_sublist _ _)).append (ready_sublist _ _)

theorem audTimed_nodup (a : Aud) : (audTimed a).Nodup := by simp [audTimed]
theorem portTimed_nodup (p : Port) : (portTimed p).Nodup := by simp [portTimed]

/-- No command is of two auditoriums, of two ports, or of both. -/
theorem audTimed_disjoint {a b : Aud} (h : a ≠ b) : (audTimed a).Disjoint (audTimed b) := by
  simp [List.Disjoint, audTimed, h]

theorem portTimed_disjoint {p q : Port} (h : p ≠ q) : (portTimed p).Disjoint (portTimed q) := by
  simp [List.Disjoint, portTimed, h]

theorem audTimed_portTimed (a : Aud) (p : Port) : (audTimed a).Disjoint (portTimed p) := by
  simp [List.Disjoint, audTimed, portTimed]

theorem readyEvents_nodup (s : State) : s.readyEvents.Nodup := by
  have auds_ : (auds.flatMap s.audEvents).Nodup := by
    rw [List.nodup_flatMap]
    refine ⟨fun a _ => (audTimed_nodup a).sublist (audEvents_sublist s a), (List.nodup_finRange 16).imp fun h => ?_⟩
    exact List.disjoint_of_subset_left (audEvents_sublist s _).subset (List.disjoint_of_subset_right (audEvents_sublist s _).subset (audTimed_disjoint h))
  have ports_ : (ports.flatMap s.portEvents).Nodup := by
    rw [List.nodup_flatMap]
    refine ⟨fun p _ => (portTimed_nodup p).sublist (portEvents_sublist s p), (List.nodup_finRange 4).imp fun h => ?_⟩
    exact List.disjoint_of_subset_left (portEvents_sublist s _).subset (List.disjoint_of_subset_right (portEvents_sublist s _).subset (portTimed_disjoint h))
  have apart : (auds.flatMap s.audEvents).Disjoint (ports.flatMap s.portEvents) := by
    intro i ha hp
    obtain ⟨a, -, ha⟩ := List.mem_flatMap.mp ha
    obtain ⟨p, -, hp⟩ := List.mem_flatMap.mp hp
    exact audTimed_portTimed a p ((audEvents_sublist s a).subset ha) ((portEvents_sublist s p).subset hp)
  refine List.Nodup.append (List.Nodup.append auds_ ports_ apart) ((List.nodup_singleton _).sublist (ready_sublist _ _)) ?_
  intro i h second
  obtain ⟨-, rfl⟩ := mem_ready.mp second
  rcases List.mem_append.mp h with h | h
  · obtain ⟨a, -, h⟩ := List.mem_flatMap.mp h
    have := (audEvents_sublist s a).subset h
    simp [audTimed] at this
  · obtain ⟨p, -, h⟩ := List.mem_flatMap.mp h
    have := (portEvents_sublist s p).subset h
    simp [portTimed] at this

/-- The part hands itself the commands whose test says that the instant has come. -/
theorem mem_readyEvents (s : State) (i : Instr) : i ∈ s.readyEvents ↔ s.dueTest i = some true := by
  simp only [State.readyEvents, State.audEvents, State.portEvents, List.mem_append, List.mem_flatMap, mem_ready, auds, ports, List.mem_finRange,
    true_and]
  cases i <;> simp [State.dueTest]

/-- An idle step with nothing due counts one base count, else it hands over what is due. -/
theorem step_idle (h : s.pending = []) :
    (s.readyEvents = [] ∧ step s = .next { s with now := s.now + 1 }) ∨
      ∃ l k, l.Perm s.readyEvents ∧ l ≠ [] ∧ step s = .next { s with pending := l, draws := s.draws + k } := by
  unfold step
  simp only [h, State.idle]
  by_cases none_ : s.readyEvents = []
  · exact .inl ⟨none_, by rw [none_]; rfl⟩
  · have perm := anyOrder_perm s.readyEvents s.draws
    refine .inr ⟨_, drawsOf s.readyEvents, perm, fun e => none_ (List.nil_perm.mp (e ▸ perm)), ?_⟩
    rw [if_neg (by simpa using none_)]

/-- A command whose instant has not come changes nothing. -/
theorem exec_notDue (i : Instr) (h : s.dueTest i = some false) : exec i s = .next s := by
  cases i <;> simp only [State.dueTest, Option.some.injEq, reduceCtorEq, Option.isSome_eq_false_iff, Option.isNone_iff_eq_none] at h
  case subStep a => rw [exec_subStep_eq, execSubStep, h]; rfl
  case strobeLoss a => rw [exec_strobeLoss_eq, execStrobeLoss, h]; rfl
  case syntheticStrobe a => rw [exec_syntheticStrobe_eq, execSyntheticStrobe, h]; rfl
  case staleEvent a => rw [exec_staleEvent_eq, execStaleEvent, h]; rfl
  case gap a => rw [exec_gap_eq, execGap, h]; rfl
  case assemblerResumes a => rw [exec_assemblerResumes_eq, execAssemblerResumes, h]; rfl
  case insertionPlaces a => rw [exec_insertionPlaces_eq, execInsertionPlaces, h]
  case cellFreed a => rw [exec_cellFreed_eq, execCellFreed, h]; rfl
  case purgeStep a => rw [exec_purgeStep_eq, execPurgeStep, h]
  case replySent a => rw [exec_replySent_eq, execReplySent, h]; rfl
  case fillEnds p => rw [exec_fillEnds_eq, execFillEnds, h]
  case silenceTimerExpires p => rw [exec_silenceTimerExpires_eq, execSilenceTimerExpires, h]; rfl
  case beaconTimerExpires p => rw [exec_beaconTimerExpires_eq, execBeaconTimerExpires, h]; rfl
  case secondTimerExpires => rw [exec_secondTimerExpires_eq, execSecondTimerExpires, h]; rfl

/-! ### The tests in the manual's figures -/

/-- `x` has reached the next threshold of `floor (e × t / p)` exactly when `e` has reached the ceiling of `(x + 1) × p / t` (R9). -/
theorem threshold_iff {x e t p : Nat} (hp : 0 < p) (ht : 0 < t) : x < e * t / p ↔ ((x + 1) * p + t - 1) / t ≤ e := by
  have next := Nat.add_one_mul e t
  rw [← Nat.lt_add_one_iff, Nat.div_lt_iff_lt_mul ht, ← Nat.add_one_le_iff, Nat.le_div_iff_mul_le hp]
  omega

theorem subStepDue_iff (s : State) (a : Aud) : s.subStepDue a = true ↔ s.fallsDue (.subStep a) := by
  simp only [State.subStepDue, State.subMoves, Clock.subTarget, Clock.tpf, State.fallsDue, State.elapsed, State.since, Config.maxElapsed,
    Bool.and_eq_true, decide_eq_true_eq, Bool.not_eq_true', lt_min_iff, and_assoc]
  refine and_congr_right fun _ => and_congr_right fun _ => ?_
  cases (s.clock a).rate with
  | none => simp
  | some r =>
    have tpf : 0 < r.tpf := by cases r <;> decide
    by_cases period : 0 < (s.clock a).period
    · rw [threshold_iff period tpf]
      simp only [period, true_and, Option.some.injEq, exists_eq_left']
      omega
    · simp [Nat.eq_zero_of_not_pos period]

theorem staleDue_iff (s : State) (a : Aud) : s.staleDue a = true ↔ s.fallsDue (.staleEvent a) := by
  simp only [State.staleDue, State.fallsDue, State.pauseCount]
  cases (s.showRun a).pauseStart with
  | none => simp
  | some start => simp [Config.tick, Config.maxPause]; tauto

theorem storeWalks_iff (s : State) (a : Aud) : s.storeWalks a = false ↔ (∀ c w, (s.intake a).context ≠ .inserting c w) ∧ (s.store a).purge = none := by
  unfold State.storeWalks
  cases (s.intake a).context <;> simp

theorem resumeDue_iff (s : State) (a : Aud) : s.resumeDue a = true ↔ s.fallsDue (.assemblerResumes a) := by
  simp only [State.resumeDue, State.paused, State.takingWaits, State.fallsDue]
  by_cases walks : s.storeWalks a = true
  · have : ¬ ((∀ c w, (s.intake a).context ≠ .inserting c w) ∧ (s.store a).purge = none) := by rw [← storeWalks_iff, walks]; simp
    simp only [walks, ← and_assoc]
    simp [this]
  · have walks : s.storeWalks a = false := by simpa using walks
    have := (storeWalks_iff s a).mp walks
    simp only [walks, ← and_assoc]
    have still : ∀ c w, (s.intake a).context ≠ .inserting c w := this.1
    simp [this.2, still, and_comm]

/-- The buffer of a fill in progress, the lowest-numbered (R133). -/
theorem fillingBuffer_iff (l : LinkPort) (b : BufNo) : l.fillingBuffer = some b ↔
    (∃ f e, pick l.buffers b = .filling f e) ∧ ∀ c, c < b → ∀ g x, pick l.buffers c ≠ .filling g x := by
  have filling : ∀ x : Buffer, x.isFilling = true ↔ ∃ f e, x = .filling f e := by
    intro x
    cases x <;> simp [Buffer.isFilling]
  rw [LinkPort.fillingBuffer, bufNos, find_finRange, filling]
  refine and_congr_right fun _ => forall₂_congr fun c _ => ?_
  rw [← Bool.not_eq_true, filling]
  push Not
  rfl

theorem fillDue_iff (s : State) (p : Port) : (s.fillDue p).isSome = true ↔ s.fallsDue (.fillEnds p) := by
  simp only [State.fallsDue]
  constructor
  · intro due
    cases e : (s.link p).fillingBuffer with
    | none => simp [State.fillDue, e] at due
    | some b =>
      obtain ⟨⟨f, x, filling⟩, first⟩ := (fillingBuffer_iff _ _).mp e
      simp only [State.fillDue, e, filling] at due
      exact ⟨b, f, x, filling, by simpa [reached_iff] using due, first⟩
  · rintro ⟨b, f, x, filling, reached, first⟩
    have e := (fillingBuffer_iff (s.link p) b).mpr ⟨⟨f, x, filling⟩, first⟩
    simp [State.fillDue, e, filling, reached_iff, reached]

theorem silenceDue_iff (s : State) (p : Port) : s.silenceDue p = true ↔ s.fallsDue (.silenceTimerExpires p) := by
  simp only [State.silenceDue, State.fallsDue]
  cases (s.link p).silenceStart <;> simp [reached_iff, Config.tick, and_assoc]

theorem beaconDue_iff (s : State) (p : Port) : s.beaconDue p = true ↔ s.fallsDue (.beaconTimerExpires p) := by
  simp only [State.beaconDue, State.fallsDue]
  cases (s.link p).beaconDue <;> simp [reached_iff]

theorem gapDue_iff (s : State) (a : Aud) : s.gapDue a = true ↔ s.fallsDue (.gap a) := by
  simp only [State.gapDue, State.fallsDue]
  cases (s.cuePort a).gapTimer <;> simp [reached_iff]

theorem charTime_eq (d : Nat) (p : Parity) : charTime d p = (if p = .none then 10 else 11) * 16 * d := by
  cases p <;> simp [charTime]

theorem replyDue_iff (s : State) (a : Aud) : s.replyDue a = true ↔ s.fallsDue (.replySent a) := by
  simp only [State.replyDue, State.fallsDue]
  cases (s.cuePort a).transmission <;> simp [reached_iff, Transmission.ends, charTime_eq]

theorem stepDue_iff (s : State) (a : Aud) : (s.stepDue a).isSome = true ↔ s.fallsDue (.purgeStep a) := by
  simp only [State.stepDue, State.fallsDue]
  cases (s.store a).purge with
  | none => simp
  | some p =>
    simp only [Option.some.injEq, exists_and_left, exists_eq_left', exists_and_right]
    cases p.current <;> simp [reached_iff, Config.walkStep]

/-! ### The insertion's walk (R75, R76) -/

/-- The next cue of a walk is the first still in the queue. -/
theorem walk_placed_iff (w : Walk) (now : Nat) : w.placed now = true ↔ w.current = none ∧ w.stepStart + 200 ≤ now := by
  simp only [Walk.placed, Bool.and_eq_true, Option.isNone_iff_eq_none, decide_eq_true_iff]
  rfl

theorem nextInQueue_eq (q : List Cue) (l : List Seq) : match nextInQueue q l with
    | none => l.filter (fun y => (Machine.findCue y q).isSome) = []
    | some (y, rest) => l.filter (fun y => (Machine.findCue y q).isSome) = y :: rest.filter (fun y => (Machine.findCue y q).isSome) ∧
        rest.length < l.length := by
  induction l with
  | nil => rfl
  | cons x l ih =>
    rw [nextInQueue]
    by_cases here : (Machine.findCue x q).isSome = true
    · simp [here]
    · rw [if_neg here, List.filter_cons_of_neg (by simpa using here)]
      split at ih <;> simp_all
      omega

/-- The cue at a place of the walk stops it: it starts at or before the new cue. -/
def stopsWalk (start : Nat) (q : List Cue) (y : Seq) : Bool := (Machine.findCue y q).any (fun d => decide (d.start ≤ start))

section catchUp
variable {now start fuel stepStart : Nat} {q : List Cue} {todo : List Seq} {x : Seq}

theorem catchUp_waits (h : ¬ stepStart + 200 ≤ now) :
    Walk.catchUp now start q (fuel + 1) ⟨todo, some x, stepStart⟩ = ⟨todo, some x, stepStart⟩ := if_neg h

theorem catchUp_stops (h : stepStart + 200 ≤ now) (stops : stopsWalk start q x = true) :
    Walk.catchUp now start q (fuel + 1) ⟨todo, some x, stepStart⟩ = ⟨todo, none, stepStart + 200⟩ := by
  refine (if_pos h).trans ?_
  unfold stopsWalk at stops
  cases e : Machine.findCue x q with
  | none => simp [e] at stops
  | some c => exact if_pos (by simpa [e] using stops)

theorem catchUp_goesOn (h : stepStart + 200 ≤ now) (stops : stopsWalk start q x = false) :
    Walk.catchUp now start q (fuel + 1) ⟨todo, some x, stepStart⟩ = match nextInQueue q todo with
      | some (y, rest) => Walk.catchUp now start q fuel ⟨rest, some y, stepStart + 200⟩
      | none => ⟨[], none, stepStart + 200⟩ := by
  refine (if_pos h).trans ?_
  unfold stopsWalk at stops
  cases e : Machine.findCue x q with
  | none => rfl
  | some c => exact if_neg (by simpa [e] using stops)

end catchUp

/-- A walk's placing is due after one step for each cue it still examines and one more. -/
theorem catchUp_placed (now start : Nat) (q : List Cue) (fuel : Nat) (w : Walk) (h : w.todo.length < fuel) :
    (Walk.catchUp now start q fuel w).placed now = true ↔ w.stepStart + 200 * (w.examined start q + 1) ≤ now := by
  induction fuel generalizing w with
  | zero => omega
  | succ fuel ih =>
    obtain ⟨todo, current, stepStart⟩ := w
    cases current with
    | none => simp [Walk.catchUp, walk_placed_iff, Walk.examined]
    | some x =>
      have examined (x : Seq) (todo : List Seq) (st : Nat) : Walk.examined ⟨todo, some x, st⟩ start q =
          let places := x :: todo.filter (fun y => (Machine.findCue y q).isSome)
          min (places.findIdx (stopsWalk start q) + 1) places.length := rfl
      by_cases ended : stepStart + 200 ≤ now
      · cases stops : stopsWalk start q x with
        | true =>
          rw [catchUp_stops ended stops, walk_placed_iff, examined]
          simp [List.findIdx_cons, stops]
        | false =>
          have next := nextInQueue_eq q todo
          rw [catchUp_goesOn ended stops, examined]
          cases e : nextInQueue q todo with
          | none =>
            simp only [e] at next
            simp [next, walk_placed_iff, List.findIdx_cons, stops]
          | some yr =>
            obtain ⟨y, rest⟩ := yr
            simp only [e] at next
            have shorter : rest.length < fuel := by simp only at h; omega
            simp only [ih ⟨rest, some y, stepStart + 200⟩ shorter, examined, next.1]
            simp only [List.findIdx_cons (b := x), stops, cond_false, List.length_cons]
            omega
      · have first : 1 ≤ Walk.examined ⟨todo, some x, stepStart⟩ start q := by simp [Walk.examined]
        rw [catchUp_waits ended, walk_placed_iff]
        simp only [reduceCtorEq, false_and, false_iff]
        omega

theorem placingDue_iff (s : State) (a : Aud) : (s.placingDue a).isSome = true ↔ s.fallsDue (.insertionPlaces a) := by
  simp only [State.placingDue, State.fallsDue]
  cases (s.intake a).context with
  | inserting c w =>
    have placed := catchUp_placed s.now c.start (s.stream c.stream).queue _ w (Nat.lt_succ_self _)
    simp [← placed, Option.isSome_ite]
  | idle | opened _ _ | skipping _ => simp

/-- Settles O3: the tests hand over the commands whose instant has come, and each test is the manual's figure. -/
theorem timeDrivenCommands : Obligations.TimeDrivenCommands := by
  refine ⟨fun s h => ⟨mem_readyEvents s, readyEvents_nodup s, step_idle h⟩, fun i s => exec_notDue i, fun i s => ?_⟩
  cases i <;> simp only [State.dueTest, Option.some.injEq, State.fallsDue, reduceCtorEq]
  case subStep a => exact subStepDue_iff s a
  case strobeLoss a => simp [State.lossDue, Clock.lossThreshold, State.elapsed, State.since, Config.maxElapsed, and_assoc]
  case syntheticStrobe a => simp [State.syntheticDue, State.elapsed, State.since, Config.maxElapsed, and_assoc]
  case staleEvent a => exact staleDue_iff s a
  case gap a => exact gapDue_iff s a
  case assemblerResumes a => exact resumeDue_iff s a
  case insertionPlaces a => exact placingDue_iff s a
  case cellFreed a => simp [State.cellDue, reached_iff, Config.cellTime]
  case purgeStep a => exact stepDue_iff s a
  case replySent a => exact replyDue_iff s a
  case fillEnds p => exact fillDue_iff s p
  case silenceTimerExpires p => exact silenceDue_iff s p
  case beaconTimerExpires p => exact beaconDue_iff s p
  case secondTimerExpires => simp [State.secondDue, reached_iff, Config.second]

end Sys2Proof.Machine
end

section
/-! PROOFS. The show clock's commands: strobes, the missing strobe, the marks that place and correct B, and what background work behind
them leaves. -/

namespace Sys2Proof.Machine

variable {s t u v : State} {a : Aud}

/-! ### The event's own change, and the work behind it -/

theorem tpf_of_rate {c : Clock} {r : Rate} (h : c.rate = some r) : c.tpf = r.tpf := by rw [Clock.tpf, h]

theorem isActive_of_isRunning {x : AudState} (h : x.isRunning = true) : x.isActive = true := by
  cases x <;> simp [AudState.isRunning, AudState.isActive] at h ⊢

theorem isActive_of_isReleasing {x : AudState} (h : x.isReleasing = true) : x.isActive = true := by
  cases x <;> simp [AudState.isReleasing, AudState.isActive] at h ⊢

/-! ### A strobe outside RUNNING (R4, R5, R10, R14) -/

/-- Settles O12: outside RUNNING and COASTING the reference instant alone moves; in COASTING the strobe is late, or advances B. -/
theorem strobeOutsideRunning : Obligations.StrobeOutsideRunning := by
  refine ⟨fun a s notRunning notCoasting => ?_, fun a r s coasting rate => ?_⟩
  · rw [exec_strobe_eq, execStrobe]
    cases e : (s.session a).state with
    | running => exact absurd e notRunning
    | coasting => exact absurd e notCoasting
    | dark | armed | paused | ended => rfl
  · rw [exec_strobe_eq, execStrobe, coasting]
    dsimp only
    rw [State.strobeCoasting]
    have half : s.elapsed a < (s.clock a).halfPeriod ↔ min (s.now - (s.clock a).ref) 4294967295 < (s.clock a).period / 2 := Iff.rfl
    by_cases late : s.elapsed a < (s.clock a).halfPeriod
    · rw [if_pos late]
      simp only [if_pos (half.mp late)]
      have near : Near s (((s.onClock a (fun c => { c with ref := s.now })).onRun a (fun r =>
          { r with window := .opened 0 s.now, subFrozen := false })).onSession a (fun x => { x with state := .running })) a :=
        Near.of_show rfl (fun b hb => by simp [hb.symm, State.audRecord]) (by simp) (by simp)
      obtain ⟨only, clock, moves, own, -, ended⟩ := near.positionChanged (by simp [AudState.isActive])
      refine ⟨_, rfl, only, ?_, ?_, ?_, ended⟩
      · simpa using clock
      · simpa using moves
      · simpa using own
    · rw [if_neg late]
      simp only [if_neg (fun x => late (half.mpr x))]
      have near : Near s ((((s.onClock a (fun c => { c.advance with ref := s.now })).onRun a (fun r => { r with strobedAt := some s.now })).onRun a
          (fun r => { r with window := .opened 0 s.now, subFrozen := false })).onSession a (fun x => { x with state := .running })) a :=
        Near.of_show rfl (fun b hb => by simp [hb.symm, State.audRecord]) (by simp) (by simp)
      obtain ⟨only, clock, moves, own, -, ended⟩ := near.positionChanged (by simp [AudState.isActive])
      refine ⟨_, rfl, only, ?_, ?_, ?_, ended⟩
      · simpa [Clock.advance, tpf_of_rate rate, Config.maxPosition] using clock
      · simpa using moves
      · simpa using own

/-! ### The missing strobe (R4, R12, R13) -/

/-- A synthetic strobe places sub at once, from the new e. -/
theorem synthetic_eq (h : (s.session a).state = .coasting) : s.synthetic a =
    ((s.onClock a (fun c => { c.advance with ref := c.ref + c.period })).onRun a (fun r =>
      { r with subFrozen := false, strobedAt := some s.now })).onClock a (fun c => c.raiseSub (min (s.now - c.ref) Config.maxElapsed)) := by
  have moves : State.subMoves ((s.onClock a (fun c => { c.advance with ref := c.ref + c.period })).onRun a (fun r =>
      { r with subFrozen := false, strobedAt := some s.now })) a = true := by simp [State.subMoves, h, AudState.isRunning]
  rw [State.synthetic, State.settleSub, if_pos moves]
  simp only [State.onClock, State.elapsed, State.since, State.onRun, State.clock, change, pick, Vector.getElem_set_self]

/-- The clock that a synthetic strobe leaves. -/
theorem synthetic_clock (h : (s.session a).state = .coasting) {r : Rate} (rate : (s.clock a).rate = some r) : (s.synthetic a).clock a =
    { s.clock a with
        ref := (s.clock a).ref + (s.clock a).period
        base := min ((s.clock a).base + r.tpf) 43199999
        sub := min (min (s.now - ((s.clock a).ref + (s.clock a).period)) 4294967295 * r.tpf / (s.clock a).period) (r.tpf - 1) } := by
  rw [synthetic_eq h]
  simp [Clock.raiseSub, Clock.advance, Clock.subTarget, Clock.tpf, rate, Config.maxElapsed, Config.maxPosition]

theorem synthetic_rest (h : (s.session a).state = .coasting) : (s.synthetic a).session a = s.session a ∧
    (s.synthetic a).showRun a = { s.showRun a with subFrozen := false, strobedAt := some s.now } ∧
    (s.synthetic a).audCounter a = s.audCounter a ∧ (s.synthetic a).attention = s.attention := by
  rw [synthetic_eq h]
  simp

theorem Near.synthetic (h : Near s v a) (hc : (v.session a).state = .coasting) : Near s (v.synthetic a) a := by
  rw [synthetic_eq hc]
  obtain ⟨tables, others, stores, links, line, faults, accepted⟩ := h
  refine ⟨tables, fun b hb => ?_, stores, links, line, faults, accepted⟩
  obtain ⟨clock, rest⟩ := others b hb
  refine ⟨by simpa [hb.symm] using clock, ?_⟩
  simpa [hb.symm, State.audRecord] using rest

/-- Settles O15: the clock supplies the strobe one period after the last, and sub is placed from the new e. -/
theorem missingStrobeSupplied : Obligations.MissingStrobeSupplied := by
  intro a r loss s rate due
  cases loss with
  | false =>
    have due : s.syntheticDue a = true := by simpa [State.dueTest] using due
    have coasting : (s.session a).state = .coasting := by simp [State.syntheticDue] at due; exact due.1.1
    simp only [Bool.false_eq_true, if_false]
    rw [exec_syntheticStrobe_eq, execSyntheticStrobe, if_pos due]
    have near : Near s (s.synthetic a) a := Near.synthetic (Near.of_show rfl (fun b _ => ⟨rfl, rfl, rfl, rfl, rfl⟩) rfl rfl) coasting
    obtain ⟨session_, run_, counters_, -⟩ := synthetic_rest coasting
    have state : (s.synthetic a).session a = { s.session a with state := .coasting } := by rw [session_, ← coasting]
    obtain ⟨only, clock, moves, own, -, ended⟩ := near.positionChanged (by rw [state]; rfl)
    refine ⟨_, rfl, only, clock.trans (synthetic_clock coasting rate), ?_, ?_, nofun, ended⟩
    · rw [state, run_] at moves
      exact moves
    · rw [own, counters_]
  | true =>
    have due : s.lossDue a = true := by simpa [State.dueTest] using due
    simp only [if_true]
    rw [exec_strobeLoss_eq, execStrobeLoss, if_pos due]
    have near : Near s ((((s.onSession a (fun x => { x with state := .coasting })).onRun a (fun r => { r with window := .closed })).onCounters a
        (fun k => { k with strobeLoss := bump k.strobeLoss })).raiseAud a kindStrobeLoss) a :=
      Near.of_show rfl (fun b hb => by simp [hb.symm]; rfl) (by simp) (by simp)
    generalize lost : (((s.onSession a (fun x => { x with state := .coasting })).onRun a (fun r => { r with window := .closed })).onCounters a
        (fun k => { k with strobeLoss := bump k.strobeLoss })).raiseAud a kindStrobeLoss = v at near
    have state : v.session a = { s.session a with state := .coasting } := by simp [← lost]
    have coasting : (v.session a).state = .coasting := by rw [state]
    have clock_ : v.clock a = s.clock a := by simp [← lost]
    have run_ : v.showRun a = { s.showRun a with window := .closed } := by simp [← lost]
    have now_ : v.now = s.now := by simp [← lost]
    have counters_ : v.audCounter a = { s.audCounter a with strobeLoss := bump (s.audCounter a).strobeLoss } := by simp [← lost]
    have raised_ : v.raised a kindStrobeLoss := by rw [← lost]; exact raised_raiseAud _ _ _ (by decide)
    obtain ⟨state', run', counters', attention'⟩ := synthetic_rest coasting
    obtain ⟨only, clock, moves, own, raised, ended⟩ := (near.synthetic coasting).positionChanged (by rw [state', coasting]; rfl)
    have rate' : (v.clock a).rate = some r := by rw [clock_, rate]
    refine ⟨_, by rw [← lost], only, ?_, ?_, ?_, fun _ => raised _ ?_, ended⟩
    · rw [clock, synthetic_clock coasting rate', clock_, now_]
    · rw [state', state, run', run_, now_] at moves
      exact moves
    · rw [own, counters', counters_]
    · rw [State.raised, State.audRecord, attention']
      exact raised_

/-! ### Which ports carry a stream (R105, R129), and clears owed (R85, R116) -/

theorem filterAccepts_iff (s : State) (p k : Port) (n : StreamNo) :
    (pick (s.link p).filters k).accepts (audOfStream n) (s.stream n) = true ↔ s.filterTakes p k n := by
  simp only [Filter.accepts, State.filterTakes, Bool.and_eq_true, and_assoc]
  refine and_congr_right fun _ => and_congr ?_ ?_
  · cases (s.stream n).kind <;> rfl
  · cases (pick (s.link p).filters k).language <;> simp

theorem accepts_iff (s : State) (p : Port) (n : StreamNo) : s.accepts p n = true ↔ ∃ k, s.filterTakes p k n := by
  simp [State.accepts, State.acceptingFilters, ports, List.filter_eq_nil_iff, filterAccepts_iff]

theorem mem_carriers (s : State) (p : Port) (n : StreamNo) :
    p ∈ s.carriers n ↔ (s.link p).state = .serving ∧ ∃ k, s.filterTakes p k n := by
  simp [State.carriers, ports, accepts_iff]

theorem carriers_pairwise (s : State) (n : StreamNo) : (s.carriers n).Pairwise (· < ·) :=
  (List.pairwise_lt_finRange 4).filter _

/-- The ports that carry the stream and are not in its clear-owed set. -/
def State.freshCarriers (s : State) (n : StreamNo) : List Port :=
  ports.filter (fun p => (s.link p).state == .serving && s.accepts p n && !(s.stream n).clearOwed.contains p)

theorem oweClear_eq (s : State) (n : StreamNo) : s.oweClear n =
    if s.freshCarriers n = [] then s
    else s.onStream n (fun x => { x with clearOwed := x.clearOwed ++ s.freshCarriers n, clearNumber := x.frameSeq, frameSeq := x.frameSeq + 1 }) := by
  have fresh : (s.carriers n).filter (fun p => !(s.stream n).clearOwed.contains p) = s.freshCarriers n := by
    rw [State.carriers, List.filter_filter, State.freshCarriers]
    exact List.filter_congr fun p _ => Bool.and_comm _ _
  simp only [State.oweClear, fresh, List.isEmpty_iff]

/-- A stream on which a clear becomes owed where it is an open caption stream. -/
def State.clearedStream (s : State) (n : StreamNo) : Stream :=
  let st := s.stream n
  if st.isOpen = true ∧ st.kind = .caption ∧ s.freshCarriers n ≠ [] then
    { st with clearOwed := st.clearOwed ++ s.freshCarriers n, clearNumber := st.frameSeq, frameSeq := st.frameSeq + 1 }
  else st

theorem oweClearIfCaption_stream (s : State) (n m : StreamNo) :
    (s.oweClearIfCaption n).stream m = if m = n then s.clearedStream n else s.stream m := by
  rw [State.oweClearIfCaption, State.clearedStream, oweClear_eq]
  by_cases e : m = n
  · subst e
    by_cases open_ : (s.stream m).isOpen = true ∧ (s.stream m).kind = .caption
    · by_cases fresh : s.freshCarriers m = [] <;> simp [open_, fresh]
    · rw [if_neg (by simpa using open_), if_pos rfl, if_neg (fun x => open_ ⟨x.1, x.2.1⟩)]
  · rw [if_neg e]
    split
    · split
      · rfl
      · simp [Ne.symm e]
    · rfl

/-- Owing a clear on one stream leaves the ports, and what the other streams are owed. -/
theorem oweClearIfCaption_links (s : State) (n : StreamNo) : (s.oweClearIfCaption n).links = s.links := by
  rw [State.oweClearIfCaption, oweClear_eq]
  split
  · split <;> rfl
  · rfl

theorem clearedStream_congr {n : StreamNo} (hs : t.stream n = s.stream n) (hl : t.links = s.links) : t.clearedStream n = s.clearedStream n := by
  have link : ∀ p, t.link p = s.link p := fun p => by simp only [State.link, hl]
  have fresh : t.freshCarriers n = s.freshCarriers n := by
    simp only [State.freshCarriers, State.accepts, State.acceptingFilters, link, hs]
  simp only [State.clearedStream, hs, fresh]

/-- Clears owed on some slots of an auditorium reach each of their streams once. -/
theorem oweClears_fold (a : Aud) (n : StreamNo) (l : List Slot) (nodup : l.Nodup) (s : State) :
    (l.foldl (fun t k => t.oweClearIfCaption (streamOf a k)) s).stream n =
      if ∃ k ∈ l, streamOf a k = n then s.clearedStream n else s.stream n := by
  induction l generalizing s with
  | nil => simp
  | cons k l ih =>
    obtain ⟨fresh, nodup⟩ := List.nodup_cons.mp nodup
    rw [List.foldl_cons, ih nodup]
    by_cases here : streamOf a k = n
    · subst here
      have gone : ¬ ∃ j ∈ l, streamOf a j = streamOf a k := by
        rintro ⟨j, mem, e⟩
        have same : j = k := by rw [← slotOfStream_streamOf a j, e, slotOfStream_streamOf]
        exact fresh (same ▸ mem)
      rw [if_neg gone, if_pos ⟨k, List.mem_cons_self, rfl⟩, oweClearIfCaption_stream, if_pos rfl]
    · have other : (s.oweClearIfCaption (streamOf a k)).stream n = s.stream n := by
        rw [oweClearIfCaption_stream, if_neg (fun e => here e.symm)]
      rw [clearedStream_congr other (oweClearIfCaption_links _ _), other]
      simp [here]

theorem oweClears_stream (s : State) (a : Aud) (n : StreamNo) :
    (s.oweClears a).stream n = if audOfStream n = a then s.clearedStream n else s.stream n := by
  have mine : (∃ k ∈ slots, streamOf a k = n) ↔ audOfStream n = a := by
    simp only [streamOf_eq_iff, slots, List.mem_finRange, true_and, exists_and_left, exists_eq', and_true]
  rw [State.oweClears, oweClears_fold a n slots (List.nodup_finRange 6)]
  simp only [mine]

/-- Settles O17: a clear reaches every open caption stream of the auditorium, to the ports that newly carry it. -/
theorem clearsBecomeOwed : Obligations.ClearsBecomeOwed := by
  intro a s n
  refine ⟨?_, oweClear_eq s n, fun p => accepts_iff s p n, fun p => mem_carriers s p n, carriers_pairwise s n⟩
  rw [oweClears_stream, State.clearedStream]
  by_cases e : audOfStream n = a
  · simp only [e, true_and, if_true]
    rfl
  · simp only [e, false_and, if_false]

/-! ### A strobe in RUNNING (R4, R6 to R8, R10) -/

/-- `v` is `s` with the strobe counted in auditorium `a`'s window: the window as it is now, the last hold, the period in use, and whether
the estimate was rejected (R6, R7). -/
structure Counted (s v : State) (a : Aud) (w : Window) (hold period : Nat) (rejected : Bool) : Prop where
  near : Near s v a
  now_ : v.now = s.now
  clock_ : v.clock a = { s.clock a with lastHold := hold, period := period }
  run_ : v.showRun a = { s.showRun a with window := w }
  session_ : v.session a = s.session a
  counters_ : v.audCounter a = { s.audCounter a with
    rateFault := if rejected then bump (s.audCounter a).rateFault else (s.audCounter a).rateFault }
  raised_ : rejected = true → v.raised a kindRateFault

theorem counted_closed (h : (s.showRun a).window = .closed) :
    Counted s (s.countStrobe a) a (.opened 0 s.now) (s.clock a).lastHold (s.clock a).period false := by
  simp only [State.countStrobe, h]
  exact ⟨Near.of_show rfl (fun b hb => by simp [hb.symm, State.audRecord]) (by simp) (by simp), rfl, rfl, by simp, rfl, rfl, nofun⟩

theorem counted_counts {k start : Nat} (h : (s.showRun a).window = .opened k start) (less : k + 1 < (s.clock a).windowSize) :
    Counted s (s.countStrobe a) a (.opened (k + 1) start) (s.clock a).lastHold (s.clock a).period false := by
  simp only [State.countStrobe, h, if_neg (Nat.not_le.mpr less)]
  exact ⟨Near.of_show rfl (fun b hb => by simp [hb.symm, State.audRecord]) (by simp) (by simp), rfl, rfl, by simp, rfl, rfl, nofun⟩

theorem counted_accepts {k start : Nat} {r : Rate} (h : (s.showRun a).window = .opened k start) (full : (s.clock a).windowSize ≤ k + 1)
    (rate : (s.clock a).rate = some r) (good : acceptable (estimate (s.since start) (s.clock a).windowSize) r.nominal = true) :
    Counted s (s.countStrobe a) a (.opened 0 s.now) (s.since start) (estimate (s.since start) (s.clock a).windowSize) false := by
  simp only [State.countStrobe, h, if_pos full, State.completeWindow, rate, if_pos good]
  exact ⟨Near.of_show rfl (fun b hb => by simp [hb.symm, State.audRecord]) (by simp) (by simp), rfl, by simp, by simp, rfl, rfl, nofun⟩

theorem counted_rejects {k start : Nat} {r : Rate} (h : (s.showRun a).window = .opened k start) (full : (s.clock a).windowSize ≤ k + 1)
    (rate : (s.clock a).rate = some r) (bad : ¬ acceptable (estimate (s.since start) (s.clock a).windowSize) r.nominal = true) :
    Counted s (s.countStrobe a) a (.opened 0 s.now) (s.since start) (s.clock a).period true := by
  simp only [State.countStrobe, h, if_pos full, State.completeWindow, rate, if_neg bad]
  refine ⟨Near.of_show rfl (fun b hb => ?_) (by simp) (by simp), rfl, by simp, by simp, rfl, by simp,
    fun _ => raised_raiseAud _ a kindRateFault (by decide)⟩
  exact ⟨by simp [hb.symm], by simp, by simp [hb.symm], by simp [hb.symm], raiseAud_audRecord .. |>.trans (if_neg hb.symm)⟩

/-- R7's test, by its two sides. -/
theorem acceptable_iff (e n : Nat) : acceptable e n = true ↔ (e - n) * 1000 ≤ n ∧ (n - e) * 1000 ≤ n := by
  rw [acceptable, decide_eq_true_iff]
  omega

/-- What a strobe in RUNNING does, once counted. -/
theorem Counted.strobed {w : Window} {hold period : Nat} {rejected : Bool} (h : Counted s (s.countStrobe a) a w hold period rejected) {r : Rate}
    (running : (s.session a).state = .running) (rate : (s.clock a).rate = some r) :
    ∃ t, exec (.strobe a) s = .next t ∧ s.onlyShow t a ∧
      t.clock a = { s.clock a with ref := s.now, base := min ((s.clock a).base + r.tpf) 43199999, sub := 0, lastHold := hold,
                                   period := period } ∧
      s.movesTo t a { s.showRun a with window := w, subFrozen := false, strobedAt := some s.now } (s.session a) ∧
      (t.audCounter a).own = { s.audCounter a with
        rateFault := if rejected then bump (s.audCounter a).rateFault else (s.audCounter a).rateFault }.own ∧
      (rejected = true → t.raised a kindRateFault) ∧
      (t.position a = 43199999 → (t.session a).state = .ended) := by
  obtain ⟨⟨tables, others, stores, links, line, faults, accepted⟩, now_, clock_, run_, session_, counters_, raised_⟩ := h
  have near : Near s (((s.countStrobe a).onClock a (fun c => { c.advance with ref := s.now })).onRun a
      (fun r => { r with subFrozen := false, strobedAt := some s.now })) a := by
    refine ⟨tables, fun b hb => ?_, stores, links, line, faults, accepted⟩
    obtain ⟨o1, o2, o3, o4, o5, o6⟩ := others b hb
    exact ⟨by simpa [hb.symm] using o1, o2, by simpa [hb.symm] using o3, o4, o5, o6⟩
  obtain ⟨only, clock, moves, own, raised, ended⟩ := near.positionChanged (by simp [session_, running, AudState.isActive])
  have strobe : exec (.strobe a) s = .next (s.strobeRunning a) := by rw [exec_strobe_eq, execStrobe, running]
  rw [strobe, State.strobeRunning]
  refine ⟨_, rfl, only, ?_, ?_, ?_, fun bad => raised _ (raised_ bad), ended⟩
  · refine clock.trans ?_
    simp [clock_, Clock.advance, Clock.tpf, rate, Config.maxPosition]
  · simpa [session_, run_] using moves
  · refine own.trans ?_
    simp [counters_]

/-- The window, the last hold and the period in use after a strobe, by R6 and R7. -/
theorem counted_of_window (r : Rate) (rate : (s.clock a).rate = some r)
    (w : Window) (hold period : Nat) (rejected : Bool)
    (window : match (s.showRun a).window with
      | .closed => w = .opened 0 s.now ∧ hold = (s.clock a).lastHold ∧ period = (s.clock a).period ∧ rejected = false
      | .opened k start =>
        if k + 1 < (s.clock a).windowSize then
          w = .opened (k + 1) start ∧ hold = (s.clock a).lastHold ∧ period = (s.clock a).period ∧ rejected = false
        else
          w = .opened 0 s.now ∧ hold = min (s.now - start) 4294967295 ∧
          let e := (hold + (s.clock a).windowSize / 2) / (s.clock a).windowSize
          if (e - r.nominal) * 1000 ≤ r.nominal ∧ (r.nominal - e) * 1000 ≤ r.nominal then period = e ∧ rejected = false
          else period = (s.clock a).period ∧ rejected = true) :
    Counted s (s.countStrobe a) a w hold period rejected := by
  cases e : (s.showRun a).window with
  | closed =>
    simp only [e] at window
    obtain ⟨rfl, rfl, rfl, rfl⟩ := window
    exact counted_closed e
  | opened k start =>
    simp only [e] at window
    by_cases less : k + 1 < (s.clock a).windowSize
    · rw [if_pos less] at window
      obtain ⟨rfl, rfl, rfl, rfl⟩ := window
      exact counted_counts e less
    · rw [if_neg less] at window
      obtain ⟨rfl, rfl, window⟩ := window
      have e_eq : (min (s.now - start) 4294967295 + (s.clock a).windowSize / 2) / (s.clock a).windowSize =
          estimate (s.since start) (s.clock a).windowSize := rfl
      simp only [e_eq] at window
      by_cases good : acceptable (estimate (s.since start) (s.clock a).windowSize) r.nominal = true
      · rw [if_pos ((acceptable_iff _ _).mp good)] at window
        obtain ⟨rfl, rfl⟩ := window
        exact counted_accepts e (Nat.not_lt.mp less) rate good
      · rw [if_neg (fun x => good ((acceptable_iff _ _).mpr x))] at window
        obtain ⟨rfl, rfl⟩ := window
        exact counted_rejects e (Nat.not_lt.mp less) rate good

end Sys2Proof.Machine
end

section
/-! PROOFS. The session's moves: the stale event, the marks that place and correct B, the RUN level and the house gate. -/

namespace Sys2Proof.Machine

variable {s t u v : State} {a : Aud}

/-! ### Changes of the streams alone -/

/-- `t` is `s` but for its streams. -/
def State.streamsOnly (s t : State) : Prop := t = { s with streams := t.streams }

theorem streamsOnly_refl (s : State) : s.streamsOnly s := rfl

theorem streamsOnly_trans (h : s.streamsOnly t) (k : t.streamsOnly u) : s.streamsOnly u := by
  unfold State.streamsOnly at *
  rw [k, h]

theorem streamsOnly_foldl {α : Type} {f : State → α → State} (hf : ∀ (t : State) (x : α), t.streamsOnly (f t x)) (l : List α) (s : State) :
    s.streamsOnly (l.foldl f s) := by
  induction l generalizing s with
  | nil => rfl
  | cons x l ih => exact streamsOnly_trans (hf s x) (ih _)

theorem oweClear_streamsOnly (s : State) (n : StreamNo) : s.streamsOnly (s.oweClear n) := by
  rw [oweClear_eq]
  split <;> rfl

theorem oweClearIfCaption_streamsOnly (s : State) (n : StreamNo) : s.streamsOnly (s.oweClearIfCaption n) := by
  rw [State.oweClearIfCaption]
  split
  · exact oweClear_streamsOnly s n
  · rfl

theorem oweClears_streamsOnly (s : State) (a : Aud) : s.streamsOnly (s.oweClears a) :=
  streamsOnly_foldl (fun t _ => oweClearIfCaption_streamsOnly t _) slots s

/-- Whether a port can begin a fill is asked of the link ports alone (R131). -/
theorem ringsBusy_congr (h : t.links = s.links) (hs : s.ringsBusy) : t.ringsBusy := by
  intro p
  have link : t.link p = s.link p := by simp only [State.link, h]
  have busy := hs p
  unfold State.portBusy at busy ⊢
  rw [link]
  exact busy

theorem settleFills_still (h : t.links = s.links) (busy : s.ringsBusy) : t.settleFills = t := settleFills_busy t (ringsBusy_congr h busy)

/-- What streams are owed is asked of the streams and the link ports alone (R116). -/
theorem oweClears_congr (hs : t.streams = s.streams) (hl : t.links = s.links) (a : Aud) (n : StreamNo) :
    (t.oweClears a).stream n = (s.oweClears a).stream n := by
  have stream : t.stream n = s.stream n := by simp only [State.stream, hs]
  rw [oweClears_stream, oweClears_stream, clearedStream_congr stream hl, stream]

/-! ### The stale event (R20, R116) -/

/-- Settles O16: the mark, the kind and the clears owed. -/
theorem staleEventMarks : Obligations.StaleEventMarks := by
  intro a s due
  have due : s.staleDue a = true := by simpa [State.dueTest] using due
  rw [exec_staleEvent_eq, execStaleEvent, if_pos due]
  generalize marked : (s.onRun a (fun r => { r with staleMark := true })).raiseAud a kindStale = v
  have near : Near s v a := by
    rw [← marked]
    refine Near.of_show rfl (fun b hb => ?_) rfl rfl
    exact ⟨rfl, rfl, by simp [hb.symm], rfl, raiseAud_audRecord .. |>.trans (if_neg hb.symm)⟩
  have work : Worked none v (v.oweClears a).settleFills := (Worked.refl.oweClears a).settleFills
  have session_ : v.session a = s.session a := by rw [← marked]; rfl
  have run_ : v.showRun a = { s.showRun a with staleMark := true } := by rw [← marked]; simp
  refine ⟨_, rfl, near.onlyShow work nofun, ?_, ?_, ?_, ?_, fun busy => ?_⟩
  · rw [work.clock_eq, ← marked]; rfl
  · have moves := work.movesTo (s := s) (a := a) near.tables.1
    rwa [session_, run_] at moves
  · exact work.raised a _ (by rw [← marked]; exact raised_raiseAud _ a _ (by decide))
  · rw [work.own, ← marked]; rfl
  · have only := oweClears_streamsOnly v a
    have links : (v.oweClears a).links = s.links := by rw [only, ← marked]; rfl
    rw [settleFills_busy _ (ringsBusy_congr links busy)]
    refine ⟨fun n => oweClears_congr (by rw [← marked]; rfl) (by rw [← marked]; rfl) a n, ?_⟩
    generalize v.oweClears a = w at only
    subst marked
    exact only

/-! ### Placing sub at once (R9) -/

theorem settleSub_clock (s : State) (a : Aud) : (s.settleSub a).clock a =
    if s.subMoves a then (s.clock a).raiseSub (s.elapsed a) else s.clock a := by
  rw [State.settleSub]
  split <;> simp

theorem settleSub_rest (s : State) (a : Aud) : (s.settleSub a).session a = s.session a ∧ (s.settleSub a).showRun a = s.showRun a ∧
    (s.settleSub a).audCounter a = s.audCounter a := by
  rw [State.settleSub]
  split <;> exact ⟨rfl, rfl, rfl⟩

theorem Near.settleSub (h : Near s v a) : Near s (v.settleSub a) a := by
  rw [State.settleSub]
  split
  · obtain ⟨tables, others, stores, links, line, faults, accepted⟩ := h
    refine ⟨tables, fun b hb => ?_, stores, links, line, faults, accepted⟩
    obtain ⟨o1, rest⟩ := others b hb
    exact ⟨by simpa [hb.symm] using o1, rest⟩
  · exact h

/-! ### Marks (R29, R30, R34) -/

/-- A MARK of four field characters on a line at rest is handed to the session. -/
theorem exec_mark (h : s.atRest a = true) {fields : List Byte} (four : fields.length = 4) :
    exec (.mark a fields) s = .next (s.takeMark a (number fields)) := by
  rw [exec_mark_eq, execMark, recordArrives_of_atRest h]
  have taken : s.pairRecord a (.framed markCode fields) = s.takeMarkRecord a fields := by simp only [State.pairRecord, if_pos]
  rw [taken]
  match fields, four with
  | [m3, m2, m1, m0], _ => rfl

/-- Entry into RUNNING up to the stale resume it hands on. -/
def State.setRunning (s : State) (a : Aud) : State :=
  ((s.onRun a (fun r => { r with window := .closed, pauseHold := s.captureHold a, pauseStart := none, staleMark := false })).onClock a
    (fun c => { c with ref := s.now })).onSession a (fun x => { x with state := .running })

theorem enterRunning_eq (s : State) (a : Aud) : s.enterRunning a =
    if (s.showRun a).staleMark then (s.setRunning a).handStale a ((s.setRunning a).position a) else s.setRunning a := rfl

theorem Worked.enterRunning' {σ : Option Aud} (s : State) (a : Aud) : Worked σ (s.setRunning a) (s.enterRunning a) := by
  rw [enterRunning_eq]
  split
  · exact Worked.handStale .refl a _
  · exact .refl

/-- What entry into RUNNING itself writes. -/
theorem setRunning_near (h : Near s v a) : Near s (v.setRunning a) a := by
  obtain ⟨tables, others, stores, links, line, faults, accepted⟩ := h
  refine ⟨tables, fun b hb => ?_, stores, links, line, faults, accepted⟩
  obtain ⟨o1, o2, o3, rest⟩ := others b hb
  exact ⟨by simpa [State.setRunning, hb.symm] using o1, by simpa [State.setRunning, hb.symm] using o2,
    by simpa [State.setRunning, hb.symm] using o3, rest⟩

theorem setRunning_shows (v : State) (a : Aud) : (v.setRunning a).clock a = { v.clock a with ref := v.now } ∧
    (v.setRunning a).session a = { v.session a with state := .running } ∧
    (v.setRunning a).showRun a = { v.showRun a with window := .closed, pauseHold := v.captureHold a, pauseStart := none, staleMark := false } ∧
    (v.setRunning a).audCounter a = v.audCounter a := by
  simp [State.setRunning]

theorem near_place (s : State) (a : Aud) (m : Nat) : Near s (s.onClock a (·.place m)) a :=
  Near.of_show rfl (fun b hb => by simp [hb.symm, State.audRecord]) rfl rfl

/-- The first mark in both its outcomes (R29). -/
theorem firstMark_answers (s : State) (a : Aud) (m : Nat) :
    let both := s.runHigh a && (s.session a).gate
    s.onlyShow (s.firstMark a m) a ∧
      (s.firstMark a m).clock a = { s.clock a with base := m, sub := 0, ref := if both then s.now else (s.clock a).ref } ∧
      s.movesTo (s.firstMark a m) a
        (if both then { s.showRun a with window := .closed, pauseHold := s.captureHold a, pauseStart := none, staleMark := false }
          else s.showRun a)
        { s.session a with state := if both then .running else .paused } ∧
      ((s.firstMark a m).audCounter a).own = (s.audCounter a).own := by
  intro both
  rw [State.firstMark]
  by_cases run : both = true
  · have work : Worked (some a) ((s.onClock a (·.place m)).setRunning a)
        ((((s.onClock a (·.place m)).enterRunning a).positionChanged a).settleFills) :=
      (Worked.enterRunning' _ a).positionChanged.settleFills
    obtain ⟨clock_, session_, run_, counters_⟩ := setRunning_shows (s.onClock a (·.place m)) a
    simp only [if_pos run, if_pos (show (s.runHigh a && (s.session a).gate) = true from run)]
    refine ⟨(setRunning_near (near_place s a m)).onlyShow work (fun b e => (Option.some.inj e).symm), ?_, ?_, ?_⟩
    · rw [work.clock_eq, clock_]
      simp [Clock.place]
    · have moves := work.movesTo (s := s) (a := a) rfl
      rwa [session_, run_] at moves
    · rw [work.own, counters_]
      rfl
  · obtain ⟨only, clock, moves, own, -⟩ := Near.positionChanged (s := s) (a := a)
      (v := (s.onClock a (·.place m)).onSession a (fun x => { x with state := .paused }))
      (Near.of_show rfl (fun b hb => by simp [hb.symm, State.audRecord]) rfl rfl) (by simp [AudState.isActive])
    simp only [if_neg run, if_neg (show ¬ (s.runHigh a && (s.session a).gate) = true from run)]
    refine ⟨only, ?_, ?_, ?_⟩
    · rw [clock]
      simp [Clock.place]
    · simpa using moves
    · rw [own]
      rfl

/-- A correction (R30, R34): what it leaves of the show clock, the session and the counters. -/
theorem correction_answers {m new : Nat} (hnew : s.correctedBase a m = new) (changes : ¬ (m = (s.clock a).base ∧ new = (s.clock a).base))
    (active : (s.session a).state.isActive = true) :
    s.onlyShow (s.correction a m) a ∧
      (s.correction a m).clock a = { s.clock a with
        base := new
        sub := if s.subMoves a then (s.clock a).subTarget (s.elapsed a) else 0 } ∧
      s.movesTo (s.correction a m) a (s.showRun a) (s.session a) ∧
      ((s.correction a m).audCounter a).own = { s.audCounter a with
        slip := if m = (s.clock a).base then (s.audCounter a).slip else bump (s.audCounter a).slip }.own := by
  rw [State.correction]
  simp only [hnew, if_neg changes]
  generalize slipped : (if m = (s.clock a).base then s.onClock a (·.place new)
      else (s.onClock a (·.place new)).onCounters a (fun c => { c with slip := bump c.slip })) = v
  have near : Near s v a := by
    rw [← slipped]
    split
    · exact near_place s a new
    · exact Near.of_show rfl (fun b hb => by simp [hb.symm, State.audRecord]) (by simp) (by simp)
  have shows : v.clock a = (s.clock a).place new ∧ v.session a = s.session a ∧ v.showRun a = s.showRun a ∧ v.now = s.now ∧
      v.audCounter a = { s.audCounter a with slip := if m = (s.clock a).base then (s.audCounter a).slip else bump (s.audCounter a).slip } := by
    rw [← slipped]
    split <;> simp
  obtain ⟨clock_, session_, run_, now_, counters_⟩ := shows
  obtain ⟨session', run', counters'⟩ := settleSub_rest v a
  obtain ⟨only, clock, moves, own, -⟩ := near.settleSub.positionChanged (by rw [session', session_]; exact active)
  refine ⟨only, ?_, ?_, ?_⟩
  · have moves_ : v.subMoves a = s.subMoves a := by simp only [State.subMoves, session_, run_]
    have elapsed_ : v.elapsed a = s.elapsed a := by simp only [State.elapsed, State.since, clock_, now_, Clock.place]
    rw [clock, settleSub_clock, moves_, elapsed_, clock_]
    split
    · simp [Clock.place, Clock.raiseSub, Clock.subTarget, Clock.tpf]
    · rfl
  · rwa [session', session_, run', run_] at moves
  · rw [own, counters', counters_]

theorem takeMark_near {m : Nat} {r : Rate} (releasing : (s.session a).state.isReleasing = true) (rate : (s.clock a).rate = some r)
    (inRange : m ≤ 43199999) (close : (m - (s.clock a).base) + ((s.clock a).base - m) ≤ 2 * r.tpf) : s.takeMark a m = s.correction a m := by
  have limit : ¬ Config.maxPosition < m := Nat.not_lt.mpr inRange
  rw [← tpf_of_rate rate] at close
  rw [State.takeMark]
  cases e : (s.session a).state with
  | dark | armed | ended => simp [e, AudState.isReleasing] at releasing
  | paused | running | coasting =>
    dsimp only
    rw [if_neg limit]
    exact if_pos close

/-- Settles O27: the first mark places B, and a later one within two frames corrects it. -/
theorem firstAndCorrectingMark : Obligations.FirstAndCorrectingMark := by
  refine ⟨fun a fields s rest armed four inRange => ?_, fun a r fields s rest releasing rate four inRange close => ⟨?_, ?_⟩⟩
  · have taken : s.takeMark a (number fields) = s.firstMark a (number fields) := by
      rw [State.takeMark, armed]
      exact if_neg (Nat.not_lt.mpr inRange)
    refine ⟨_, exec_mark rest four, ?_⟩
    rw [taken]
    exact firstMark_answers s a (number fields)
  · simp only [State.subMoves]
    cases (s.session a).state <;> simp [AudState.isRunning]
  · intro strobed
    have tpf : 0 < r.tpf := by cases r <;> decide
    have corrected : s.correctedBase a (number fields) = if strobed then min (number fields + r.tpf) 43199999 else number fields := by
      rw [State.correctedBase, tpf_of_rate rate]
      rfl
    rw [exec_mark rest four, takeMark_near releasing rate inRange close]
    refine ⟨fun same stays => ?_, fun changes => ⟨_, rfl, ?_⟩⟩
    · rw [State.correction, if_pos]
      refine ⟨same, ?_⟩
      rw [corrected]
      split
      · next h => rcases stays with stays | stays
                  · exact absurd h stays
                  · omega
      · exact same
    · have changed : ¬ (number fields = (s.clock a).base ∧
          (if strobed then min (number fields + r.tpf) 43199999 else number fields) = (s.clock a).base) := by
        rintro ⟨same, base⟩
        rcases changes with changes | ⟨h, less⟩
        · exact changes same
        · rw [if_pos h] at base
          omega
      obtain ⟨only, clock, moves, own⟩ := correction_answers corrected changed (isActive_of_isReleasing releasing)
      refine ⟨only, ?_, moves, own⟩
      rw [clock]
      simp only [Clock.subTarget, tpf_of_rate rate]
      rfl

/-- Background work writes no bytes on the management port. -/
theorem Worked.out {σ : Option Aud} (h : Worked σ s t) : t.mgmt.out = s.mgmt.out := by
  refine h.keeps (P := fun s => s.mgmt.out) fun s t nudge => ?_
  cases nudge with
  | reply a r =>
    obtain ⟨f, placed, -⟩ := placeReply_cases s a r
    rw [placed]
    rfl
  | finish w =>
    rw [State.finishWork]
    split <;> rfl
  | _ => rfl

/-! ### The RUN level and the house gate (R15 to R19, R27) -/

theorem captureHold_eq (s : State) (a : Aud) : s.captureHold a = match (s.showRun a).pauseStart with
    | some start => min ((s.now - start) / 12288) 16777215
    | none => (s.showRun a).pauseHold := by
  rw [State.captureHold, State.pauseCount]
  cases (s.showRun a).pauseStart <;> rfl

/-- A state is near itself. -/
theorem Near.refl (s : State) (a : Aud) : Near s s a := Near.of_show rfl (fun _ _ => ⟨rfl, rfl, rfl, rfl, rfl⟩) rfl rfl

theorem enterPaused_near (h : Near s v a) : Near s (v.enterPaused a) a := by
  obtain ⟨tables, others, stores, links, line, faults, accepted⟩ := h
  refine ⟨tables, fun b hb => ?_, stores, links, line, faults, accepted⟩
  obtain ⟨o1, o2, o3, rest⟩ := others b hb
  exact ⟨o1, by simpa [State.enterPaused, hb.symm] using o2, by simpa [State.enterPaused, hb.symm] using o3, rest⟩

/-- A change of RUN or of the gate, taken, moves the session by R27's table. -/
theorem runOrGate_moves (near : Near s v a) :
    s.onlyShow (v.runOrGate a) a ∧ v.runGateMoves (v.runOrGate a) a (v.session a) (v.runHigh a && (v.session a).gate) ∧
      ((v.runOrGate a).audCounter a).own = (v.audCounter a).own ∧ (v.runOrGate a).runPins = v.runPins ∧ (v.runOrGate a).mgmt.out = v.mgmt.out := by
  have still : s.onlyShow v a := near.onlyShow (σ := none) .refl nofun
  unfold State.runOrGate State.runGateMoves
  cases state : (v.session a).state with
  | dark | armed | ended => exact ⟨still, ⟨rfl, rfl, rfl⟩, rfl, rfl, rfl⟩
  | paused =>
    cases (v.runHigh a && (v.session a).gate) with
    | false => exact ⟨still, ⟨rfl, rfl, rfl⟩, rfl, rfl, rfl⟩
    | true =>
      have work : Worked none (v.setRunning a) (v.enterRunning a).settleFills := (Worked.enterRunning' v a).settleFills
      obtain ⟨clock_, session_, run_, counters_⟩ := setRunning_shows v a
      refine ⟨(setRunning_near near).onlyShow work nofun, ⟨(work.clock_eq a).trans clock_, ?_⟩, (work.own a).trans (by rw [counters_]),
        work.frame.2.1, work.out⟩
      have moves := work.movesTo (s := v) (a := a) rfl
      rwa [session_, run_] at moves
  | running | coasting =>
    cases (v.runHigh a && (v.session a).gate) with
    | true => exact ⟨still, ⟨rfl, rfl, rfl⟩, rfl, rfl, rfl⟩
    | false =>
      exact ⟨(enterPaused_near near).onlyShow (σ := none) .refl nofun, ⟨rfl, by simp [State.enterPaused], by simp [State.enterPaused]⟩, rfl, rfl, rfl⟩

end Sys2Proof.Machine
end

section
/-! PROOFS. Queues, the freeing unit and the release engine: what each does to one cue, and what an instant of release does to an
auditorium's queues. -/

namespace Sys2Proof.Machine

variable {s t u v : State} {a : Aud} {n : StreamNo} {c : Cue}

/-! ### A cue at its place in a queue -/

/-- The cue `c` stands in queue `q` between `l` and `m`, alone with its sequence. -/
structure Placed (q : List Cue) (l : List Cue) (c : Cue) (m : List Cue) : Prop where
  eq : q = l ++ c :: m
  before : c.seq ∉ seqs l
  after : c.seq ∉ seqs m

theorem placed_single (c : Cue) : Placed [c] [] c [] := ⟨rfl, by simp [seqs], by simp [seqs]⟩

theorem placed_of_nodup {l m : List Cue} (h : (seqs (l ++ c :: m)).Nodup) : Placed (l ++ c :: m) l c m := by
  simp only [seqs, List.map_append, List.map_cons, List.nodup_append, List.nodup_cons] at h
  obtain ⟨-, ⟨after, -⟩, apart⟩ := h
  exact ⟨rfl, fun mem => apart _ mem _ List.mem_cons_self rfl, after⟩

theorem exists_placed {q : List Cue} (mem : c ∈ q) (nodup : (seqs q).Nodup) : ∃ l m, Placed q l c m := by
  obtain ⟨l, m, rfl⟩ := List.append_of_mem mem
  exact ⟨l, m, placed_of_nodup nodup⟩

theorem findCue_absent {q : List Cue} {x : Seq} (h : x ∉ seqs q) : findCue x q = none := by
  rw [findCue, List.find?_eq_none]
  intro d mem
  simp only [beq_iff_eq]
  rintro rfl
  exact h (List.mem_map.mpr ⟨d, mem, rfl⟩)

theorem changeCue_absent {q : List Cue} {x : Seq} (h : x ∉ seqs q) (f : Cue → Cue) : changeCue x f q = q := by
  rw [changeCue]
  refine (List.map_congr_left fun d mem => ?_).trans (List.map_id q)
  have : d.seq ≠ x := fun e => h (e ▸ List.mem_map.mpr ⟨d, mem, rfl⟩)
  simp [this]

theorem dropCue_absent {q : List Cue} {x : Seq} (h : x ∉ seqs q) : dropCue x q = q := by
  rw [dropCue, List.filter_eq_self]
  intro d mem
  have : d.seq ≠ x := fun e => h (e ▸ List.mem_map.mpr ⟨d, mem, rfl⟩)
  simp [this]

variable {q l m : List Cue}

theorem Placed.find (h : Placed q l c m) : findCue c.seq q = some c := by
  obtain ⟨rfl, before, -⟩ := h
  rw [findCue, List.find?_append]
  have none_ : l.find? (fun d => d.seq == c.seq) = none := findCue_absent before
  simp only [none_, Option.none_or, List.find?_cons, beq_self_eq_true]

theorem Placed.change (h : Placed q l c m) (f : Cue → Cue) : changeCue c.seq f q = l ++ f c :: m := by
  obtain ⟨rfl, before, after⟩ := h
  have hl := changeCue_absent before f
  have hm := changeCue_absent after f
  simp only [changeCue] at hl hm
  simp only [changeCue, List.map_append, List.map_cons, hl, hm, beq_self_eq_true, if_true]

theorem Placed.drop (h : Placed q l c m) : dropCue c.seq q = l ++ m := by
  obtain ⟨rfl, before, after⟩ := h
  have hl := dropCue_absent before
  have hm := dropCue_absent after
  simp only [dropCue] at hl hm
  simp [dropCue, List.filter_append, hl, hm]

theorem Placed.with (h : Placed q l c m) {d : Cue} (e : d.seq = c.seq) : Placed (l ++ d :: m) l d m :=
  ⟨rfl, e ▸ h.before, e ▸ h.after⟩

/-! ### The streams' queues in the state -/

theorem withQueue_eq (s : State) (n : StreamNo) (q : List Cue) : s.onStream n (fun st => { st with queue := q }) = s.withQueue n q := rfl

/-- Two changes of a bank that write the same at the entry as it stands are one. -/
theorem change_congr {α : Type} {n : Nat} {v : Vector α n} {i : Fin n} {f g : α → α} (h : f (pick v i) = g (pick v i)) :
    change v i f = change v i g := bank_ext fun j => by
  rw [pick_change, pick_change]
  split
  · next e => rw [← e]; exact h
  · rfl

theorem onStream_congr {f g : Stream → Stream} (h : f (s.stream n) = g (s.stream n)) : s.onStream n f = s.onStream n g := by
  rw [State.onStream, change_congr h]
  rfl

theorem onCue_placed (h : Placed (s.stream n).queue l c m) (f : Cue → Cue) : s.onCue n c.seq f = s.withQueue n (l ++ f c :: m) := by
  rw [State.onCue, ← withQueue_eq]
  exact onStream_congr (by rw [h.change])

theorem findCue_placed (h : Placed (s.stream n).queue l c m) : s.findCue n c.seq = some c := h.find

/-! ### The freeing unit (R91, R92) -/

theorem requestFree_eq (s : State) (a : Aud) (k : Nat) (tag : FreeTag) : s.requestFree a k tag = s.freeingAsked a k tag := by
  simp only [State.requestFree, State.freeingAsked, State.onStore, List.isEmpty_iff]

/-- With no insertion in progress no walk is brought up to now. -/
theorem catchUpWalk_none (h : s.insertionRuns a = false) (n : StreamNo) : s.catchUpWalk a n = s := by
  unfold State.catchUpWalk
  unfold State.insertionRuns at h
  cases e : (s.intake a).context <;> simp [e] at h ⊢

theorem leaveQueue_placed (h : Placed (s.stream n).queue l c m) (still : s.insertionRuns (audOfStream n) = false) :
    s.leaveQueue n c.seq = s.withQueue n (l ++ m) := by
  rw [State.leaveQueue, catchUpWalk_none still, ← withQueue_eq]
  exact onStream_congr (by rw [h.drop])

/-- Without its ending mark no show ends by its queues (R36). -/
theorem endTest_unmarked (h : (s.session a).ending = false) : s.endTest a = s := by
  simp [State.endTest, h]

theorem endTest_inactive (h : (s.session a).state.isActive = false) : s.endTest a = s := by
  simp [State.endTest, h]

/-- A cue of an auditorium with no insertion and no ending mark is freed whole. -/
theorem freeCue_placed (h : Placed (s.stream n).queue l c m) (still : s.insertionRuns (audOfStream n) = false)
    (unmarked : (s.session (audOfStream n)).ending = false) (tag : FreeTag) :
    s.freeCue n c tag = (s.withQueue n (l ++ m)).freeingAsked (audOfStream n) (1 + c.heldBodies) tag := by
  rw [State.freeCue, leaveQueue_placed h still, requestFree_eq, endTest_unmarked (by exact unmarked)]
  rfl

/-! ### Items lapsed (R112) -/

theorem lapses_eq (s : State) (ps : List Port) {w : Vector LinkCounters 4}
    (h : ∀ p, pick w p = { s.linkCounter p with lapsed := bumpBy (ps.count p) (s.linkCounter p).lapsed }) :
    s.lapses ps = { s with linkCounters := w } := by
  have same : (Vector.ofFn fun p => { pick s.linkCounters p with lapsed := bumpBy (ps.count p) (pick s.linkCounters p).lapsed }) = w :=
    bank_ext fun p => by rw [h p]; simp [pick, State.linkCounter]
  rw [State.lapses, same]

theorem lapses_nil (s : State) : s.lapses [] = s := lapses_eq s [] (w := s.linkCounters) fun _ => rfl

theorem lapses_linkCounter (s : State) (ps : List Port) (p : Port) :
    (s.lapses ps).linkCounter p = { s.linkCounter p with lapsed := bumpBy (ps.count p) (s.linkCounter p).lapsed } := by
  simp [State.lapses, State.linkCounter, pick]

theorem lapses_cons (s : State) (p : Port) (ps : List Port) :
    s.lapses (p :: ps) = (s.onLinkCounters p (fun c => { c with lapsed := bump c.lapsed })).lapses ps := by
  refine lapses_eq s (p :: ps) fun q => ?_
  refine (lapses_linkCounter _ ps q).trans ?_
  by_cases e : p = q
  · subst e
    simp [bumpBy]
  · simp [e, List.count_cons_of_ne e]

theorem chargePorts_eq (ps : List Port) (s : State) : s.chargePorts ps = s.lapses ps := by
  induction ps generalizing s with
  | nil => exact (lapses_nil s).symm
  | cons p ps ih => rw [lapses_cons, ← ih]; rfl

/-! ### A stream's queue and its frame number -/

@[simp] theorem withQueue_withQueue (s : State) (n : StreamNo) (q r : List Cue) : (s.withQueue n q).withQueue n r = s.withQueue n r := by
  simp [State.withQueue, change_change]

theorem takeNumber_eq (s : State) (n : StreamNo) : s.takeNumber n = s.numbered n := rfl

theorem numbered_withQueue (s : State) (n : StreamNo) (q : List Cue) : (s.numbered n).withQueue n q = (s.withQueue n q).numbered n := by
  simp [State.withQueue, State.numbered, change_change]

theorem withQueue_stream (s : State) (n m : StreamNo) (q : List Cue) :
    (s.withQueue n q).stream m = if n = m then { s.stream m with queue := q } else s.stream m := by
  simp only [State.withQueue, State.stream, pick_change]

/-! ### What release asks of the auditorium (R104) -/

theorem unsaturated (h : s.position a < 43199999) : s.saturated a = false := by
  have : ¬ s.position a = Config.maxPosition := Nat.ne_of_lt h
  simp [State.saturated, this]

theorem releases_of (state : (s.session a).state.isReleasing = true) (purge : (s.store a).purge = none) (h : s.position a < 43199999) :
    s.releases a = true := by
  simp [State.releases, state, purge, unsaturated h]

theorem releases_of_not (state : (s.session a).state.isReleasing = false) : s.releases a = false := by
  simp [State.releases, state]

theorem releases_of_purge (purge : (s.store a).purge ≠ none) : s.releases a = false := by
  cases e : (s.store a).purge with
  | none => exact absurd e purge
  | some p => simp [State.releases, e]

/-! ### A caption (R105, R107, R110 to R112) -/

/-- The cue between `l` and `m` is expired, `ps` being the ports outstanding (R111, R112). -/
def State.expires (s : State) (n : StreamNo) (l m : List Cue) (c : Cue) (ps : List Port) : State :=
  ((State.lapses { s with audCounters := change s.audCounters (audOfStream n) (fun k => { k with expired := bump k.expired }) } ps).withQueue
    n (l ++ m)).freeingAsked (audOfStream n) (1 + c.heldBodies) .none

/-- Alone in its queue it is expired as R111 says of it. -/
theorem expires_alone (s : State) (n : StreamNo) (c : Cue) (ps : List Port) : s.expires n [] [] c ps = s.cueExpires n c ps := rfl

theorem expireCue_placed (h : Placed (s.stream n).queue l c m) (still : s.insertionRuns (audOfStream n) = false)
    (unmarked : (s.session (audOfStream n)).ending = false) : s.expireCue n c = s.expires n l m c c.outstanding := by
  rw [State.expireCue, chargePorts_eq]
  refine (freeCue_placed (l := l) (m := m) ?_ ?_ ?_ _).trans rfl
  exacts [h, still, unmarked]

/-- What release makes of a QUEUED caption whose release time has come, between `l` and `m` in its queue (R105, R107). -/
def State.captionReleasedIn (s : State) (n : StreamNo) (l m : List Cue) (c : Cue) : State :=
  if c.start + c.length ≤ s.position (audOfStream n) then s.expires n l m c []
  else if s.carriers n = [] then ((s.numbered n).withQueue n (l ++ { c with life := .onAir } :: m)).unroutedCounted (audOfStream n)
  else (s.numbered n).withQueue n (l ++ { c with life := .due, due := some (s.newDue n) } :: m)

theorem captionReleased_eq (s : State) (n : StreamNo) (c : Cue) : s.captionReleased n c =
    if s.position (audOfStream n) + (s.stream n).lead < c.start then s else s.captionReleasedIn n [] [] c := rfl

theorem captionFallsDue_placed (h : Placed (s.stream n).queue l c m) : s.captionFallsDue n c.seq =
    if s.carriers n = [] then ((s.numbered n).withQueue n (l ++ { c with life := .onAir } :: m)).unroutedCounted (audOfStream n)
    else (s.numbered n).withQueue n (l ++ { c with life := .due, due := some (s.newDue n) } :: m) := by
  simp only [State.captionFallsDue, List.isEmpty_iff]
  split
  · rw [onCue_placed h, takeNumber_eq, numbered_withQueue]
    rfl
  · rw [onCue_placed h, takeNumber_eq, numbered_withQueue]
    rfl

theorem finish_caption (h : c.kind = .caption) : c.finish = c.start + c.length := by rw [Cue.finish, h]

/-- A QUEUED caption at an instant of release. -/
theorem releaseCue_caption (h : Placed (s.stream n).queue l c m) (kind : c.kind = .caption) (life : c.life = .queued) (due : c.due = none)
    (still : s.insertionRuns (audOfStream n) = false) (unmarked : (s.session (audOfStream n)).ending = false) (stale : Option Nat) :
    State.releaseCue stale n s c.seq =
      if s.position (audOfStream n) + (s.stream n).lead < c.start then s else s.captionReleasedIn n l m c := by
  have outstanding : c.outstanding = [] := by rw [Cue.outstanding, due]
  have looks : State.releaseCue stale n s c.seq =
      if c.start ≤ s.position (audOfStream n) + (s.stream n).lead then
        if c.start + c.length ≤ s.position (audOfStream n) then s.expireCue n c else s.captionFallsDue n c.seq
      else s := by
    rw [State.releaseCue, findCue_placed h]
    simp only [kind, life, finish_caption kind]
  rw [looks]
  by_cases early : s.position (audOfStream n) + (s.stream n).lead < c.start
  · rw [if_neg (Nat.not_le.mpr early), if_pos early]
  · rw [if_pos (Nat.not_lt.mp early), if_neg early]
    rw [expireCue_placed h still unmarked, outstanding, captionFallsDue_placed h]
    rfl

/-! ### A narration block (R113, R114) -/

theorem getD_none_eq_join {α : Type} (x : Option (Option α)) : x.getD none = x.join := by cases x <;> rfl

theorem blockHeld_eq (c : Cue) : c.blockHeld = (c.bodies[c.cursor]?).join.isSome := by
  rw [Cue.blockHeld, getD_none_eq_join]

theorem blockReached_iff (s : State) (n : StreamNo) (c : Cue) : s.blockReached n c = true ↔
    ¬ (s.position (audOfStream n) + (s.stream n).lead < c.start + 24 * c.cursor ∨ 43199999 < c.start + 24 * c.cursor) := by
  simp only [State.blockReached, Cue.blockStart, Bool.and_eq_true, not_or, not_lt]
  exact and_congr decide_eq_true_iff decide_eq_true_iff

/-- Release looks at no block of a cue that is gone, has a due record, or whose block has not reached its release time. -/
theorem lookAtBlocks_stays {x : Seq} (h : ∀ d, s.findCue n x = some d → d.due = none → s.blockReached n d = false) (fuel : Nat) :
    State.lookAtBlocks n x fuel s = s := by
  cases fuel with
  | zero => rfl
  | succ fuel =>
    rw [State.lookAtBlocks]
    split
    · rfl
    · cases e : s.findCue n x with
      | none => rfl
      | some d =>
        refine if_neg ?_
        cases due : d.due with
        | none => simp [h d e due]
        | some _ => simp

/-- Finishing with the current block of a cue alone in its queue (R114). -/
theorem finishBlock_alone (h : (s.stream n).queue = [c]) (still : s.insertionRuns (audOfStream n) = false)
    (unmarked : (s.session (audOfStream n)).ending = false) (skipped : Bool) : s.finishBlock n c skipped = s.blockPassed n c skipped := by
  simp only [State.finishBlock, State.blockPassed, ← blockHeld_eq]
  generalize counted : (if skipped = true then s.onCounters (audOfStream n) (fun k => { k with skip := bump k.skip }) else s) = v
  have counted' : (if skipped = true then
      ({ s with audCounters := change s.audCounters (audOfStream n) (fun k => { k with skip := bump k.skip }) } : State) else s) = v := counted
  have queue : (v.stream n).queue = [c] := by rw [← counted]; split <;> exact h
  have still' : v.insertionRuns (audOfStream n) = false := by rw [← counted]; split <;> exact still
  have unmarked' : (v.session (audOfStream n)).ending = false := by rw [← counted]; split <;> exact unmarked
  have placed : Placed (v.stream n).queue [] c [] := by rw [queue]; exact placed_single c
  rw [counted', freeCue_placed placed still' unmarked', onCue_placed placed, requestFree_eq]
  rfl

/-- A block's passing is asked of the state without the cue's own queue. -/
theorem blockPassed_withQueue (s : State) (n : StreamNo) (q : List Cue) (c : Cue) (skipped : Bool) :
    (s.withQueue n q).blockPassed n c skipped = s.blockPassed n c skipped := by
  simp only [State.blockPassed]
  cases skipped
  · simp [State.lastLeaves, State.withQueue, change_change]
  · simp only [if_true]
    split_ifs <;> simp [State.lastLeaves, State.withQueue, change_change]

theorem finishBlock_withQueue (still : s.insertionRuns (audOfStream n) = false) (unmarked : (s.session (audOfStream n)).ending = false)
    (skipped : Bool) : (s.withQueue n [c]).finishBlock n c skipped = s.blockPassed n c skipped := by
  have queue : ((s.withQueue n [c]).stream n).queue = [c] := by rw [withQueue_stream, if_pos rfl]
  have still' : (s.withQueue n [c]).insertionRuns (audOfStream n) = false := still
  have unmarked' : ((s.withQueue n [c]).session (audOfStream n)).ending = false := unmarked
  rw [finishBlock_alone queue still' unmarked', blockPassed_withQueue]

/-- The queue that a passed block leaves, and all else it changes. -/
theorem blockPassed_queue (s : State) (n : StreamNo) (c : Cue) (skipped : Bool) (m : StreamNo) : (s.blockPassed n c skipped).stream m =
    if n = m then { s.stream m with queue := if c.length ≤ c.cursor + 1 then [] else [c.oneBlockOn] } else s.stream m := by
  cases skipped
  · simp only [State.blockPassed]
    split_ifs <;> simp_all [State.lastLeaves, State.freeingAsked, State.withQueue, State.stream, pick_change]
  · simp only [State.blockPassed]
    split_ifs <;> simp_all [State.lastLeaves, State.freeingAsked, State.withQueue, State.stream, pick_change]

/-- A store as a request of its freeing unit leaves it. -/
def Store.otherThanFreeing (x y : Store) : Prop :=
  x.quota = y.quota ∧ x.used = y.used ∧ x.purge = y.purge ∧ x.saturationOwed = y.saturationOwed ∧ x.closeWaiting = y.closeWaiting ∧
    x.staleWaiting = y.staleWaiting

theorem Store.otherThanFreeing_refl (x : Store) : x.otherThanFreeing x := ⟨rfl, rfl, rfl, rfl, rfl, rfl⟩

theorem Store.otherThanFreeing_trans {x y z : Store} (h : x.otherThanFreeing y) (k : y.otherThanFreeing z) : x.otherThanFreeing z := by
  obtain ⟨hq, hu, hp, ho, hc, hs⟩ := h
  obtain ⟨kq, ku, kp, ko, kc, ks⟩ := k
  exact ⟨hq.trans kq, hu.trans ku, hp.trans kp, ho.trans ko, hc.trans kc, hs.trans ks⟩

theorem freeingAsked_otherThanFreeing (s : State) (a b : Aud) (k : Nat) (tag : FreeTag) :
    ((s.freeingAsked a k tag).store b).otherThanFreeing (s.store b) := by
  simp only [State.freeingAsked, State.store, pick_change]
  split <;> exact ⟨rfl, rfl, rfl, rfl, rfl, rfl⟩

theorem blockPassed_frame (s : State) (n : StreamNo) (c : Cue) (skipped : Bool) : (s.blockPassed n c skipped).clocks = s.clocks ∧
    (s.blockPassed n c skipped).sessions = s.sessions ∧ (s.blockPassed n c skipped).intakes = s.intakes ∧
    (s.blockPassed n c skipped).links = s.links ∧ ∀ b, ((s.blockPassed n c skipped).store b).otherThanFreeing (s.store b) := by
  have stores : ∀ b, ((s.blockPassed n c skipped).store b).otherThanFreeing (s.store b) := by
    intro b
    simp only [State.blockPassed, State.lastLeaves]
    split_ifs <;> first | exact freeingAsked_otherThanFreeing _ _ _ _ _ | exact Store.otherThanFreeing_refl _
  refine ⟨?_, ?_, ?_, ?_, stores⟩ <;> simp only [State.blockPassed, State.lastLeaves] <;> split_ifs <;> rfl

/-- Which ports carry a stream is asked of the link ports and of the stream's kind and language (R129). -/
theorem carriers_congr (hl : t.links = s.links) (hk : (t.stream n).kind = (s.stream n).kind) (hg : (t.stream n).language = (s.stream n).language) :
    t.carriers n = s.carriers n := by
  have link : ∀ p, t.link p = s.link p := fun p => by simp only [State.link, hl]
  simp only [State.carriers, State.accepts, State.acceptingFilters, Filter.accepts, link, hk, hg]

theorem position_congr (h : t.clocks = s.clocks) (a : Aud) : t.position a = s.position a := by
  simp only [State.position, State.clock, h]

/-- What release asks of a narration cue's next block stands while the show clock, the link ports and the stream's settings do. -/
theorem oneLook_congr (hc : t.clocks = s.clocks) (hl : t.links = s.links) (hk : (t.stream n).kind = (s.stream n).kind)
    (hg : (t.stream n).language = (s.stream n).language) (hd : (t.stream n).lead = (s.stream n).lead) : t.oneLook n c ↔ s.oneLook n c := by
  simp only [State.oneLook, position_congr hc, carriers_congr hl hk hg, hd]

/-- After a block passed the cue is gone, or its next block has not reached its release time. -/
theorem blockPassed_settled (one : c.length ≤ c.cursor + 1 ∨ s.position (audOfStream n) + (s.stream n).lead < c.start + 24 * (c.cursor + 1) ∨
    43199999 < c.start + 24 * (c.cursor + 1)) (skipped : Bool) :
    ∀ d, (s.blockPassed n c skipped).findCue n c.seq = some d → d.due = none → (s.blockPassed n c skipped).blockReached n d = false := by
  intro d found _
  obtain ⟨clocks, -, -, -, -⟩ := blockPassed_frame s n c skipped
  have stream := blockPassed_queue s n c skipped n
  rw [if_pos rfl] at stream
  rw [State.findCue, stream] at found
  rw [Bool.eq_false_iff, Ne, blockReached_iff, not_not, position_congr clocks, stream]
  by_cases last : c.length ≤ c.cursor + 1
  · simp [last, findCue] at found
  · have d_eq : c.oneBlockOn = d := by
      simp only [if_neg last, findCue] at found
      simpa [Cue.oneBlockOn] using found
    rw [← d_eq]
    exact one.resolve_left last

/-- After a block passed release looks no further. -/
theorem lookAtBlocks_passed (one : c.length ≤ c.cursor + 1 ∨ s.position (audOfStream n) + (s.stream n).lead < c.start + 24 * (c.cursor + 1) ∨
    43199999 < c.start + 24 * (c.cursor + 1)) (skipped : Bool) (fuel : Nat) :
    State.lookAtBlocks n c.seq fuel (s.blockPassed n c skipped) = s.blockPassed n c skipped :=
  lookAtBlocks_stays (blockPassed_settled one skipped) fuel

/-- Release looks once at the current block of a narration cue alone in its queue (R113). -/
theorem lookAtBlocks_alone (h : (s.stream n).queue = [c]) (kind : c.kind = .narration) (due : c.due = none)
    (life : c.life = .queued ∨ c.life = .playing) (releases : s.releases (audOfStream n) = true)
    (still : s.insertionRuns (audOfStream n) = false) (unmarked : (s.session (audOfStream n)).ending = false) (one : s.oneLook n c) (fuel : Nat) :
    State.lookAtBlocks n c.seq (fuel + 1) s = s.blockReleased n c := by
  have placed : Placed (s.stream n).queue [] c [] := by rw [h]; exact placed_single c
  have looks : State.lookAtBlocks n c.seq (fuel + 1) s =
      if s.blockReached n c then
        let d : Cue := { c with life := .playing }
        if !d.blockHeld || decide (d.blockEnd ≤ s.position (audOfStream n)) then
          State.lookAtBlocks n c.seq fuel ((s.withQueue n [d]).finishBlock n d true)
        else if (s.withQueue n [d]).carriers n = [] then
          State.lookAtBlocks n c.seq fuel ((((s.withQueue n [d]).numbered n).unroutedCounted (audOfStream n)).finishBlock n d false)
        else ((s.withQueue n [d]).onCue n c.seq (fun x => { x with due := some ((s.withQueue n [d]).newDue n) })).numbered n
      else s := by
    have alive : (c.life == .queued || c.life == .playing) = true := by rcases life with e | e <;> rw [e] <;> rfl
    rw [State.lookAtBlocks]
    simp only [releases, findCue_placed placed, kind, due, alive, onCue_placed placed, List.isEmpty_iff]
    simp only [Bool.not_true, Bool.false_eq_true, if_false, beq_self_eq_true, Option.isNone_none, Bool.true_and, List.nil_append]
    rfl
  rw [looks, State.blockReleased]
  have held : ({ c with life := .playing } : Cue).blockHeld = (c.bodies[c.cursor]?).join.isSome := blockHeld_eq _
  have carries : ∀ d, (s.withQueue n [d]).carriers n = s.carriers n := fun d =>
    carriers_congr rfl (by simp [withQueue_stream]) (by simp [withQueue_stream])
  by_cases reached : s.blockReached n c = true
  · rw [if_pos reached, if_neg ((blockReached_iff s n c).mp reached)]
    simp only [held, carries]
    by_cases skip : c.start + 24 * (c.cursor + 1) ≤ s.position (audOfStream n) ∨ (c.bodies[c.cursor]?).join.isSome = false
    · have skip' : (!(c.bodies[c.cursor]?).join.isSome || decide (({ c with life := .playing } : Cue).blockEnd ≤ s.position (audOfStream n))) = true := by
        rw [Bool.or_eq_true, Bool.not_eq_true', decide_eq_true_iff]
        exact skip.symm
      have next := one.imp_right fun x => x.imp_right fun x => x.resolve_right fun y => by
        rcases skip with over_ | spent
        · omega
        · have := y.2.1
          rw [Cue.holdsBlock, spent] at this
          cases this
      rw [if_pos skip', if_pos skip, finishBlock_withQueue still unmarked]
      exact lookAtBlocks_passed (c := { c with life := .playing }) next true fuel
    · have skip' : ¬ (!(c.bodies[c.cursor]?).join.isSome || decide (({ c with life := .playing } : Cue).blockEnd ≤ s.position (audOfStream n))) = true := by
        rw [Bool.or_eq_true, Bool.not_eq_true', decide_eq_true_iff]
        exact fun x => skip x.symm
      rw [if_neg skip', if_neg skip]
      by_cases none_ : s.carriers n = []
      · have next := one.imp_right fun x => x.imp_right fun x => x.resolve_right fun y => y.2.2 none_
        rw [if_pos none_, if_pos none_]
        have same : ((s.withQueue n [{ c with life := .playing }]).numbered n).unroutedCounted (audOfStream n) =
            ((s.numbered n).unroutedCounted (audOfStream n)).withQueue n [{ c with life := .playing }] := by
          rw [← numbered_withQueue]; rfl
        have still' : ((s.numbered n).unroutedCounted (audOfStream n)).insertionRuns (audOfStream n) = false := still
        have unmarked' : (((s.numbered n).unroutedCounted (audOfStream n)).session (audOfStream n)).ending = false := unmarked
        rw [same, finishBlock_withQueue still' unmarked']
        refine lookAtBlocks_passed (s := (s.numbered n).unroutedCounted (audOfStream n)) (c := { c with life := .playing }) ?_ false fuel
        have lead : (((s.numbered n).unroutedCounted (audOfStream n)).stream n).lead = (s.stream n).lead := by
          simp [State.numbered, State.unroutedCounted, State.stream]
        rw [lead]
        exact next
      · rw [if_neg none_, if_neg none_]
        have placed' : Placed ((s.withQueue n [{ c with life := .playing }]).stream n).queue [] { c with life := .playing } [] := by
          rw [withQueue_stream, if_pos rfl]; exact placed_single _
        have newDue : (s.withQueue n [{ c with life := .playing }]).newDue n = s.newDue n := by
          simp only [State.newDue, carries, withQueue_stream, if_pos]
        rw [newDue, numbered_withQueue]
        have changed := onCue_placed placed' (fun x => { x with due := some (s.newDue n) })
        rw [show c.seq = ({ c with life := .playing } : Cue).seq from rfl, changed]
        simp
  · rw [if_neg reached, if_pos (by rw [blockReached_iff, not_not] at reached; exact reached)]

end Sys2Proof.Machine
end

section
/-! PROOFS. An instant of release in an auditorium: each queue in turn, one cue at a time; RUN and the gate, and the sub-frame step. -/

namespace Sys2Proof.Machine

variable {s t u v : State} {a : Aud} {n : StreamNo} {c : Cue} {q l m : List Cue}

/-! ### Each cue of each queue -/

/-- A fold whose steps each leave the state leaves it. -/
theorem foldl_stays {α β : Type} {f : β → α → β} {l : List α} {b : β} (h : ∀ x ∈ l, f b x = b) : l.foldl f b = b := by
  induction l with
  | nil => rfl
  | cons x l ih =>
    rw [List.foldl_cons, h x List.mem_cons_self]
    exact ih fun y mem => h y (List.mem_cons_of_mem x mem)

variable {f : StreamNo → State → Seq → State}

theorem eachCue_stays (h : ∀ x ∈ seqs (s.stream n).queue, f n s x = s) : s.eachCue n f = s := foldl_stays h

theorem eachCue_empty (h : (s.stream n).queue = []) : s.eachCue n f = s := eachCue_stays (by simp [h, seqs])

theorem eachCue_alone (h : (s.stream n).queue = [c]) : s.eachCue n f = f n s c.seq := by
  rw [State.eachCue, h]
  rfl

/-- The cues before and after one in its queue are left as they are. -/
theorem eachCue_at (h : (s.stream n).queue = l ++ c :: m) (before : ∀ x ∈ seqs l, f n s x = s) (here : f n s c.seq = t)
    (after : ∀ x ∈ seqs m, f n t x = t) : s.eachCue n f = t := by
  have parts : seqs (l ++ c :: m) = seqs l ++ c.seq :: seqs m := by simp [seqs]
  rw [State.eachCue, h, parts, List.foldl_append, List.foldl_cons, foldl_stays before, here, foldl_stays after]

/-- The other queues of the auditorium are left as they are. -/
theorem eachCueOf_at (k : Slot) (before : ∀ j, j ≠ k → s.eachCue (streamOf a j) f = s) (here : s.eachCue (streamOf a k) f = t)
    (after : ∀ j, j ≠ k → t.eachCue (streamOf a j) f = t) : s.eachCueOf a f = t := by
  obtain ⟨l, m, split_⟩ := List.append_of_mem (List.mem_finRange k)
  have nodup : (l ++ k :: m).Nodup := split_ ▸ List.nodup_finRange 6
  have before' : ∀ j ∈ l, j ≠ k := fun j mem e => (List.nodup_append.mp nodup).2.2 j mem k List.mem_cons_self e
  have after' : ∀ j ∈ m, j ≠ k := fun j mem e => (List.nodup_cons.mp (List.nodup_append.mp nodup).2.1).1 (e ▸ mem)
  rw [State.eachCueOf, slots, split_, List.foldl_append, List.foldl_cons, foldl_stays (fun j mem => before j (before' j mem)), here,
    foldl_stays (fun j mem => after j (after' j mem))]

theorem eachCueOf_stays (h : ∀ k, s.eachCue (streamOf a k) f = s) : s.eachCueOf a f = s := foldl_stays fun k _ => h k

/-- The streams of an auditorium but one. -/
theorem streamOf_ne {j : Slot} (h : j ≠ slotOfStream n) : streamOf (audOfStream n) j ≠ n := fun e =>
  h (by rw [← slotOfStream_streamOf (audOfStream n) j, e])

theorem audOfStream_streamOf' (a : Aud) (k : Slot) : audOfStream (streamOf a k) = a := ((streamOf_eq_iff a k _).mp rfl).1

/-- With one cue in the auditorium's queues, each cue of them is that one. -/
theorem eachCueOf_only (h : s.onlyCue n c) (here : f n s c.seq = t)
    (others : ∀ m, m ≠ n → audOfStream m = audOfStream n → (t.stream m).queue = []) : s.eachCueOf (audOfStream n) f = t := by
  obtain ⟨alone, empty⟩ := h
  refine eachCueOf_at (slotOfStream n) (fun j ne => eachCue_empty (empty _ (streamOf_ne ne) (audOfStream_streamOf' _ _))) ?_
    (fun j ne => eachCue_empty (others _ (streamOf_ne ne) (audOfStream_streamOf' _ _)))
  rw [streamOf_self, eachCue_alone alone, here]

/-! ### What the position ends (R110 to R112, R114) -/

theorem endCue_queued (h : s.findCue n c.seq = some c) (life : c.life = .queued) : State.endCue n s c.seq = s := by
  rw [State.endCue, h]
  cases kind : c.kind <;> simp only [kind, life]

theorem endCue_onAir (h : s.findCue n c.seq = some c) (kind : c.kind = .caption) (life : c.life = .onAir) : State.endCue n s c.seq =
    if c.start + c.length ≤ s.position (audOfStream n) then s.freeCue n c .none else s := by
  rw [State.endCue, h]
  simp only [kind, life, finish_caption kind]

theorem endCue_due (h : s.findCue n c.seq = some c) (kind : c.kind = .caption) (life : c.life = .due) : State.endCue n s c.seq =
    if c.start + c.length ≤ s.position (audOfStream n) then s.expireCue n c else s := by
  rw [State.endCue, h]
  simp only [kind, life, finish_caption kind]

theorem endCue_waiting (h : s.findCue n c.seq = some c) (kind : c.kind = .narration) (due : c.due = none) : State.endCue n s c.seq = s := by
  rw [State.endCue, h]
  cases life : c.life <;> simp only [kind, life, due]

theorem endCue_playing (h : s.findCue n c.seq = some c) (kind : c.kind = .narration) (life : c.life = .playing) {d : DueRecord}
    (due : c.due = some d) : State.endCue n s c.seq =
      if c.start + 24 * (c.cursor + 1) ≤ s.position (audOfStream n) then
        State.lookAtBlocks n c.seq lookFuel ((s.lapses d.pending).finishBlock n c (!d.staged)) else s := by
  rw [State.endCue, h]
  simp only [kind, life, due, chargePorts_eq]
  rfl

/-! ### What release leaves as it is (R105, R113) -/

/-- A caption that is not QUEUED is none of release's. -/
theorem releaseCue_notQueued (h : s.findCue n c.seq = some c) (kind : c.kind = .caption) (life : c.life ≠ .queued) :
    State.releaseCue none n s c.seq = s := by
  rw [State.releaseCue, h]
  cases e : c.life <;> simp only [kind, e]
  exact absurd e life

/-- A cue that waits is left as it is, whatever else release has done. -/
theorem releaseCue_waits (h : s.findCue n c.seq = some c) (waits : s.waits n c) : State.releaseCue none n s c.seq = s := by
  cases kind : c.kind with
  | caption =>
    by_cases life : c.life = .queued
    · have early : s.position (audOfStream n) + (s.stream n).lead < c.start := by
        simp only [State.waits, kind] at waits
        exact waits life
      rw [State.releaseCue, h]
      simp only [kind, life, if_neg (Nat.not_le.mpr early)]
    · exact releaseCue_notQueued h kind life
  | narration =>
    have looks : State.releaseCue none n s c.seq = State.lookAtBlocks n c.seq lookFuel s := by
      rw [State.releaseCue, h]
      simp only [kind]
    rw [looks]
    refine lookAtBlocks_stays (fun d found due => ?_) _
    have same : c = d := Option.some.inj (h.symm.trans found)
    subst same
    rw [Bool.eq_false_iff, Ne, blockReached_iff, not_not]
    simp only [State.waits, kind] at waits
    exact waits due

/-! ### RUN and the gate (R15 to R19, R27, R40, R118) -/

/-- A stale resume acts on a caption on the air that covers its position. -/
theorem staleCue_covers (h : (s.stream n).queue = [c]) (kind : c.kind = .caption) (life : c.life = .onAir) {p : Nat} (from_ : c.start ≤ p)
    (until_ : p < c.start + c.length) : State.staleCue p n s c.seq =
      if s.carriers n = [] then s
      else { (s.numbered n).withQueue n [{ c with life := .due, resend := true, due := some (s.newDue n) }] with
        audCounters := change s.audCounters (audOfStream n) (fun k => { k with resent := bump k.resent }) } := by
  have placed : Placed (s.stream n).queue [] c [] := by rw [h]; exact placed_single c
  have covers : (c.kind == .caption && c.life == .onAir && c.start ≤ p && decide (p < c.finish)) = true := by
    simp [kind, life, finish_caption kind, from_, until_]
  rw [State.staleCue, findCue_placed placed]
  simp only [covers, if_true, State.reRelease, List.isEmpty_iff]
  split
  · rfl
  · rw [onCue_placed placed, takeNumber_eq, numbered_withQueue]
    rfl

theorem handStale_only (h : s.onlyCue n c) (purge : (s.store (audOfStream n)).purge = none) (kind : c.kind = .caption) (life : c.life = .onAir)
    {p : Nat} (from_ : c.start ≤ p) (until_ : p < c.start + c.length) : s.handStale (audOfStream n) p =
      if s.carriers n = [] then s
      else { (s.numbered n).withQueue n [{ c with life := .due, resend := true, due := some (s.newDue n) }] with
        audCounters := change s.audCounters (audOfStream n) (fun k => { k with resent := bump k.resent }) } := by
  have here := staleCue_covers h.1 kind life from_ until_
  rw [State.handStale, if_pos (by simp [purge])]
  refine eachCueOf_only h here fun m ne same => ?_
  split
  · exact h.2 m ne same
  · have queue := h.2 m ne same
    simpa [State.numbered, State.withQueue, State.stream, pick_change, Ne.symm ne] using queue

/-- Settles O18: the session moves by R27's table, and a stale resume is acted on or kept. -/
theorem runAndGateMoves : Obligations.RunAndGateMoves := by
  refine ⟨fun a s => captureHold_eq s a, fun a high s => ⟨fun same => ?_, fun change_ => ?_⟩, fun a on s takes => ?_,
    fun a n c s low gate paused stale ofAud only kind life from_ until_ busy => ?_⟩
  · rw [exec_runChange_eq, execRunChange, if_pos same]
  · rw [exec_runChange_eq, execRunChange, if_neg change_]
    have pins : (s.setRunPin a high).runHigh a = high := by simp
    obtain ⟨only, moves, own, runPins, -⟩ := runOrGate_moves (Near.refl (s.setRunPin a high) a)
    refine ⟨_, rfl, ?_, fun b ne => ?_, ?_, ?_, own⟩
    · rw [State.runHigh, runPins]; exact pins
    · rw [State.runHigh, runPins]
      simp [State.setRunPin, State.runHigh, pick_change, ne.symm]
    · rw [runPins]; exact only
    · rw [pins] at moves; exact moves
  · have gateOn : exec (.setGate [BitVec.ofNat 8 a.val, if on then 1 else 0]) s = .next ((s.told.setGate a on).done 4) := by
      rw [exec_setGate_eq, execSetGate]
      refine respond_of_write takes ?_
      simp only [audOf_ofNat, flagOf_bool]
      rfl
    rw [gateOn, State.setGate]
    by_cases same : (s.session a).gate = on
    · rw [if_pos (by exact same)]
      have still : s.onlyShow s a := (Near.refl s a).onlyShow (σ := none) .refl nofun
      exact ⟨_, rfl, still, rfl, rfl, by rw [if_pos same]; rfl⟩
    · rw [if_neg (by exact same)]
      obtain ⟨tables, others, stores, links, line, faults, accepted⟩ : Near s (s.onSession a (fun x => { x with gate := on })) a :=
        Near.of_show rfl (fun b hb => by simp [hb.symm, State.audRecord]) rfl rfl
      have near : Near s (s.told.onSession a (fun x => { x with gate := on })) a := ⟨tables, others, stores, links, line, faults, accepted⟩
      obtain ⟨only, moves, own, -, out⟩ := runOrGate_moves near
      refine ⟨_, rfl, only, ?_, own, ?_⟩
      · simp only [State.done, State.hold, State.onMgmt, out]
        rfl
      · rw [if_neg same]
        have session_ : (s.told.onSession a (fun x => { x with gate := on })).session a = { s.session a with gate := on } := by
          rw [State.onSession_session, if_pos rfl]; rfl
        rw [session_] at moves
        exact moves
  · subst ofAud
    rw [exec_runChange_eq, execRunChange, if_neg (by simp [low])]
    intro u
    have runs : (s.setRunPin (audOfStream n) true).runOrGate (audOfStream n) =
        ((s.setRunPin (audOfStream n) true).enterRunning (audOfStream n)).settleFills := by
      have both : ((s.setRunPin (audOfStream n) true).runHigh (audOfStream n) && (s.session (audOfStream n)).gate) = true := by simp [gate]
      simp only [State.runOrGate, State.setRunPin_session, paused, both, if_true]
    have position : u.position (audOfStream n) = s.position (audOfStream n) := by
      simp [u, State.position, State.clock, Clock.position]
    have enters : (s.setRunPin (audOfStream n) true).enterRunning (audOfStream n) = u.handStale (audOfStream n) (s.position (audOfStream n)) := by
      rw [enterRunning_eq, if_pos (by exact stale), ← position]
      rfl
    rw [runs, enters]
    refine ⟨fun purge => ?_, fun purge => ?_⟩
    · have kept : u.handStale (audOfStream n) (s.position (audOfStream n)) =
          { u with stores := change u.stores (audOfStream n) (fun st => { st with staleWaiting := some (s.position (audOfStream n)) }) } := by
        rw [State.handStale, if_neg]
        · rfl
        · rw [Option.isNone_iff_eq_none]; exact purge
      rw [kept, settleFills_still ?_ busy]
      rfl
    · have only' : u.onlyCue n c := only
      rw [handStale_only only' purge kind life from_ until_, settleFills_still ?_ busy]
      · rfl
      · split <;> rfl

end Sys2Proof.Machine
end

section
/-! PROOFS. The sub-frame step: where it places sub, and what an auditorium's cues come to at the new position. -/

namespace Sys2Proof.Machine

variable {s t u v : State} {a : Aud} {n : StreamNo} {c : Cue} {q l m : List Cue}

/-! ### What release leaves of the rest of the part -/

/-- `t` is `s` with nothing changed but stream `n`'s queue and frame number, counters and freeing units: its other queues, its clocks,
sessions, intakes and ports stand. -/
structure Beside (s t : State) (n : StreamNo) : Prop where
  clocks : t.clocks = s.clocks
  sessions : t.sessions = s.sessions
  intakes : t.intakes = s.intakes
  links : t.links = s.links
  streams : ∀ m, m ≠ n → t.stream m = s.stream m
  kind : (t.stream n).kind = (s.stream n).kind
  language : (t.stream n).language = (s.stream n).language
  lead : (t.stream n).lead = (s.stream n).lead
  stores : ∀ b, (t.store b).otherThanFreeing (s.store b)

theorem Beside.refl (s : State) (n : StreamNo) : Beside s s n := ⟨rfl, rfl, rfl, rfl, fun _ _ => rfl, rfl, rfl, rfl, fun _ => Store.otherThanFreeing_refl _⟩

theorem Beside.trans (h : Beside s t n) (k : Beside t u n) : Beside s u n :=
  ⟨k.clocks.trans h.clocks, k.sessions.trans h.sessions, k.intakes.trans h.intakes, k.links.trans h.links,
    fun m ne => (k.streams m ne).trans (h.streams m ne), k.kind.trans h.kind, k.language.trans h.language, k.lead.trans h.lead,
    fun b => Store.otherThanFreeing_trans (k.stores b) (h.stores b)⟩

theorem beside_withQueue (s : State) (n : StreamNo) (q : List Cue) : Beside s (s.withQueue n q) n := by
  refine ⟨rfl, rfl, rfl, rfl, fun m ne => ?_, ?_, ?_, ?_, fun b => Store.otherThanFreeing_refl _⟩ <;> simp [withQueue_stream]
  exact fun e => absurd e.symm ne

theorem beside_numbered (s : State) (n : StreamNo) : Beside s (s.numbered n) n := by
  refine ⟨rfl, rfl, rfl, rfl, fun m ne => ?_, ?_, ?_, ?_, fun b => Store.otherThanFreeing_refl _⟩ <;> simp [State.numbered, State.stream, pick_change]
  exact fun e => absurd e.symm ne

theorem beside_freeingAsked (s : State) (n : StreamNo) (a : Aud) (k : Nat) (tag : FreeTag) : Beside s (s.freeingAsked a k tag) n := by
  exact ⟨rfl, rfl, rfl, rfl, fun m _ => rfl, rfl, rfl, rfl, fun b => freeingAsked_otherThanFreeing s a b k tag⟩

theorem beside_lapses (s : State) (n : StreamNo) (ps : List Port) : Beside s (s.lapses ps) n :=
  ⟨rfl, rfl, rfl, rfl, fun _ _ => rfl, rfl, rfl, rfl, fun _ => Store.otherThanFreeing_refl _⟩

theorem beside_counters (s : State) (n : StreamNo) (w : Vector AudCounters 16) : Beside s { s with audCounters := w } n :=
  ⟨rfl, rfl, rfl, rfl, fun _ _ => rfl, rfl, rfl, rfl, fun _ => Store.otherThanFreeing_refl _⟩

theorem beside_lastLeaves (s : State) (n : StreamNo) (c : Cue) : Beside s (s.lastLeaves n c) n :=
  (beside_withQueue s n []).trans (beside_freeingAsked _ n _ _ _)

theorem beside_expires (s : State) (n : StreamNo) (l m : List Cue) (c : Cue) (ps : List Port) : Beside s (s.expires n l m c ps) n :=
  (((beside_counters s n _).trans (beside_lapses _ n ps)).trans (beside_withQueue _ n _)).trans (beside_freeingAsked _ n _ _ _)

theorem beside_captionReleasedIn (s : State) (n : StreamNo) (l m : List Cue) (c : Cue) : Beside s (s.captionReleasedIn n l m c) n := by
  rw [State.captionReleasedIn]
  split
  · exact beside_expires s n l m c []
  · split
    · exact ((beside_numbered s n).trans (beside_withQueue _ n _)).trans (beside_counters _ n _)
    · exact (beside_numbered s n).trans (beside_withQueue _ n _)

theorem beside_blockPassed (s : State) (n : StreamNo) (c : Cue) (skipped : Bool) : Beside s (s.blockPassed n c skipped) n := by
  obtain ⟨clocks, sessions, intakes, links, stores⟩ := blockPassed_frame s n c skipped
  have stream := blockPassed_queue s n c skipped
  refine ⟨clocks, sessions, intakes, links, fun m ne => ?_, ?_, ?_, ?_, stores⟩
  · rw [stream, if_neg ne.symm]
  · rw [stream, if_pos rfl]
  · rw [stream, if_pos rfl]
  · rw [stream, if_pos rfl]

theorem beside_blockReleased (s : State) (n : StreamNo) (c : Cue) : Beside s (s.blockReleased n c) n := by
  rw [State.blockReleased]
  split_ifs
  · exact .refl s n
  · exact beside_blockPassed s n _ true
  · exact ((beside_numbered s n).trans (beside_counters _ n _)).trans (beside_blockPassed _ n _ false)
  · exact (beside_numbered s n).trans (beside_withQueue _ n _)

theorem beside_cueReleased (s : State) (n : StreamNo) (c : Cue) : Beside s (s.cueReleased n c) n := by
  rw [State.cueReleased]
  split
  · rw [captionReleased_eq]
    split
    · exact .refl s n
    · exact beside_captionReleasedIn s n [] [] c
  · exact beside_blockReleased s n c

namespace Beside
variable (h : Beside s t n)
include h

theorem purge (b : Aud) : (t.store b).purge = (s.store b).purge := (h.stores b).2.2.1

theorem position (a : Aud) : t.position a = s.position a := position_congr h.clocks a

theorem session_eq (a : Aud) : t.session a = s.session a := by simp only [State.session, h.sessions]

theorem insertionRuns_eq (a : Aud) : t.insertionRuns a = s.insertionRuns a := by simp only [State.insertionRuns, State.intake, h.intakes]

theorem carriers_eq : t.carriers n = s.carriers n := carriers_congr h.links h.kind h.language

theorem saturated_eq (a : Aud) : t.saturated a = s.saturated a := by simp only [State.saturated, h.position, h.session_eq]

theorem releases_eq (a : Aud) : t.releases a = s.releases a := by
  simp only [State.releases, h.session_eq, h.purge, h.saturated_eq]

theorem oneLook_iff (c : Cue) : t.oneLook n c ↔ s.oneLook n c := oneLook_congr h.clocks h.links h.kind h.language h.lead

end Beside

/-! ### An instant of release with one cue in the auditorium -/

/-- An instant of release acts on the one cue there is. -/
theorem release_only (h : s.onlyCue n c) (releases : s.releases (audOfStream n) = true) (here : State.releaseCue none n s c.seq = t)
    (beside : Beside s t n) : s.release (audOfStream n) none = t := by
  rw [State.release, if_pos releases]
  exact eachCueOf_only h here fun m ne same => by rw [beside.streams m ne]; exact h.2 m ne same

/-- A QUEUED cue alone in its auditorium, or a narration cue between its blocks. -/
theorem release_cueReleased (h : s.onlyCue n c) (releases : s.releases (audOfStream n) = true)
    (still : s.insertionRuns (audOfStream n) = false) (unmarked : (s.session (audOfStream n)).ending = false) (due : c.due = none)
    (life : c.life = .queued ∨ c.kind = .narration ∧ c.life = .playing) (one : c.kind = .narration → s.oneLook n c) :
    s.release (audOfStream n) none = s.cueReleased n c := by
  have placed : Placed (s.stream n).queue [] c [] := by rw [h.1]; exact placed_single c
  refine release_only h releases ?_ (beside_cueReleased s n c)
  cases kind : c.kind with
  | caption =>
    have queued : c.life = .queued := life.resolve_right fun x => by rw [kind] at x; cases x.1
    rw [releaseCue_caption placed kind queued due still unmarked, State.cueReleased, kind]
    exact (captionReleased_eq s n c).symm
  | narration =>
    have looks : State.releaseCue none n s c.seq = State.lookAtBlocks n c.seq (255 + 1) s := by
      rw [State.releaseCue, findCue_placed placed]
      simp only [kind]
      rfl
    rw [looks, lookAtBlocks_alone h.1 kind due (life.imp_right And.right) releases still unmarked (one kind), State.cueReleased, kind]

/-- Release leaves an auditorium without cues. -/
theorem release_empty (h : ∀ m, audOfStream m = a → (s.stream m).queue = []) (stale : Option Nat) : s.release a stale = s := by
  rw [State.release]
  split
  · exact eachCueOf_stays fun k => eachCue_empty (h _ (audOfStream_streamOf' a k))
  · rfl

/-- Release leaves a cue alone in its auditorium that waits. -/
theorem release_waits (h : s.onlyCue n c) (waits : s.waits n c) : s.release (audOfStream n) none = s := by
  rw [State.release]
  split
  · refine eachCueOf_only h ?_ fun m ne same => h.2 m ne same
    have placed : Placed (s.stream n).queue [] c [] := by rw [h.1]; exact placed_single c
    exact releaseCue_waits (findCue_placed placed) waits
  · rfl

/-- A new position below the last one: the position ends what it ends, and release then looks (R104). -/
theorem positionChanged_below (below : s.position a < 43199999) (ends : s.endByPosition a = t) (same : t.position a = s.position a) :
    s.positionChanged a = t.release a none := by
  have unsat : t.saturated a = false := unsaturated (same ▸ below)
  rw [State.positionChanged, ends]
  simp only [unsat, Bool.false_eq_true, if_false]

theorem endByPosition_only (h : s.onlyCue n c) (here : State.endCue n s c.seq = t) (beside : Beside s t n) :
    s.endByPosition (audOfStream n) = t :=
  eachCueOf_only h here fun m ne same => by rw [beside.streams m ne]; exact h.2 m ne same

section alone
variable (only : s.onlyCue n c) (below : s.position (audOfStream n) < 43199999)
include only below

/-- The position ends the cue's time, and its auditorium is left without cues. -/
theorem positionChanged_leaves (here : State.endCue n s c.seq = t) (beside : Beside s t n) (gone : (t.stream n).queue = []) :
    s.positionChanged (audOfStream n) = t := by
  rw [positionChanged_below below (endByPosition_only only here beside) (beside.position _)]
  refine release_empty (fun m same => ?_) none
  by_cases e : m = n
  · rw [e]; exact gone
  · rw [beside.streams m e]
    exact only.2 m e same

/-- The position ends nothing, and the cue waits. -/
theorem positionChanged_waits (here : State.endCue n s c.seq = s) (waits : s.waits n c) : s.positionChanged (audOfStream n) = s := by
  rw [positionChanged_below below (endByPosition_only only here (.refl s n)) rfl]
  exact release_waits only waits

/-- The position ends nothing, and release looks at the cue. -/
theorem positionChanged_releases (here : State.endCue n s c.seq = s) (releases : s.releases (audOfStream n) = true)
    (still : s.insertionRuns (audOfStream n) = false) (unmarked : (s.session (audOfStream n)).ending = false) (due : c.due = none)
    (life : c.life = .queued ∨ c.kind = .narration ∧ c.life = .playing) (one : c.kind = .narration → s.oneLook n c) :
    s.positionChanged (audOfStream n) = s.cueReleased n c := by
  rw [positionChanged_below below (endByPosition_only only here (.refl s n)) rfl]
  exact release_cueReleased only releases still unmarked due life one

/-- A caption on the air at its end (R110). -/
theorem positionChanged_onAir (kind : c.kind = .caption) (life : c.life = .onAir) (still : s.insertionRuns (audOfStream n) = false)
    (unmarked : (s.session (audOfStream n)).ending = false) : s.positionChanged (audOfStream n) =
      if c.start + c.length ≤ s.position (audOfStream n) then s.lastLeaves n c else s := by
  have placed : Placed (s.stream n).queue [] c [] := by rw [only.1]; exact placed_single c
  have ends := endCue_onAir (findCue_placed placed) kind life
  split
  · next over_ =>
    refine positionChanged_leaves only below (ends.trans ?_) (beside_lastLeaves s n c) ?_
    · rw [if_pos over_]
      exact freeCue_placed placed still unmarked .none
    · simp [State.lastLeaves, State.freeingAsked, State.withQueue, State.stream]
  · next running =>
    refine positionChanged_waits only below (ends.trans (if_neg running)) ?_
    simp [State.waits, kind, life]

/-- A DUE caption at its end (R111, R112). -/
theorem positionChanged_due (kind : c.kind = .caption) (life : c.life = .due) {d : DueRecord} (due : c.due = some d)
    (still : s.insertionRuns (audOfStream n) = false) (unmarked : (s.session (audOfStream n)).ending = false) :
    s.positionChanged (audOfStream n) =
      if c.start + c.length ≤ s.position (audOfStream n) then s.cueExpires n c d.pending else s := by
  have placed : Placed (s.stream n).queue [] c [] := by rw [only.1]; exact placed_single c
  have ends := endCue_due (findCue_placed placed) kind life
  have outstanding : c.outstanding = d.pending := by rw [Cue.outstanding, due]
  split
  · next over_ =>
    refine positionChanged_leaves only below (ends.trans ?_) (beside_expires s n [] [] c d.pending) ?_
    · rw [if_pos over_, expireCue_placed placed still unmarked, outstanding]
      rfl
    · rw [← expires_alone]
      simp [State.expires, State.freeingAsked, State.withQueue, State.stream]
  · next running =>
    refine positionChanged_waits only below (ends.trans (if_neg running)) ?_
    simp [State.waits, kind, life]

end alone

/-- A narration cue without a due record waits unless its block has reached its release time. -/
theorem waits_of_notReached (kind : c.kind = .narration) (h : c.due = none → s.blockReached n c = false) : s.waits n c := by
  simp only [State.waits, kind]
  intro due
  have reached := h due
  rwa [Bool.eq_false_iff, Ne, blockReached_iff, not_not] at reached

theorem waits_blockPassed (kind : c.kind = .narration) (next : c.length ≤ c.cursor + 1 ∨
    s.position (audOfStream n) + (s.stream n).lead < c.start + 24 * (c.cursor + 1) ∨ 43199999 < c.start + 24 * (c.cursor + 1)) (skipped : Bool) :
    ((s.blockPassed n c skipped).stream n).queue = [] ∨
      ∃ x, ((s.blockPassed n c skipped).stream n).queue = [x] ∧ (s.blockPassed n c skipped).waits n x := by
  have queue : ((s.blockPassed n c skipped).stream n).queue = if c.length ≤ c.cursor + 1 then [] else [c.oneBlockOn] := by
    rw [blockPassed_queue, if_pos rfl]
  by_cases last : c.length ≤ c.cursor + 1
  · exact .inl (by rw [queue, if_pos last])
  · rw [if_neg last] at queue
    refine .inr ⟨_, queue, waits_of_notReached kind fun due => blockPassed_settled next skipped c.oneBlockOn ?_ due⟩
    have placed : Placed ((s.blockPassed n c skipped).stream n).queue [] c.oneBlockOn [] := by rw [queue]; exact placed_single _
    exact findCue_placed placed

/-- What release leaves of a narration cue's block waits (R113). -/
theorem waits_blockReleased (h : (s.stream n).queue = [c]) (kind : c.kind = .narration) (one : s.oneLook n c) :
    ((s.blockReleased n c).stream n).queue = [] ∨ ∃ x, ((s.blockReleased n c).stream n).queue = [x] ∧ (s.blockReleased n c).waits n x := by
  have next (h1 : ¬ (s.position (audOfStream n) < c.start + 24 * (c.cursor + 1) ∧ c.holdsBlock ∧ s.carriers n ≠ [])) :
      c.length ≤ c.cursor + 1 ∨ s.position (audOfStream n) + (s.stream n).lead < c.start + 24 * (c.cursor + 1) ∨
        43199999 < c.start + 24 * (c.cursor + 1) := one.imp_right fun x => x.imp_right fun x => x.resolve_right h1
  rw [State.blockReleased]
  split_ifs with early skip none_
  · refine .inr ⟨c, h, ?_⟩
    simp only [State.waits, kind]
    exact fun _ => early
  · refine waits_blockPassed (c := { c with life := .playing }) kind (next fun ⟨before, held, _⟩ => ?_) true
    rcases skip with over_ | spent
    · omega
    · rw [Cue.holdsBlock, spent] at held
      cases held
  · refine waits_blockPassed (s := (s.numbered n).unroutedCounted (audOfStream n)) (c := { c with life := .playing }) kind ?_ false
    have beside : Beside s ((s.numbered n).unroutedCounted (audOfStream n)) n := (beside_numbered s n).trans (beside_counters _ n _)
    rw [beside.position, beside.lead]
    exact next fun ⟨_, _, some_⟩ => some_ none_
  · have queue : (((s.numbered n).withQueue n [{ c with life := .playing, due := some (s.newDue n) }]).stream n).queue =
        [{ c with life := .playing, due := some (s.newDue n) }] := by rw [withQueue_stream, if_pos rfl]
    exact .inr ⟨_, queue, waits_of_notReached kind nofun⟩

/-- A PLAYING narration cue whose block holds a due record (R111, R114): before its end it waits; at its end its ports are charged, the
block is finished with, and release looks once at the next. -/
theorem positionChanged_playing (only : s.onlyCue n c) (below : s.position (audOfStream n) < 43199999) (kind : c.kind = .narration)
    (life : c.life = .playing) {d : DueRecord} (due : c.due = some d) (releases : s.releases (audOfStream n) = true)
    (still : s.insertionRuns (audOfStream n) = false) (unmarked : (s.session (audOfStream n)).ending = false) :
    (s.position (audOfStream n) < c.start + 24 * (c.cursor + 1) → s.positionChanged (audOfStream n) = s) ∧
    (c.start + 24 * (c.cursor + 1) ≤ s.position (audOfStream n) → (c.cursor + 1 < c.length → s.oneLook n c.oneBlockOn) →
      s.positionChanged (audOfStream n) =
        if c.length ≤ c.cursor + 1 then (s.lapses d.pending).blockPassed n c (!d.staged)
        else ((s.lapses d.pending).blockPassed n c (!d.staged)).blockReleased n c.oneBlockOn) := by
  have placed : Placed (s.stream n).queue [] c [] := by rw [only.1]; exact placed_single c
  have ends := endCue_playing (findCue_placed placed) kind life due
  refine ⟨fun before => ?_, fun over_ one => ?_⟩
  · refine positionChanged_waits only below (ends.trans (if_neg (Nat.not_le.mpr before))) ?_
    simp [State.waits, kind, due]
  · generalize passed : (s.lapses d.pending).blockPassed n c (!d.staged) = t
    have beside : Beside s t n := by
      rw [← passed]
      exact (beside_lapses s n d.pending).trans (beside_blockPassed _ n c _)
    have finishes : (s.lapses d.pending).finishBlock n c (!d.staged) = t := by
      rw [← passed]
      exact finishBlock_alone (s := s.lapses d.pending) only.1 still unmarked _
    have queue : (t.stream n).queue = if c.length ≤ c.cursor + 1 then [] else [c.oneBlockOn] := by
      rw [← passed, blockPassed_queue, if_pos rfl]
    rw [if_pos over_, finishes] at ends
    by_cases last : c.length ≤ c.cursor + 1
    · rw [if_pos last] at queue ⊢
      refine positionChanged_leaves only below (ends.trans ?_) beside queue
      refine lookAtBlocks_stays (fun x found _ => ?_) _
      rw [State.findCue, queue] at found
      cases found
    · rw [if_neg last] at queue ⊢
      have look := one (Nat.not_le.mp last)
      have onlyNext : t.onlyCue n c.oneBlockOn := ⟨queue, fun m ne same => by rw [beside.streams m ne]; exact only.2 m ne same⟩
      have released : State.lookAtBlocks n c.seq (255 + 1) t = t.blockReleased n c.oneBlockOn :=
        lookAtBlocks_alone (c := c.oneBlockOn) queue kind rfl (.inr life) (by rw [beside.releases_eq, releases])
          (by rw [beside.insertionRuns_eq, still]) (by rw [beside.session_eq, unmarked]) ((beside.oneLook_iff _).mpr look) 255
      have beside' : Beside s (t.blockReleased n c.oneBlockOn) n := beside.trans (beside_blockReleased t n _)
      rw [positionChanged_below below (endByPosition_only only (ends.trans released) beside') (beside'.position _)]
      have others : ∀ m, m ≠ n → audOfStream m = audOfStream n → ((t.blockReleased n c.oneBlockOn).stream m).queue = [] := fun m ne same => by
        rw [beside'.streams m ne]
        exact only.2 m ne same
      rcases waits_blockReleased (c := c.oneBlockOn) queue kind ((beside.oneLook_iff _).mpr look) with gone | ⟨x, alone, waits⟩
      · refine release_empty (fun m same => ?_) none
        by_cases e : m = n
        · rw [e]; exact gone
        · exact others m e same
      · exact release_waits ⟨alone, others⟩ waits

/-! ### Captions that fall due together (R86, R105) -/

/-- The caption as it falls due with the `i`-th of the frame numbers from `number` on. -/
def Cue.dueWith (c : Cue) (number : Byte) (pending : List Port) (i : Nat) : Cue :=
  { c with life := .due, due := some { number := number + BitVec.ofNat 8 i, pending := pending, staged := false } }

/-- The captions of `q`, behind `l` in the queue, have fallen due one after another. -/
def State.allDue (s : State) (n : StreamNo) (l q : List Cue) (ps : List Port) : State :=
  { s with streams := change s.streams n (fun st => { st with
      frameSeq := st.frameSeq + BitVec.ofNat 8 q.length
      queue := l ++ q.zipIdx.map (fun x => x.1.dueWith st.frameSeq ps x.2) }) }

theorem allDue_nil (h : (s.stream n).queue = l) (ps : List Port) : s.allDue n l [] ps = s := by
  have same : change s.streams n (fun st => { st with
      frameSeq := st.frameSeq + BitVec.ofNat 8 ([] : List Cue).length
      queue := l ++ ([] : List Cue).zipIdx.map (fun x => x.1.dueWith st.frameSeq ps x.2) }) = s.streams := bank_ext fun m => by
    rw [pick_change]
    split
    · next e =>
      subst e
      simp [← h, State.stream]
    · rfl
  rw [State.allDue, same]

theorem allDue_cons (s : State) (n : StreamNo) (l q : List Cue) (c : Cue) (ps : List Port) :
    ((s.numbered n).withQueue n (l ++ c.dueWith (s.stream n).frameSeq ps 0 :: q)).allDue n (l ++ [c.dueWith (s.stream n).frameSeq ps 0]) q ps =
      s.allDue n l (c :: q) ps := by
  have next : ∀ (i : Nat) (number : Byte), number + 1 + BitVec.ofNat 8 i = number + BitVec.ofNat 8 (i + 1) := by
    intro i number
    rw [BitVec.ofNat_add, BitVec.add_assoc, BitVec.add_comm 1]
    rfl
  have later : ∀ number : Byte, q.zipIdx.map (fun x => x.1.dueWith (number + 1) ps x.2) = (q.zipIdx 1).map (fun x => x.1.dueWith number ps x.2) := by
    intro number
    rw [List.zipIdx_succ, List.map_map]
    refine List.map_congr_left fun x _ => ?_
    simp only [Function.comp_apply, Cue.dueWith, next]
  simp only [State.allDue, State.withQueue, State.numbered, change_change]
  congr 1
  refine change_congr ?_
  simp only [later, List.zipIdx_cons, List.map_cons, List.append_assoc, List.singleton_append, List.length_cons, next]
  rfl

/-- Release takes QUEUED captions whose time has come one after another, each with the next frame number. -/
theorem foldl_releaseCue (q : List Cue) : ∀ (s : State) (l : List Cue), (s.stream n).queue = l ++ q → (seqs (l ++ q)).Nodup →
    s.insertionRuns (audOfStream n) = false → (s.session (audOfStream n)).ending = false → s.carriers n ≠ [] →
    (∀ d ∈ q, d.kind = .caption ∧ d.life = .queued ∧ d.due = none ∧ d.start ≤ s.position (audOfStream n) + (s.stream n).lead ∧
      s.position (audOfStream n) < d.start + d.length) →
    (seqs q).foldl (State.releaseCue none n) s = s.allDue n l q (s.carriers n) := by
  induction q with
  | nil =>
    intro s l queue _ _ _ _ _
    rw [List.append_nil] at queue
    exact (allDue_nil queue _).symm
  | cons c q ih =>
    intro s l queue nodup still unmarked some_ due
    obtain ⟨kind, life, none_, early, running⟩ := due c List.mem_cons_self
    have placed : Placed (s.stream n).queue l c q := by rw [queue]; exact placed_of_nodup nodup
    have zero : c.dueWith (s.stream n).frameSeq (s.carriers n) 0 = { c with life := .due, due := some (s.newDue n) } := by
      simp only [Cue.dueWith, State.newDue]
      simp
    have first : State.releaseCue none n s c.seq =
        (s.numbered n).withQueue n (l ++ c.dueWith (s.stream n).frameSeq (s.carriers n) 0 :: q) := by
      rw [releaseCue_caption placed kind life none_ still unmarked, if_neg (Nat.not_lt.mpr early), State.captionReleasedIn,
        if_neg (Nat.not_le.mpr running), if_neg some_, zero]
    have beside : Beside s ((s.numbered n).withQueue n (l ++ c.dueWith (s.stream n).frameSeq (s.carriers n) 0 :: q)) n :=
      (beside_numbered s n).trans (beside_withQueue _ n _)
    have fold : (seqs (c :: q)).foldl (State.releaseCue none n) s =
        (seqs q).foldl (State.releaseCue none n) (State.releaseCue none n s c.seq) := rfl
    rw [fold, first, ih _ (l ++ [c.dueWith (s.stream n).frameSeq (s.carriers n) 0]), beside.carriers_eq, allDue_cons]
    · rw [withQueue_stream, if_pos rfl]; simp
    · simpa [seqs, Cue.dueWith] using nodup
    · rw [beside.insertionRuns_eq, still]
    · rw [beside.session_eq, unmarked]
    · rw [beside.carriers_eq]; exact some_
    · rw [beside.position, beside.lead]
      exact fun d mem => due d (List.mem_cons_of_mem c mem)

/-- An auditorium whose queues are all QUEUED keeps them as the position moves. -/
theorem endByPosition_queued (h : ∀ m, audOfStream m = a → ∀ d ∈ (s.stream m).queue, d.life = .queued) : s.endByPosition a = s := by
  refine eachCueOf_stays fun k => eachCue_stays fun x mem => ?_
  cases found : s.findCue (streamOf a k) x with
  | none => rw [State.endCue, found]
  | some d =>
    have queued := h _ (audOfStream_streamOf' a k) d (List.mem_of_find?_eq_some found)
    rw [State.endCue, found]
    cases kind : d.kind <;> simp only [kind, queued]

/-- Captions that fall due together, the other queues of their auditorium empty. -/
theorem positionChanged_allDue (queue : (s.stream n).queue = q) (others : ∀ m, m ≠ n → audOfStream m = audOfStream n → (s.stream m).queue = [])
    (nodup : (seqs q).Nodup) (below : s.position (audOfStream n) < 43199999) (releases : s.releases (audOfStream n) = true)
    (still : s.insertionRuns (audOfStream n) = false) (unmarked : (s.session (audOfStream n)).ending = false) (some_ : s.carriers n ≠ [])
    (due : ∀ d ∈ q, d.kind = .caption ∧ d.life = .queued ∧ d.due = none ∧ d.start ≤ s.position (audOfStream n) + (s.stream n).lead ∧
      s.position (audOfStream n) < d.start + d.length) :
    s.positionChanged (audOfStream n) = s.allDue n [] q (s.carriers n) := by
  have queued : ∀ m, audOfStream m = audOfStream n → ∀ d ∈ (s.stream m).queue, d.life = .queued := by
    intro m same d mem
    by_cases e : m = n
    · subst e; rw [queue] at mem; exact (due d mem).2.1
    · rw [others m e same] at mem; cases mem
  rw [positionChanged_below below (endByPosition_queued queued) rfl, State.release, if_pos releases]
  refine eachCueOf_at (slotOfStream n) (fun j ne => eachCue_empty (others _ (streamOf_ne ne) (audOfStream_streamOf' _ _))) ?_
    (fun j ne => eachCue_empty ?_)
  · rw [streamOf_self, State.eachCue, queue]
    exact foldl_releaseCue q s [] queue nodup still unmarked some_ due
  · have other : (s.allDue n [] q (s.carriers n)).stream (streamOf (audOfStream n) j) = s.stream (streamOf (audOfStream n) j) := by
      simp [State.allDue, State.stream, pick_change, (streamOf_ne ne).symm]
    rw [other]
    exact others _ (streamOf_ne ne) (audOfStream_streamOf' _ _)

/-! ### The sub-frame step (R9, R11) -/

/-- A due sub-frame step places sub at the value that e gives it. -/
theorem settleSub_step {r : Rate} (rate : (s.clock a).rate = some r) (due : s.subStepDue a = true) : s.settleSub a =
    { s with clocks := change s.clocks a (fun c => { c with
        sub := min (min (s.now - (s.clock a).ref) 4294967295 * r.tpf / (s.clock a).period) (r.tpf - 1) }) } := by
  simp only [State.subStepDue, Bool.and_eq_true, decide_eq_true_iff] at due
  obtain ⟨moves, less⟩ := due
  have placed : (s.clock a).raiseSub (s.elapsed a) = { s.clock a with
      sub := min (min (s.now - (s.clock a).ref) 4294967295 * r.tpf / (s.clock a).period) (r.tpf - 1) } := by
    rw [Clock.raiseSub, Nat.max_eq_right less.le, Clock.subTarget, tpf_of_rate rate]
    rfl
  rw [State.settleSub, if_pos moves, State.onClock, change_congr (g := fun c => { c with
        sub := min (min (s.now - (s.clock a).ref) 4294967295 * r.tpf / (s.clock a).period) (r.tpf - 1) }) placed]

/-! ### A show that ends by its ending mark (R36) -/

theorem enterEnded_queue (s : State) (a : Aud) (m : StreamNo) : ((s.enterEnded a).stream m).queue = (s.stream m).queue := by
  simp only [State.enterEnded, State.raiseAud_stream, oweClears_stream, State.clearedStream]
  split_ifs <;> rfl

/-- The last cue leaves a show with its ending mark: the show ends. -/
theorem freeCue_last (only : s.onlyCue n c) (still : s.insertionRuns (audOfStream n) = false) (purge : (s.store (audOfStream n)).purge = none)
    (marked : (s.session (audOfStream n)).ending = true) (active : (s.session (audOfStream n)).state.isActive = true) :
    s.freeCue n c .none = (s.lastLeaves n c).enterEnded (audOfStream n) := by
  have placed : Placed (s.stream n).queue [] c [] := by rw [only.1]; exact placed_single c
  have beside := beside_lastLeaves s n c
  have empty : (s.lastLeaves n c).queuesEmpty (audOfStream n) = true := by
    simp only [State.queuesEmpty, List.all_eq_true, List.isEmpty_iff]
    intro k _
    by_cases e : streamOf (audOfStream n) k = n
    · rw [e]
      simp [State.lastLeaves, State.freeingAsked, State.withQueue, State.stream]
    · rw [beside.streams _ e]
      exact only.2 _ e (audOfStream_streamOf' _ _)
  have session : (s.lastLeaves n c).session (audOfStream n) = s.session (audOfStream n) := beside.session_eq _
  have none_ : ((s.lastLeaves n c).store (audOfStream n)).purge = none := (beside.purge _).trans purge
  rw [State.freeCue, leaveQueue_placed placed still, requestFree_eq]
  show (s.lastLeaves n c).endTest (audOfStream n) = _
  rw [State.endTest, if_pos (by simp [session, marked, active, none_, empty])]

/-- What is still worked on after an entry into ENDED keeps the state and the raised kind (R38). -/
theorem Worked.endedRaised (h : Worked σ (s.enterEnded a) t) : (t.session a).state = .ended ∧ t.raised a kindEnded :=
  ⟨h.ended_stays (enterEnded_ended s a), h.raised a kindEnded (raised_raiseAud _ a kindEnded (by decide))⟩

/-- The only cue, a caption on the air, is over in a show with its ending mark: the show ends. -/
theorem positionChanged_endsShow (only : s.onlyCue n c) (kind : c.kind = .caption) (life : c.life = .onAir)
    (over_ : c.start + c.length ≤ s.position (audOfStream n)) (still : s.insertionRuns (audOfStream n) = false)
    (purge : (s.store (audOfStream n)).purge = none) (marked : (s.session (audOfStream n)).ending = true)
    (active : (s.session (audOfStream n)).state.isActive = true) :
    s.positionChanged (audOfStream n) = ((s.lastLeaves n c).enterEnded (audOfStream n)).release (audOfStream n) none := by
  have placed : Placed (s.stream n).queue [] c [] := by rw [only.1]; exact placed_single c
  have ends := endCue_onAir (findCue_placed placed) kind life
  rw [if_pos over_, freeCue_last only still purge marked active] at ends
  have ended := enterEnded_ended (s.lastLeaves n c) (audOfStream n)
  rw [State.positionChanged, State.endByPosition, eachCueOf_only only ends fun m ne same => by
    rw [enterEnded_queue, (beside_lastLeaves s n c).streams m ne]; exact only.2 m ne same]
  simp only [State.saturated, ended, AudState.isActive, Bool.false_and, Bool.false_eq_true, if_false]

/-- Settles O14: sub is placed, and each case of a cue alone in its auditorium follows; captions that fall due together are numbered in
their order. -/
theorem subStepPlacesSub : Obligations.SubStepPlacesSub := by
  refine ⟨fun a s => rfl, fun a r s rate due => ?_⟩
  have due : s.subStepDue a = true := by simpa [State.dueTest] using due
  have moves : s.subMoves a = true := by
    simp only [State.subStepDue, Bool.and_eq_true] at due
    exact due.1
  intro sub
  have step_ : exec (.subStep a) s = .next (((s.settleSub a).positionChanged a).settleFills) := by
    rw [exec_subStep_eq, execSubStep, if_pos due]
  rw [step_, settleSub_step rate due]
  generalize stepped : ({ s with clocks := change s.clocks a (fun c => { c with sub := sub }) } : State) = u
  have running : (s.session a).state.isRunning = true := by
    simp only [State.subMoves, Bool.and_eq_true] at moves
    exact moves.1
  have releasing : (s.session a).state.isReleasing = true := by
    cases e : (s.session a).state <;> simp [e, AudState.isRunning, AudState.isReleasing] at running ⊢
  have clock_ : u.clock a = { s.clock a with sub := sub } := by
    rw [← stepped]
    simp [State.clock]
  have session_ : u.sessions = s.sessions := by rw [← stepped]
  have links_ : u.links = s.links := by rw [← stepped]
  refine ⟨?_, fun n c below ofAud => ?_⟩
  · have near : Near s u a := by
      rw [← stepped]
      refine Near.of_show rfl (fun b ne => ?_) rfl rfl
      exact ⟨by simp [State.clock, pick_change, ne.symm], rfl, rfl, rfl, rfl⟩
    have active : (u.session a).state.isActive = true := by
      rw [State.session, session_]
      exact isActive_of_isRunning running
    obtain ⟨only, clock, moved, own, -, ended⟩ := near.positionChanged active
    have shows : u.showRun a = s.showRun a ∧ u.session a = s.session a ∧ u.audCounter a = s.audCounter a := by rw [← stepped]; exact ⟨rfl, rfl, rfl⟩
    obtain ⟨run', session', counters'⟩ := shows
    rw [run', session'] at moved
    exact ⟨_, rfl, only, clock.trans clock_, moved, own.trans (by rw [counters']), ended⟩
  · subst ofAud
    have position : u.position (audOfStream n) = (s.clock (audOfStream n)).base + sub := by
      rw [State.position, clock_]
      exact Nat.min_eq_left below.le
    have below' : u.position (audOfStream n) < 43199999 := position ▸ below
    have releases (purge : (s.store (audOfStream n)).purge = none) : u.releases (audOfStream n) = true := by
      refine releases_of ?_ ?_ below'
      · rw [State.session, session_]; exact releasing
      · rw [← stepped]; exact purge
    have stands (still : s.insertionRuns (audOfStream n) = false) : u.insertionRuns (audOfStream n) = false := by rw [← stepped]; exact still
    have unmarked' (unmarked : (s.session (audOfStream n)).ending = false) : (u.session (audOfStream n)).ending = false := by
      rw [State.session, session_]; exact unmarked
    have settles {w : State} (beside : Beside u w n) (busy : s.ringsBusy) : w.settleFills = w := settleFills_still (beside.links.trans links_) busy
    refine ⟨fun only calm => ?_, fun only purge still marked kind life over_ => ?_, fun q queue others nodup calm some_ together => ?_⟩
    · have only : u.onlyCue n c := by rw [← stepped]; exact only
      obtain ⟨purge, still, unmarked, busy⟩ := calm
      refine ⟨fun life due one => ?_, fun kind life => ?_, fun d kind life due => ?_, fun kind life due one => ?_, fun d kind life due => ⟨?_, ?_⟩⟩
      · have placed : Placed (u.stream n).queue [] c [] := by rw [only.1]; exact placed_single c
        rw [positionChanged_releases only below' (endCue_queued (findCue_placed placed) life) (releases purge) (stands still)
          (unmarked' unmarked) due (.inl life) one, settles (beside_cueReleased u n c) busy]
      · rw [positionChanged_onAir only below' kind life (stands still) (unmarked' unmarked), position, settles ?_ busy]
        split
        · exact beside_lastLeaves u n c
        · exact .refl u n
      · rw [positionChanged_due only below' kind life due (stands still) (unmarked' unmarked), position, settles ?_ busy]
        split
        · exact beside_expires u n [] [] c d.pending
        · exact .refl u n
      · have placed : Placed (u.stream n).queue [] c [] := by rw [only.1]; exact placed_single c
        have released : u.cueReleased n c = u.blockReleased n c := by rw [State.cueReleased, kind]
        rw [positionChanged_releases only below' (endCue_waiting (findCue_placed placed) kind due) (releases purge) (stands still)
          (unmarked' unmarked) due (.inr ⟨kind, life⟩) (fun _ => one), released, settles (beside_blockReleased u n c) busy]
      · intro before
        rw [(positionChanged_playing only below' kind life due (releases purge) (stands still) (unmarked' unmarked)).1 (position ▸ before),
          settles (.refl u n) busy]
      · intro over_ one t
        rw [(positionChanged_playing only below' kind life due (releases purge) (stands still) (unmarked' unmarked)).2 (position ▸ over_) one,
          settles ?_ busy]
        have beside : Beside u t n := (beside_lapses u n d.pending).trans (beside_blockPassed _ n c _)
        split
        · exact beside
        · exact beside.trans (beside_blockReleased t n _)
    · have over_ : c.start + c.length ≤ u.position (audOfStream n) := position ▸ over_
      have store_ : u.store (audOfStream n) = s.store (audOfStream n) := by rw [← stepped]; rfl
      have session' : u.session (audOfStream n) = s.session (audOfStream n) := by rw [State.session, session_]; rfl
      rw [positionChanged_endsShow (by rw [← stepped]; exact only) kind life over_ (stands still) (store_ ▸ purge) (session' ▸ marked)
        (session' ▸ isActive_of_isRunning running)]
      have worked : Worked none ((u.lastLeaves n c).enterEnded (audOfStream n)) _ := Worked.settleFills (Worked.release .refl (audOfStream n) none)
      exact ⟨_, rfl, worked.endedRaised⟩
    · obtain ⟨purge, still, unmarked, busy⟩ := calm
      have carriers_ : u.carriers n = s.carriers n := by rw [← stepped]; exact carriers_congr rfl rfl rfl
      have stream_ : u.stream n = s.stream n := by rw [← stepped]; rfl
      rw [positionChanged_allDue (q := q) (by rw [stream_, queue]) (by rw [← stepped]; exact others) nodup below' (releases purge) (stands still)
        (unmarked' unmarked) (by rw [carriers_]; exact some_) (by rw [position, stream_]; exact together), carriers_,
        settleFills_still (by rw [← links_]; rfl) busy]
      rfl

end Sys2Proof.Machine
end

section
/-! PROOFS. The link ports: what a transaction changes at its own port, the READY queue behind a PULL and a DONE, and the way out of
SERVING. -/

namespace Sys2Proof.Machine

variable {s t u : State} {p : Port} {σ : Option Aud}

/-! ### A change at one port, and the fills that follow it -/

theorem change_self {α : Type} {n : Nat} {v : Vector α n} {i : Fin n} {f : α → α} (h : f (pick v i) = pick v i) : change v i f = v :=
  bank_ext fun j => by
    rw [pick_change]
    split
    · next e => rw [← e]; exact h
    · rfl

/-- Port `p` and its counters have been changed, and nothing else. -/
def State.atPort (s : State) (p : Port) (f : LinkPort → LinkPort) (g : LinkCounters → LinkCounters) : State :=
  (s.onLink p f).onLinkCounters p g

theorem atPort_atPort (s : State) (p : Port) (f f' : LinkPort → LinkPort) (g g' : LinkCounters → LinkCounters) :
    (s.atPort p f g).atPort p f' g' = s.atPort p (fun l => f' (f l)) (fun c => g' (g c)) := by
  simp only [State.atPort, State.onLink, State.onLinkCounters, change_change]

theorem atPort_congr {f f' : LinkPort → LinkPort} {g g' : LinkCounters → LinkCounters} (hf : f (s.link p) = f' (s.link p))
    (hg : g (s.linkCounter p) = g' (s.linkCounter p)) : s.atPort p f g = s.atPort p f' g' := by
  simp only [State.atPort, State.onLink, State.onLinkCounters]
  rw [change_congr (f := f) (g := f') hf, change_congr (f := g) (g := g') hg]

theorem atPort_self {f : LinkPort → LinkPort} {g : LinkCounters → LinkCounters} (hf : f (s.link p) = s.link p)
    (hg : g (s.linkCounter p) = s.linkCounter p) : s.atPort p f g = s := by
  simp only [State.atPort, State.onLink, State.onLinkCounters]
  rw [change_self hf, change_self hg]

@[simp] theorem atPort_link (s : State) (p : Port) (f : LinkPort → LinkPort) (g : LinkCounters → LinkCounters) :
    (s.atPort p f g).link p = f (s.link p) := by simp [State.atPort]

theorem onLink_eq_atPort (s : State) (p : Port) (f : LinkPort → LinkPort) : s.onLink p f = s.atPort p f (fun c => c) := by
  simp only [State.atPort, State.onLinkCounters]
  rw [change_self rfl]

theorem onLinkCounters_eq_atPort (s : State) (p : Port) (g : LinkCounters → LinkCounters) : s.onLinkCounters p g = s.atPort p (fun l => l) g := by
  rw [State.atPort, State.onLink, change_self rfl]

/-- No beacon becomes owed by the work behind an event. -/
theorem Worked.beaconOwed (h : Worked σ s t) (p : Port) (none_ : (s.link p).beaconOwed = false) : (t.link p).beaconOwed = false := by
  refine h.carries (P := fun u => (u.link p).beaconOwed = false) ?_ none_
  intro u v hn hu
  cases hn with
  | reply b r => obtain ⟨f, hf, -⟩ := placeReply_cases u b r; rw [hf]; exact hu
  | finish w => unfold State.finishWork; split <;> exact hu
  | fill q b f ends _ _ => simp only [State.onLink_link]; split <;> exact hu
  | beacon q =>
    simp only [State.onLink_link]
    split
    · rfl
    · exact hu
  | _ => exact hu

/-- A change at one port with the fills that follow it: the rest of the part stands, and of the port all but EMPTY buffers and beacon owed. -/
structure PortMoved (s t : State) (p : Port) (l : LinkPort) (k : LinkCounters) : Prop where
  only : s.onlyPort t p
  outside : (t.link p).outside = l.outside
  own : (t.linkCounter p).own = k.own
  buffer : ∀ b, l.bufferStands (t.link p) b
  owed : l.beaconOwed = false → (t.link p).beaconOwed = false

theorem atPort_settles (s : State) (p : Port) (f : LinkPort → LinkPort) (g : LinkCounters → LinkCounters) :
    PortMoved s (s.atPort p f g).settleFills p (f (s.link p)) (g (s.linkCounter p)) := by
  have fills : Worked none (s.atPort p f g) (s.atPort p f g).settleFills := Worked.settleFills .refl
  have link := atPort_link s p f g
  refine ⟨fills.onlyPort rfl fun q ne => ⟨?_, ?_, rfl⟩, ?_, ?_, fun b => ?_, fun none_ => ?_⟩
  · simp [State.atPort, ne.symm]
  · simp [State.atPort, ne.symm]
  · rw [fills.outside, link]
  · rw [fills.linkOwn]
    simp [State.atPort]
  · have buffer := fills.buffer p b
    rwa [link] at buffer
  · exact fills.beaconOwed p (by rw [link]; exact none_)

/-- A buffer that is other than EMPTY before the fills stands. -/
theorem PortMoved.kept {l : LinkPort} {k : LinkCounters} {b : BufNo} (h : PortMoved s t p l k) {x : Buffer} (held : pick l.buffers b = x)
    (some_ : x ≠ .empty) : pick (t.link p).buffers b = x := by
  rcases h.buffer b with stands | ⟨empty, -⟩
  · rw [stands, held]
  · exact absurd (held ▸ empty) some_

/-- A buffer that is EMPTY before the fills may be FILLING behind them. -/
theorem PortMoved.freed {l : LinkPort} {k : LinkCounters} {b : BufNo} (h : PortMoved s t p l k) (empty : pick l.buffers b = .empty) :
    pick (t.link p).buffers b = .empty ∨ ∃ f e, pick (t.link p).buffers b = .filling f e := by
  rcases h.buffer b with stands | ⟨-, -, filling⟩
  · exact .inl (stands.trans empty)
  · exact .inr filling

/-- A buffer that the transaction leaves alone. -/
theorem PortMoved.stands {l m : LinkPort} {k : LinkCounters} {b : BufNo} (h : PortMoved s t p l k) (buffer : pick l.buffers b = pick m.buffers b)
    (state : l.state = m.state) : m.bufferStands (t.link p) b := by
  have stands := h.buffer b
  rwa [LinkPort.bufferStands, buffer, state] at stands

/-! ### Frames (R135, 10.4) -/

theorem audCode_eq (x : AudState) : audCode x = BitVec.ofNat 8 x.code := by cases x <;> rfl

theorem rateByte_eq (r : Option Rate) : rateByte r = BitVec.ofNat 8 (rateCode r) := by
  cases r with
  | none => rfl
  | some r => cases r <;> rfl

theorem itemCode_eq (k : ItemKind) : itemCode k = BitVec.ofNat 8 k.code := by cases k <;> rfl

theorem beaconEntry_onAir (e : BeaconEntry) : e.onAir = e.bytes := by
  simp only [BeaconEntry.onAir, BeaconEntry.bytes, audCode_eq, rateByte_eq, byte1, List.cons_append, List.nil_append]

/-- The flags byte holds its bits. -/
theorem flags_bits (a b c d : Bool) (k : Fin 8) :
    let flags := BitVec.ofNat 8 ((if a then 1 else 0) + (if b then 2 else 0) + (if c then 4 else 0) + (if d then 8 else 0) + 16 * k.val)
    flags.getLsbD 0 = a ∧ flags.getLsbD 1 = b ∧ flags.getLsbD 2 = c ∧ flags.getLsbD 3 = d ∧ flags.toNat / 16 = k.val := by
  revert a b c d k; decide

theorem flagsAre_flags (i : ItemFrame) : i.flagsAre (BitVec.ofNat 8 i.flags) := by
  cases e : i.filter with
  | none => simpa [ItemFrame.flagsAre, ItemFrame.flags, e] using flags_bits i.secondCopy i.twoCopies i.robust i.late 7
  | some k =>
    simpa [ItemFrame.flagsAre, ItemFrame.flags, e] using flags_bits i.secondCopy i.twoCopies i.robust i.late (k.castLE (by decide))

theorem frame_onAir (f : Frame) : f.onAir f.bytes := by
  have entries : BeaconEntry.onAir = BeaconEntry.bytes := funext beaconEntry_onAir
  cases f with
  | item i =>
    refine ⟨_, flagsAre_flags i, ?_⟩
    simp only [Frame.bytes, ItemFrame.bytes, byte1, itemCode_eq, List.cons_append, List.nil_append, List.append_assoc]
  | beacon es => rw [Frame.onAir, entries]; rfl
  | filler es => rw [Frame.onAir, entries]; rfl
  | notServing => rfl

theorem frameExpired_iff (s : State) (f : Frame) : s.frameExpired f = true ↔ s.overdue f := by
  cases f with
  | item i =>
    cases e : i.kind <;> simp [State.frameExpired, State.overdue, State.lit, e, State.position, Clock.position, Config.maxPosition]
  | beacon es => simp [State.frameExpired, State.overdue]
  | filler es => simp [State.frameExpired, State.overdue]
  | notServing => simp [State.frameExpired, State.overdue]

/-- The beacon entries depend on the sessions, the clocks, the streams and the port's filters. -/
theorem beaconEntries_congr (hs : t.sessions = s.sessions) (hc : t.clocks = s.clocks) (hst : t.streams = s.streams)
    (hf : (t.link p).filters = (s.link p).filters) : t.beaconEntries p = s.beaconEntries p := by
  have lists : t.lists p = s.lists p := by
    funext a
    simp only [State.lists, State.accepts, State.acceptingFilters, State.session, State.stream, hs, hst, hf]
  simp only [State.beaconEntries, State.session, State.position, State.clock, hs, hc, lists]

/-! ### The READY queue (R134, R135) -/

/-- The port with some buffers emptied, one after another. -/
def LinkPort.emptyAll (l : LinkPort) (xs : List BufNo) : LinkPort := xs.foldl LinkPort.emptyOut l

theorem emptyAll_pick (xs : List BufNo) (b : BufNo) : ∀ l : LinkPort,
    pick (l.emptyAll xs).buffers b = if b ∈ xs then .empty else pick l.buffers b := by
  induction xs with
  | nil => intro l; simp [LinkPort.emptyAll]
  | cons x xs ih =>
    intro l
    show pick ((l.emptyOut x).emptyAll xs).buffers b = _
    rw [ih]
    by_cases e : x = b
    · subst e
      simp [LinkPort.emptyOut, LinkPort.setBuffer]
    · simp [LinkPort.emptyOut, LinkPort.setBuffer, pick_change, e, Ne.symm e]

theorem emptyAll_queue (xs : List BufNo) : ∀ l : LinkPort, (l.emptyAll xs).readyQueue = l.readyQueue.filter (fun x => x ∉ xs) := by
  induction xs with
  | nil => intro l; simp [LinkPort.emptyAll]
  | cons x xs ih =>
    intro l
    show ((l.emptyOut x).emptyAll xs).readyQueue = _
    rw [ih, LinkPort.emptyOut, List.filter_filter]
    refine List.filter_congr fun y _ => ?_
    by_cases e : y = x <;> simp [e]

theorem emptyAll_eq (xs : List BufNo) : ∀ l : LinkPort,
    l.emptyAll xs = { l with buffers := (l.emptyAll xs).buffers, readyQueue := (l.emptyAll xs).readyQueue } := by
  induction xs with
  | nil => intro l; rfl
  | cons x xs ih => intro l; exact ih (l.emptyOut x)

/-- The whole READY queue emptied. -/
theorem emptyAll_drained {l : LinkPort} {xs : List BufNo} (h : l.readyQueue = xs) :
    l.emptyAll xs = { l with buffers := (l.emptyAll xs).buffers, readyQueue := [] } := by
  have none_ : (l.emptyAll xs).readyQueue = [] := by rw [emptyAll_queue, h]; simp
  rw [← none_]
  exact emptyAll_eq xs l

/-- Expired frames at the head of the READY queue are dropped and counted. -/
theorem dropExpired_append (rest : List BufNo) (xs : List BufNo) : ∀ s : State, xs.Nodup →
    (∀ x ∈ xs, ∃ g, pick (s.link p).buffers x = .ready g ∧ s.frameExpired g = true) →
    State.dropExpired p (xs ++ rest) s =
      State.dropExpired p rest (s.atPort p (fun l => l.emptyAll xs) (fun c => { c with dropped := bumpBy xs.length c.dropped })) := by
  induction xs with
  | nil =>
    intro s _ _
    rw [atPort_self rfl rfl]
    rfl
  | cons x xs ih =>
    intro s nodup expired
    obtain ⟨fresh, nodup⟩ := List.nodup_cons.mp nodup
    obtain ⟨g, ready, due⟩ := expired x List.mem_cons_self
    have drop : State.dropExpired p (x :: xs ++ rest) s =
        State.dropExpired p (xs ++ rest) (s.atPort p (fun l => l.emptyOut x) (fun c => { c with dropped := bump c.dropped })) := by
      simp only [List.cons_append, State.dropExpired, ready, Buffer.frame, due, if_true]
      rfl
    rw [drop, ih _ nodup, atPort_atPort]
    · rfl
    · intro y hy
      obtain ⟨g', ready', due'⟩ := expired y (List.mem_cons_of_mem _ hy)
      have ne : x ≠ y := fun e => fresh (e ▸ hy)
      refine ⟨g', ?_, due'⟩
      simp [LinkPort.emptyOut, LinkPort.setBuffer, pick_change, ne, ready']

/-! ### PULL (R124, R125, R135) -/

/-- The port with its exchange closed and the expired frames `xs` dropped. -/
def State.afterDrops (s : State) (p : Port) (xs : List BufNo) : State :=
  s.atPort p (fun l => { l.emptyAll xs with exchange := .closed }) (fun c => { c with dropped := bumpBy xs.length c.dropped })

section drops
variable {xs rest : List BufNo} (nodup : xs.Nodup)
  (expired : ∀ x ∈ xs, ∃ g, pick (s.link p).buffers x = .ready g ∧ s.frameExpired g = true)
include nodup expired

/-- A PULL drops the expired frames at the head of the READY queue and stops at the first other one. -/
theorem dropExpired_afterDrops (queue : (s.link p).readyQueue = xs ++ rest)
    (stops : State.dropExpired p rest (s.afterDrops p xs) = s.afterDrops p xs) :
    State.dropExpired p ((s.onLink p (fun l => { l with exchange := .closed })).link p).readyQueue
      (s.onLink p (fun l => { l with exchange := .closed })) = s.afterDrops p xs := by
  have closed : ((s.onLink p (fun l => { l with exchange := .closed })).link p).readyQueue = xs ++ rest := by simpa using queue
  have dropped : (s.onLink p (fun l => { l with exchange := .closed })).atPort p (fun l => l.emptyAll xs)
      (fun c => { c with dropped := bumpBy xs.length c.dropped }) = s.afterDrops p xs := by
    rw [onLink_eq_atPort, atPort_atPort, State.afterDrops]
    refine atPort_congr ?_ rfl
    conv_lhs => rw [emptyAll_eq]
    conv_rhs => rw [emptyAll_eq]
    have buffers : (LinkPort.emptyAll { s.link p with exchange := .closed } xs).buffers = ((s.link p).emptyAll xs).buffers :=
      bank_ext fun b => by rw [emptyAll_pick, emptyAll_pick]
    have ready : (LinkPort.emptyAll { s.link p with exchange := .closed } xs).readyQueue = ((s.link p).emptyAll xs).readyQueue := by
      rw [emptyAll_queue, emptyAll_queue]
    rw [buffers, ready]
  rw [closed, dropExpired_append _ _ _ nodup, dropped, stops]
  intro x hx
  obtain ⟨g, ready, due⟩ := expired x hx
  exact ⟨g, by simpa using ready, due⟩

/-- A PULL answered with a frame of the ring. -/
theorem pullFresh_sends {b : BufNo} {f : Frame} (queue : (s.link p).readyQueue = xs ++ b :: rest) (whole : (xs ++ b :: rest).Nodup)
    (ready : pick (s.link p).buffers b = .ready f) (live : s.frameExpired f = false) :
    s.pullFresh p = s.atPort p (fun l => { (l.emptyAll xs).setBuffer b (.sending f) with
      readyQueue := rest, exchange := .buffer b, answer := answerData 6 f.bytes })
      (fun c => { c with dropped := bumpBy xs.length c.dropped }) := by
  obtain ⟨-, nodupRest, apart⟩ := List.nodup_append.mp whole
  obtain ⟨freshB, -⟩ := List.nodup_cons.mp nodupRest
  have outside : b ∉ xs := fun h => apart b h b List.mem_cons_self rfl
  have left : (xs ++ b :: rest).filter (fun x => x ∉ xs) = b :: rest := by
    rw [List.filter_append, List.filter_eq_nil_iff.mpr (by simp), List.filter_eq_self.mpr (by
      intro x hx
      simpa using fun h => apart x h x hx rfl)]
    rfl
  have behind : (b :: rest).filter (fun x => !(x == b)) = rest := by
    rw [List.filter_cons_of_neg (by simp), List.filter_eq_self.mpr (by
      intro x hx
      simpa using fun e : x = b => freshB (e ▸ hx))]
  have link : (s.afterDrops p xs).link p = { (s.link p).emptyAll xs with exchange := .closed } := atPort_link s p _ _
  have queue' : ((s.afterDrops p xs).link p).readyQueue = b :: rest := by
    rw [link]
    exact (emptyAll_queue xs _).trans (by rw [queue, left])
  have held : (pick ((s.afterDrops p xs).link p).buffers b).frame = some f := by
    rw [link]
    simp only [emptyAll_pick, if_neg outside, ready, Buffer.frame]
  have live' : (s.afterDrops p xs).frameExpired f = false := live
  have first : ((s.afterDrops p xs).link p).firstReady = some (b, f) := by
    rw [LinkPort.firstReady, queue']
    simp only [held, Option.map_some]
  have drops := dropExpired_afterDrops nodup expired queue (by simp [State.dropExpired, held, live'])
  simp only [State.pullFresh, drops, first]
  simp only [State.answerFrame, State.answer, onLink_eq_atPort, State.afterDrops, atPort_atPort]
  refine atPort_congr ?_ rfl
  simp only [LinkPort.setBuffer, emptyAll_queue, queue, left, behind]

/-- A PULL answered without a frame of the ring: with a beacon where one is owed, else with a filler, which is counted. -/
theorem pullFresh_direct (queue : (s.link p).readyQueue = xs) :
    s.pullFresh p = if (s.link p).beaconOwed then
        s.atPort p (fun l => { l.emptyAll xs with
          beaconOwed := false, exchange := .direct, answer := answerData 6 (Frame.beacon (s.beaconEntries p)).bytes })
          (fun c => { c with dropped := bumpBy xs.length c.dropped })
      else
        s.atPort p (fun l => { l.emptyAll xs with exchange := .direct, answer := answerData 6 (Frame.filler (s.beaconEntries p)).bytes })
          (fun c => { c with dropped := bumpBy xs.length c.dropped, filler := bump c.filler }) := by
  have link : (s.afterDrops p xs).link p = { (s.link p).emptyAll xs with exchange := .closed } := atPort_link s p _ _
  have empty : ((s.afterDrops p xs).link p).readyQueue = [] := by
    rw [link]
    exact (emptyAll_queue xs _).trans (by rw [queue]; simp)
  have first : ((s.afterDrops p xs).link p).firstReady = none := by rw [LinkPort.firstReady, empty]
  have owed : ((s.afterDrops p xs).link p).beaconOwed = (s.link p).beaconOwed := by
    rw [link, emptyAll_eq]
  have entries : (s.afterDrops p xs).beaconEntries p = s.beaconEntries p := by
    have filters : ((s.afterDrops p xs).link p).filters = (s.link p).filters := by rw [link, emptyAll_eq]
    exact beaconEntries_congr rfl rfl rfl filters
  have drops := dropExpired_afterDrops (rest := []) nodup expired (by simpa using queue) rfl
  simp only [State.pullFresh, drops, first, owed, entries]
  split
  · simp only [State.answerFrame, State.answer, onLink_eq_atPort, State.afterDrops, atPort_atPort]
  · simp only [State.answerFrame, State.answer, State.afterDrops, State.atPort, State.onLinkCounters, State.onLink, change_change]

end drops

/-- A PULL while SERVING has been noted: its slot recorded and the silence timer restarted (R127). -/
def State.pullNoted (s : State) (p : Port) (slot : BitVec 16) : State :=
  s.onLink p (fun l => { l with lastSlot := slot, silenceStart := if l.silenceLimit = 0 then none else some s.now })

theorem pullNoted_link (s : State) (p : Port) (slot : BitVec 16) : (s.pullNoted p slot).link p =
    { s.link p with lastSlot := slot, silenceStart := if (s.link p).silenceLimit = 0 then none else some s.now } := by
  simp [State.pullNoted]

theorem pullNoted_entries (s : State) (p : Port) (slot : BitVec 16) : (s.pullNoted p slot).beaconEntries p = s.beaconEntries p :=
  beaconEntries_congr rfl rfl rfl (by rw [pullNoted_link])

theorem enterServing_entries (s : State) (p : Port) : (s.enterServing p).beaconEntries p = s.beaconEntries p :=
  beaconEntries_congr rfl rfl rfl (by simp [State.enterServing])

/-- A PULL with no frame outstanding. -/
theorem pullServing_fresh (none_ : (s.link p).heldFrame = none) (slot : BitVec 16) : s.pullServing p slot = (s.pullNoted p slot).pullFresh p := by
  simp only [State.pullServing, none_, State.pullNoted]

theorem heldFrame_none_of {l : LinkPort} (h : ∀ c g, l.exchange = .buffer c → pick l.buffers c ≠ .sending g) : l.heldFrame = none := by
  unfold LinkPort.heldFrame
  split
  · next c e =>
    split
    · next g held => exact absurd held (h c g e)
    · rfl
  · rfl

/-- Settles O39: DOWN and ALIGNING answer NOT-SERVING, STALLED enters SERVING and answers the beacon it then owes. -/
theorem pullOutsideServing : Obligations.PullOutsideServing := by
  intro p slot s
  refine ⟨fun away => ?_, fun stalled empty queue => ?_⟩
  · have answered : exec (.pull p slot) s =
        .next ((s.onLink p (fun l => { l with lastSlot := slot, exchange := .direct })).answerFrame p .notServing) := by
      rw [exec_pull_eq, execPull]
      rcases away with e | e <;> simp only [e]
    rw [answered]
    simp only [State.answerFrame, State.answer, State.onLink, change_change]
    rfl
  · have pulled : exec (.pull p slot) s = .next ((s.enterServing p).pullServing p slot).settleFills := by
      rw [exec_pull_eq, execPull, stalled]
    have none_ : ((s.enterServing p).link p).heldFrame = none := heldFrame_none_of fun c g _ => by
      simp [State.enterServing, empty c]
    have ready : (((s.enterServing p).pullNoted p slot).link p).readyQueue = [] := by
      rw [pullNoted_link]
      simpa [State.enterServing] using queue
    have fresh := pullFresh_direct (p := p) .nil (fun x hx => absurd hx (List.not_mem_nil)) ready
    rw [if_pos (by rw [pullNoted_link]; simp [State.enterServing])] at fresh
    rw [pulled, pullServing_fresh none_, fresh, pullNoted_entries, enterServing_entries, State.pullNoted, State.enterServing, onLink_eq_atPort,
      onLink_eq_atPort, atPort_atPort, atPort_atPort]
    have moved := atPort_settles s p
    refine ⟨_, rfl, (moved _ _).only, (moved _ _).own, (moved _ _).outside.trans ?_, (moved _ _).owed rfl, fun b => (moved _ _).freed ?_⟩
    · rfl
    · simpa [LinkPort.emptyAll] using empty b

/-- Settles O41: what a PULL drops at the head of the READY queue, and what it is then answered with. -/
theorem pullServed : Obligations.PullServed := by
  refine ⟨frame_onAir, fun _ _ => rfl, frameExpired_iff, fun p slot s serving unheld => ?_⟩
  intro pulled
  have none_ : (s.link p).heldFrame = none := heldFrame_none_of unheld
  have fresh : exec (.pull p slot) s = .next ((s.pullNoted p slot).pullFresh p).settleFills := by
    rw [exec_pull_of_serving serving, pullServing_fresh none_]
  have link := pullNoted_link s p slot
  have expired' (xs : List BufNo) (h : ∀ x ∈ xs, ∃ g, pick (s.link p).buffers x = .ready g ∧ s.frameExpired g = true) :
      ∀ x ∈ xs, ∃ g, pick ((s.pullNoted p slot).link p).buffers x = .ready g ∧ (s.pullNoted p slot).frameExpired g = true := by
    rw [link]
    exact h
  refine ⟨fun xs rest b f queue nodup expired ready live => ?_, fun nodup expired => ?_⟩
  · have whole : (xs ++ b :: rest).Nodup := queue ▸ nodup
    have nodupXs := (List.nodup_append.mp whole).1
    have outside : b ∉ xs := fun h => (List.nodup_append.mp whole).2.2 b h b List.mem_cons_self rfl
    rw [fresh, pullFresh_sends nodupXs (expired' xs expired) (by rw [link]; exact queue) whole (by rw [link]; exact ready) live,
      State.pullNoted, onLink_eq_atPort, atPort_atPort]
    have moved := atPort_settles s p
    refine ⟨_, rfl, (moved _ _).only, (moved _ _).outside.trans ?_, (moved _ _).own, (moved _ _).kept (x := .sending f) ?_ (by simp), fun x hx => (moved _ _).freed ?_,
      fun c notDropped notSent => (moved _ _).stands ?_ ?_⟩
    · rw [emptyAll_eq]
      rfl
    · simp [LinkPort.setBuffer]
    · have ne : b ≠ x := fun e => outside (e ▸ hx)
      simp [LinkPort.setBuffer, pick_change, ne, emptyAll_pick, hx]
    · simp [LinkPort.setBuffer, pick_change, Ne.symm notSent, emptyAll_pick, notDropped]
    · rw [emptyAll_eq]
      rfl
  · have direct := pullFresh_direct (p := p) nodup (expired' _ expired) (by rw [link])
    have owed : ((s.pullNoted p slot).link p).beaconOwed = (s.link p).beaconOwed := by rw [link]
    rw [fresh, direct, pullNoted_entries, owed, State.pullNoted, onLink_eq_atPort]
    simp only [atPort_atPort]
    split
    · have moved := atPort_settles s p
      refine ⟨_, rfl, (moved _ _).only, fun x hx => (moved _ _).freed ?_, fun c notDropped => (moved _ _).stands ?_ ?_, (moved _ _).owed rfl, (moved _ _).own,
        (moved _ _).outside.trans ?_⟩
      · simp [emptyAll_pick, hx]
      · simp [emptyAll_pick, notDropped]
      · rw [emptyAll_eq]
      · rw [emptyAll_drained rfl]
        rfl
    · have moved := atPort_settles s p
      refine ⟨_, rfl, (moved _ _).only, fun x hx => (moved _ _).freed ?_, fun c notDropped => (moved _ _).stands ?_ ?_, (moved _ _).own, (moved _ _).outside.trans ?_⟩
      · simp [emptyAll_pick, hx]
      · simp [emptyAll_pick, notDropped]
      · rw [emptyAll_eq]
      · rw [emptyAll_drained rfl]
        rfl

/-! ### DONE (R137, R138) -/

/-- A second copy is owed of a caption sent as copy 1 of 2 and not expired. -/
theorem secondCopy_item {i : ItemFrame} (kind : i.kind = .caption) (two : i.twoCopies = true) (first : i.secondCopy = false)
    (live : s.frameExpired (.item i) = false) : s.secondCopy (.item i) = some (.item { i with secondCopy := true }) := by
  simp [State.secondCopy, kind, two, first, live]

theorem secondCopy_none {f : Frame}
    (h : (∀ i, f = .item i → ¬ (i.kind = .caption ∧ i.twoCopies = true ∧ i.secondCopy = false)) ∨ s.frameExpired f = true) :
    s.secondCopy f = none := by
  cases f with
  | item i =>
    refine if_neg ?_
    simp only [Bool.and_eq_true, beq_iff_eq, Bool.not_eq_true']
    rintro ⟨⟨⟨kind, two⟩, first⟩, live⟩
    rcases h with other | expired
    · exact other i rfl ⟨kind, two, first⟩
    · rw [expired] at live
      cases live
  | _ => rfl

/-- Settles O42: what a DONE finds, and what becomes of the frame that was SENDING. -/
theorem doneTaken : Obligations.DoneTaken := by
  refine ⟨fun p i s done => ⟨fun closed => ?_, fun open_ => ?_⟩, fun p b f s exchange sending => ?_⟩
  · rcases done with rfl | rfl
    · rw [exec_doneSent_eq, execDoneSent, closed]
      rfl
    · rw [exec_doneAborted_eq, execDoneAborted, closed]
      rfl
  · have closes : s.closeExchange p = s.onLink p (fun l => { l with exchange := .closed, answer := [1, 0] }) := by
      simp only [State.closeExchange, State.answer, State.onLink, change_change]
      rfl
    rw [← closes]
    rcases done with rfl | rfl
    · rw [exec_doneSent_eq, execDoneSent]
      rcases open_ with e | e <;> simp only [e]
    · rw [exec_doneAborted_eq, execDoneAborted]
      rcases open_ with e | e <;> simp only [e]
  · intro closed given
    have frame : (pick (s.link p).buffers b).frame = some f := by rw [sending]; rfl
    have moved := atPort_settles s p
    refine ⟨?_, ?_⟩
    · rw [exec_doneSent_eq, execDoneSent, exchange]
      simp only [frame, Option.bind_some]
      cases again : s.secondCopy f with
      | none =>
        simp only [State.closeExchange, State.answer, onLink_eq_atPort, onLinkCounters_eq_atPort, atPort_atPort]
        refine ⟨_, rfl, (moved _ _).only, (moved _ _).own, fun c ne => (moved _ _).stands ?_ rfl, fun i e kind two first live => ?_, fun _ =>
          ⟨(moved _ _).outside, (moved _ _).freed ?_⟩⟩
        · simp [LinkPort.emptyOut, LinkPort.setBuffer, pick_change, ne.symm]
        · subst e
          rw [secondCopy_item kind two first live] at again
          cases again
        · simp [LinkPort.emptyOut, LinkPort.setBuffer]
      | some g =>
        simp only [State.closeExchange, State.answer, onLink_eq_atPort, onLinkCounters_eq_atPort, atPort_atPort]
        refine ⟨_, rfl, (moved _ _).only, (moved _ _).own, fun c ne => (moved _ _).stands ?_ rfl, fun i e kind two first live =>
          ⟨(moved _ _).outside, (moved _ _).kept ?_ (by simp)⟩, fun h => ?_⟩
        · simp [LinkPort.setBuffer, pick_change, ne.symm]
        · subst e
          rw [secondCopy_item kind two first live] at again
          simp [LinkPort.setBuffer, Option.some.inj again]
        · rw [secondCopy_none h] at again
          cases again
    · rw [exec_doneAborted_eq, execDoneAborted, exchange]
      simp only [frame]
      split
      · simp only [State.closeExchange, State.answer, onLink_eq_atPort, onLinkCounters_eq_atPort, atPort_atPort]
        refine ⟨_, rfl, (moved _ _).only, fun c ne => (moved _ _).stands ?_ rfl, ⟨(moved _ _).outside, (moved _ _).freed ?_⟩, (moved _ _).own⟩
        · simp [LinkPort.emptyOut, LinkPort.setBuffer, pick_change, ne.symm]
        · simp [LinkPort.emptyOut, LinkPort.setBuffer]
      · simp only [State.closeExchange, State.answer, onLink_eq_atPort, onLinkCounters_eq_atPort, atPort_atPort]
        refine ⟨_, rfl, (moved _ _).only, fun c ne => (moved _ _).stands ?_ rfl, (moved _ _).outside, (moved _ _).kept ?_ (by simp),
          (moved _ _).own⟩
        · simp [LinkPort.setBuffer, pick_change, ne.symm]
        · simp [LinkPort.setBuffer]

/-! ### The way out of SERVING (R124, R126 to R128, R142) -/

theorem transmit_raiseLink (s : State) (p : Port) (k : Byte) (a : Aud) : (s.transmit a).raiseLink p k = (s.raiseLink p k).transmit a := by
  unfold State.transmit
  have same : (s.raiseLink p k).cuePort a = s.cuePort a := rfl
  simp only [same]
  split <;> rfl

theorem placeReply_raiseLink (s : State) (p : Port) (k : Byte) (a : Aud) (r : Reply) :
    (s.placeReply a r).raiseLink p k = (s.raiseLink p k).placeReply a r := by
  unfold State.placeReply
  have same : (s.raiseLink p k).cuePort a = s.cuePort a := rfl
  rw [same]
  split
  · exact transmit_raiseLink _ p k a
  · rfl

theorem finishWork_raiseLink (s : State) (p : Port) (k : Byte) (w : Work) : (s.finishWork w).raiseLink p k = (s.raiseLink p k).finishWork w := by
  unfold State.finishWork
  have same : (s.raiseLink p k).mgmt = s.mgmt := rfl
  rw [same]
  split <;> rfl

/-- An attention record of a link port is raised beside the work behind an event. -/
theorem Worked.raiseLink (h : Worked σ s t) (p : Port) (k : Byte) : Worked σ (s.raiseLink p k) (t.raiseLink p k) := by
  induction h with
  | refl => exact .refl
  | step _ hn ih =>
    refine ih.trans ?_
    cases hn with
    | stream n f h => exact .step .refl (.stream _ n f h)
    | cue n x f h => exact .step .refl (.cue _ n x f h)
    | drop n x => exact .step .refl (.drop _ n x)
    | walk a c w v h => exact .step .refl (.walk _ a c w v h)
    | letGo a x h hs => exact .step .refl (.letGo _ a x h hs)
    | counters a f h => exact .step .refl (.counters _ a f h)
    | linkCounters q f h => exact .step .refl (.linkCounters _ q f h)
    | store a f h => exact .step .refl (.store _ a f h)
    | ended a h hc => exact .step .refl (.ended _ a h hc)
    | fill q b f e h he => exact .step .refl (.fill _ q b f e h he)
    | beacon q => exact .step .refl (.beacon _ q)
    | draws f => exact .step .refl (.draws _ f)
    | reply a r => rw [placeReply_raiseLink]; exact .step .refl (.reply _ a r)
    | finish w => rw [finishWork_raiseLink]; exact .step .refl (.finish _ w)

/-- The port out of SERVING, its frames discarded (R126). -/
def LinkPort.departed (l : LinkPort) (dest : LinkState) : LinkPort :=
  { l with
    state := dest, buffers := Vector.replicate 3 .empty, readyQueue := [], beaconOwed := false, beaconDue := none, silenceStart := none
    exchange := match l.exchange with | .buffer _ => .void | x => x }

/-- The port has left SERVING, and is still in the clear-owed sets and pending sets. -/
def State.departed (s : State) (p : Port) (dest : LinkState) : State :=
  s.atPort p (fun l => l.departed dest) (fun c => { c with discarded := bumpBy (s.link p).frameCount c.discarded })

theorem leaveServing_eq (s : State) (p : Port) (dest : LinkState) : s.leaveServing p dest = (s.departed p dest).portOwesNothing p := rfl

theorem worked_leaveServing (s : State) (p : Port) (dest : LinkState) : Worked none (s.departed p dest) (s.leaveServing p dest) :=
  Worked.portOwesNothing .refl p

theorem frameCount_eq (l : LinkPort) :
    l.frameCount = ((List.finRange 3).filter (fun b => !(pick l.buffers b == Buffer.empty))).length := by
  have held : (fun b => (pick l.buffers b).frame.isSome) = fun b => !(pick l.buffers b == Buffer.empty) := by
    funext b
    cases pick l.buffers b <;> rfl
  rw [LinkPort.frameCount, held, bufNos]

section departed
variable {dest : LinkState} (away : dest ≠ .serving) (h : Worked none (s.departed p dest) t)
include h

theorem departed_only : s.onlyPort t p :=
  h.onlyPort rfl fun q ne => ⟨by simp [State.departed, State.atPort, ne.symm], by simp [State.departed, State.atPort, ne.symm], rfl⟩

theorem departed_outside : (t.link p).outside = ((s.link p).departed dest).outside := by
  rw [h.outside, State.departed, atPort_link]

theorem departed_own : (t.linkCounter p).own = { s.linkCounter p with
    discarded := bumpBy ((List.finRange 3).filter (fun b => !(pick (s.link p).buffers b == Buffer.empty))).length
      (s.linkCounter p).discarded }.own := by
  rw [h.linkOwn, State.departed, ← frameCount_eq]
  simp [State.atPort]

theorem departed_owed : (t.link p).beaconOwed = false := h.beaconOwed p (by rw [State.departed, atPort_link]; rfl)

include away in
theorem departed_buffer (b : BufNo) : pick (t.link p).buffers b = .empty := by
  have link : (s.departed p dest).link p = (s.link p).departed dest := atPort_link _ _ _ _
  rcases h.buffer p b with stands | ⟨-, serving, -⟩
  · rw [stands, link]
    simp [LinkPort.departed, pick]
  · rw [link] at serving
    exact absurd serving away

end departed

theorem onlyPort_onLink (h : s.onlyPort t p) (f : LinkPort → LinkPort) : s.onlyPort (t.onLink p f) p := by
  obtain ⟨tables, auds, others⟩ := h
  refine ⟨tables, auds, fun q ne => ?_⟩
  have same : (t.onLink p f).link q = t.link q := by simp [ne.symm]
  rw [State.portStands, same]
  exact others q ne

/-- Settles O45: the ways out of SERVING, and the same commands in another state. -/
theorem leavingServing : Obligations.LeavingServing := by
  refine ⟨?_, ?_⟩
  · rintro p i dest s ⟨serving, ⟨rfl, rfl, due⟩ | ⟨rfl, rfl⟩ | ⟨rfl, rfl, takes⟩⟩
    · rw [exec_silenceTimerExpires_eq, execSilenceTimerExpires, if_pos due]
      have left : Worked none ((s.raiseLink p kindStalled).departed p .stalled)
          ((s.leaveServing p .stalled).raiseLink p kindStalled).settleFills :=
        Worked.settleFills ((worked_leaveServing s p .stalled).raiseLink p kindStalled)
      have own := departed_own left
      have outside := departed_outside left
      have buffers := departed_buffer (by decide) left
      have links := left.frame.2.2.2.2.2.2.2.2.2
      refine ⟨_, rfl, left.onlyPort rfl fun q ne => ⟨?_, ?_, ?_⟩, outside.trans ?_, departed_owed left, buffers, own, fun _ => ?_, nofun⟩
      · simp [State.departed, State.atPort, ne.symm]
      · simp [State.departed, State.atPort, ne.symm]
      · simp [State.departed, State.atPort, State.raiseLink, State.onAttention, pick_change, ne.symm]
      · cases e : (s.link p).exchange <;> simp [LinkPort.outside, LinkPort.departed, e]
      · rw [links]
        simp only [State.departed, State.atPort, State.onLinkCounters_attention, State.onLink_attention, State.raiseLink, State.onAttention,
          pick_change_same]
        exact raise_raises (by decide) _
    · rw [exec_alignStart_eq, execAlignStart, if_pos (by simp [serving])]
      have left := (worked_leaveServing s p .aligning).settleFills
      generalize (s.leaveServing p .aligning).settleFills = w at left
      have own := departed_own left
      have outside := departed_outside left
      have owed := departed_owed left
      have buffers := departed_buffer (by decide) left
      refine ⟨_, rfl, onlyPort_onLink (onlyPort_onLink (departed_only left) _) _, ?_, ?_, fun b => ?_, own, nofun, nofun⟩
      · simp only [LinkPort.outside, Prod.mk.injEq, LinkPort.departed] at outside
        obtain ⟨state, filters, ready, exchange, slot, period, due, limit, start, -, -⟩ := outside
        simp [LinkPort.outside, State.answer, state, filters, ready, exchange, slot, period, due, limit, start]
        cases (s.link p).exchange <;> exact ⟨rfl, rfl⟩
      · simpa [State.answer] using owed
      · simpa [State.answer] using buffers b
    · rw [exec_resetLinkPort_eq, execResetLinkPort, write_taken takes]
      have serving' : ((s.onMgmt (fun m => { m with out := [1] })).link p).state = .serving := serving
      simp only [portOf_ofNat, State.resetLink, serving', beq_self_eq_true, if_true]
      have left := (worked_leaveServing (s.onMgmt (fun m => { m with out := [1] })) p .down).settleFills
      generalize ((s.onMgmt (fun m => { m with out := [1] })).leaveServing p .down).settleFills = w at left
      have own := departed_own left
      have outside := departed_outside left
      have buffers := departed_buffer (by decide) left
      refine ⟨_, rfl, onlyPort_onLink (departed_only left) _, ?_, ?_, fun b => ?_, own, nofun, fun _ => ?_⟩
      · simp only [LinkPort.outside, Prod.mk.injEq, LinkPort.departed] at outside
        obtain ⟨-, filters, ready, -, slot, period, -, limit, -, -, answer⟩ := outside
        have link (f : LinkPort → LinkPort) : ((w.onLink p f).done 11).link p = f (w.link p) := by
          simp [State.done, State.hold]
        simp only [link, LinkPort.outside, filters, ready, slot, period, limit, answer]
        rfl
      · simp [State.done, State.hold]
      · simpa [State.done, State.hold] using buffers b
      · have out : w.mgmt.out = [1] := left.out
        simp [State.done, State.hold, State.onMgmt, out]
  · intro p s away
    refine ⟨?_, fun takes => ?_⟩
    · rw [exec_alignStart_eq, execAlignStart, if_neg (by simp [away])]
      simp only [State.answer, State.onLink, change_change]
      rfl
    · rw [exec_resetLinkPort_eq, execResetLinkPort]
      refine respond_of_write takes ?_
      simp only [portOf_ofNat, State.resetLink]
      rw [if_neg (by simp [away])]
      rfl

end Sys2Proof.Machine
end

section
/-! PROOFS. A cue port's transmitter: flow control, the replies and their order on the line. -/

namespace Sys2Proof.Machine

variable {s t u : State} {a : Aud}

/-! ### The transmitter (R44, R56 to R58) -/

theorem onPort_onPort (s : State) (a : Aud) (f g : CuePort → CuePort) : (s.onPort a f).onPort a g = s.onPort a (fun p => g (f p)) := by
  simp only [State.onPort, change_change]

theorem onPort_congr {f g : CuePort → CuePort} (h : f (s.cuePort a) = g (s.cuePort a)) : s.onPort a f = s.onPort a g := by
  simp only [State.onPort]
  rw [change_congr (f := f) (g := g) h]

theorem onPort_self {f : CuePort → CuePort} (h : f (s.cuePort a) = s.cuePort a) : s.onPort a f = s := by
  simp only [State.onPort]
  rw [change_self h]

theorem sent_length (x : Sent) : x.bytes.length = match x with
    | .flow _ => 2 | .reply (.refuse _ _ _) => 6 | .reply (.jumpSeen _ _) => 10 | .reply (.status _ _ _ _ _) => 12 := by
  rcases x with f | r
  · cases f <;> rfl
  · cases r <;> rfl

/-- A reply's characters begin a break of one character time and one bit time on (R58). -/
theorem transmission_eq (s : State) (p : CuePort) (x : Sent) : s.transmission p x =
    { sent := x, left := x.bytes.length, divisor := p.divisor, parity := p.parity
      boundary := s.now + ((if p.parity = .none then 10 else 11) + 1) * 16 * p.divisor } := by
  have boundary : s.now + charTime p.divisor p.parity + bitTime p.divisor =
      s.now + ((if p.parity = .none then 10 else 11) + 1) * 16 * p.divisor := by
    rw [charTime_eq, bitTime]
    ring
  rw [State.transmission, boundary]

/-- The port as it takes a flow-control reply. -/
def State.flowPlaced (s : State) (f : FlowReply) (outstanding : Bool) (q : CuePort) : CuePort :=
  match q.transmission with
  | none => { q with
      holdOutstanding := outstanding, flowPlace := none
      transmission := some { sent := .flow f, left := 2, divisor := q.divisor, parity := q.parity
                             boundary := s.now + ((if q.parity = .none then 10 else 11) + 1) * 16 * q.divisor } }
  | some _ => { q with holdOutstanding := outstanding, flowPlace := some f }

theorem transmit_flowPlaced (s : State) (a : Aud) (f : FlowReply) (o : Bool) :
    (s.onPort a (fun p => { p with flowPlace := some f, holdOutstanding := o })).transmit a = s.onPort a (s.flowPlaced f o) := by
  unfold State.transmit
  cases e : (s.cuePort a).transmission with
  | none =>
    simp only [State.onPort_cuePort, if_true, e, onPort_onPort]
    refine onPort_congr ?_
    simp only [State.flowPlaced, e, transmission_eq, sent_length]
    rfl
  | some t =>
    simp only [State.onPort_cuePort, if_true, e]
    refine onPort_congr ?_
    simp only [State.flowPlaced, e]

/-- Settles O23: the causes of a HOLD and of a RESUME, and what an evaluation places. -/
theorem flowControl : Obligations.FlowControl := by
  intro a s p left quotaCause place
  have placed (f : FlowReply) (o : Bool) :
      (s.onPort a (fun p => { p with flowPlace := some f, holdOutstanding := o })).transmit a = place f o := transmit_flowPlaced s a f o
  have quota : s.quotaCause a = true ↔ quotaCause := by
    simp only [State.quotaCause, Bool.and_eq_true, Bool.not_eq_true', beq_eq_false_iff_ne, decide_eq_true_eq]
    rfl
  have queue : s.queueCause a = true ↔ 24 ≤ p.queue.length := decide_eq_true_iff
  have room : s.mayResume a = true ↔ p.queue.length ≤ 8 ∧ ((s.session a).state = .dark ∨ 96 ≤ left) := by
    simp only [State.mayResume, Bool.and_eq_true, Bool.or_eq_true, beq_iff_eq, decide_eq_true_eq]
    rfl
  refine ⟨fun none_ full fine => ?_, fun none_ short => ?_, fun none_ room_ fine => ?_, fun held few many => ?_, fun held busy => ?_⟩
  · have fine' : s.quotaCause a = false := Bool.eq_false_iff.mpr (quota.not.mpr fine)
    rw [State.flow, if_neg (by simpa using none_), if_pos (by simp [queue.mpr full])]
    simp only [fine', Bool.false_eq_true, if_false, placed]
  · rw [State.flow, if_neg (by simpa using none_), if_pos (by simp [quota.mpr short])]
    simp only [quota.mpr short, if_true, placed]
  · have fine' : s.quotaCause a = false := Bool.eq_false_iff.mpr (quota.not.mpr fine)
    have few : s.queueCause a = false := Bool.eq_false_iff.mpr (queue.not.mpr (by omega))
    rw [State.flow, if_neg (by simpa using none_), if_neg (by simp [fine', few])]
  · rw [State.flow, if_pos held, if_pos (room.mpr ⟨few, many⟩), placed]
  · rw [State.flow, if_pos held, if_neg]
    rw [room]
    rintro ⟨few, dark | many⟩
    · rcases busy with full | ⟨lit, -⟩
      · omega
      · exact lit dark
    · rcases busy with full | ⟨-, short⟩ <;> omega

/-! ### Two-byte and four-byte fields (00_scope, Conventions) -/

theorem number_byte2 (n : Nat) : number (byte2 n) = n % 65536 := by
  simp only [byte2, number, List.length_cons, List.length_nil, BitVec.toNat_ofNat]
  omega

theorem number_byte4 (n : Nat) : number (byte4 n) = n % 4294967296 := by
  simp only [byte4, number, List.length_cons, List.length_nil, BitVec.toNat_ofNat]
  omega

theorem reasonCode_eq (r : Reason) : reasonCode r = BitVec.ofNat 8 r.code := by cases r <;> rfl

theorem sent_onLine (x : Sent) : x.bytes = x.onLine := by
  rcases x with f | r
  · cases f <;> rfl
  · cases r with
    | refuse kind seq reason => simp only [Sent.bytes, Reply.bytes, Sent.onLine, byte1, reasonCode_eq]
    | jumpSeen old new => rfl
    | status state position used quota ending =>
      simp only [Sent.bytes, Reply.bytes, Sent.onLine, byte1, byteFlag, audCode_eq, List.cons_append, List.nil_append]

/-- Settles O24: what the transmitter begins when a reply has been sent. -/
theorem replySentNext : Obligations.ReplySentNext := by
  refine ⟨sent_onLine, fun n => ⟨rfl, number_byte2 n, rfl, number_byte4 n⟩, fun a s due => ?_⟩
  have due : s.replyDue a = true := by simpa [State.dueTest] using due
  rw [exec_replySent_eq, execReplySent, if_pos due]
  refine congrArg _ ?_
  unfold State.transmit
  simp only [State.onPort_cuePort, if_true]
  cases flow : (s.cuePort a).flowPlace with
  | some f =>
    simp only [onPort_onPort]
    refine onPort_congr ?_
    simp only [flow, transmission_eq, sent_length]
    rfl
  | none =>
    cases replies : (s.cuePort a).replies with
    | nil =>
      refine onPort_congr ?_
      simp only [flow, replies]
    | cons r rest =>
      simp only [onPort_onPort]
      refine onPort_congr ?_
      simp only [flow, replies, transmission_eq, sent_length]
      cases r <;> rfl

end Sys2Proof.Machine
end

section
/-! PROOFS. Records on a line at rest: how they are paired with the assembly context, and the refusals that need no cue. -/

namespace Sys2Proof.Machine

variable {s t u : State} {a : Aud}

/-! ### Pairing (R64) -/

theorem setContext_self {x : Context} (h : (s.intake a).context = x) : s.setContext a x = s := by
  have same : change s.intakes a (fun i => { i with context := x }) = s.intakes := change_self (by
    have e : (pick s.intakes a).context = x := h
    rw [← e])
  show ({ s with intakes := change s.intakes a (fun i => { i with context := x }) } : State) = s
  rw [same]

/-- A record that is neither MARK nor BODY. -/
def Record.isOther : Record → Prop
  | .framed kind _ => kind ≠ markCode ∧ kind ≠ bodyCode
  | .damaged _ | .truncated _ => True

/-- With no cue open or being inserted, a record other than MARK and BODY closes the context and is taken by its own rules. -/
theorem pairRecord_closed (still : s.insertionRuns a = false) (closed : ∀ c n, (s.intake a).context ≠ .opened c n) {r : Record}
    (other : r.isOther) : s.pairRecord a r = (s.setContext a .idle).takeOther a r := by
  have same (e : (s.intake a).context = .idle) : s.setContext a .idle = s := setContext_self e
  cases e : (s.intake a).context with
  | opened c n => exact absurd e (closed c n)
  | inserting c w => simp [State.insertionRuns, e] at still
  | idle =>
    cases r with
    | framed kind fields => simp only [State.pairRecord, if_neg other.1, if_neg other.2, e, same]
    | _ => simp only [State.pairRecord, e, same]
  | skipping n =>
    cases r with
    | framed kind fields => simp only [State.pairRecord, if_neg other.1, if_neg other.2, e]
    | _ => simp only [State.pairRecord, e]

theorem atRest_iff (s : State) (a : Aud) : s.atRest a = true ↔
    (s.cuePort a).framing = .between ∧ (s.cuePort a).queue = [] ∧ s.paused a = false ∧ (s.intake a).deferred = [] := by
  simp only [State.atRest, Bool.and_eq_true, beq_iff_eq, List.isEmpty_iff, Bool.not_eq_true', and_assoc]

/-- No insertion, no purge and no freeing request is in progress. -/
theorem paused_iff_false (s : State) (a : Aud) : s.paused a = false ↔
    s.insertionRuns a = false ∧ (s.store a).purge = none ∧ (s.store a).freeing = [] := by
  have walks : s.storeWalks a = (s.insertionRuns a || (s.store a).purge.isSome) := by
    unfold State.storeWalks State.insertionRuns
    cases (s.intake a).context <;> rfl
  simp [State.paused, walks, and_assoc]

theorem atRest_still (h : s.atRest a = true) : s.insertionRuns a = false :=
  ((paused_iff_false s a).mp ((atRest_iff s a).mp h).2.2.1).1

/-- A record on a line at rest, with no cue open. -/
theorem recordArrives_closed (rest : s.atRest a = true) (closed : ∀ c n, (s.intake a).context ≠ .opened c n) {kind : Byte} {fields : List Byte}
    (other : (Record.framed kind fields).isOther) :
    s.recordArrives a kind fields = (s.setContext a .idle).takeOther a (.framed kind fields) := by
  rw [recordArrives_of_atRest rest, pairRecord_closed (atRest_still rest) closed other]

theorem exec_withdraw_closed (rest : s.atRest a = true) (closed : ∀ c n, (s.intake a).context ≠ .opened c n) (fields : List Byte) :
    exec (.withdraw a fields) s = .next ((s.setContext a .idle).takeWithdraw a fields) := by
  rw [exec_withdraw_eq, execWithdraw, recordArrives_closed rest closed ⟨by decide, by decide⟩]
  rfl

theorem exec_endRecord_closed (rest : s.atRest a = true) (closed : ∀ c n, (s.intake a).context ≠ .opened c n) (fields : List Byte) :
    exec (.endRecord a fields) s = .next ((s.setContext a .idle).takeEndRecord a fields) := by
  rw [exec_endRecord_eq, execEndRecord, recordArrives_closed rest closed ⟨by decide, by decide⟩]
  rfl

theorem exec_query_closed (rest : s.atRest a = true) (closed : ∀ c n, (s.intake a).context ≠ .opened c n) (fields : List Byte) :
    exec (.query a fields) s = .next ((s.setContext a .idle).takeQuery a fields) := by
  rw [exec_query_eq, execQuery, recordArrives_closed rest closed ⟨by decide, by decide⟩]
  rfl

theorem exec_head_closed (rest : s.atRest a = true) (closed : ∀ c n, (s.intake a).context ≠ .opened c n) (fields : List Byte) :
    exec (.head a fields) s = .next ((s.setContext a .idle).takeHead a fields) := by
  rw [exec_head_eq, execHead, recordArrives_closed rest closed ⟨by decide, by decide⟩]
  rfl

/-! ### Refusals in the order of their checks (R29, R35, R63, R79, R80) -/

theorem takeMark_refuses {m : Nat} {reason : Reason} (h : if (s.session a).state = .dark then reason = .notArmed
      else if (s.session a).state = .ended then reason = .ending else 43199999 < m ∧ reason = .badMark) :
    s.takeMark a m = s.refuse a markCode 0 reason := by
  unfold State.takeMark
  cases e : (s.session a).state <;> simp only [e, reduceCtorEq, if_true, if_false] at h
  case dark => rw [h]
  case ended => rw [h]
  all_goals
    obtain ⟨beyond, rfl⟩ := h
    exact if_pos beyond

theorem takeMarkRecord_refuses {fields : List Byte} {reason : Reason} (h : if fields.length ≠ 4 then reason = .badField
      else if (s.session a).state = .dark then reason = .notArmed
      else if (s.session a).state = .ended then reason = .ending else 43199999 < number fields ∧ reason = .badMark) :
    s.takeMarkRecord a fields = s.refuse a markCode 0 reason := by
  by_cases four : fields.length = 4
  · rw [if_neg (by simpa using four)] at h
    match fields, four with
    | [m3, m2, m1, m0], _ => exact takeMark_refuses h
  · rw [if_pos four] at h
    subst h
    unfold State.takeMarkRecord
    split
    · exact absurd rfl four
    · rfl

theorem takeWithdraw_refuses {fields : List Byte} {reason : Reason} (h : if fields.length ≠ 5 then reason = .badField
      else if (s.session a).state = .dark then reason = .notArmed
      else if (s.session a).state = .ended then reason = .ending
      else if ∀ k, slotOf (fields.headD 0) = some k → (s.stream (streamOf a k)).isOpen = false then reason = .streamClosed
      else 43199999 < number fields.tail ∧ reason = .badField) :
    s.takeWithdraw a fields = s.refuse a withdrawCode 0 reason := by
  by_cases five : fields.length = 5
  · rw [if_neg (by simpa using five)] at h
    match fields, five with
    | [k, t3, t2, t1, t0], _ =>
      simp only [State.takeWithdraw, beq_iff_eq]
      split_ifs at h with dark ended closed
      · simp only [dark, if_true, h]
      · simp only [ended, reduceCtorEq, if_false, if_true, h]
      · simp only [dark, ended, if_false]
        cases named : slotOf k with
        | none => rw [h]
        | some slot =>
          have shut := closed slot named
          simp only [shut, Bool.not_false, if_true, h]
      · obtain ⟨beyond, rfl⟩ := h
        push Not at closed
        obtain ⟨slot, named, open_⟩ := closed
        have named : slotOf k = some slot := named
        have open_ : (s.stream (streamOf a slot)).isOpen = true := by simpa using open_
        simp only [dark, ended, if_false, named, open_, Bool.not_true, Bool.false_eq_true]
        exact if_pos beyond
  · rw [if_pos five] at h
    subst h
    unfold State.takeWithdraw
    split
    · exact absurd rfl five
    · rfl

theorem takeEndRecord_refuses {fields : List Byte} {reason : Reason} (h : if fields ≠ [] then reason = .badField
      else if (s.session a).state = .dark then reason = .notArmed else (s.session a).state = .ended ∧ reason = .ending) :
    s.takeEndRecord a fields = s.refuse a endCode 0 reason := by
  unfold State.takeEndRecord
  by_cases empty : fields = []
  · rw [if_neg (by simpa using empty)] at h
    rw [if_pos (by simp [empty])]
    unfold State.takeEnd
    split_ifs at h with dark
    · rw [dark, h]
    · obtain ⟨ended, rfl⟩ := h
      rw [ended]
  · rw [if_pos empty] at h
    rw [if_neg (by simpa using empty), h]

/-- Settles O26: the first check that fails gives the reason. -/
theorem recordsRefused : Obligations.RecordsRefused := by
  refine ⟨fun a fields s rest reason h => ?_, fun a fields reason s rest closed => ⟨fun h => ?_, fun h => ?_, fun some_ => ?_⟩⟩
  · refine ⟨_, ?_, refused_refuse s a markCode 0 reason⟩
    rw [exec_mark_eq, execMark, recordArrives_of_atRest rest]
    have taken : s.pairRecord a (.framed markCode fields) = s.takeMarkRecord a fields := by simp only [State.pairRecord, if_pos]
    rw [taken, takeMarkRecord_refuses h]
  · refine ⟨_, ?_, refused_refuse _ a withdrawCode 0 reason⟩
    rw [exec_withdraw_closed rest closed, takeWithdraw_refuses (s := s.setContext a .idle) h]
  · refine ⟨_, ?_, refused_refuse _ a endCode 0 reason⟩
    rw [exec_endRecord_closed rest closed, takeEndRecord_refuses (s := s.setContext a .idle) h]
  · refine ⟨_, ?_, refused_refuse _ a queryCode 0 .badField⟩
    rw [exec_query_closed rest closed, State.takeQuery, if_neg (by simpa using some_)]

end Sys2Proof.Machine
end

section
/-! PROOFS. The line side of a cue port: what the receiver, the queue and the assembler change, entry by entry. -/

namespace Sys2Proof.Machine

variable {s t u v : State} {a : Aud}

/-! ### Changes of one cue port's line (R47 to R56) -/

/-- `t` is `s` with auditorium `a`'s cue port and attention record changed, the reply queue as it was, and nothing else. -/
structure Hushed (s t : State) (a : Aud) : Prop where
  rest : t = { s with cuePorts := t.cuePorts, attention := { s.attention with auds := t.attention.auds } }
  others : ∀ b, b ≠ a → t.cuePort b = s.cuePort b ∧ t.audRecord b = s.audRecord b
  replies : (t.cuePort a).replies = (s.cuePort a).replies

theorem Hushed.refl (s : State) (a : Aud) : Hushed s s a := ⟨rfl, fun _ _ => ⟨rfl, rfl⟩, rfl⟩

theorem Hushed.trans (h : Hushed s t a) (k : Hushed t u a) : Hushed s u a := by
  refine ⟨?_, fun b ne => ⟨(k.others b ne).1.trans (h.others b ne).1, (k.others b ne).2.trans (h.others b ne).2⟩, k.replies.trans h.replies⟩
  have rest := k.rest
  rw [h.rest] at rest
  exact rest

theorem hushed_onPort (s : State) (a : Aud) (f : CuePort → CuePort) (h : ∀ p, (f p).replies = p.replies) : Hushed s (s.onPort a f) a := by
  refine ⟨rfl, fun b ne => ⟨by simp [ne.symm], rfl⟩, ?_⟩
  simp [h]

theorem hushed_raiseAud (s : State) (a : Aud) (k : Byte) : Hushed s (s.raiseAud a k) a :=
  ⟨rfl, fun b ne => ⟨rfl, by rw [raiseAud_audRecord, if_neg ne.symm]⟩, rfl⟩

theorem Hushed.paused_eq (h : Hushed s t a) (b : Aud) : t.paused b = s.paused b := by rw [h.rest]; rfl
theorem Hushed.intake_eq (h : Hushed s t a) (b : Aud) : t.intake b = s.intake b := by rw [h.rest]; rfl

/-- What flow control leaves of a cue port. -/
def CuePort.listening (p : CuePort) :=
  (p.divisor, p.parity, p.lineDivisor, p.lineParity, p.receiver, p.gapTimer, p.queue, p.framing, p.damaged)

theorem flowPlaced_listening (s : State) (f : FlowReply) (o : Bool) (p : CuePort) :
    (s.flowPlaced f o p).listening = p.listening ∧ (s.flowPlaced f o p).replies = p.replies := by
  unfold State.flowPlaced
  cases p.transmission <;> exact ⟨rfl, rfl⟩

/-- Flow control changes nothing but what the port sends next, and its attention record. -/
theorem flow_hushed (s : State) (a : Aud) : Hushed s (s.flow a) a ∧ ((s.flow a).cuePort a).listening = (s.cuePort a).listening := by
  have placed (f : FlowReply) (o : Bool) : Hushed s (s.onPort a (s.flowPlaced f o)) a ∧
      ((s.onPort a (s.flowPlaced f o)).cuePort a).listening = (s.cuePort a).listening :=
    ⟨hushed_onPort s a _ fun p => (flowPlaced_listening s f o p).2, by simp [(flowPlaced_listening s f o _).1]⟩
  unfold State.flow
  simp only [transmit_flowPlaced]
  split_ifs
  · exact placed _ _
  · exact ⟨.refl s a, rfl⟩
  · exact ⟨(placed _ _).1.trans (hushed_raiseAud _ a _), (placed _ _).2⟩
  · exact placed _ _
  · exact ⟨.refl s a, rfl⟩

theorem flow_queue (s : State) (a : Aud) : ((s.flow a).cuePort a).queue = (s.cuePort a).queue := by
  have line := (flow_hushed s a).2
  simp only [CuePort.listening, Prod.mk.injEq] at line
  exact line.2.2.2.2.2.2.1

theorem flow_framing (s : State) (a : Aud) : ((s.flow a).cuePort a).framing = (s.cuePort a).framing := by
  have line := (flow_hushed s a).2
  simp only [CuePort.listening, Prod.mk.injEq] at line
  exact line.2.2.2.2.2.2.2.1

theorem flow_damaged (s : State) (a : Aud) : ((s.flow a).cuePort a).damaged = (s.cuePort a).damaged := by
  have line := (flow_hushed s a).2
  simp only [CuePort.listening, Prod.mk.injEq] at line
  exact line.2.2.2.2.2.2.2.2

/-! ### Discarded records (R51, R52) -/

theorem discardDamaged_lineErrored (s : State) (a : Aud) (kind : Option Byte) : s.lineErrored (s.discardDamaged a kind) a kind := by
  have gains := placeReply_gainsReply (s.onCounters a (fun c => { c with refused := bump c.refused })) a (.refuse (kind.getD 0) 0 .lineError)
  obtain ⟨f, placed, line, -⟩ :=
    placeReply_cases (s.onCounters a (fun c => { c with refused := bump c.refused })) a (.refuse (kind.getD 0) 0 .lineError)
  have discarded : s.discardDamaged a kind =
      (((s.onCounters a (fun c => { c with refused := bump c.refused })).onPort a f).onCounters a
        (fun c => { c with lineFault := bump c.lineFault })).raiseAud a kindLineFault := by
    rw [State.discardDamaged, State.lineFault, State.refuse, placed]
  rw [placed] at gains
  rw [discarded]
  refine ⟨?_, fun b ne => ?_, ?_, ?_⟩
  · simp only [State.onCounters, State.onPort, change_change]
    rfl
  · simp [ne.symm]
  · simpa using gains
  · simpa using line

theorem discardDamaged_raised (s : State) (a : Aud) (kind : Option Byte) : (s.discardDamaged a kind).raised a kindLineFault :=
  raised_raiseAud _ a _ (by decide)

theorem kindTaken_eq (p : CuePort) : p.kindTaken = p.framing.kindOf := by
  unfold CuePort.kindTaken Framing.kindOf
  rcases p.framing with _ | _ | ⟨k, _ | _, l⟩ | ⟨k, _ | _, n, xs⟩ <;> rfl

/-- A record handed to an intake with nothing waiting is paired at once. -/
theorem handRecord_empty (h : (s.intake a).deferred = []) (r : Record) : s.handRecord a r = s.pairRecord a r := by
  rw [State.handRecord, if_pos (by simp [h])]

/-- A record abandoned with the context IDLE and nothing waiting is lost (R51, R52). -/
theorem abandon_lost (deferred : (s.intake a).deferred = []) (idle : (s.intake a).context = .idle) (f : Framing) (d : Bool) :
    (s.setFraming a f d).recordLost (s.abandon a f d) a (s.cuePort a).kindTaken (s.cuePort a).damaged := by
  have deferred' : ((s.setFraming a f d).intake a).deferred = [] := deferred
  have idle' : ((s.setFraming a f d).intake a).context = .idle := idle
  have paired (r : Record) (other : r.isOther) : (s.setFraming a f d).handRecord a r = (s.setFraming a f d).takeOther a r := by
    rw [handRecord_empty deferred', pairRecord_closed (by simp [State.insertionRuns, idle']) (by simp [idle']) other, setContext_self idle']
  unfold State.recordLost State.abandon
  rw [kindTaken_eq]
  cases bad : (s.cuePort a).damaged with
  | true =>
    simp only [bad, if_true]
    rw [paired (.damaged _) trivial]
    exact discardDamaged_lineErrored _ a _
  | false =>
    simp only [bad, Bool.false_eq_true, if_false]
    rw [paired (.truncated _) trivial]
    exact refused_refuse _ a _ 0 .truncated

/-- Settles O25's second part: with no cue open, records of unknown kind and damaged ones are refused at once. -/
theorem undecoded_atRest (rest : s.atRest a = true) (closed : ∀ c n, (s.intake a).context ≠ .opened c n) :
    (∀ (kind : Byte) (fields : List Byte), kind.toNat = 0 ∨ 6 < kind.toNat →
      ∃ t, exec (.unknownKind a kind fields) s = .next t ∧ (s.setContext a .idle).refused t a kind 0 .unknownKind) ∧
    (∀ k : Option Byte, ∃ t, exec (.damagedRecord a k) s = .next t ∧ (s.setContext a .idle).lineErrored t a k ∧ t.raised a kindLineFault) := by
  refine ⟨fun kind fields unknown => ⟨_, ?_, refused_refuse _ a kind 0 .unknownKind⟩, fun k => ⟨_, ?_, discardDamaged_lineErrored _ a k,
    discardDamaged_raised _ a k⟩⟩
  · have ne (code : Byte) (known : 1 ≤ code.toNat ∧ code.toNat ≤ 6) : kind ≠ code := by
      rintro rfl
      omega
    rw [exec_unknownKind_eq, execUnknownKind, recordArrives_closed rest closed ⟨ne _ (by decide), ne _ (by decide)⟩]
    simp only [State.takeOther, if_neg (ne headCode (by decide)), if_neg (ne withdrawCode (by decide)), if_neg (ne endCode (by decide)),
      if_neg (ne queryCode (by decide))]
  · rw [exec_damagedRecord_eq, execDamagedRecord, State.damagedArrives, if_pos rest, handRecord_empty ((atRest_iff s a).mp rest).2.2.2,
      pairRecord_closed (atRest_still rest) closed (r := .damaged k) trivial]
    rfl

/-! ### The assembler's rows (R50 to R52) -/

section rows
variable {e : Entry} {x : Byte}

theorem takeEntry_break (gap : e.gap = false) (item : e.item = .brk) : s.takeEntry a e = s.takeBreak a e.overrun := by
  rw [State.takeEntry, item, gap]
  rfl

theorem takeEntry_char (gap : e.gap = false) (item : e.item = .char x) : s.takeEntry a e = s.takeChar a x e.marked := by
  rw [State.takeEntry, item, gap]
  rfl

/-- A gap mark is acted on behind its entry. -/
theorem takeEntry_gap (gap : e.gap = true) : s.takeEntry a e = (s.takeEntry a { e with gap := false }).actOnGap a := by
  simp only [State.takeEntry, gap, if_true, Bool.false_eq_true, if_false]
  rfl

theorem actOnGap_between (h : (s.cuePort a).framing = .between) : s.actOnGap a = s := by
  rw [State.actOnGap, h]

theorem actOnGap_inside (h : (s.cuePort a).framing ≠ .between) : s.actOnGap a = s.abandon a .between false := by
  rw [State.actOnGap]
  cases e : (s.cuePort a).framing <;> simp [e] at h ⊢

theorem takeBreak_between (h : (s.cuePort a).framing = .between) (o : Bool) : s.takeBreak a o = s.setFraming a .kind o := by
  rw [State.takeBreak, h]

theorem takeBreak_inside (h : (s.cuePort a).framing ≠ .between) (o : Bool) : s.takeBreak a o = s.abandon a .kind o := by
  rw [State.takeBreak]
  cases e : (s.cuePort a).framing <;> simp [e] at h ⊢

theorem takeChar_between (h : (s.cuePort a).framing = .between) (error : Bool) : s.takeChar a x error = s.lineFault a := by
  simp only [State.takeChar, h]

theorem takeChar_kind (h : (s.cuePort a).framing = .kind) (error : Bool) :
    s.takeChar a x error = s.setFraming a (.length x (!error) false) ((s.cuePort a).damaged || error) := by
  simp only [State.takeChar, h]

theorem takeChar_lost {k : Byte} {ok lost error : Bool} (h : (s.cuePort a).framing = .length k ok lost) (bad : lost = true ∨ error = true) :
    s.takeChar a x error = s.setFraming a (.length k ok true) true := by
  simp only [State.takeChar, h]
  exact if_pos (by simpa using bad)

theorem takeChar_length {k : Byte} {ok : Bool} (h : (s.cuePort a).framing = .length k ok false) (some_ : x ≠ 0) :
    s.takeChar a x false = s.setFraming a (.fields k ok x.toNat []) (s.cuePort a).damaged := by
  have ne : ¬ x.toNat = 0 := fun e => some_ (BitVec.eq_of_toNat_eq e)
  simp [State.takeChar, h, ne]

theorem takeChar_field {k : Byte} {ok error : Bool} {left : Nat} {taken : List Byte} (h : (s.cuePort a).framing = .fields k ok left taken)
    (more : 1 < left) :
    s.takeChar a x error = s.setFraming a (.fields k ok (left - 1) (taken ++ [x])) ((s.cuePort a).damaged || error) := by
  simp only [State.takeChar, h]
  exact if_neg (Nat.not_le.mpr more)

/-- The character `x` is the last of a record of kind `k`, its fields then `fields` (R50). -/
def CuePort.completes (p : CuePort) (k : Byte) (ok : Bool) (fields : List Byte) (x : Byte) (error : Bool) : Prop :=
  p.framing = .length k ok false ∧ error = false ∧ x = 0 ∧ fields = [] ∨
    ∃ left taken, p.framing = .fields k ok left taken ∧ left ≤ 1 ∧ fields = taken ++ [x]

theorem takeChar_completes {k : Byte} {ok error : Bool} {fields : List Byte} (h : (s.cuePort a).completes k ok fields x error) :
    s.takeChar a x error = s.completeRecord a k ok ((s.cuePort a).damaged || error) fields := by
  rcases h with ⟨framing, rfl, rfl, rfl⟩ | ⟨left, taken, framing, last, rfl⟩
  · simp [State.takeChar, framing]
  · simp only [State.takeChar, framing]
    exact if_pos last

end rows

/-- A cue record's command is its arrival. -/
theorem exec_cueRecord (s : State) (a : Aud) (k : Byte) (fields : List Byte) :
    exec (cueRecord a k fields) s = .next (s.recordArrives a k fields) := by
  have code (n : Nat) (h : k.toNat = n) : k = BitVec.ofNat 8 n := by
    rw [← h, BitVec.ofNat_toNat, BitVec.setWidth_eq]
  unfold cueRecord
  split
  · next h => rw [code _ h]; rfl
  · next h => rw [code _ h]; rfl
  · next h => rw [code _ h]; rfl
  · next h => rw [code _ h]; rfl
  · next h => rw [code _ h]; rfl
  · next h => rw [code _ h]; rfl
  · rfl

/-- A completed record on a line otherwise at rest is a record that arrives whole. -/
theorem completeRecord_arrives {k : Byte} {ok bad : Bool} {fields : List Byte} (rest : (s.setFraming a .between false).atRest a = true) :
    .next (s.completeRecord a k ok bad fields) = exec (if bad then .damagedRecord a (if ok then some k else none) else cueRecord a k fields)
      (s.setFraming a .between false) := by
  unfold State.completeRecord
  cases bad with
  | true =>
    simp only [if_true]
    rw [exec_damagedRecord_eq, execDamagedRecord, State.damagedArrives, if_pos rest]
  | false =>
    simp only [Bool.false_eq_true, if_false]
    rw [exec_cueRecord, State.recordArrives, if_pos rest]

theorem atRest_setFraming (queue : (s.cuePort a).queue = []) (running : s.paused a = false) (deferred : (s.intake a).deferred = []) :
    (s.setFraming a .between false).atRest a = true := by
  rw [atRest_iff]
  exact ⟨by simp [State.setFraming], by simpa [State.setFraming] using queue, running, deferred⟩

/-- What one entry brings about, by R50's table. -/
theorem takeEntry_rows (a : Aud) (e : Entry) (s : State) :
    let p := s.cuePort a
    let framed (f : Framing) (damaged : Bool) : State := s.onPort a (fun p => { p with framing := f, damaged := damaged })
    let bad := p.damaged || e.marked
    (e.gap = false →
      (e.item = .brk →
        (p.framing = .between → s.takeEntry a e = framed .kind e.overrun) ∧
        (p.framing ≠ .between → (s.intake a).deferred = [] → (s.intake a).context = .idle →
          (framed .kind e.overrun).recordLost (s.takeEntry a e) a p.kindTaken p.damaged)) ∧
      ∀ v, e.item = .char v →
        (p.framing = .between → s.takeEntry a e =
          (s.onCounters a (fun c => { c with lineFault := bump c.lineFault })).raiseAud a kindLineFault) ∧
        (p.framing = .kind → s.takeEntry a e = framed (.length v (!e.marked) false) bad) ∧
        (∀ k ok lost, p.framing = .length k ok lost →
          (lost = true ∨ e.marked = true → s.takeEntry a e = framed (.length k ok true) true) ∧
          (lost = false → e.marked = false → v ≠ 0 → s.takeEntry a e = framed (.fields k ok v.toNat []) bad)) ∧
        (∀ k ok left taken, p.framing = .fields k ok left taken → 1 < left →
          s.takeEntry a e = framed (.fields k ok (left - 1) (taken ++ [v])) bad) ∧
        ∀ (k : Byte) (ok : Bool) (fields : List Byte), p.completes k ok fields v e.marked →
          s.takeEntry a e = (framed .between false).handRecord a (if bad then .damaged (if ok then some k else none) else .framed k fields) ∧
          (p.queue = [] → s.paused a = false → (s.intake a).deferred = [] →
            .next (s.takeEntry a e) = exec (if bad then .damagedRecord a (if ok then some k else none) else cueRecord a k fields)
              (framed .between false))) ∧
    (e.gap = true →
      let t := s.takeEntry a { e with gap := false }
      ((t.cuePort a).framing = .between → s.takeEntry a e = t) ∧
      ((t.cuePort a).framing ≠ .between → (t.intake a).deferred = [] → (t.intake a).context = .idle →
        (t.onPort a (fun p => { p with framing := .between, damaged := false })).recordLost (s.takeEntry a e) a
          (t.cuePort a).kindTaken (t.cuePort a).damaged)) := by
  intro p framed bad
  refine ⟨fun gap => ⟨fun item => ⟨fun between => ?_, fun inside deferred idle => ?_⟩, fun v item => ?_⟩, fun gap => ⟨fun between => ?_,
    fun inside deferred idle => ?_⟩⟩
  · rw [takeEntry_break gap item, takeBreak_between between]
    rfl
  · rw [takeEntry_break gap item, takeBreak_inside inside]
    exact abandon_lost deferred idle .kind e.overrun
  · rw [takeEntry_char gap item]
    refine ⟨fun between => takeChar_between between _, fun kind => takeChar_kind kind _, fun k ok lost length => ⟨fun bad_ => takeChar_lost length bad_,
      fun kept fine some_ => ?_⟩, fun k ok left taken field more => takeChar_field field more, fun k ok fields last => ?_⟩
    · subst kept
      have clean : bad = p.damaged := by simp [bad, fine]
      rw [fine, takeChar_length length some_, clean]
      rfl
    · rw [takeChar_completes last]
      exact ⟨rfl, fun queue running deferred => completeRecord_arrives (atRest_setFraming queue running deferred)⟩
  · rw [takeEntry_gap gap, actOnGap_between between]
  · rw [takeEntry_gap gap, actOnGap_inside inside]
    exact abandon_lost deferred idle .between false

/-! ### The gap (R49, R51) -/

theorem changeLast_append (f : Entry → Entry) (e : Entry) : ∀ rest : List Entry, changeLast f (rest ++ [e]) = rest ++ [f e]
  | [] => rfl
  | [x] => rfl
  | x :: y :: rest => by
    have ih := changeLast_append f e (y :: rest)
    simp only [List.cons_append] at ih ⊢
    rw [changeLast, ih]
    simp

theorem exec_gap_rows (a : Aud) (s : State) (due : s.dueTest (.gap a) = some true) :
    (∀ rest e, (s.cuePort a).queue = rest ++ [e] →
      exec (.gap a) s = .next (s.onPort a (fun p => { p with gapTimer := none, queue := rest ++ [{ e with gap := true }] }))) ∧
    ((s.cuePort a).queue = [] → (s.cuePort a).framing = .between →
      exec (.gap a) s = .next (s.onPort a (fun p => { p with gapTimer := none }))) ∧
    ((s.cuePort a).queue = [] → (s.cuePort a).framing ≠ .between → (s.intake a).deferred = [] → (s.intake a).context = .idle →
      ∃ t, exec (.gap a) s = .next t ∧
        (s.onPort a (fun p => { p with gapTimer := none, framing := .between, damaged := false })).recordLost t a
          (s.cuePort a).kindTaken (s.cuePort a).damaged) := by
  have due : s.gapDue a = true := by simpa [State.dueTest] using due
  have acts (queue : (s.cuePort a).queue = []) : exec (.gap a) s = .next ((s.stopGapTimer a).actOnGap a) := by
    rw [exec_gap_eq, execGap, if_pos due]
    exact if_pos (by simp [queue])
  have framing : ((s.stopGapTimer a).cuePort a).framing = (s.cuePort a).framing := by simp [State.stopGapTimer]
  refine ⟨fun rest e queue => ?_, fun queue between => ?_, fun queue inside deferred idle =>
    ⟨(s.stopGapTimer a).abandon a .between false, ?_, ?_⟩⟩
  · rw [exec_gap_eq, execGap, if_pos due]
    simp only [queue, List.isEmpty_iff, List.append_eq_nil_iff, List.cons_ne_self, and_false, if_false, State.stopGapTimer, onPort_onPort]
    refine congrArg _ (onPort_congr ?_)
    simp only [queue, changeLast_append]
  · rw [acts queue, actOnGap_between (framing.trans between)]
    rfl
  · exact (acts queue).trans (congrArg _ (actOnGap_inside (by rw [framing]; exact inside)))
  · have lost := abandon_lost (s := s.stopGapTimer a) deferred idle .between false
    have same : (s.stopGapTimer a).setFraming a .between false =
        s.onPort a (fun p => { p with gapTimer := none, framing := .between, damaged := false }) := by
      simp only [State.stopGapTimer, State.setFraming, onPort_onPort]
    rw [same] at lost
    simpa [State.stopGapTimer, kindTaken_eq] using lost

end Sys2Proof.Machine
end

section
/-! PROOFS. What the taking of a record leaves of the receive queue and of what waits, and the assembler that resumes. -/

namespace Sys2Proof.Machine

variable {s t u v : State} {a : Aud} {σ : Option Aud}

/-! ### Records that are taken: the queue and what waits (R47, R53, R91) -/

/-- The receive queue and what waits behind a record in its taking stand. -/
structure Unheard (s t : State) (a : Aud) : Prop where
  queue : (t.cuePort a).queue = (s.cuePort a).queue
  deferred : (t.intake a).deferred = (s.intake a).deferred

theorem Unheard.refl (s : State) (a : Aud) : Unheard s s a := ⟨rfl, rfl⟩

theorem Unheard.trans (h : Unheard s t a) (k : Unheard t u a) : Unheard s u a := ⟨k.queue.trans h.queue, k.deferred.trans h.deferred⟩

theorem unheard_of (ports : t.cuePorts = s.cuePorts) (intakes : t.intakes = s.intakes) : Unheard s t a := by
  constructor
  · rw [State.cuePort, ports]; rfl
  · rw [State.intake, intakes]; rfl

theorem Worked.deferred (h : Worked σ s t) (a : Aud) : (t.intake a).deferred = (s.intake a).deferred :=
  h.keeps (P := fun s => (s.intake a).deferred) (by
    intro s t hn
    cases hn with
    | reply b r => obtain ⟨f, hf, -⟩ := placeReply_cases s b r; rw [hf]; rfl
    | finish w => unfold State.finishWork; split <;> rfl
    | walk b c w w' _ => simp only [State.onIntake_intake]; split <;> rfl
    | letGo b x _ _ => simp only [State.onIntake_intake]; split <;> rfl
    | _ => rfl)

theorem Worked.unheard (h : Worked σ s t) (a : Aud) : Unheard s t a := by
  refine ⟨?_, h.deferred a⟩
  have line := h.lineSide a
  simp only [CuePort.lineSide, Prod.mk.injEq] at line
  exact line.2.2.2.2.2.2.1

theorem unheard_setContext (s : State) (a : Aud) (x : Context) : Unheard s (s.setContext a x) a := by
  refine ⟨rfl, ?_⟩
  simp [State.setContext]

theorem unheard_flow (s : State) (a : Aud) : Unheard s (s.flow a) a := by
  refine ⟨flow_queue s a, ?_⟩
  unfold State.intake
  rw [(flow_intake_stream s a).1]

theorem unheard_placeReply (s : State) (a : Aud) (r : Reply) : Unheard s (s.placeReply a r) a :=
  (Worked.placeReply (σ := none) .refl a r).unheard a

theorem unheard_refuse (s : State) (a : Aud) (kind : Byte) (seq : Seq) (reason : Reason) : Unheard s (s.refuse a kind seq reason) a :=
  (Worked.refuse (σ := none) .refl a kind seq reason).unheard a

theorem unheard_settleSub (s : State) (a : Aud) : Unheard s (s.settleSub a) a := by
  unfold State.settleSub
  split <;> exact unheard_of rfl rfl

/-- What follows a change of the position. -/
theorem unheard_positionChanged (s : State) (a : Aud) : Unheard s (s.positionChanged a).settleFills a :=
  (Worked.positionChanged (.refl (s := s))).settleFills.unheard a

theorem unheard_firstMark (s : State) (a : Aud) (m : Nat) : Unheard s (s.firstMark a m) a := by
  have placed : Unheard s (s.onClock a (·.place m)) a := unheard_of rfl rfl
  unfold State.firstMark
  simp only
  refine Unheard.trans ?_ (unheard_positionChanged _ a)
  split
  · have running : Unheard (s.onClock a (·.place m)) ((s.onClock a (·.place m)).setRunning a) a := unheard_of rfl rfl
    exact (placed.trans running).trans ((Worked.enterRunning' (σ := none) _ a).unheard a)
  · exact placed.trans (unheard_of rfl rfl)

theorem unheard_correction (s : State) (a : Aud) (m : Nat) : Unheard s (s.correction a m) a := by
  unfold State.correction
  simp only
  split
  · exact .refl s a
  · refine Unheard.trans (Unheard.trans ?_ (unheard_settleSub _ a)) (unheard_positionChanged _ a)
    split <;> exact unheard_of rfl rfl

theorem unheard_jump (s : State) (a : Aud) (m : Nat) : Unheard s (s.jump a m) a := by
  have placed : Unheard s ((s.onClock a (·.place m)).onCounters a (fun c => { c with jump := bump c.jump })) a := unheard_of rfl rfl
  unfold State.jump
  simp only
  generalize (s.onClock a (·.place m)).onCounters a (fun c => { c with jump := bump c.jump }) = u at placed ⊢
  have replied := (placed.trans (unheard_settleSub u a)).trans (unheard_placeReply _ a (.jumpSeen (s.clock a).base m))
  generalize (u.settleSub a).placeReply a (.jumpSeen (s.clock a).base m) = v at replied ⊢
  have raised : Unheard s (v.raiseAud a kindJump) a := replied.trans (unheard_of rfl rfl)
  split
  · exact raised.trans (unheard_positionChanged _ a)
  · exact raised.trans ((Worked.runPurge a _ (((Worked.refl (σ := none)).beginPurge a _).endByPosition a)).settleFills.unheard a)

theorem unheard_takeMark (s : State) (a : Aud) (m : Nat) : Unheard s (s.takeMark a m) a := by
  unfold State.takeMark
  split
  · exact unheard_refuse s a _ _ _
  · exact unheard_refuse s a _ _ _
  · split
    · exact unheard_refuse s a _ _ _
    · exact unheard_firstMark s a m
  all_goals
    simp only
    split
    · exact unheard_refuse s a _ _ _
    · split
      · exact unheard_correction s a m
      · exact unheard_jump s a m

theorem unheard_allocate (s : State) (a : Aud) : Unheard s (s.allocate a) a :=
  Unheard.trans (t := (s.onStore a (fun st => { st with used := st.used + 1 })).onFree (fun n => n - 1)) (unheard_of rfl rfl)
    (unheard_flow _ a)

/-- A record that is neither MARK nor BODY, taken by its own rules. -/
theorem unheard_takeOther (s : State) (a : Aud) (r : Record) : Unheard s (s.takeOther a r) a := by
  cases r with
  | framed kind fields =>
    simp only [State.takeOther]
    split_ifs
    · unfold State.takeHead
      split
      · exact (unheard_refuse s a _ _ _).trans (unheard_setContext _ a _)
      · split
        · exact (unheard_refuse s a _ _ _).trans (unheard_setContext _ a _)
        · exact (unheard_allocate s a).trans (unheard_setContext _ a _)
    · unfold State.takeWithdraw
      split
      · simp only
        split
        · exact unheard_refuse s a _ _ _
        · split
          · exact unheard_refuse s a _ _ _
          · split
            · exact unheard_refuse s a _ _ _
            · split_ifs
              · exact unheard_refuse s a _ _ _
              · exact unheard_refuse s a _ _ _
              · exact ((Worked.refl (σ := none)).startPurge a _).settleFills.unheard a
      · exact unheard_refuse s a _ _ _
    · unfold State.takeEndRecord State.takeEnd
      split_ifs
      · split
        · exact unheard_refuse s a _ _ _
        · exact unheard_refuse s a _ _ _
        · exact Unheard.trans (t := s.onSession a (fun x => { x with ending := true })) (unheard_of rfl rfl)
            (((Worked.refl (σ := none)).endTest a).settleFills.unheard a)
      · exact unheard_refuse s a _ _ _
    · unfold State.takeQuery
      split_ifs
      · exact unheard_placeReply s a _
      · exact unheard_refuse s a _ _ _
    · exact unheard_refuse s a _ _ _
  | damaged kind => exact (unheard_refuse s a _ _ _).trans (unheard_of rfl rfl)
  | truncated kind => exact unheard_refuse s a _ _ _

/-! ### Pairing (R64, R65, R74) -/

/-- A record's taking leaves what waits as it was, or waits itself, its request in the freeing unit. -/
structure Heard (s t : State) (a : Aud) : Prop where
  queue : (t.cuePort a).queue = (s.cuePort a).queue
  waits : (t.intake a).deferred = (s.intake a).deferred ∨ t.takingWaits a = true

theorem Unheard.heard (h : Unheard s t a) : Heard s t a := ⟨h.queue, .inl h.deferred⟩

/-- A request of the intake in the freeing unit makes the taking wait. -/
theorem heard_request (s : State) (a : Aud) (cells : Nat) (kind : Byte) (seq : Seq) (reason : Reason) (f : Intake → Intake) :
    Heard s (((s.requestFree a cells .intake).refuse a kind seq reason).onIntake a f) a := by
  have queue := (unheard_refuse (s.requestFree a cells .intake) a kind seq reason).queue
  obtain ⟨g, placed, -⟩ :=
    placeReply_cases ((s.requestFree a cells .intake).onCounters a (fun c => { c with refused := bump c.refused })) a (.refuse kind seq reason)
  refine ⟨queue, .inr ?_⟩
  rw [State.refuse, placed]
  simp [State.takingWaits, State.requestFree]

theorem heard_takeBody (s : State) (a : Aud) (payload : List Byte) : Heard s (s.takeBody a payload) a := by
  unfold State.takeBody
  split
  · exact (unheard_refuse s a _ _ _).heard
  · unfold State.takeOpenBody
    split
    · simp only
      split
      · exact ((unheard_allocate s a).trans (unheard_setContext _ a _)).heard
      · exact ((unheard_allocate s a).trans (unheard_setContext _ a _)).heard
    · exact heard_request s a _ _ _ _ _
  · exact (unheard_setContext s a _).heard
  · exact (Unheard.refl s a).heard
  · exact (Unheard.refl s a).heard

theorem heard_pairRecord (s : State) (a : Aud) (r : Record) : Heard s (s.pairRecord a r) a := by
  have broken (c : Cue) : Heard s (s.breakCue a c r) a := heard_request s a _ _ _ _ _
  have other : Heard s (s.takeOther a r) a := (unheard_takeOther s a r).heard
  have closed : Heard s ((s.setContext a .idle).takeOther a r) a := ((unheard_setContext s a .idle).trans (unheard_takeOther _ a r)).heard
  cases r with
  | framed kind fields =>
    simp only [State.pairRecord]
    split_ifs
    · unfold State.takeMarkRecord
      split
      · exact (unheard_takeMark s a _).heard
      · exact (unheard_refuse s a _ _ _).heard
    · exact heard_takeBody s a fields
    · split
      · exact broken _
      · exact closed
      · exact other
      · exact other
  | damaged kind =>
    simp only [State.pairRecord]
    split
    · exact broken _
    · exact closed
    · exact other
    · exact other
  | truncated kind =>
    simp only [State.pairRecord]
    split
    · exact broken _
    · exact closed
    · exact other
    · exact other

theorem heard_takeDeferred (s : State) (a : Aud) (d : Deferred) : Heard s (s.takeDeferred a d) a := by
  cases d with
  | record r => exact heard_pairRecord s a r
  | skip n => exact (unheard_setContext s a _).heard

theorem paused_of_takingWaits (h : s.takingWaits a = true) : s.paused a = true := by
  simp only [State.takingWaits, Bool.or_eq_true] at h
  simp only [State.paused, Bool.or_eq_true]
  rcases h with walks | request
  · exact .inl walks
  · refine .inr ?_
    cases e : (s.store a).freeing with
    | nil => simp [e] at request
    | cons x rest => rfl

/-! ### Entries that are taken (R50, R53) -/

/-- Either the intake is paused, or nothing waits behind a record in its taking. -/
def State.rests (s : State) (a : Aud) : Prop := s.paused a = true ∨ (s.intake a).deferred = []

/-- The queue stands, and what waits still waits for a pause to end. -/
structure Rested (s t : State) (a : Aud) : Prop where
  queue : (t.cuePort a).queue = (s.cuePort a).queue
  rests : s.rests a → t.rests a

theorem Rested.refl (s : State) (a : Aud) : Rested s s a := ⟨rfl, fun h => h⟩

theorem Rested.trans (h : Rested s t a) (k : Rested t u a) : Rested s u a := ⟨k.queue.trans h.queue, fun r => k.rests (h.rests r)⟩

theorem Hushed.rests (h : Hushed s t a) : s.rests a ↔ t.rests a := by rw [State.rests, State.rests, h.paused_eq, h.intake_eq]

theorem rested_setFraming (s : State) (a : Aud) (f : Framing) (d : Bool) : Rested s (s.setFraming a f d) a :=
  ⟨by simp [State.setFraming], (hushed_onPort s a _ fun _ => rfl).rests.mp⟩

theorem rested_handRecord (s : State) (a : Aud) (r : Record) : Rested s (s.handRecord a r) a := by
  unfold State.handRecord
  split
  · next none_ =>
    have heard := heard_pairRecord s a r
    refine ⟨heard.queue, fun _ => ?_⟩
    rcases heard.waits with same | waits
    · exact .inr (by rw [same]; simpa using none_)
    · exact .inl (paused_of_takingWaits waits)
  · next some_ =>
    refine ⟨rfl, fun rests => .inl ?_⟩
    have paused : s.paused a = true := rests.resolve_right (by simpa using some_)
    rw [← paused]
    simp [State.paused, State.storeWalks]

theorem rested_abandon (s : State) (a : Aud) (f : Framing) (d : Bool) : Rested s (s.abandon a f d) a :=
  (rested_setFraming s a f d).trans (rested_handRecord _ a _)

theorem rested_completeRecord (s : State) (a : Aud) (k : Byte) (ok d : Bool) (fields : List Byte) :
    Rested s (s.completeRecord a k ok d fields) a :=
  (rested_setFraming s a .between false).trans (rested_handRecord _ a _)

theorem rested_takeBreak (s : State) (a : Aud) (o : Bool) : Rested s (s.takeBreak a o) a := by
  unfold State.takeBreak
  split
  · exact rested_setFraming s a _ _
  · exact rested_abandon s a _ _

theorem rested_takeChar (s : State) (a : Aud) (x : Byte) (error : Bool) : Rested s (s.takeChar a x error) a := by
  unfold State.takeChar
  simp only
  split
  · exact ⟨rfl, fun h => h⟩
  · exact rested_setFraming s a _ _
  · split_ifs
    · exact rested_setFraming s a _ _
    · exact rested_completeRecord s a _ _ _ _
    · exact rested_setFraming s a _ _
  · split_ifs
    · exact rested_completeRecord s a _ _ _ _
    · exact rested_setFraming s a _ _

theorem rested_actOnGap (s : State) (a : Aud) : Rested s (s.actOnGap a) a := by
  unfold State.actOnGap
  split
  · exact .refl s a
  · exact rested_abandon s a _ _

theorem rested_takeEntry (s : State) (a : Aud) (e : Entry) : Rested s (s.takeEntry a e) a := by
  have unmarked (e : Entry) (gap : e.gap = false) : Rested s (s.takeEntry a e) a := by
    cases item : e.item with
    | brk => rw [takeEntry_break gap item]; exact rested_takeBreak s a _
    | char x => rw [takeEntry_char gap item]; exact rested_takeChar s a x _
  cases gap : e.gap with
  | true => rw [takeEntry_gap gap]; exact (unmarked _ rfl).trans (rested_actOnGap _ a)
  | false => exact unmarked e gap

/-! ### The assembler resumes (R53) -/

/-- One entry off the head of the queue, flow control evaluated, and what the entry brings about. -/
def State.takeHeadEntry (s : State) (a : Aud) (e : Entry) (rest : List Entry) : State :=
  ((s.onPort a (fun p => { p with queue := rest })).flow a).takeEntry a e

theorem takeHeadEntry_queue (s : State) (a : Aud) (e : Entry) (rest : List Entry) : ((s.takeHeadEntry a e rest).cuePort a).queue = rest := by
  rw [State.takeHeadEntry, (rested_takeEntry _ a e).queue, flow_queue]
  simp

theorem takeHeadEntry_rests (e : Entry) (rest : List Entry) (h : s.rests a) : (s.takeHeadEntry a e rest).rests a := by
  refine (rested_takeEntry _ a e).rests ?_
  exact (flow_hushed _ a).1.rests.mp ((hushed_onPort s a _ fun _ => rfl).rests.mp h)

theorem drain_paused (h : s.paused a = true) : s.drain a = s := by
  unfold State.drain
  cases (s.cuePort a).queue with
  | nil => rfl
  | cons e rest => simp [State.drainFuel, h]

theorem drain_empty (h : (s.cuePort a).queue = []) : s.drain a = s := by
  rw [State.drain, h]
  rfl

theorem drain_cons {e : Entry} {rest : List Entry} (running : s.paused a = false) (queue : (s.cuePort a).queue = e :: rest) :
    s.drain a = (s.takeHeadEntry a e rest).drain a := by
  rw [State.drain, queue, List.length_cons, State.drainFuel, running, queue]
  simp only [Bool.false_eq_true, if_false]
  rw [State.drain, takeHeadEntry_queue]
  rfl

/-- The assembler goes on until a pause begins or nothing waits. -/
theorem drain_stops (k : Nat) : ∀ s : State, (s.cuePort a).queue.length ≤ k → s.rests a →
    (s.drain a).paused a = true ∨ ((s.drain a).cuePort a).queue = [] ∧ ((s.drain a).intake a).deferred = [] := by
  induction k with
  | zero =>
    intro s short rests
    have empty : (s.cuePort a).queue = [] := List.length_eq_zero_iff.mp (Nat.le_zero.mp short)
    rw [drain_empty empty]
    exact rests.imp_right fun none_ => ⟨empty, none_⟩
  | succ k ih =>
    intro s short rests
    cases paused : s.paused a with
    | true => rw [drain_paused paused]; exact .inl paused
    | false =>
      cases queue : (s.cuePort a).queue with
      | nil =>
        rw [drain_empty queue]
        exact rests.imp_right fun none_ => ⟨queue, none_⟩
      | cons e rest =>
        rw [drain_cons paused queue]
        refine ih _ ?_ (takeHeadEntry_rests e rest rests)
        rw [takeHeadEntry_queue]
        rw [queue] at short
        exact Nat.le_of_succ_le_succ short

theorem resumeDeferred_empty (h : (s.intake a).deferred = []) : s.resumeDeferred a = s := by
  rw [State.resumeDeferred, h]
  rfl

/-- What waits is taken until nothing waits or a taking waits again. -/
theorem runDeferred_rests (k : Nat) : ∀ s : State, (s.intake a).deferred.length ≤ k ∨ s.takingWaits a = true →
    (State.runDeferred a k s).rests a := by
  induction k with
  | zero =>
    rintro s (none_ | waits)
    · exact .inr (List.length_eq_zero_iff.mp (Nat.le_zero.mp none_))
    · exact .inl (paused_of_takingWaits waits)
  | succ k ih =>
    intro s h
    rw [State.runDeferred]
    cases deferred : (s.intake a).deferred with
    | nil => exact .inr deferred
    | cons d rest =>
      cases waits : s.takingWaits a with
      | true => simp only [if_true]; exact .inl (paused_of_takingWaits waits)
      | false =>
        simp only [Bool.false_eq_true, if_false]
        refine ih _ ?_
        rcases (heard_takeDeferred (s.onIntake a (fun i => { i with deferred := rest })) a d).waits with same | waits'
        · left
          rw [same]
          rw [deferred, waits] at h
          simpa using h
        · exact .inr waits'

theorem exec_assemblerResumes_stops (a : Aud) (s : State) (due : s.resumeDue a = true) :
    ∃ t, exec (.assemblerResumes a) s = .next t ∧
      (t.paused a = true ∨ (t.cuePort a).queue = [] ∧ (t.intake a).deferred = []) ∧ t.now = s.now ∧
      t.receivers = s.receivers ∧ t.table = s.table ∧ t.rxPins = s.rxPins ∧ t.runPins = s.runPins := by
  have taken : Taken s ((s.resumeDeferred a).drain a) := (Taken.refl.resumeDeferred a).drain a
  obtain ⟨now, run, rx, receivers, table, -⟩ := taken.frame
  have resumes : exec (.assemblerResumes a) s = .next ((s.resumeDeferred a).drain a) := by
    rw [exec_assemblerResumes_eq, execAssemblerResumes, if_pos due]
  exact ⟨_, resumes, drain_stops _ _ le_rfl (runDeferred_rests _ s (.inl le_rfl)), now, receivers, table, rx, run⟩

/-- The head entry is taken, then the rest, until a pause begins. -/
theorem exec_assemblerResumes_cons {e : Entry} {rest : List Entry} (due : s.resumeDue a = true) (deferred : (s.intake a).deferred = [])
    (queue : (s.cuePort a).queue = e :: rest) :
    exec (.assemblerResumes a) s = if (s.takeHeadEntry a e rest).paused a = true ∨ rest = [] then .next (s.takeHeadEntry a e rest)
      else exec (.assemblerResumes a) (s.takeHeadEntry a e rest) := by
  have running : s.paused a = false := by
    simpa [State.resumeDue, deferred, queue] using due
  have queue' := takeHeadEntry_queue s a e rest
  have resumes : exec (.assemblerResumes a) s = .next ((s.takeHeadEntry a e rest).drain a) := by
    rw [exec_assemblerResumes_eq, execAssemblerResumes, if_pos due, resumeDeferred_empty deferred, drain_cons running queue]
  rw [resumes]
  split
  · next stop =>
    rcases stop with paused | empty
    · rw [drain_paused paused]
    · rw [drain_empty (queue'.trans empty)]
  · next goes =>
    push Not at goes
    obtain ⟨running', more⟩ := goes
    have running' : (s.takeHeadEntry a e rest).paused a = false := by simpa using running'
    have deferred' : ((s.takeHeadEntry a e rest).intake a).deferred = [] :=
      (takeHeadEntry_rests e rest (.inr deferred)).resolve_left (by simp [running'])
    have due' : (s.takeHeadEntry a e rest).resumeDue a = true := by
      simp [State.resumeDue, running', queue', more]
    rw [exec_assemblerResumes_eq, execAssemblerResumes, if_pos due', resumeDeferred_empty deferred']

/-! ### A whole record in the queue (R47, R50) -/

/-- The head entry has left the queue, and flow control has been evaluated. -/
def State.shifted (s : State) (a : Aud) (rest : List Entry) : State := (s.onPort a (fun p => { p with queue := rest })).flow a

theorem takeHeadEntry_eq (s : State) (a : Aud) (e : Entry) (rest : List Entry) : s.takeHeadEntry a e rest = (s.shifted a rest).takeEntry a e := rfl

theorem shifted_hushed (s : State) (a : Aud) (rest : List Entry) : Hushed s (s.shifted a rest) a :=
  (hushed_onPort s a (fun p => { p with queue := rest }) fun _ => rfl).trans (flow_hushed _ a).1

theorem shifted_queue (s : State) (a : Aud) (rest : List Entry) : ((s.shifted a rest).cuePort a).queue = rest := by
  rw [State.shifted, flow_queue]; simp

theorem shifted_framing (s : State) (a : Aud) (rest : List Entry) : ((s.shifted a rest).cuePort a).framing = (s.cuePort a).framing := by
  rw [State.shifted, flow_framing]; simp

theorem shifted_damaged (s : State) (a : Aud) (rest : List Entry) : ((s.shifted a rest).cuePort a).damaged = (s.cuePort a).damaged := by
  rw [State.shifted, flow_damaged]; simp

/-- The assembler has come to `f` in a record, `d` saying whether it is damaged, with `rest` still queued, and nothing else has happened. -/
structure Reached (s t : State) (a : Aud) (f : Framing) (d : Bool) (rest : List Entry) : Prop where
  hushed : Hushed s t a
  framing : (t.cuePort a).framing = f
  damaged : (t.cuePort a).damaged = d
  queue : (t.cuePort a).queue = rest

/-- An entry that only moves the framing on. -/
theorem takeHeadEntry_reached {e : Entry} {rest : List Entry} {f : Framing} {d : Bool}
    (h : (s.shifted a rest).takeEntry a e = (s.shifted a rest).setFraming a f d) : Reached s (s.takeHeadEntry a e rest) a f d rest := by
  have queue := takeHeadEntry_queue s a e rest
  rw [takeHeadEntry_eq, h] at queue ⊢
  exact ⟨(shifted_hushed s a rest).trans (hushed_onPort _ a _ fun _ => rfl), by simp [State.setFraming], by simp [State.setFraming], queue⟩

/-- The last entry of a record, with nothing behind it: the record is taken as if it had arrived whole. -/
theorem drain_last {e : Entry} {x k : Byte} {ok : Bool} {fields : List Byte} (running : s.paused a = false) (deferred : (s.intake a).deferred = [])
    (queue : (s.cuePort a).queue = [e]) (gap : e.gap = false) (item : e.item = .char x)
    (last : (s.cuePort a).completes k ok fields x e.marked) :
    ∃ u, u.atRest a = true ∧ Hushed s u a ∧ .next (s.drain a) =
      exec (if ((s.cuePort a).damaged || e.marked) = true then .damagedRecord a (if ok then some k else none) else cueRecord a k fields) u := by
  have hushed := shifted_hushed s a []
  have last' : ((s.shifted a []).cuePort a).completes k ok fields x e.marked := by
    rw [CuePort.completes, shifted_framing]
    exact last
  have rest : ((s.shifted a []).setFraming a .between false).atRest a = true :=
    atRest_setFraming (shifted_queue s a []) (by rw [hushed.paused_eq, running]) (by rw [hushed.intake_eq, deferred])
  refine ⟨_, rest, hushed.trans (hushed_onPort _ a _ fun _ => rfl), ?_⟩
  rw [drain_cons running queue, drain_empty (takeHeadEntry_queue s a e []), takeHeadEntry_eq, takeEntry_char gap item, takeChar_completes last',
    completeRecord_arrives rest, shifted_damaged]

/-- The fields of a record, queued to its end. -/
theorem drain_fields {k : Byte} {ok : Bool} (rest : List Entry) : ∀ (s : State) (taken fields : List Byte), s.paused a = false →
    (s.intake a).deferred = [] → (s.cuePort a).framing = .fields k ok rest.length taken → (s.cuePort a).queue = rest → rest ≠ [] →
    rest.map Entry.item = fields.map .char → (∀ e ∈ rest, e.gap = false) →
    ∃ u, u.atRest a = true ∧ Hushed s u a ∧ .next (s.drain a) =
      exec (if ((s.cuePort a).damaged || rest.any Entry.marked) = true then .damagedRecord a (if ok then some k else none)
        else cueRecord a k (taken ++ fields)) u := by
  induction rest with
  | nil => exact fun _ _ _ _ _ _ _ some_ => absurd rfl some_
  | cons e rest ih =>
    intro s taken fields running deferred framing queue _ items gaps
    obtain ⟨x, fields, rfl⟩ : ∃ x l, fields = x :: l := by
      cases fields with
      | nil => simp at items
      | cons x l => exact ⟨x, l, rfl⟩
    simp only [List.map_cons, List.cons.injEq] at items
    obtain ⟨item, items⟩ := items
    have gap := gaps e List.mem_cons_self
    cases rest with
    | nil =>
      have none_ : fields = [] := by simpa using items.symm
      subst none_
      have last : (s.cuePort a).completes k ok (taken ++ [x]) x e.marked := .inr ⟨1, taken, framing, le_rfl, rfl⟩
      simpa using drain_last running deferred queue gap item last
    | cons y rest =>
      have more : 1 < (e :: y :: rest).length := by simp
      have moved : (s.shifted a (y :: rest)).takeEntry a e = (s.shifted a (y :: rest)).setFraming a
          (.fields k ok (y :: rest).length (taken ++ [x])) ((s.cuePort a).damaged || e.marked) := by
        rw [takeEntry_char gap item, takeChar_field (by rw [shifted_framing, framing]) more, shifted_damaged]
        rfl
      have reached := takeHeadEntry_reached moved
      obtain ⟨u, atRest, hushed, runs⟩ := ih _ (taken ++ [x]) fields (by rw [reached.hushed.paused_eq, running])
        (by rw [reached.hushed.intake_eq, deferred]) reached.framing reached.queue (by simp) items
        (fun z hz => gaps z (List.mem_cons_of_mem _ hz))
      refine ⟨u, atRest, reached.hushed.trans hushed, ?_⟩
      have flags : ((s.cuePort a).damaged || e.marked || (y :: rest).any Entry.marked) =
          ((s.cuePort a).damaged || (e :: y :: rest).any Entry.marked) := by simp [Bool.or_assoc]
      rw [drain_cons running queue, runs, reached.damaged, flags, List.append_assoc, List.singleton_append]

/-- A queue that holds just one record is taken as if the record had arrived whole. -/
theorem drain_record {b x y : Entry} {rest : List Entry} {k : Byte} {fields : List Byte} (running : s.paused a = false)
    (deferred : (s.intake a).deferred = []) (framing : (s.cuePort a).framing = .between) (queue : (s.cuePort a).queue = b :: x :: y :: rest)
    (hb : b.item = .brk) (hx : x.item = .char k) (short : fields.length ≤ 255) (hy : y.item = .char (BitVec.ofNat 8 fields.length))
    (items : rest.map Entry.item = fields.map .char) (clean : y.marked = false) (gaps : ∀ e ∈ b :: x :: y :: rest, e.gap = false) :
    ∃ u, u.atRest a = true ∧ Hushed s u a ∧ .next (s.drain a) =
      exec (if b.overrun = true ∨ x.marked = true ∨ rest.any Entry.marked = true
        then .damagedRecord a (if x.marked = true then none else some k) else cueRecord a k fields) u := by
  have gap : b.gap = false ∧ x.gap = false ∧ y.gap = false := ⟨gaps b (by simp), gaps x (by simp), gaps y (by simp)⟩
  have begun : (s.shifted a (x :: y :: rest)).takeEntry a b = (s.shifted a (x :: y :: rest)).setFraming a .kind b.overrun := by
    rw [takeEntry_break gap.1 hb, takeBreak_between (by rw [shifted_framing, framing])]
  have first := takeHeadEntry_reached begun
  rw [drain_cons running queue]
  generalize s.takeHeadEntry a b (x :: y :: rest) = s1 at first ⊢
  have named : (s1.shifted a (y :: rest)).takeEntry a x =
      (s1.shifted a (y :: rest)).setFraming a (.length k (!x.marked) false) (b.overrun || x.marked) := by
    rw [takeEntry_char gap.2.1 hx, takeChar_kind (by rw [shifted_framing, first.framing]), shifted_damaged, first.damaged]
  have second := takeHeadEntry_reached named
  rw [drain_cons (by rw [first.hushed.paused_eq, running]) first.queue]
  generalize s1.takeHeadEntry a x (y :: rest) = s2 at second ⊢
  have hushed := first.hushed.trans second.hushed
  have running2 : s2.paused a = false := by rw [hushed.paused_eq, running]
  have deferred2 : (s2.intake a).deferred = [] := by rw [hushed.intake_eq, deferred]
  have kind : (if (!x.marked) = true then some k else none) = if x.marked = true then none else some k := by
    cases x.marked <;> rfl
  cases rest with
  | nil =>
    have none_ : fields = [] := by simpa using items.symm
    subst none_
    obtain ⟨u, atRest, later, runs⟩ := drain_last (e := y) running2 deferred2 second.queue gap.2.2 hy (.inl ⟨second.framing, clean, rfl, rfl⟩)
    refine ⟨u, atRest, hushed.trans later, ?_⟩
    rw [runs, second.damaged, kind]
    simp [clean]
  | cons z rest =>
    have length : fields.length = (z :: rest).length := by simpa using congrArg List.length items.symm
    have value : (BitVec.ofNat 8 fields.length).toNat = (z :: rest).length := by
      rw [BitVec.toNat_ofNat, Nat.mod_eq_of_lt (by omega), length]
    have some_ : BitVec.ofNat 8 fields.length ≠ 0 := fun e => by
      rw [e] at value
      simp at value
    have counted : (s2.shifted a (z :: rest)).takeEntry a y =
        (s2.shifted a (z :: rest)).setFraming a (.fields k (!x.marked) (z :: rest).length []) (b.overrun || x.marked) := by
      rw [takeEntry_char gap.2.2 hy, clean, takeChar_length (by rw [shifted_framing, second.framing]) some_, shifted_damaged, second.damaged, value]
    have third := takeHeadEntry_reached counted
    rw [drain_cons running2 second.queue]
    generalize s2.takeHeadEntry a y (z :: rest) = s3 at third ⊢
    obtain ⟨u, atRest, later, runs⟩ := drain_fields (z :: rest) s3 [] fields (by rw [third.hushed.paused_eq, running2])
      (by rw [third.hushed.intake_eq, deferred2]) third.framing third.queue (by simp) items (fun e he => gaps e (by simp [he]))
    refine ⟨u, atRest, (hushed.trans third.hushed).trans later, ?_⟩
    rw [runs, third.damaged, kind, List.nil_append]
    simp only [Bool.or_eq_true, or_assoc]

/-- Settles O22: the gap, the assembler that resumes, and what one entry brings about. -/
theorem gapAndResume : Obligations.GapAndResume := by
  refine ⟨exec_gap_rows, fun a s due => ?_, takeEntry_rows⟩
  have due : s.resumeDue a = true := by simpa [State.dueTest] using due
  refine ⟨exec_assemblerResumes_stops a s due, fun e rest deferred queue => exec_assemblerResumes_cons due deferred queue, ?_⟩
  intro b x y rest k fields deferred framing queue hb hx short hy items clean gaps
  have running : s.paused a = false := by simpa [State.resumeDue, deferred, queue] using due
  obtain ⟨u, atRest, hushed, runs⟩ := drain_record running deferred framing queue hb hx short hy items clean gaps
  refine ⟨u, atRest, hushed.rest, hushed.others, hushed.replies, ?_⟩
  rw [exec_assemblerResumes_eq, execAssemblerResumes, if_pos due, resumeDeferred_empty deferred, runs]

end Sys2Proof.Machine
end

section
/-! PROOFS. Completions and records that wait in the receive queue, and characters that the assembler takes at once. -/

namespace Sys2Proof.Machine

variable {s t u v : State} {a : Aud}

/-! ### Entries that join the queue in an intake pause (R47, R48, R53) -/

/-- Entries `es` have joined the tail of the receive queue, and nothing else of the line has moved. -/
structure Queued (s t : State) (a : Aud) (es : List Entry) : Prop where
  hushed : Hushed s t a
  queue : (t.cuePort a).queue = (s.cuePort a).queue ++ es
  framing : (t.cuePort a).framing = (s.cuePort a).framing
  damaged : (t.cuePort a).damaged = (s.cuePort a).damaged
  receiver : (t.cuePort a).receiver = (s.cuePort a).receiver
  gapTimer : (t.cuePort a).gapTimer = (s.cuePort a).gapTimer
  line : (t.cuePort a).lineDivisor = (s.cuePort a).lineDivisor ∧ (t.cuePort a).lineParity = (s.cuePort a).lineParity

theorem Queued.trans {es fs : List Entry} (h : Queued s t a es) (k : Queued t u a fs) : Queued s u a (es ++ fs) :=
  ⟨h.hushed.trans k.hushed, by rw [k.queue, h.queue, List.append_assoc], k.framing.trans h.framing, k.damaged.trans h.damaged,
    k.receiver.trans h.receiver, k.gapTimer.trans h.gapTimer, k.line.1.trans h.line.1, k.line.2.trans h.line.2⟩

theorem queued_appendEntry (room : (s.cuePort a).queue.length < 32) (e : Entry) : Queued s (s.appendEntry a e) a [e] := by
  rw [State.appendEntry, if_pos room]
  have line := (flow_hushed (s.onPort a (fun p => { p with queue := p.queue ++ [e] })) a).2
  have hushed := (hushed_onPort s a (fun p => { p with queue := p.queue ++ [e] }) fun _ => rfl).trans (flow_hushed _ a).1
  simp only [CuePort.listening, Prod.mk.injEq, State.onPort_cuePort, if_true] at line
  obtain ⟨-, -, divisor, parity, receiver, gapTimer, queue, framing, damaged⟩ := line
  exact ⟨hushed, queue, framing, damaged, receiver, gapTimer, divisor, parity⟩

/-- In a pause an entry is received by the queue alone. -/
theorem receive_paused (paused : s.paused a = true) (e : Entry) : s.receive a e = s.appendEntry a e := by
  refine drain_paused ?_
  unfold State.appendEntry
  split
  · rw [((hushed_onPort s a (fun p => { p with queue := p.queue ++ [e] }) fun _ => rfl).trans (flow_hushed _ a).1).paused_eq, paused]
  · exact paused

theorem queued_receives (es : List Entry) : ∀ s : State, s.paused a = true → (s.cuePort a).queue.length + es.length ≤ 32 →
    Queued s (es.foldl (fun t e => t.receive a e) s) a es := by
  induction es with
  | nil => exact fun s _ _ => ⟨.refl s a, by simp, rfl, rfl, rfl, rfl, rfl, rfl⟩
  | cons e es ih =>
    intro s paused room
    rw [List.length_cons] at room
    have first : Queued s (s.receive a e) a [e] := by
      rw [receive_paused paused]
      exact queued_appendEntry (by omega) e
    refine first.trans (ih _ (by rw [first.hushed.paused_eq, paused]) ?_)
    rw [first.queue, List.length_append, List.length_singleton]
    omega

theorem atRest_paused (paused : s.paused a = true) : s.atRest a = false := by
  simp [State.atRest, paused]

/-- Settles O25: records that wait in a pause, and those that no rule decodes. -/
theorem undecodedRecords : Obligations.UndecodedRecords := by
  refine fun a s => ⟨fun i es paused room kinds => ?_, undecoded_atRest⟩
  have arrives : exec i s = .next (es.foldl (fun t e => t.receive a e) s) := by
    rcases kinds with ⟨k, fields, rfl, rfl⟩ | ⟨k, rfl, rfl⟩ | ⟨rfl, rfl⟩
    · rw [exec_cueRecord, State.recordArrives, if_neg (by simp [atRest_paused paused])]
      rfl
    · rw [exec_damagedRecord_eq, execDamagedRecord, State.damagedArrives, if_neg (by simp [atRest_paused paused])]
      rfl
    · rw [exec_damagedRecord_eq, execDamagedRecord, State.damagedArrives, if_neg (by simp [atRest_paused paused])]
      rfl
  have queued := queued_receives es s paused room
  exact ⟨_, arrives, queued.hushed.rest, queued.hushed.others, queued.queue, queued.framing, queued.damaged, queued.receiver, queued.gapTimer⟩

/-! ### What the receiver makes of its samples (R44 to R46, R49) -/

/-- The parity sample is wrong (R44). -/
def parityWrong (q : Parity) (x : Byte) (parityBit : Bool) : Bool :=
  decide (q = .even ∧ (onesOf x + (if parityBit then 1 else 0)) % 2 = 1 ∨ q = .odd ∧ (onesOf x + (if parityBit then 1 else 0)) % 2 = 0)

theorem parityRight_eq (q : Parity) (x : Byte) (parityBit : Bool) : (!parityRight q x parityBit) = parityWrong q x parityBit := by
  unfold parityRight parityWrong
  cases q with
  | none => simp
  | even =>
    simp only [true_and, reduceCtorEq, false_and, or_false]
    rcases Nat.mod_two_eq_zero_or_one (onesOf x + if parityBit then 1 else 0) with e | e <;> simp [e]
  | odd =>
    simp only [true_and, reduceCtorEq, false_and, false_or]
    rcases Nat.mod_two_eq_zero_or_one (onesOf x + if parityBit then 1 else 0) with e | e <;> simp [e]

/-- The outcome of the samples (R46's table). -/
theorem outcome_eq (q : Parity) (x : Byte) (parityBit stopBit : Bool) : outcome q x parityBit stopBit =
    if stopBit then { item := .char x, parityError := parityWrong q x parityBit }
    else if x = 0 ∧ (q = .none ∨ parityBit = false) then { item := .brk }
    else { item := .char x, framingError := true } := by
  unfold outcome
  rw [parityRight_eq]
  cases stopBit with
  | true => rfl
  | false =>
    have low : allLow q x parityBit false = true ↔ x = 0 ∧ (q = .none ∨ parityBit = false) := by
      cases q <;> simp [allLow]
    simp only [Bool.false_eq_true, if_false, low]

/-- The port's receiver and gap timer as a completion leaves them. -/
def CuePort.sampled (p : CuePort) (now d : Nat) (q : Parity) (e : Entry) (stopBit : Bool) : CuePort :=
  { p with
    lineDivisor := d, lineParity := q
    receiver := if stopBit then .idle else .waitHigh (e.item == .brk)
    gapTimer := if e.item = .brk then none else some { start := now, length := 4 * ((if q = .none then 10 else 11) * 16 * d) } }

/-- A completion: the receiver, the gap timer and the line's level follow the samples, and the entry is received. -/
theorem completeOnLine_eq (x : Byte) (parityBit stopBit : Bool) {d : Nat} {q : Parity}
    (hd : d = if (s.cuePort a).receiver = .idle then (s.cuePort a).divisor else (s.cuePort a).lineDivisor)
    (hq : q = if (s.cuePort a).receiver = .idle then (s.cuePort a).parity else (s.cuePort a).lineParity) :
    s.completeOnLine a x parityBit stopBit =
      ((s.setRxPin a stopBit).onPort a (fun p => p.sampled s.now d q (outcome q x parityBit stopBit) stopBit)).receive a
        (outcome q x parityBit stopBit) := by
  have latched : s.latchIfIdle a = s.onPort a (fun p => { p with lineDivisor := d, lineParity := q }) := by
    unfold State.latchIfIdle
    split
    · next idle =>
      rw [if_pos (by simpa using idle)] at hd hq
      exact onPort_congr (by rw [hd, hq]; rfl)
    · next busy =>
      rw [if_neg (by simpa using busy)] at hd hq
      exact (onPort_self (by rw [hd, hq])).symm
  have parity : ((s.latchIfIdle a).cuePort a).lineParity = q := by rw [latched]; simp
  have ports (t : State) (f g : CuePort → CuePort) : ((t.onPort a f).setRxPin a stopBit).onPort a g = (t.setRxPin a stopBit).onPort a (fun p => g (f p)) :=
    onPort_onPort (t.setRxPin a stopBit) a f g
  have waits := outcome_eq q x parityBit stopBit
  simp only [State.completeOnLine, parity]
  generalize outcome q x parityBit stopBit = e at waits ⊢
  rw [latched]
  cases item : e.item with
  | brk =>
    have low : stopBit = false := by
      cases stopBit with
      | false => rfl
      | true => rw [waits] at item; cases item
    subst low
    simp only [State.stopGapTimer, onPort_onPort, ports]
    refine congrArg (fun t => State.receive t a e) (onPort_congr ?_)
    simp [CuePort.sampled, item]
  | char y =>
    have framing : (if e.framingError then LineReceiver.waitHigh false else .idle) = if stopBit then .idle else .waitHigh (e.item == .brk) := by
      cases stopBit with
      | true => rw [waits]; rfl
      | false =>
        rw [if_neg Bool.false_ne_true] at waits
        split_ifs at waits with low
        · rw [waits] at item
          cases item
        · rw [waits]
          rfl
    simp only [State.startGapTimer, onPort_onPort, ports]
    refine congrArg (fun t => State.receive t a e) (onPort_congr ?_)
    simp [CuePort.sampled, item, framing, CuePort.gapLength, charTime_eq]

/-- What has happened on the line alone, its level among it. -/
theorem Hushed.onLine {level : Bool} (h : Hushed (s.setRxPin a level) t a) :
    t = { s with cuePorts := t.cuePorts, rxPins := t.rxPins, attention := { s.attention with auds := t.attention.auds } } ∧
    (∀ b, b ≠ a → t.cuePort b = s.cuePort b ∧ t.rxHigh b = s.rxHigh b ∧ t.audRecord b = s.audRecord b) ∧ t.rxHigh a = level := by
  have pins : t.rxPins = (s.setRxPin a level).rxPins := by rw [h.rest]
  refine ⟨?_, fun b ne => ⟨(h.others b ne).1, ?_, (h.others b ne).2⟩, ?_⟩
  · conv_lhs => rw [h.rest]
    rw [pins]
    rfl
  · rw [State.rxHigh, pins]
    simp [State.setRxPin, pick_change, ne.symm, State.rxHigh]
  · rw [State.rxHigh, pins]
    simp [State.setRxPin]

/-- The part as a completion leaves it before the entry is received. -/
def State.sampled (s : State) (a : Aud) (d : Nat) (q : Parity) (e : Entry) (stopBit : Bool) : State :=
  (s.setRxPin a stopBit).onPort a (fun p => p.sampled s.now d q e stopBit)

theorem sampled_hushed (s : State) (a : Aud) (d : Nat) (q : Parity) (e : Entry) (stopBit : Bool) :
    Hushed (s.setRxPin a stopBit) (s.sampled a d q e stopBit) a := hushed_onPort _ a _ fun _ => rfl

theorem sampled_cuePort (s : State) (a : Aud) (d : Nat) (q : Parity) (e : Entry) (stopBit : Bool) :
    (s.sampled a d q e stopBit).cuePort a = (s.cuePort a).sampled s.now d q e stopBit := by
  simp [State.sampled, State.cuePort, State.setRxPin, State.onPort]

theorem waitsHigh_false (h : ∀ k, (s.cuePort a).receiver ≠ .waitHigh k) : s.waitsHigh a = false := by
  unfold State.waitsHigh
  split
  · next k e => exact absurd e (h k)
  · rfl

/-- A completion that joins a full queue: it is lost, and the tail entry takes the overrun mark. -/
theorem appendEntry_full (full : ¬ (s.cuePort a).queue.length < 32) (e : Entry) : s.appendEntry a e =
    (s.onPort a (fun p => { p with queue := changeLast (fun x => { x with overrun := true }) p.queue })).raiseAud a kindLineFault := by
  rw [State.appendEntry, if_neg full]

/-- Settles O19: in a pause a completion joins the queue, or is lost from a full one. -/
theorem completionQueued : Obligations.CompletionQueued := by
  refine fun a x parityBit stopBit s => ⟨rfl, fun k wait => ?_, fun ready paused d q e hd hq he => ?_⟩
  · rw [exec_character_eq, execCharacter, if_pos (by rw [State.waitsHigh, wait])]
  · have he : e = outcome q x parityBit stopBit := he.trans (outcome_eq q x parityBit stopBit).symm
    have hushed := sampled_hushed s a d q e stopBit
    have port := sampled_cuePort s a d q e stopBit
    have paused' : (s.sampled a d q e stopBit).paused a = true := by rw [hushed.paused_eq]; exact paused
    have completes : exec (.character a x parityBit stopBit) s = .next ((s.sampled a d q e stopBit).appendEntry a e) := by
      rw [exec_character_eq, execCharacter, if_neg (by simp [waitsHigh_false ready]), completeOnLine_eq x parityBit stopBit hd hq, ← he,
        ← receive_paused paused']
      rfl
    rw [completes]
    by_cases room : (s.cuePort a).queue.length < 32
    · have queued := queued_appendEntry (s := s.sampled a d q e stopBit) (a := a) (by rw [port]; exact room) e
      obtain ⟨rest, others, level⟩ := (hushed.trans queued.hushed).onLine
      refine ⟨_, rfl, rest, others, level, ?_, ?_, ?_, ?_, ?_, ?_, ?_, ?_⟩
      · rw [queued.framing, port]; rfl
      · rw [queued.damaged, port]; rfl
      · rw [(hushed.trans queued.hushed).replies]; exact le_rfl
      · rw [queued.line.1, port]; rfl
      · rw [queued.line.2, port]; rfl
      · rw [queued.receiver, port]; rfl
      · rw [queued.gapTimer, port]; rfl
      · rw [if_pos room, queued.queue, port]; rfl
    · have full : ¬ ((s.sampled a d q e stopBit).cuePort a).queue.length < 32 := by rw [port]; exact room
      have lost := hushed.trans ((hushed_onPort _ a (fun p => { p with queue := changeLast (fun x => { x with overrun := true }) p.queue })
        fun _ => rfl).trans (hushed_raiseAud _ a kindLineFault))
      rw [← appendEntry_full full e] at lost
      obtain ⟨rest, others, level⟩ := lost.onLine
      have after : ((s.sampled a d q e stopBit).appendEntry a e).cuePort a = { (s.cuePort a).sampled s.now d q e stopBit with
          queue := changeLast (fun x => { x with overrun := true }) (s.cuePort a).queue } := by
        rw [appendEntry_full full, State.raiseAud_cuePort, State.onPort_cuePort, if_pos rfl, port]
        rfl
      refine ⟨_, rfl, rest, others, level, ?_, ?_, ?_, ?_, ?_, ?_, ?_, ?_⟩
      · rw [after]; rfl
      · rw [after]; rfl
      · rw [lost.replies]; exact le_rfl
      · rw [after]; rfl
      · rw [after]; rfl
      · rw [after]; rfl
      · rw [after]; rfl
      · rw [if_neg room]
        refine ⟨?_, fun y l queue => ?_⟩
        · rw [appendEntry_full full]
          exact raised_raiseAud _ a _ (by decide)
        · rw [after, queue, changeLast_append]

/-! ### A completion that the assembler takes at once (R50 to R53) -/

/-- The part as the assembler takes an entry from a line otherwise idle. -/
structure Offered (s u : State) (a : Aud) (level : Bool) : Prop where
  hushed : Hushed (s.setRxPin a level) u a
  framing : (u.cuePort a).framing = (s.cuePort a).framing
  damaged : (u.cuePort a).damaged = (s.cuePort a).damaged
  queue : (u.cuePort a).queue = []

theorem completeOnLine_offered (running : s.paused a = false) (empty : (s.cuePort a).queue = []) (x : Byte) (parityBit stopBit : Bool)
    {q : Parity} (hq : q = if (s.cuePort a).receiver = .idle then (s.cuePort a).parity else (s.cuePort a).lineParity) :
    ∃ u, s.completeOnLine a x parityBit stopBit = u.takeEntry a (outcome q x parityBit stopBit) ∧ Offered s u a stopBit := by
  obtain ⟨d, hd⟩ : ∃ d, d = if (s.cuePort a).receiver = .idle then (s.cuePort a).divisor else (s.cuePort a).lineDivisor := ⟨_, rfl⟩
  rw [completeOnLine_eq x parityBit stopBit hd hq]
  generalize outcome q x parityBit stopBit = e
  have hushed := sampled_hushed s a d q e stopBit
  have port := sampled_cuePort s a d q e stopBit
  have empty' : ((s.sampled a d q e stopBit).cuePort a).queue = [] := by rw [port]; exact empty
  have queued := queued_appendEntry (s := s.sampled a d q e stopBit) (a := a) (by rw [empty']; decide) e
  have hushed' := hushed.trans queued.hushed
  have one : (((s.sampled a d q e stopBit).appendEntry a e).cuePort a).queue = [e] := by rw [queued.queue, empty']; rfl
  refine ⟨((s.sampled a d q e stopBit).appendEntry a e).shifted a [], ?_, hushed'.trans (shifted_hushed _ a []), ?_, ?_, shifted_queue _ a []⟩
  · show ((s.sampled a d q e stopBit).appendEntry a e).drain a = _
    rw [drain_cons (by rw [hushed'.paused_eq]; exact running) one, drain_empty (takeHeadEntry_queue _ a e [])]
    rfl
  · rw [shifted_framing, queued.framing, port]; rfl
  · rw [shifted_damaged, queued.damaged, port]; rfl

/-- A damaged or truncated record has been handed on, in auditorium `a` alone. -/
structure HandedOn (s t : State) (a : Aud) : Prop where
  rest : t = { s with
    cuePorts := t.cuePorts, attention := { s.attention with auds := t.attention.auds }, audCounters := t.audCounters
    intakes := t.intakes, stores := t.stores }
  others : ∀ b, b ≠ a → t.cuePort b = s.cuePort b ∧ t.audRecord b = s.audRecord b ∧ t.audCounter b = s.audCounter b ∧
    t.intake b = s.intake b ∧ t.store b = s.store b
  line : (t.cuePort a).lineSide = (s.cuePort a).lineSide

theorem HandedOn.refl (s : State) (a : Aud) : HandedOn s s a := ⟨rfl, fun _ _ => ⟨rfl, rfl, rfl, rfl, rfl⟩, rfl⟩

theorem HandedOn.trans (h : HandedOn s t a) (k : HandedOn t u a) : HandedOn s u a := by
  refine ⟨?_, fun b ne => ?_, k.line.trans h.line⟩
  · have rest := k.rest
    rw [h.rest] at rest
    exact rest
  · obtain ⟨p, r, c, i, x⟩ := h.others b ne
    obtain ⟨p', r', c', i', x'⟩ := k.others b ne
    exact ⟨p'.trans p, r'.trans r, c'.trans c, i'.trans i, x'.trans x⟩

theorem handedOn_onIntake (s : State) (a : Aud) (f : Intake → Intake) : HandedOn s (s.onIntake a f) a :=
  ⟨rfl, fun b ne => ⟨rfl, rfl, rfl, by simp [ne.symm], rfl⟩, rfl⟩

theorem handedOn_requestFree (s : State) (a : Aud) (k : Nat) (tag : FreeTag) : HandedOn s (s.requestFree a k tag) a :=
  ⟨rfl, fun b ne => ⟨rfl, rfl, rfl, rfl, by simp [State.requestFree, ne.symm]⟩, rfl⟩

theorem handedOn_refuse (s : State) (a : Aud) (kind : Byte) (seq : Seq) (reason : Reason) : HandedOn s (s.refuse a kind seq reason) a := by
  obtain ⟨rest, others, -, -, line⟩ := refused_refuse s a kind seq reason
  have same : (s.refuse a kind seq reason).attention = s.attention ∧ (s.refuse a kind seq reason).intakes = s.intakes ∧
      (s.refuse a kind seq reason).stores = s.stores := by rw [rest]; exact ⟨rfl, rfl, rfl⟩
  obtain ⟨attention, intakes, stores⟩ := same
  refine ⟨?_, fun b ne => ⟨(others b ne).1, ?_, (others b ne).2, ?_, ?_⟩, line⟩
  · conv_lhs => rw [rest]
    rw [attention, intakes, stores]
  · rw [State.audRecord, attention]; rfl
  · rw [State.intake, intakes]; rfl
  · rw [State.store, stores]; rfl

theorem handedOn_lineFault (s : State) (a : Aud) : HandedOn s (s.lineFault a) a :=
  ⟨rfl, fun b ne => ⟨rfl, by rw [State.lineFault, raiseAud_audRecord, if_neg ne.symm]; rfl, by simp [State.lineFault, ne.symm], rfl, rfl⟩, rfl⟩

/-- A record without its own rules, whatever the assembly context. -/
theorem handedOn_pairRecord (s : State) (a : Aud) {r : Record} (kind : Option Byte) (h : r = .damaged kind ∨ r = .truncated kind) :
    HandedOn s (s.pairRecord a r) a := by
  have broken (c : Cue) : HandedOn s (s.breakCue a c r) a :=
    ((handedOn_requestFree s a _ _).trans (handedOn_refuse _ a _ _ _)).trans (handedOn_onIntake _ a _)
  have other (t : State) : HandedOn t (t.takeOther a r) a := by
    rcases h with rfl | rfl
    · exact (handedOn_refuse t a _ _ _).trans (handedOn_lineFault _ a)
    · exact handedOn_refuse t a _ _ _
  have paired : s.pairRecord a r = match (s.intake a).context with
      | .opened c _ => s.breakCue a c r
      | .skipping _ => (s.setContext a .idle).takeOther a r
      | .idle | .inserting _ _ => s.takeOther a r := by
    rcases h with rfl | rfl <;> rfl
  rw [paired]
  cases (s.intake a).context with
  | opened c n => exact broken c
  | skipping n => exact (handedOn_onIntake s a _).trans (other _)
  | idle => exact other s
  | inserting c w => exact other s

theorem handedOn_abandon (s : State) (a : Aud) (f : Framing) (d : Bool) : HandedOn (s.setFraming a f d) (s.abandon a f d) a := by
  obtain ⟨r, kind, h, abandoned⟩ : ∃ r kind, (r = Record.damaged kind ∨ r = .truncated kind) ∧
      s.abandon a f d = (s.setFraming a f d).handRecord a r := by
    refine ⟨_, (s.cuePort a).framing.kindOf, ?_, rfl⟩
    split
    · exact .inl rfl
    · exact .inr rfl
  rw [abandoned, State.handRecord]
  split
  · exact handedOn_pairRecord _ a kind h
  · exact handedOn_onIntake _ a _

/-- What has happened on the line, and to the record that it brings to the intake. -/
theorem HandedOn.onLine {level : Bool} (h : Hushed (s.setRxPin a level) u a) (k : HandedOn u t a) :
    t = { s with cuePorts := t.cuePorts, rxPins := t.rxPins, attention := { s.attention with auds := t.attention.auds }
                 audCounters := t.audCounters, intakes := t.intakes, stores := t.stores } ∧
    ∀ b, b ≠ a → t.cuePort b = s.cuePort b ∧ t.rxHigh b = s.rxHigh b ∧ t.audRecord b = s.audRecord b ∧ t.audCounter b = s.audCounter b ∧
      t.intake b = s.intake b ∧ t.store b = s.store b := by
  obtain ⟨rest, others, -⟩ := h.onLine
  refine ⟨?_, fun b ne => ?_⟩
  · have rest' := k.rest
    rw [rest] at rest'
    have pins : t.rxPins = u.rxPins := by rw [k.rest]
    conv_lhs => rw [rest']
    rw [pins]
  · obtain ⟨port, pin, record⟩ := others b ne
    obtain ⟨port', record', counter, intake, store⟩ := k.others b ne
    have same : u.audCounter b = s.audCounter b ∧ u.intake b = s.intake b ∧ u.store b = s.store b := by rw [rest]; exact ⟨rfl, rfl, rfl⟩
    have pins : t.rxHigh b = u.rxHigh b := by rw [k.rest]; rfl
    exact ⟨port'.trans port, pins.trans pin, record'.trans record, counter.trans same.1, intake.trans same.2.1, store.trans same.2.2⟩

theorem setFraming_cuePort (s : State) (a : Aud) (f : Framing) (d : Bool) :
    (s.setFraming a f d).cuePort a = { s.cuePort a with framing := f, damaged := d } := by simp [State.setFraming]

/-- A break that finds the assembler ready (R50, R51). -/
theorem lineBreak_taken (ready : ∀ k, (s.cuePort a).receiver ≠ .waitHigh k) (running : s.paused a = false) (empty : (s.cuePort a).queue = []) :
    ∃ t, exec (.lineBreak a) s = .next t ∧
      t = { s with cuePorts := t.cuePorts, rxPins := t.rxPins, attention := { s.attention with auds := t.attention.auds }
                   audCounters := t.audCounters, intakes := t.intakes, stores := t.stores } ∧
      (∀ b, b ≠ a → t.cuePort b = s.cuePort b ∧ t.rxHigh b = s.rxHigh b ∧ t.audRecord b = s.audRecord b ∧ t.audCounter b = s.audCounter b ∧
        t.intake b = s.intake b ∧ t.store b = s.store b) ∧
      (t.cuePort a).framing = .kind ∧ (t.cuePort a).damaged = false ∧ (t.cuePort a).queue = [] ∧
      ((s.cuePort a).framing = .between →
        t = { s with cuePorts := t.cuePorts, rxPins := t.rxPins, attention := { s.attention with auds := t.attention.auds } }) ∧
      ((s.cuePort a).framing ≠ .between → (s.intake a).deferred = [] → (s.intake a).context = .idle →
        ∃ u : State, u = { s with cuePorts := u.cuePorts, rxPins := u.rxPins, attention := { s.attention with auds := u.attention.auds } } ∧
          (∀ b, b ≠ a → u.cuePort b = s.cuePort b ∧ u.rxHigh b = s.rxHigh b ∧ u.audRecord b = s.audRecord b) ∧
          (u.cuePort a).framing = .kind ∧ (u.cuePort a).damaged = false ∧ (u.cuePort a).queue = [] ∧
          (u.cuePort a).replies = (s.cuePort a).replies ∧
          u.recordLost t a (s.cuePort a).kindTaken (s.cuePort a).damaged) := by
  obtain ⟨u, completes, offered⟩ := completeOnLine_offered running empty 0 false false rfl
  have low (q : Parity) : outcome q 0 false false = { item := .brk } := by rw [outcome_eq]; simp
  rw [low, takeEntry_break rfl rfl] at completes
  have taken : exec (.lineBreak a) s = .next (u.takeBreak a false) := by
    rw [exec_lineBreak_eq, execLineBreak, if_neg (by simp [waitsHigh_false ready]), completes]
  have hushed : Hushed (s.setRxPin a false) (u.setFraming a .kind false) a := offered.hushed.trans (hushed_onPort u a _ fun _ => rfl)
  have port := setFraming_cuePort u a .kind false
  rw [taken]
  by_cases between : (s.cuePort a).framing = .between
  · rw [takeBreak_between (offered.framing.trans between)]
    obtain ⟨rest, others⟩ := (HandedOn.refl _ a).onLine hushed
    exact ⟨_, rfl, rest, others, by rw [port], by rw [port], by rw [port]; exact offered.queue, fun _ => hushed.onLine.1,
      fun inside => absurd between inside⟩
  · have inside : (u.cuePort a).framing ≠ .between := by rw [offered.framing]; exact between
    rw [takeBreak_inside inside]
    have handed := handedOn_abandon u a .kind false
    obtain ⟨rest, others⟩ := handed.onLine hushed
    have line := handed.line
    simp only [CuePort.lineSide, Prod.mk.injEq, port] at line
    obtain ⟨-, -, -, -, -, -, queue, framing, damaged, -⟩ := line
    refine ⟨_, rfl, rest, others, framing, damaged, queue.trans offered.queue, fun e => absurd e between, fun _ deferred idle => ?_⟩
    have lost := abandon_lost (s := u) (a := a) (by rw [offered.hushed.intake_eq]; exact deferred) (by rw [offered.hushed.intake_eq]; exact idle)
      .kind false
    rw [kindTaken_eq, offered.framing, offered.damaged, ← kindTaken_eq] at lost
    obtain ⟨restU, othersU, -⟩ := hushed.onLine
    exact ⟨_, restU, othersU, by rw [port], by rw [port], by rw [port]; exact offered.queue, hushed.replies, lost⟩

/-- Settles O20: the assembler takes what completes on a line otherwise idle. -/
theorem assemblerTakes : Obligations.AssemblerTakes := by
  refine fun a x parityBit stopBit s ready running empty => ⟨lineBreak_taken ready running empty, fun q error hq herror someHigh => ?_⟩
  intro bad
  obtain ⟨u, completes, offered⟩ := completeOnLine_offered running empty x parityBit stopBit hq
  obtain ⟨e, he⟩ : ∃ e, e = outcome q x parityBit stopBit := ⟨_, rfl⟩
  rw [← he] at completes
  have shape : e.item = .char x ∧ e.gap = false ∧ e.marked = error := by
    rw [he, outcome_eq, herror]
    cases stopBit with
    | true => simp [Entry.marked, parityWrong]
    | false =>
      have high : ¬ (x = 0 ∧ (q = .none ∨ parityBit = false)) := by
        rcases someHigh with k | k | ⟨k, l⟩
        · cases k
        · exact fun h => k h.1
        · rintro ⟨-, none_ | low⟩
          · exact k none_
          · rw [l] at low
            cases low
      rw [if_neg Bool.false_ne_true, if_neg Bool.false_ne_true, if_neg high]
      exact ⟨rfl, rfl, rfl⟩
  obtain ⟨item, gap, marked⟩ := shape
  have taken : exec (.character a x parityBit stopBit) s = .next (u.takeChar a x error) := by
    rw [exec_character_eq, execCharacter, if_neg (by simp [waitsHigh_false ready]), completes, takeEntry_char gap item, marked]
  have damaged : ((u.cuePort a).damaged || error) = bad := by rw [offered.damaged]
  rw [taken]
  have moves (f : Framing) (d : Bool) (moved : u.takeChar a x error = u.setFraming a f d) :
      ∃ t, (.next (u.takeChar a x error) : Host.Outcome State Fault Refusal) = .next t ∧
        t = { s with cuePorts := t.cuePorts, rxPins := t.rxPins, attention := { s.attention with auds := t.attention.auds }
                     audCounters := t.audCounters } ∧
        (∀ b, b ≠ a → t.cuePort b = s.cuePort b ∧ t.audCounter b = s.audCounter b ∧ t.rxHigh b = s.rxHigh b ∧ t.audRecord b = s.audRecord b) ∧
        (t.cuePort a).framing = f ∧ (t.cuePort a).damaged = d ∧ (t.cuePort a).queue = [] ∧ t.audCounter a = s.audCounter a := by
    have hushed : Hushed (s.setRxPin a stopBit) (u.setFraming a f d) a := offered.hushed.trans (hushed_onPort u a _ fun _ => rfl)
    have port := setFraming_cuePort u a f d
    obtain ⟨rest, others, -⟩ := hushed.onLine
    have counters : (u.setFraming a f d).audCounters = s.audCounters := by rw [rest]
    have counter (b : Aud) : (u.setFraming a f d).audCounter b = s.audCounter b := by rw [State.audCounter, counters]; rfl
    refine ⟨_, congrArg _ moved, ?_, fun b ne => ?_, by rw [port], by rw [port], by rw [port]; exact offered.queue, counter a⟩
    · conv_lhs => rw [rest]
      rw [counters]
    · obtain ⟨p, h, r⟩ := others b ne
      exact ⟨p, counter b, h, r⟩
  refine ⟨fun f d stray row => ?_, fun k ok fields last deferred => ?_⟩
  · cases framing : (s.cuePort a).framing with
    | between =>
      rw [framing] at row
      obtain ⟨rfl, rfl, rfl⟩ := row
      rw [takeChar_between (offered.framing.trans framing)]
      have rest := offered.hushed.onLine.1
      have counters : u.audCounters = s.audCounters := by rw [rest]
      obtain ⟨rest', others'⟩ := (handedOn_lineFault u a).onLine offered.hushed
      refine ⟨_, rfl, ?_, fun b ne => ?_, offered.framing.trans framing, offered.damaged, offered.queue, ?_, fun _ => ?_⟩
      · have intakes : u.intakes = s.intakes := by rw [rest]
        have stores : u.stores = s.stores := by rw [rest]
        conv_lhs => rw [rest']
        show _ = { s with
          cuePorts := (u.lineFault a).cuePorts, rxPins := (u.lineFault a).rxPins, audCounters := (u.lineFault a).audCounters
          attention := { s.attention with auds := (u.lineFault a).attention.auds }, intakes := s.intakes, stores := s.stores }
        rw [← intakes, ← stores]
        rfl
      · obtain ⟨p, h, r, c, -⟩ := others' b ne
        exact ⟨p, c, h, r⟩
      · have counter : u.audCounter a = s.audCounter a := by rw [State.audCounter, counters]; rfl
        simp [State.lineFault, counter]
      · exact raised_raiseAud _ a _ (by decide)
    | kind =>
      rw [framing] at row
      obtain ⟨rfl, rfl, rfl⟩ := row
      obtain ⟨t, next, rest, others, f', d', q', counter⟩ := moves _ _ (by rw [takeChar_kind (offered.framing.trans framing), damaged])
      exact ⟨t, next, rest, others, f', d', q', counter, nofun⟩
    | length k ok lost =>
      rw [framing] at row
      obtain ⟨rfl, row⟩ := row
      have moved : u.takeChar a x error = u.setFraming a f d := by
        split at row
        · next spoilt =>
          obtain ⟨rfl, rfl⟩ := row
          exact takeChar_lost (offered.framing.trans framing) spoilt
        · next fine =>
          obtain ⟨some_, rfl, rfl⟩ := row
          simp only [not_or, Bool.not_eq_true] at fine
          obtain ⟨rfl, clean⟩ := fine
          rw [clean, takeChar_length (offered.framing.trans framing) some_, ← damaged, clean, Bool.or_false]
      obtain ⟨t, next, rest, others, f', d', q', counter⟩ := moves _ _ moved
      exact ⟨t, next, rest, others, f', d', q', counter, nofun⟩
    | fields k ok left fields =>
      rw [framing] at row
      obtain ⟨more, rfl, rfl, rfl⟩ := row
      obtain ⟨t, next, rest, others, f', d', q', counter⟩ := moves _ _ (by rw [takeChar_field (offered.framing.trans framing) more, damaged])
      exact ⟨t, next, rest, others, f', d', q', counter, nofun⟩
  · have last' : (u.cuePort a).completes k ok fields x error := by
      rw [CuePort.completes, offered.framing]
      exact last
    have rest : (u.setFraming a .between false).atRest a = true := atRest_setFraming offered.queue
      (by rw [offered.hushed.paused_eq]; exact running) (by rw [offered.hushed.intake_eq]; exact deferred)
    have hushed : Hushed (s.setRxPin a stopBit) (u.setFraming a .between false) a := offered.hushed.trans (hushed_onPort u a _ fun _ => rfl)
    have port := setFraming_cuePort u a .between false
    obtain ⟨restU, othersU, -⟩ := hushed.onLine
    refine ⟨_, rest, restU, othersU, by rw [port], by rw [port], by rw [port]; exact offered.queue, ?_⟩
    rw [takeChar_completes last', damaged, completeRecord_arrives rest]

end Sys2Proof.Machine
end

section
/-! PROOFS. The records of a cue: a HEAD and its checks, bodies, what breaks an open cue, and the records that act on a whole queue or
show. -/

namespace Sys2Proof.Machine

variable {s t u v : State} {a : Aud}

/-! ### HEAD (R67 to R72) -/

theorem headFields_iff (fields : List Byte) (h : HeadFields) : headFields fields = some h ↔ fields.length = 11 ∧ fields.take 2 = [h.slot, h.kind] ∧
    h.seq = BitVec.ofNat 16 (number ((fields.drop 2).take 2)) ∧ h.start = number ((fields.drop 4).take 4) ∧
    h.length = number ((fields.drop 8).take 2) ∧ h.bodyCount = number (fields.drop 10) := by
  constructor
  · intro e
    unfold headFields at e
    split at e
    · obtain rfl := Option.some.inj e
      refine ⟨rfl, rfl, rfl, rfl, rfl, ?_⟩
      simp [number]
    · cases e
  · rintro ⟨eleven, names, seq, start, length, count⟩
    match fields, eleven with
    | [k, ck, s1, s0, t3, t2, t1, t0, d1, d0, n], _ =>
      obtain ⟨slot, kind⟩ : k = h.slot ∧ ck = h.kind := by simpa using names
      obtain ⟨hslot, hkind, hseq, hstart, hlength, hcount⟩ := h
      simp only at slot kind seq start length count
      subst slot kind seq start length count
      simp [headFields, number]

theorem slotOf_iff (b : Byte) (k : Slot) : slotOf b = some k ↔ b.toNat = k.val := by
  unfold slotOf
  split
  · simp [Fin.ext_iff]
  · next big =>
    refine ⟨nofun, fun e => absurd ?_ big⟩
    omega

theorem kindOf_iff (b : Byte) (k : CueKind) : kindOf b = some k ↔ b.toNat = match k with | .caption => 1 | .narration => 2 := by
  unfold kindOf
  split
  · next e => cases k <;> simp [e]
  · next e => cases k <;> simp [e]
  · next one two => cases k with
    | caption => exact ⟨nofun, fun e => (one e).elim⟩
    | narration => exact ⟨nofun, fun e => (two e).elim⟩

theorem cue_finish (h : HeadFields) (n : StreamNo) (k : CueKind) : (h.cue n k).finish =
    h.start + (if k = .caption then min (min h.length 36000) (43200000 - h.start) else 24 * h.length) := by
  cases k <;> simp [HeadFields.cue, Cue.finish, HeadFields.clamped, Config.maxPosition, Config.block]

theorem inRange_iff (h : HeadFields) (k : CueKind) : h.inRange k = false ↔ 43199999 < h.start ∨ h.length = 0 ∨
    (k = .caption ∧ (h.bodyCount = 0 ∨ 4 < h.bodyCount)) ∨ (k = .narration ∧ (h.bodyCount ≠ h.length ∨ 250 < h.length)) := by
  have limit : Config.maxPosition = 43199999 := rfl
  rw [← Bool.not_eq_true]
  cases k with
  | caption =>
    simp only [HeadFields.inRange, Bool.and_eq_true, decide_eq_true_eq, reduceCtorEq, false_and, or_false, true_and]
    omega
  | narration =>
    simp only [HeadFields.inRange, Bool.and_eq_true, decide_eq_true_eq, reduceCtorEq, false_and, false_or, true_and]
    omega

theorem findCue_isSome_iff (x : Seq) (q : List Cue) : (Machine.findCue x q).isSome = true ↔ ∃ d ∈ q, d.seq = x := by
  simp [Machine.findCue, List.find?_isSome]

theorem overlaps_iff (h : HeadFields) (n : StreamNo) (st : Stream) :
    (st.kind == .narration && st.queue.any fun d => d.kind == .narration && (h.cue n st.kind).overlaps d) = true ↔
      st.kind = .narration ∧ ∃ d ∈ st.queue, d.kind = .narration ∧ h.start < d.finish ∧ d.start <
        h.start + (if st.kind = .caption then min (min h.length 36000) (43200000 - h.start) else 24 * h.length) := by
  rw [← cue_finish h n]
  simp only [Cue.overlaps, Bool.and_eq_true, beq_iff_eq, List.any_eq_true, decide_eq_true_eq]
  rfl

/-- The first check that fails, of a list of checks that begins with `p`. -/
theorem firstFailing_cons {p : Prop} [Decidable p] (r : Reason) (l : List (Bool × Reason)) :
    (((decide p, r) :: l).find? (fun c => c.1)).map (fun c => c.2) = if p then some r else (l.find? (fun c => c.1)).map (fun c => c.2) := by
  by_cases h : p <;> simp [h]

/-- The checks of a HEAD give its first failure, or its cue. -/
theorem checkHead_eq (s : State) (a : Aud) (h : HeadFields) : s.checkHead a h = match s.headFails a h with
    | some r => .error r
    | none => .ok (h.cue (streamOf a ((slotOf h.slot).getD 0)) (s.stream (streamOf a ((slotOf h.slot).getD 0))).kind) := by
  simp only [State.headFails, firstFailing_cons]
  rw [State.checkHead]
  simp only [beq_iff_eq, Bool.or_eq_true]
  by_cases dark : (s.session a).state = .dark
  · simp [dark]
  by_cases over_ : (s.session a).ending = true ∨ (s.session a).state = .ended
  · simp [dark, over_]
  simp only [dark, over_, if_false]
  cases named : slotOf h.slot with
  | none => simp
  | some k =>
    simp only [Option.getD_some]
    by_cases closed : (s.stream (streamOf a k)).isOpen = false
    · simp [closed]
    by_cases mismatch : kindOf h.kind = some (s.stream (streamOf a k)).kind
    swap
    · simp [closed, mismatch]
    have range := inRange_iff h (s.stream (streamOf a k)).kind
    have duplicate := findCue_isSome_iff h.seq (s.stream (streamOf a k)).queue
    have overlap := overlaps_iff h (streamOf a k) (s.stream (streamOf a k))
    have finish := cue_finish h (streamOf a k) (s.stream (streamOf a k)).kind
    have open_ : ¬ (some k = none ∨ (s.stream (streamOf a k)).isOpen = false) := by simp [closed]
    have shut : ¬ (!(s.stream (streamOf a k)).isOpen) = true := by simp [closed]
    have same : ¬ (!(kindOf h.kind == some (s.stream (streamOf a k)).kind)) = true := by simp [mismatch]
    have late : ((s.session a).state.isReleasing && decide ((h.cue (streamOf a k) (s.stream (streamOf a k)).kind).finish ≤ s.position a)) = true ↔
        (s.session a).state.isReleasing = true ∧ h.start + (if (s.stream (streamOf a k)).kind = .caption
          then min (min h.length 36000) (43200000 - h.start) else 24 * h.length) ≤ s.position a := by
      rw [finish, Bool.and_eq_true, decide_eq_true_eq]
    rw [if_neg open_, if_neg shut, if_neg same, if_neg (not_not.mpr mismatch)]
    simp only [Bool.not_eq_true', range, duplicate, overlap, late, decide_eq_true_eq]
    split_ifs <;> rfl

/-- A HEAD of the right length that fails a check is refused, and its bodies are skipped. -/
theorem takeHead_fails {fields : List Byte} {h : HeadFields} {reason : Reason} (named : headFields fields = some h)
    (fails : s.headFails a h = some reason) :
    s.takeHead a fields = (s.refuse a headCode h.seq reason).setContext a (skipContext h.bodyCount) := by
  simp only [State.takeHead, named, checkHead_eq, fails]

theorem headFails_setContext (s : State) (a : Aud) (x : Context) (h : HeadFields) : (s.setContext a x).headFails a h = s.headFails a h := rfl

theorem setContext_setContext (s : State) (a : Aud) (x y : Context) : (s.setContext a x).setContext a y = s.setContext a y := by
  simp only [State.setContext, State.onIntake, change_change]

/-- A refusal beside a change of the intake. -/
theorem refused_onIntake {kind : Byte} {seq : Seq} {reason : Reason} (h : s.refused t a kind seq reason) (f : Intake → Intake) :
    (s.onIntake a f).refused (t.onIntake a f) a kind seq reason := by
  obtain ⟨rest, others, count, gains, line⟩ := h
  refine ⟨?_, others, count, gains, line⟩
  have intakes : t.intakes = s.intakes := by rw [rest]
  conv_lhs => rw [rest]
  rfl

theorem skipContext_eq (n : Nat) : skipContext n = if n = 0 then .idle else .skipping (some n) := by
  cases n <;> rfl

/-- Settles O29: a HEAD is refused for the first check it fails. -/
theorem headRefused : Obligations.HeadRefused := by
  refine ⟨headFields_iff, slotOf_iff, kindOf_iff, fun a fields s rest closed => ⟨fun wrong => ?_, fun h reason named fails => ?_⟩⟩
  · have none_ : headFields fields = none := by
      cases e : headFields fields with
      | none => rfl
      | some h => exact absurd ((headFields_iff fields h).mp e).1 wrong
    have taken : (s.setContext a .idle).takeHead a fields = ((s.setContext a .idle).refuse a headCode 0 .badField).setContext a (.skipping none) := by
      simp only [State.takeHead, none_]
    have refused := refused_onIntake (refused_refuse (s.setContext a .idle) a headCode 0 .badField) (fun i => { i with context := .skipping none })
    refine ⟨_, by rw [exec_head_closed rest closed, taken], ?_⟩
    rw [← setContext_setContext s a .idle]
    exact refused
  · have refused := refused_onIntake (refused_refuse (s.setContext a .idle) a headCode h.seq reason)
      (fun i => { i with context := skipContext h.bodyCount })
    refine ⟨_, by rw [exec_head_closed rest closed, takeHead_fails (s := s.setContext a .idle) named fails], ?_⟩
    rw [← skipContext_eq, ← setContext_setContext s a .idle]
    exact refused

/-! ### Cells taken for a HEAD or a BODY (R71, R73) -/

theorem flow_onIntake (s : State) (a : Aud) (f : Intake → Intake) : (s.onIntake a f).flow a = (s.flow a).onIntake a f := by
  have transmits (u : State) : (u.onIntake a f).transmit a = (u.transmit a).onIntake a f := by
    unfold State.transmit
    have same : (u.onIntake a f).cuePort a = u.cuePort a := rfl
    simp only [same]
    split <;> rfl
  have quota : (s.onIntake a f).quotaCause a = s.quotaCause a := rfl
  have queue : (s.onIntake a f).queueCause a = s.queueCause a := rfl
  have room : (s.onIntake a f).mayResume a = s.mayResume a := rfl
  have port : (s.onIntake a f).cuePort a = s.cuePort a := rfl
  have ports (g : CuePort → CuePort) : (s.onIntake a f).onPort a g = (s.onPort a g).onIntake a f := rfl
  unfold State.flow
  simp only [quota, queue, room, port, ports, transmits]
  split_ifs <;> rfl

/-- One cell taken, with the context that follows it. -/
theorem allocate_setContext (s : State) (a : Aud) (x y : Context) :
    ((s.setContext a x).allocate a).setContext a y = State.setContext
      (State.flow { s with stores := change s.stores a (fun st => { st with used := st.used + 1 }), freeCells := s.freeCells - 1 } a) a y := by
  have taken : (s.setContext a x).allocate a =
      (State.flow { s with stores := change s.stores a (fun st => { st with used := st.used + 1 }), freeCells := s.freeCells - 1 } a).setContext a x :=
    flow_onIntake { s with stores := change s.stores a (fun st => { st with used := st.used + 1 }), freeCells := s.freeCells - 1 } a
      (fun i => { i with context := x })
  rw [taken, setContext_setContext]

/-- Settles O30: a HEAD that passes its checks opens its cue. -/
theorem headAccepted : Obligations.HeadAccepted := by
  intro a fields h k s rest closed named passes slot
  have checked : (s.setContext a .idle).checkHead a h = .ok (h.cue (streamOf a k) (s.stream (streamOf a k)).kind) := by
    rw [checkHead_eq, headFails_setContext, passes, slot]
    rfl
  have taken : (s.setContext a .idle).takeHead a fields =
      ((s.setContext a .idle).allocate a).setContext a (.opened (h.cue (streamOf a k) (s.stream (streamOf a k)).kind) h.bodyCount) := by
    simp only [State.takeHead, named, checked]
  rw [exec_head_closed rest closed, taken, allocate_setContext]
  congr 4
  cases (s.stream (streamOf a k)).kind <;> rfl

/-! ### BODY, and what breaks an open cue (R65, R73, R74, R91) -/

theorem heldBodies_eq (c : Cue) : c.heldBodies = c.bodies.countP Option.isSome := by
  rw [Cue.heldBodies, List.countP_eq_length_filter]

theorem bodyInRange_iff (k : CueKind) (n : Nat) : bodyInRange k n = true ↔ (if k = .caption then 1 else 8) ≤ n ∧ n ≤ 60 := by
  cases k <;> simp [bodyInRange]

/-- The freeing unit, empty till now, takes the intake's request. -/
theorem requestFree_empty (none_ : (s.store a).freeing = []) (k : Nat) (tag : FreeTag) : s.requestFree a k tag =
    { s with stores := change s.stores a (fun st => { st with freeing := [{ cells := k, tag := tag }], cellStart := s.now }) } := by
  have same : change s.stores a (fun st => { st with
      freeing := st.freeing ++ [{ cells := k, tag := tag }], cellStart := if st.freeing.isEmpty then s.now else st.cellStart }) =
      change s.stores a (fun st => { st with freeing := [{ cells := k, tag := tag }], cellStart := s.now }) := change_congr (by
    have none_ : (pick s.stores a).freeing = [] := none_
    simp [none_])
  rw [State.requestFree, State.onStore, same]

/-- A refusal that the intake's own request comes with: it waits behind the cells. -/
theorem refused_waiting (rest : s.atRest a = true) (kind : Byte) (c : Cue) (reason : Reason) (d : Deferred) :
    State.refused { s with
        stores := change s.stores a (fun st => { st with freeing := [{ cells := 1 + c.heldBodies, tag := .intake }], cellStart := s.now })
        intakes := change s.intakes a (fun _ => { context := .idle, deferred := [d] }) }
      (((s.requestFree a c.cells .intake).refuse a kind c.seq reason).onIntake a (fun i => { context := .idle, deferred := d :: i.deferred }))
      a kind c.seq reason := by
  obtain ⟨-, -, running, deferred⟩ := (atRest_iff s a).mp rest
  have freeing := ((paused_iff_false s a).mp running).2.2
  have refused := refused_onIntake (refused_refuse (s.requestFree a c.cells .intake) a kind c.seq reason)
    (fun i => { context := .idle, deferred := d :: i.deferred })
  have before : (s.requestFree a c.cells .intake).onIntake a (fun i => { context := .idle, deferred := d :: i.deferred }) = { s with
      stores := change s.stores a (fun st => { st with freeing := [{ cells := 1 + c.heldBodies, tag := .intake }], cellStart := s.now })
      intakes := change s.intakes a (fun _ => { context := .idle, deferred := [d] }) } := by
    have same : change s.intakes a (fun i => { context := .idle, deferred := d :: i.deferred }) =
        change s.intakes a (fun _ => { context := .idle, deferred := [d] }) := change_congr (by
      have deferred : (pick s.intakes a).deferred = [] := deferred
      rw [deferred])
    rw [requestFree_empty freeing, State.onIntake, same]
    rfl
  rwa [before] at refused

/-- A record that breaks the open cue. -/
theorem exec_breaks {i : Instr} {r : Record} {c : Cue} {owed : Nat} (rest : s.atRest a = true) (opened : (s.intake a).context = .opened c owed)
    (h : breaks a i = some r) : exec i s = .next (s.breakCue a c r) := by
  have paired (r : Record) (other : r.isOther) : s.pairRecord a r = s.breakCue a c r := by
    cases r with
    | framed kind fields => simp only [State.pairRecord, if_neg other.1, if_neg other.2, opened]
    | _ => simp only [State.pairRecord, opened]
  have arrives (kind : Byte) (fields : List Byte) (other : (Record.framed kind fields).isOther) :
      s.recordArrives a kind fields = s.breakCue a c (.framed kind fields) := by
    rw [recordArrives_of_atRest rest, paired _ other]
  unfold breaks at h
  split at h
  · obtain ⟨rfl, e⟩ := Option.ite_none_right_eq_some.mp h
    obtain rfl := Option.some.inj e
    exact congrArg _ (arrives headCode _ ⟨by decide, by decide⟩)
  · obtain ⟨rfl, e⟩ := Option.ite_none_right_eq_some.mp h
    obtain rfl := Option.some.inj e
    exact congrArg _ (arrives withdrawCode _ ⟨by decide, by decide⟩)
  · obtain ⟨rfl, e⟩ := Option.ite_none_right_eq_some.mp h
    obtain rfl := Option.some.inj e
    exact congrArg _ (arrives endCode _ ⟨by decide, by decide⟩)
  · obtain ⟨rfl, e⟩ := Option.ite_none_right_eq_some.mp h
    obtain rfl := Option.some.inj e
    exact congrArg _ (arrives queryCode _ ⟨by decide, by decide⟩)
  · obtain ⟨⟨rfl, mark, body⟩, e⟩ := Option.ite_none_right_eq_some.mp h
    obtain rfl := Option.some.inj e
    exact congrArg _ (arrives _ _ ⟨mark, body⟩)
  · obtain ⟨rfl, e⟩ := Option.ite_none_right_eq_some.mp h
    obtain rfl := Option.some.inj e
    rw [exec_damagedRecord_eq, execDamagedRecord, State.damagedArrives, if_pos rest, handRecord_empty ((atRest_iff s _).mp rest).2.2.2,
      paired (.damaged _) trivial]
  · cases h

/-- Settles O32: a BODY of the open cue, and the records that break it. -/
theorem bodyAndBreaker : Obligations.BodyAndBreaker := by
  refine ⟨fun c => ⟨heldBodies_eq c, Nat.add_comm 1 _⟩, fun a payload c owed s rest opened => ?_, fun a i r c owed s rest opened h =>
    ⟨_, exec_breaks rest opened h, refused_waiting rest headCode c .brokenCue (.record r)⟩⟩
  have taken : exec (.body a payload) s = .next (s.takeOpenBody a c owed payload) := by
    rw [exec_body_of_atRest rest, State.takeBody, opened]
  rw [taken, State.takeOpenBody]
  have range := bodyInRange_iff c.kind payload.length
  by_cases fits : bodyInRange c.kind payload.length = true
  · rw [if_pos fits, if_pos (range.mp fits)]
    refine congrArg _ ?_
    have allocated (x : Context) : (s.allocate a).setContext a x = State.setContext
        (State.flow { s with stores := change s.stores a (fun st => { st with used := st.used + 1 }), freeCells := s.freeCells - 1 } a) a x := rfl
    by_cases last : owed ≤ 1
    · simp only [if_pos last, if_neg (Nat.not_lt.mpr last), State.beginInsertion, allocated]
      have stream : (s.allocate a).stream c.stream = s.stream c.stream := by rw [State.stream, (allocate_intake_stream s a).2]; rfl
      have now : (s.allocate a).now = s.now := by
        rw [State.allocate, (flow_hushed _ a).1.rest]
        rfl
      rw [stream, now]
      congr 2
      cases (seqs (s.stream c.stream).queue).reverse <;> rfl
    · simp only [if_neg last, if_pos (Nat.lt_of_not_le last), allocated]
  · rw [if_neg fits, if_neg (range.not.mp fits)]
    exact ⟨_, rfl, refused_waiting rest bodyCode c .bodySize (.skip (owed - 1))⟩

/-! ### WITHDRAW (R79, R93, R98) -/

theorem near_setContext (s : State) (a : Aud) (x : Context) : Near s (s.setContext a x) a :=
  ⟨⟨rfl, rfl, rfl, rfl, rfl, rfl, rfl, rfl⟩, fun _ _ => ⟨rfl, rfl, rfl, rfl, rfl, rfl⟩, fun _ => ⟨rfl, rfl⟩, fun _ => ⟨rfl, rfl, rfl⟩, rfl, rfl,
    rfl⟩

theorem takeWithdraw_passes {k : Slot} {fields : List Byte} (lit : (s.session a).state ≠ .dark) (going : (s.session a).state ≠ .ended)
    (five : fields.length = 5) (named : slotOf (fields.headD 0) = some k) (open_ : (s.stream (streamOf a k)).isOpen = true)
    (range : number fields.tail ≤ 43199999) :
    s.takeWithdraw a fields = (s.startPurge a (.withdraw k (number fields.tail))).settleFills := by
  match fields, five with
  | [b, t3, t2, t1, t0], _ =>
    have named : slotOf b = some k := named
    have range : ¬ Config.maxPosition < number [t3, t2, t1, t0] := Nat.not_lt.mpr range
    simp only [State.takeWithdraw, beq_iff_eq, lit, going, if_false, named, open_, Bool.not_true, Bool.false_eq_true, range]
    rfl

theorem findCue_isSome_of_mem {x : Seq} {n : StreamNo} (h : x ∈ seqs (s.stream n).queue) : (s.findCue n x).isSome = true := by
  rw [State.findCue, findCue_isSome_iff]
  simpa [seqs] using h

/-- A walk over one queue from its tail begins with the tail's cue. -/
theorem startPurge_withdraw {k : Slot} {time : Nat} {x : Seq} {rest : List Seq}
    (queue : (seqs (s.stream (streamOf a k)).queue).reverse = x :: rest) :
    s.startPurge a (.withdraw k time) = s.onStore a (fun st => { st with
      purge := some { kind := .withdraw k time, todo := rest.map (fun y => (k, y)), current := some (k, x), stepStart := s.now, waiting := false } }) := by
  have order : s.purgeOrder a (.withdraw k time) = (k, x) :: rest.map (fun y => (k, y)) := by
    rw [State.purgeOrder, State.walkOf, ← List.map_reverse, queue, List.map_cons]
  have inQueue : x ∈ seqs (s.stream (streamOf a k)).queue := by
    rw [← List.mem_reverse, queue]
    exact List.mem_cons_self
  have found (st : Vector Store 16) : (State.findCue { s with stores := st } (streamOf a k) x).isSome = true := findCue_isSome_of_mem inQueue
  simp only [State.startPurge, State.beginPurge, order, purgeFuel, State.runPurge, State.onStore_store, if_true, PurgeKind.isTotal, Bool.false_and,
    Option.isSome_none, Bool.or_false, Bool.false_eq_true, if_false]
  have next : State.nextPlace (s.onStore a (fun st => { st with purge := some { kind := .withdraw k time, todo := (k, x) :: rest.map (fun y => (k, y)), current := none, stepStart := s.now, waiting := false } })) a ((k, x) :: rest.map (fun y => (k, y))) = some ((k, x), rest.map (fun y => (k, y))) := by
    rw [State.nextPlace]
    exact if_pos (found _)
  rw [next]
  simp only [State.onStore, change_change]

/-- Settles O33: a WITHDRAW that passes its checks begins its purge at the tail. -/
theorem withdrawBeginsPurge : Obligations.WithdrawBeginsPurge := by
  intro a k fields s rest closed lit going five named open_ range
  have taken : exec (.withdraw a fields) s = .next (((s.setContext a .idle).startPurge a (.withdraw k (number fields.tail))).settleFills) := by
    rw [exec_withdraw_closed rest closed, takeWithdraw_passes (s := s.setContext a .idle) lit going five named open_ range]
  have work : Worked none (s.setContext a .idle) ((s.setContext a .idle).startPurge a (.withdraw k (number fields.tail))).settleFills :=
    (Worked.refl.startPurge a _).settleFills
  refine ⟨_, taken, (near_setContext s a .idle).onlyShow work nofun, work.clock_eq a, fun x later queue busy => ?_⟩
  rw [startPurge_withdraw (s := s.setContext a .idle) queue, settleFills_still ?_ busy]
  · rfl
  · rfl

/-! ### END and QUERY (R35, R36, R80) -/

theorem enterEnded_stream (v : State) (a : Aud) (n : StreamNo) : (v.enterEnded a).stream n = (v.oweClears a).stream n := by
  simp only [State.enterEnded, State.raiseAud_stream, oweClears_stream]
  rfl

theorem enterEnded_links (v : State) (a : Aud) : (v.enterEnded a).links = v.links := by
  rw [State.enterEnded, oweClears_streamsOnly (State.onSession _ _ _) a]
  rfl

/-- An END sets the ending mark, and ends a show without cues. -/
theorem end_rows (a : Aud) (s : State) (rest : s.atRest a = true) (closed : ∀ c n, (s.intake a).context ≠ .opened c n)
    (active : (s.session a).state.isActive = true) :
    ∃ t, exec (.endRecord a []) s = .next t ∧ s.onlyShow t a ∧ t.clock a = s.clock a ∧ t.intake a = { context := .idle, deferred := [] } ∧
      s.movesTo t a (s.showRun a) { s.session a with ending := true } ∧
      (s.queuesEmpty a = true → (t.session a).state = .ended ∧ t.raised a kindEnded ∧
        (s.ringsBusy → ∀ n, t.stream n = (s.oweClears a).stream n)) ∧
      (s.queuesEmpty a = false → s.ringsBusy →
        t = (s.setContext a .idle).onSession a (fun x => { x with ending := true })) := by
  generalize marked : (s.setContext a .idle).onSession a (fun x => { x with ending := true }) = v
  have near : Near s v a := by
    rw [← marked]
    refine ⟨⟨rfl, rfl, rfl, rfl, rfl, rfl, rfl, rfl⟩, fun b ne => ⟨rfl, by simp [ne.symm, State.setContext], rfl, rfl, rfl, rfl⟩,
      fun _ => ⟨rfl, rfl⟩, fun _ => ⟨rfl, rfl, rfl⟩, rfl, rfl, rfl⟩
  have session : v.session a = { s.session a with ending := true } := by rw [← marked]; simp [State.setContext]
  have intake : v.intake a = { context := .idle, deferred := [] } := by
    rw [← marked]
    have deferred := ((atRest_iff s a).mp rest).2.2.2
    simp [State.setContext, deferred]
  have taken : exec (.endRecord a []) s = .next (v.endTest a).settleFills := by
    rw [exec_endRecord_closed rest closed, ← marked]
    unfold State.takeEndRecord State.takeEnd
    have same : ((s.setContext a .idle).session a).state = (s.session a).state := rfl
    rw [same]
    cases e : (s.session a).state <;> simp [e, AudState.isActive] at active ⊢
  have work : Worked none v (v.endTest a).settleFills := (Worked.refl.endTest a).settleFills
  have none_ : (v.store a).purge = none := by
    rw [← marked]
    exact ((paused_iff_false s a).mp ((atRest_iff s a).mp rest).2.2.1).2.1
  have empty : v.queuesEmpty a = s.queuesEmpty a := by rw [← marked]; rfl
  have test : v.endTest a = if s.queuesEmpty a = true then v.enterEnded a else v := by
    rw [State.endTest, session, none_, empty]
    simp [active]
  refine ⟨_, taken, near.onlyShow work nofun, ?_, ?_, ?_, fun ends => ?_, fun stays busy => ?_⟩
  · rw [work.clock_eq, ← marked]; rfl
  · rw [work.context a (by rw [intake]; rfl), intake]
  · have moves := work.movesTo (s := s) (a := a) near.tables.1
    rw [session] at moves
    have run : v.showRun a = s.showRun a := by rw [← marked]; rfl
    rwa [run] at moves
  · rw [test, if_pos ends] at work ⊢
    have later : Worked none (v.enterEnded a) (v.enterEnded a).settleFills := Worked.settleFills .refl
    obtain ⟨ended, raised⟩ := later.endedRaised
    refine ⟨ended, raised, fun busy n => ?_⟩
    have links : v.links = s.links := by rw [← marked]; rfl
    have streams : v.streams = s.streams := by rw [← marked]; rfl
    rw [settleFills_still ((enterEnded_links v a).trans links) busy, enterEnded_stream]
    exact oweClears_congr streams links a n
  · rw [test, if_neg (by simp [stays]), ← marked]
    exact settleFills_still rfl busy

/-- A QUERY is answered as things stand. -/
theorem query_row (a : Aud) (s : State) (rest : s.atRest a = true) (closed : ∀ c n, (s.intake a).context ≠ .opened c n) :
    ∃ t, exec (.query a []) s = .next t ∧
      t = { s with cuePorts := t.cuePorts, intakes := change s.intakes a (fun _ => { context := .idle, deferred := [] }) } ∧
      (∀ b, b ≠ a → t.cuePort b = s.cuePort b) ∧ (t.cuePort a).lineSide = (s.cuePort a).lineSide ∧
      (s.cuePort a).gainsReply (t.cuePort a)
        (.status (s.session a).state (min ((s.clock a).base + (s.clock a).sub) 43199999) (s.store a).used (s.store a).quota
          (s.session a).ending) := by
  have taken : exec (.query a []) s = .next ((s.setContext a .idle).placeReply a (s.statusReply a)) := by
    rw [exec_query_closed rest closed]
    rfl
  have gains := placeReply_gainsReply (s.setContext a .idle) a (s.statusReply a)
  obtain ⟨f, placed, line, -⟩ := placeReply_cases (s.setContext a .idle) a (s.statusReply a)
  rw [placed] at gains taken
  refine ⟨_, taken, ?_, fun b ne => ?_, ?_, ?_⟩
  · have same : change s.intakes a (fun i => { i with context := .idle }) = change s.intakes a (fun _ => { context := .idle, deferred := [] }) :=
      change_congr (by
        have deferred : (pick s.intakes a).deferred = [] := ((atRest_iff s a).mp rest).2.2.2
        rw [deferred])
    rw [← same]
    rfl
  · simp [ne.symm, State.setContext]
  · have stands : _ = (s.cuePort a).lineSide := line
    simpa using stands
  · exact gains

/-- Settles O34: an END sets the ending mark, and ends a show without cues; a QUERY is answered as things stand. -/
theorem endAndQuery : Obligations.EndAndQuery := ⟨end_rows, query_row⟩

end Sys2Proof.Machine
end

section
/-! PROOFS. The management port's auditorium, stream and cue port commands: CONFIGURE-AUDITORIUM, ARM, OPEN-STREAM, CLOSE-STREAM,
SET-CUE-PORT and RESET-CUE-PORT; and how a purge's walk goes on (R93). -/

namespace Sys2Proof.Machine

variable {s t u : State} {a : Aud}

/-! ### Flow control and the transport -/

theorem flow_told_done (s : State) (a : Aud) (command : Byte) :
    ((s.onMgmt (fun m => { m with out := [1] })).flow a).done command = (s.flow a).respond command .done [] := by
  rw [flow_onMgmt]
  rfl

theorem flow_told_work (s : State) (a : Aud) (w : Work) :
    ((s.onMgmt (fun m => { m with out := [1] })).flow a).work w = { s.flow a with mgmt := { transport := .working w, out := [1] } } := by
  rw [flow_onMgmt]
  rfl

theorem notDark_iff (x : AudState) : (!(x == .dark)) = true ↔ x ≠ .dark := by simp

/-! ### CONFIGURE-AUDITORIUM and ARM (R21, R26, R89) -/

theorem rateOf_iff (b : Byte) (r : Rate) : rateOf b = some r ↔ b.toNat = r.fps := by
  unfold rateOf
  split
  case h_7 n24 n25 n30 n48 n50 n60 => cases r <;> simp [Rate.fps] <;> assumption
  all_goals
    next e =>
      rw [e]
      cases r <;> simp [Rate.fps]

theorem quotaSum_eq (s : State) (a : Aud) (q : Nat) :
    s.quotaSum a q = q + ((List.finRange 16).map (fun b => if b = a then 0 else (s.store b).quota)).sum := by
  have split_ (b : Aud) : (if b = a then q else (s.store b).quota) = (if b = a then q else 0) + (if b = a then 0 else (s.store b).quota) := by
    split <;> simp
  simp only [State.quotaSum, auds, split_, ← Fin.sum_univ_def, Finset.sum_add_distrib, Finset.sum_ite_eq', Finset.mem_univ, if_true]

theorem exec_configureAuditorium (a : Aud) (q1 q0 w l1 l0 : Byte) (s : State) (h : s.takesCommands) :
    exec (.configureAuditorium [BitVec.ofNat 8 a.val, q1, q0, w, l1, l0]) s = .next
      (if (s.session a).state ≠ .dark then s.respond 1 .refusedState []
      else if (s.store a).purge ≠ none then s.respond 1 .busy []
      else if 8192 < number [q1, q0] ∨ w.toNat ∉ [8, 16, 32, 64] then s.respond 1 .refusedRange []
      else if 8192 < number [q1, q0] + ((List.finRange 16).map (fun b => if b = a then 0 else (s.store b).quota)).sum then
        s.respond 1 .refusedFull []
      else (State.flow { s with
        stores := change s.stores a (fun st => { st with quota := number [q1, q0] })
        clocks := change s.clocks a (fun c => { c with windowSize := w.toNat, staleLimit := number [l1, l0] }) } a).respond 1 .done []) := by
  rw [exec_configureAuditorium_eq, execConfigureAuditorium]
  refine respond_of_write h ?_
  simp only [audOf_ofNat, State.configure, State.onMgmt_session, State.onMgmt_store]
  have total : (s.onMgmt (fun m => { m with out := [1] })).quotaSum a (number [q1, q0]) =
      number [q1, q0] + ((List.finRange 16).map (fun b => if b = a then 0 else (s.store b).quota)).sum := quotaSum_eq s a _
  have range : (decide (Config.cells < number [q1, q0]) || !(w.toNat == 8 || w.toNat == 16 || w.toNat == 32 || w.toNat == 64)) = true ↔
      8192 < number [q1, q0] ∨ w.toNat ∉ [8, 16, 32, 64] := by
    have cells : Config.cells = 8192 := rfl
    simp [cells, not_or, and_assoc]
  have full : (Config.cells < number [q1, q0] + ((List.finRange 16).map (fun b => if b = a then 0 else (s.store b).quota)).sum) =
      (8192 < number [q1, q0] + ((List.finRange 16).map (fun b => if b = a then 0 else (s.store b).quota)).sum) := rfl
  simp only [total, notDark_iff, Option.isSome_iff_ne_none, range, full]
  split
  · rfl
  · split
    · rfl
    · split
      · rfl
      · split
        · rfl
        · exact flow_told_done ((s.onStore a (fun st => { st with quota := number [q1, q0] })).onClock a (fun c =>
            { c with windowSize := w.toNat, staleLimit := number [l1, l0] })) a 1

theorem exec_arm (a : Aud) (code : Byte) (s : State) (h : s.takesCommands) :
    exec (.arm [BitVec.ofNat 8 a.val, code]) s = .next
      (if (s.session a).state ≠ .dark then s.respond 2 .refusedState []
      else match rateOf code with
      | none => s.respond 2 .refusedRange []
      | some r => (State.flow { s with
          clocks := change s.clocks a (fun c => { c with
            rate := some r, period := 14745600 / r.fps, lastHold := 0, base := 0, sub := 0 })
          runs := change s.runs a (fun _ => {
            window := .closed, subFrozen := true, pauseStart := none, pauseHold := 0, staleMark := false, strobedAt := none })
          sessions := change s.sessions a (fun x => { x with state := .armed, ending := false }) } a).respond 2 .done []) := by
  rw [exec_arm_eq, execArm]
  refine respond_of_write h ?_
  simp only [audOf_ofNat, State.onMgmt_session, notDark_iff]
  split
  · rfl
  · cases rateOf code with
    | none => rfl
    | some r => exact flow_told_done { s with
          clocks := change s.clocks a (fun c => { c with
            rate := some r, period := 14745600 / r.fps, lastHold := 0, base := 0, sub := 0 })
          runs := change s.runs a (fun _ => {
            window := .closed, subFrozen := true, pauseStart := none, pauseHold := 0, staleMark := false, strobedAt := none })
          sessions := change s.sessions a (fun x => { x with state := .armed, ending := false }) } a 2

/-- Settles O52: the checks of CONFIGURE-AUDITORIUM and ARM in their order, and their effects. -/
theorem configureAndArm : Obligations.ConfigureAndArm := by
  refine ⟨by decide, rateOf_iff, fun a q1 q0 w l1 l0 s h => ?_, fun a code s h => ?_⟩
  · exact exec_configureAuditorium a q1 q0 w l1 l0 s h
  · exact (exec_arm a code s h).trans (by cases rateOf code <;> rfl)

/-! ### How a purge's walk goes on (R93) -/

theorem runPurge_none (h : (s.store a).purge = none) (fuel : Nat) : State.runPurge a fuel s = s := by
  cases fuel with
  | zero => rfl
  | succ fuel => simp [State.runPurge, h]

theorem runPurge_waiting {p : Purge} (h : (s.store a).purge = some p) (waits : p.waiting = true) (fuel : Nat) : State.runPurge a fuel s = s := by
  cases fuel with
  | zero => rfl
  | succ fuel => simp [State.runPurge, h, waits]

/-- The next cue's step begins. -/
theorem runPurge_examines {p : Purge} {x : Slot × Seq} {rest : List (Slot × Seq)} (h : (s.store a).purge = some p) (waits : p.waiting = false)
    (free : p.current = none) (next : s.nextPlace a p.todo = some (x, rest)) (fuel : Nat) :
    State.runPurge a (fuel + 1) s =
      s.onStore a (fun st => { st with purge := some { p with todo := rest, current := some x, stepStart := s.now } }) := by
  simp [State.runPurge, h, waits, free, next]

/-- A walk over every cue waits at its end for the freeing unit. -/
theorem runPurge_awaits {p : Purge} (h : (s.store a).purge = some p) (waits : p.waiting = false)
    (free : p.current = none) (next : s.nextPlace a p.todo = none) (total : p.kind.isTotal = true) (cells : (s.store a).freeing ≠ []) (fuel : Nat) :
    State.runPurge a (fuel + 1) s = s.onStore a (fun st => { st with purge := some { p with todo := [], waiting := true } }) := by
  simp [State.runPurge, h, waits, free, next, total, cells]

/-- A walk that has no cue left ends its purge. -/
theorem runPurge_ends {p : Purge} (h : (s.store a).purge = some p) (waits : p.waiting = false)
    (free : p.current = none) (next : s.nextPlace a p.todo = none) (last : p.kind.isTotal = true → (s.store a).freeing = []) (fuel : Nat) :
    State.runPurge a (fuel + 1) s = State.runPurge a fuel ((s.endPurge a p.kind).nextPurge a) := by
  have ends : (p.kind.isTotal && !(s.store a).freeing.isEmpty) = false := by
    cases e : p.kind.isTotal with
    | false => rfl
    | true => simp [last e]
  rw [State.runPurge]
  simp only [h, waits, free, next, ends, Option.isSome_none, Bool.or_false, Bool.false_eq_true, if_false]

/-- Nothing follows a purge where nothing is owed and no CLOSE-STREAM waits. -/
theorem nextPurge_none (owed : (s.store a).saturationOwed = false) (closing : (s.store a).closeWaiting = none) : s.nextPurge a = s := by
  simp [State.nextPurge, owed, closing]

theorem nextPlace_present {x : Slot × Seq} {rest : List (Slot × Seq)} (h : x.2 ∈ seqs (s.stream (streamOf a x.1)).queue) :
    s.nextPlace a (x :: rest) = some (x, rest) := by
  rw [State.nextPlace, if_pos (findCue_isSome_of_mem h)]

/-- What a store holds is not asked of a walk. -/
theorem nextPlace_onStore (s : State) (a b : Aud) (f : Store → Store) (todo : List (Slot × Seq)) :
    (s.onStore b f).nextPlace a todo = s.nextPlace a todo := by
  induction todo with
  | nil => rfl
  | cons x rest ih => simp only [State.nextPlace, ih]; rfl

/-- A purge that begins has its four turns. -/
theorem startPurge_eq (s : State) (a : Aud) (kind : PurgeKind) : s.startPurge a kind = State.runPurge a (3 + 1) (s.beginPurge a kind) := rfl

/-- A CLOSE-STREAM's walk begins with the head of its stream's queue. -/
theorem startPurge_close {k : Slot} {x : Seq} {rest : List Seq} (queue : seqs (s.stream (streamOf a k)).queue = x :: rest) :
    s.startPurge a (.close k) = s.onStore a (fun st => { st with
      purge := some { kind := .close k, todo := rest.map (fun y => (k, y)), current := some (k, x), stepStart := s.now, waiting := false } }) := by
  have order : s.purgeOrder a (.close k) = (k, x) :: rest.map (fun y => (k, y)) := by
    rw [State.purgeOrder, State.walkOf, queue, List.map_cons]
  have begun : s.beginPurge a (.close k) = s.onStore a (fun st => { st with
      purge := some { kind := .close k, todo := (k, x) :: rest.map (fun y => (k, y)), current := none, stepStart := s.now, waiting := false } }) := by
    rw [State.beginPurge, order]
    rfl
  have inQueue : x ∈ seqs (s.stream (streamOf a k)).queue := by
    rw [queue]
    exact List.mem_cons_self
  rw [startPurge_eq, begun, runPurge_examines (by rw [State.onStore_store, if_pos rfl]) rfl rfl
    ((nextPlace_onStore ..).trans (nextPlace_present inQueue))]
  simp only [State.onStore, change_change]

theorem finishWork_onStore (s : State) (w : Work) (b : Aud) (f : Store → Store) : (s.finishWork w).onStore b f = (s.onStore b f).finishWork w := by
  have same : (s.onStore b f).mgmt = s.mgmt := rfl
  simp only [State.finishWork, same]
  split <;> rfl

/-- A CLOSE-STREAM of a stream without cues ends at once where release makes nothing due. -/
theorem startPurge_close_empty {k : Slot} (queue : (s.stream (streamOf a k)).queue = []) (still : (s.session a).state.isReleasing = false)
    (unmarked : (s.session a).ending = false) (owed : (s.store a).saturationOwed = false) (closing : (s.store a).closeWaiting = none) :
    s.startPurge a (.close k) = State.finishWork { s with
      streams := change s.streams (streamOf a k) (fun st => { st with isOpen := false })
      stores := change s.stores a (fun st => { st with purge := none, staleWaiting := none }) } (.closeStream a) := by
  have begun : s.beginPurge a (.close k) = s.onStore a (fun st => { st with
      purge := some { kind := .close k, todo := [], current := none, stepStart := s.now, waiting := false } }) := by
    rw [State.beginPurge, State.purgeOrder, State.walkOf, queue]
    rfl
  have ended : (s.onStore a (fun st => { st with
      purge := some { kind := .close k, todo := [], current := none, stepStart := s.now, waiting := false } })).endPurge a (.close k) =
      State.finishWork { s with
        streams := change s.streams (streamOf a k) (fun st => { st with isOpen := false })
        stores := change s.stores a (fun st => { st with purge := none, staleWaiting := none }) } (.closeStream a) := by
    have session (v : State) : ((v.finishWork (.closeStream a)).session a) = v.session a := by
      unfold State.finishWork
      split <;> rfl
    simp only [State.endPurge]
    rw [State.release, releases_of_not (by rw [session]; exact still)]
    rw [if_neg (by simp), endTest_unmarked (by rw [State.onStore_session, session]; exact unmarked)]
    rw [finishWork_onStore]
    simp only [State.onStore, State.onStream, change_change]
  rw [startPurge_eq, begun, runPurge_ends (by rw [State.onStore_store, if_pos rfl]) rfl rfl rfl (by rintro ⟨⟩), ended]
  have store (v : State) : ((v.finishWork (.closeStream a)).store a) = v.store a := by
    unfold State.finishWork
    split <;> rfl
  rw [nextPurge_none (by rw [store]; simpa [State.store] using owed) (by rw [store]; simpa [State.store] using closing)]
  exact runPurge_none (by rw [store]; simp [State.store]) _

/-! ### OPEN-STREAM and CLOSE-STREAM (R76, R83, R84) -/

theorem exec_openStream (a : Aud) (k : Slot) (kindCode g1 g0 d1 d0 : Byte) (s : State) (h : s.takesCommands) :
    exec (.openStream [BitVec.ofNat 8 a.val, BitVec.ofNat 8 k.val, kindCode, g1, g0, d1, d0]) s = .next
      (if (s.store a).purge ≠ none then s.respond 5 .busy []
      else if (s.stream (streamOf a k)).isOpen = true then s.respond 5 .refusedState []
      else match kindOf kindCode with
      | none => s.respond 5 .refusedRange []
      | some kind =>
        if 2400 < number [d1, d0] then s.respond 5 .refusedRange []
        else (s.onStream (streamOf a k) (fun st => { st with
          isOpen := true, kind := kind, language := BitVec.ofNat 16 (number [g1, g0]), lead := number [d1, d0], frameSeq := 0
          clearOwed := [] })).respond 5 .done []) := by
  rw [exec_openStream_eq, execOpenStream]
  refine respond_of_write h ?_
  simp only [audOf_ofNat, slotOf_ofNat, State.onMgmt_store, Option.isSome_iff_ne_none]
  split
  · rfl
  · have same : ((s.onMgmt (fun m => { m with out := [1] })).stream (streamOf a k)).isOpen = (s.stream (streamOf a k)).isOpen := rfl
    rw [same]
    split
    · rfl
    · cases kindOf kindCode with
      | none => rfl
      | some kind =>
        dsimp only
        split <;> rfl

theorem exec_closeStream (a : Aud) (k : Slot) (s : State) (h : s.takesCommands) :
    exec (.closeStream [BitVec.ofNat 8 a.val, BitVec.ofNat 8 k.val]) s = .next
      (if (s.store a).purge ≠ none then s.respond 6 .busy []
      else if (s.stream (streamOf a k)).isOpen = false then s.respond 6 .refusedState []
      else State.closeSlot { s with mgmt := { transport := .working (.closeStream a), out := [1] } } a k) := by
  rw [exec_closeStream_eq, execCloseStream]
  refine respond_of_write h ?_
  simp only [audOf_ofNat, slotOf_ofNat, State.onMgmt_store, Option.isSome_iff_ne_none, Bool.not_eq_true']
  split
  · rfl
  · have same : ((s.onMgmt (fun m => { m with out := [1] })).stream (streamOf a k)).isOpen = (s.stream (streamOf a k)).isOpen := rfl
    rw [same]
    split <;> rfl

/-- Settles O54: the checks of OPEN-STREAM and CLOSE-STREAM in their order, and their effects. -/
theorem streamOpensAndCloses : Obligations.StreamOpensAndCloses := by
  refine ⟨fun a k kindCode g1 g0 d1 d0 s h => ?_, fun a k s h => ?_⟩
  · exact (exec_openStream a k kindCode g1 g0 d1 d0 s h).trans (by cases kindOf kindCode <;> rfl)
  · intro cmd working n
    have taken := exec_closeStream a k s h
    refine ⟨fun busy => ?_, fun free closed => ?_, fun free isOpen => ?_⟩
    · rw [taken, if_pos busy]
    · rw [taken, if_neg (not_not_intro free), if_pos closed]
    · rw [if_neg (not_not_intro free), if_neg (ne_false_of_eq_true isOpen)] at taken
      generalize told : ({ s with mgmt := { transport := .working (.closeStream a), out := [1] } } : State) = v at taken
      have inserting : v.insertionRuns a = s.insertionRuns a := by rw [← told]; rfl
      refine ⟨fun walks => ?_, fun still busy => ⟨fun x rest queue => ?_, fun queue idle unmarked owed closing => ?_⟩⟩
      · rw [taken, State.closeSlot, inserting, if_pos walks, ← told]
        rfl
      · rw [taken, State.closeSlot, inserting, if_neg (by simp [still]), startPurge_close (by rw [← told]; exact queue), ← told]
        exact congrArg Host.Outcome.next (settleFills_still rfl busy)
      · rw [taken, State.closeSlot, inserting, if_neg (by simp [still]),
          startPurge_close_empty (s := v) (by rw [← told]; exact queue) (by rw [← told]; exact idle) (by rw [← told]; exact unmarked)
            (by rw [← told]; exact owed) (by rw [← told]; exact closing), ← told, State.finishWork, if_pos rfl]
        exact congrArg Host.Outcome.next (settleFills_still rfl busy)

/-! ### SET-CUE-PORT and RESET-CUE-PORT (R45, R59) -/

theorem parityOf_iff (b : Byte) (q : Parity) : parityOf b = some q ↔ b.toNat = match q with | .none => 0 | .even => 1 | .odd => 2 := by
  unfold parityOf
  split
  · next e => cases q <;> simp [e]
  · next e => cases q <;> simp [e]
  · next e => cases q <;> simp [e]
  · next zero one two => cases q with
    | none => exact ⟨nofun, fun e => (zero e).elim⟩
    | even => exact ⟨nofun, fun e => (one e).elim⟩
    | odd => exact ⟨nofun, fun e => (two e).elim⟩

/-- The unit in progress ends as the old settings have it; the characters left follow at the new ones (R45). -/
theorem retime_rows (t : Transmission) (now d : Nat) (q : Parity) (some_ : 1 ≤ t.divisor) :
    let unit := (if t.parity = .none then 10 else 11) * 16 * t.divisor
    (now < t.boundary → (t.retime now d q).boundary = t.boundary ∧ (t.retime now d q).left = t.left) ∧
    (∀ k, k < t.left → t.boundary + k * unit ≤ now → now < t.boundary + (k + 1) * unit →
      (t.retime now d q).boundary = t.boundary + (k + 1) * unit ∧ (t.retime now d q).left = t.left - (k + 1)) ∧
    (t.boundary + t.left * unit ≤ now → (t.retime now d q).boundary = t.boundary + t.left * unit ∧ (t.retime now d q).left = 0) := by
  intro unit
  have length : charTime t.divisor t.parity = unit := charTime_eq t.divisor t.parity
  have positive : 0 < unit := by
    simp only [unit]
    split <;> omega
  refine ⟨fun before => ?_, fun k inside from_ upto => ?_, fun past => ?_⟩
  · simp [Transmission.retime, before]
  · have late : ¬ now < t.boundary := by omega
    have units : (now - t.boundary) / unit = k := Nat.div_eq_of_lt_le (by omega) (by omega)
    simp only [Transmission.retime, length, late, if_false, units, Nat.min_eq_right (show k + 1 ≤ t.left from inside), and_self]
  · have late : ¬ now < t.boundary := by omega
    have units : t.left ≤ (now - t.boundary) / unit := (Nat.le_div_iff_mul_le positive).mpr (by omega)
    simp only [Transmission.retime, length, late, if_false, Nat.min_eq_left (show t.left ≤ (now - t.boundary) / unit + 1 by omega), Nat.sub_self, and_self]

theorem exec_setCuePort (a : Aud) (d q : Byte) (s : State) (h : s.takesCommands) :
    exec (.setCuePort [BitVec.ofNat 8 a.val, d, q]) s = .next
      (if (s.session a).state ≠ .dark then s.respond 7 .refusedState []
      else match parityOf q with
      | none => s.respond 7 .refusedRange []
      | some parity =>
        if d = 0 then s.respond 7 .refusedRange []
        else (s.onPort a (fun p => p.configure s.now d.toNat parity)).respond 7 .done []) := by
  rw [exec_setCuePort_eq, execSetCuePort]
  refine respond_of_write h ?_
  simp only [audOf_ofNat, State.onMgmt_session, notDark_iff, ← toNat_eq_zero]
  split
  · rfl
  · cases parityOf q with
    | none => rfl
    | some parity =>
      dsimp only
      split <;> rfl

theorem setCuePort_rows (a : Aud) (d q : Byte) (s : State) (h : s.takesCommands) : ∃ running : Option Transmission,
    exec (.setCuePort [BitVec.ofNat 8 a.val, d, q]) s = .next
      (if (s.session a).state ≠ .dark then s.respond 7 .refusedState []
      else match parityOf q with
      | none => s.respond 7 .refusedRange []
      | some parity =>
        if d = 0 then s.respond 7 .refusedRange []
        else (s.onPort a (fun p => { p with
          divisor := d.toNat, parity := parity, transmission := running })).respond 7 .done []) ∧
      ((s.cuePort a).transmission = none → running = none) ∧
      ∀ t : Transmission, (s.cuePort a).transmission = some t → 1 ≤ t.divisor →
        let unit := (if t.parity = .none then 10 else 11) * 16 * t.divisor
        ∃ u, running = some u ∧ u.sent = t.sent ∧ u.divisor = d.toNat ∧ (∀ new, parityOf q = some new → u.parity = new) ∧
          (s.now < t.boundary → u.boundary = t.boundary ∧ u.left = t.left) ∧
          (∀ k, k < t.left → t.boundary + k * unit ≤ s.now → s.now < t.boundary + (k + 1) * unit →
            u.boundary = t.boundary + (k + 1) * unit ∧ u.left = t.left - (k + 1)) ∧
          (t.boundary + t.left * unit ≤ s.now → u.boundary = t.boundary + t.left * unit ∧ u.left = 0) := by
  refine ⟨(s.cuePort a).transmission.map (fun t => t.retime s.now d.toNat ((parityOf q).getD .none)), ?_, fun idle => by rw [idle]; rfl,
    fun t sends some_ => ?_⟩
  · rw [exec_setCuePort a d q s h]
    cases parityOf q with
    | none => rfl
    | some parity =>
      have same : s.onPort a (fun p => p.configure s.now d.toNat parity) = s.onPort a (fun p => { p with
          divisor := d.toNat, parity := parity, transmission := (s.cuePort a).transmission.map (fun t => t.retime s.now d.toNat parity) }) :=
        onPort_congr rfl
      dsimp only [Option.getD_some]
      rw [same]
  · exact ⟨t.retime s.now d.toNat ((parityOf q).getD .none), by rw [sends]; rfl, rfl, rfl, fun new named => by rw [named]; rfl, retime_rows t s.now d.toNat _ some_⟩

theorem exec_resetCuePort (a : Aud) (s : State) (h : s.takesCommands) :
    exec (.resetCuePort [BitVec.ofNat 8 a.val]) s = .next ((s.onMgmt (fun m => { m with out := [1] })).resetPort a) := by
  rw [exec_resetCuePort_eq, execResetCuePort]
  refine respond_of_write h ?_
  simp only [audOf_ofNat]

/-- Settles O55: SET-CUE-PORT and RESET-CUE-PORT. -/
theorem cuePortCommands : Obligations.CuePortCommands := by
  refine ⟨parityOf_iff, fun a s h => ⟨fun d q => ?_, ?_⟩⟩
  · obtain ⟨running, taken, idle, rows⟩ := setCuePort_rows a d q s h
    exact ⟨running, taken.trans (by cases parityOf q <;> rfl), idle, rows⟩
  · intro cleared
    refine ⟨fun closed => ?_, fun c n opened => ?_⟩
    · rw [exec_resetCuePort a s h]
      have context : ((s.onMgmt (fun m => { m with out := [1] })).intake a).context = (s.intake a).context := rfl
      rw [State.resetPort, context]
      cases e : (s.intake a).context with
      | opened c n => exact absurd e (closed c n)
      | idle =>
        have still : s.insertionRuns a = false := by rw [State.insertionRuns, e]
        rw [still]
        exact congrArg _ (flow_told_done (cleared.onIntake a (fun _ => { context := .idle, deferred := [] })) a 8)
      | skipping owed =>
        have still : s.insertionRuns a = false := by rw [State.insertionRuns, e]
        rw [still]
        exact congrArg _ (flow_told_done (cleared.onIntake a (fun _ => { context := .idle, deferred := [] })) a 8)
      | inserting c at_ =>
        have walks : s.insertionRuns a = true := by rw [State.insertionRuns, e]
        rw [walks]
        exact congrArg _ (flow_told_done (cleared.onIntake a (fun i => { i with deferred := [] })) a 8)
    · rw [exec_resetCuePort a s h]
      have context : ((s.onMgmt (fun m => { m with out := [1] })).intake a).context = .opened c n := opened
      rw [State.resetPort, context]
      dsimp only
      rw [requestFree_eq]
      exact congrArg _ (flow_told_work ((cleared.onIntake a (fun _ => { context := .idle, deferred := [] })).freeingAsked a c.cells .resetPort) a _)

end Sys2Proof.Machine
end

section
/-! PROOFS. A purge's steps: what it rules on a cue, what the walk then does, and how it ends (R93 to R101). -/

namespace Sys2Proof.Machine

variable {s t u r : State} {a : Aud} {n : StreamNo} {c : Cue} {p : Purge}

/-! ### The walk (R93, R94) -/

theorem inQueue_iff (s : State) (a : Aud) (x : Slot × Seq) : s.inQueue a x ↔ (s.findCue (streamOf a x.1) x.2).isSome = true := by
  rw [State.findCue, findCue_isSome_iff, State.inQueue]

theorem nextPlace_absent {todo : List (Slot × Seq)} (h : ∀ x ∈ todo, ¬ s.inQueue a x) : s.nextPlace a todo = none := by
  induction todo with
  | nil => rfl
  | cons x rest ih =>
    rw [State.nextPlace, if_neg ((inQueue_iff s a x).not.mp (h x List.mem_cons_self))]
    exact ih fun y mem => h y (List.mem_cons_of_mem x mem)

/-- The walk passes over the places whose cue has left its queue. -/
theorem nextPlace_append {gone : List (Slot × Seq)} {y : Slot × Seq} {rest : List (Slot × Seq)} (h : ∀ x ∈ gone, ¬ s.inQueue a x)
    (here : s.inQueue a y) : s.nextPlace a (gone ++ y :: rest) = some (y, rest) := by
  induction gone with
  | nil => rw [List.nil_append, State.nextPlace, if_pos ((inQueue_iff s a y).mp here)]
  | cons x gone ih =>
    rw [List.cons_append, State.nextPlace, if_neg ((inQueue_iff s a x).not.mp (h x List.mem_cons_self))]
    exact ih fun z mem => h z (List.mem_cons_of_mem x mem)

theorem onStore_onStore (s : State) (a : Aud) (f g : Store → Store) : (s.onStore a f).onStore a g = s.onStore a (fun st => g (f st)) := by
  simp only [State.onStore, change_change]

theorem onStore_congr {f g : Store → Store} (h : f (s.store a) = g (s.store a)) : s.onStore a f = s.onStore a g := by
  simp only [State.onStore, change_congr (show f (pick s.stores a) = g (pick s.stores a) from h)]

theorem onStore_self {f : Store → Store} (h : f (s.store a) = s.store a) : s.onStore a f = s := by
  simp only [State.onStore, change_self (show f (pick s.stores a) = pick s.stores a from h)]

/-- A purge that walks keeps waiting what waits behind it (R53). -/
theorem resumeDeferred_purge (h : (s.store a).purge.isSome = true) : s.resumeDeferred a = s := by
  have walks : s.takingWaits a = true := by simp [State.takingWaits, State.storeWalks, h]
  rw [State.resumeDeferred]
  cases e : (s.intake a).deferred with
  | nil => rfl
  | cons d rest =>
    rw [List.length_cons, State.runDeferred, e]
    simp only [walks, if_true]

/-! ### The end of a purge -/

/-- A purge that is neither a CLOSE-STREAM's nor a teardown. -/
def PurgeKind.isPlain : PurgeKind → Bool
  | .close _ | .teardown => false
  | .forward _ | .backward _ | .withdraw _ _ | .saturation => true

/-- What a plain purge's end leaves to release, where no stale resume waits and nothing ends the show. -/
theorem endPurge_plain {kind : PurgeKind} (plain : kind.isPlain = true) (stale : (s.store a).staleWaiting = none)
    (released : (s.onStore a (fun st => { st with purge := none })).release a none = r) (later : (r.store a).staleWaiting = none)
    (unmarked : (r.session a).ending = false) : s.endPurge a kind = r := by
  have waiting : ((s.onStore a (fun st => { st with purge := none })).store a).staleWaiting = none := by
    rw [State.onStore_store, if_pos rfl]
    exact stale
  have released : (s.onStore a (fun st => { st with purge := none })).release a
      ((s.onStore a (fun st => { st with purge := none })).store a).staleWaiting = r := by rw [waiting]; exact released
  have cleared : r.onStore a (fun st => { st with staleWaiting := none }) = r := onStore_self (by rw [← later])
  have unmarkedEnd : r.endTest a = r := endTest_unmarked unmarked
  cases kind with
  | close k => cases plain
  | teardown => cases plain
  | forward target | backward target | withdraw k time | saturation => simp only [State.endPurge, released, cleared, unmarkedEnd]

/-- The purge that ends is the last one. -/
theorem runPurge_last (plain : p.kind.isPlain = true) (total : p.kind.isTotal = false) (h : (s.store a).purge = some p) (waits : p.waiting = false)
    (free : p.current = none) (next : s.nextPlace a p.todo = none) (stale : (s.store a).staleWaiting = none)
    (released : (s.onStore a (fun st => { st with purge := none })).release a none = r) (later : (r.store a).staleWaiting = none)
    (unmarked : (r.session a).ending = false) (owed : (r.store a).saturationOwed = false) (closing : (r.store a).closeWaiting = none)
    (over_ : (r.store a).purge = none) (fuel : Nat) : State.runPurge a (fuel + 1) s = r := by
  rw [runPurge_ends h waits free next (fun e => absurd (total.symm.trans e) Bool.false_ne_true), endPurge_plain plain stale released later unmarked,
    nextPurge_none owed closing, runPurge_none over_]

/-! ### The rulings (R95 to R101) -/

theorem ruling_of_stops {kind : PurgeKind} (h : kind.stopsAt c = true) : kind.ruling c = .leave := by
  cases kind with
  | withdraw k time =>
    have before : c.start < time := of_decide_eq_true h
    simp [PurgeKind.ruling, Nat.not_le.mpr before]
  | forward _ | backward _ | close _ | saturation | teardown => cases h

/-- The cue as the ruling leaves it in its queue. -/
def State.ruled (s : State) (n : StreamNo) (x : Seq) : Ruling → State
  | .toQueued => s.onCue n x (fun d => { d with life := .queued, due := none, resend := false, cursor := 0 })
  | .rewind b => s.onCue n x (fun d => { d with cursor := b, due := none })
  | .leave | .remove => s

/-- A cue that stays in its queue has its walk go on at the places left. -/
theorem purgeStep_stays {k : Slot} {x : Seq} (found : s.findCue (streamOf a k) x = some c) (stays : p.kind.ruling c ≠ .remove) :
    s.purgeStep a p (k, x) = State.runPurge a (3 + 1) ((s.ruled (streamOf a k) x (p.kind.ruling c)).onStore a (fun st => { st with
      purge := some { p with todo := if p.kind.stopsAt c then [] else p.todo, current := none } })) := by
  have goesOn (h : p.kind.ruling c ≠ .leave) : (if p.kind.stopsAt c = true then [] else p.todo) = p.todo := by
    rw [if_neg fun stops => h (ruling_of_stops stops)]
  simp only [State.purgeStep, found]
  cases e : p.kind.ruling c with
  | remove => exact absurd e stays
  | leave => rfl
  | toQueued =>
    rw [goesOn (by rw [e]; nofun)]
    rfl
  | rewind b =>
    rw [goesOn (by rw [e]; nofun)]
    rfl

theorem findCue_seq {x : Seq} (h : s.findCue n x = some c) : c.seq = x := by
  simpa using List.find?_some h

theorem seqs_changeCue (x : Seq) (f : Cue → Cue) (keeps : ∀ d, (f d).seq = d.seq) (q : List Cue) : seqs (changeCue x f q) = seqs q := by
  simp only [seqs, changeCue, List.map_map, List.map_inj_left, Function.comp]
  intro d _
  split
  · exact keeps d
  · rfl

theorem ruled_stream (s : State) (n m : StreamNo) (x : Seq) (ruling : Ruling) :
    seqs ((s.ruled n x ruling).stream m).queue = seqs (s.stream m).queue := by
  cases ruling with
  | leave | remove => rfl
  | toQueued | rewind b =>
    simp only [State.ruled, State.onCue, State.onStream_stream]
    split
    · refine seqs_changeCue x _ ?_ _
      exact fun d => rfl
    · rfl

theorem inQueue_congr (h : ∀ m, seqs (t.stream m).queue = seqs (s.stream m).queue) (x : Slot × Seq) : t.inQueue a x ↔ s.inQueue a x := by
  have mem (v : State) : v.inQueue a x ↔ x.2 ∈ seqs (v.stream (streamOf a x.1)).queue := by
    simp only [State.inQueue, seqs, List.mem_map]
  rw [mem, mem, h]

theorem ruled_inQueue (s : State) (n : StreamNo) (x : Seq) (ruling : Ruling) (f : Store → Store) (z : Slot × Seq) :
    ((s.ruled n x ruling).onStore a f).inQueue a z ↔ s.inQueue a z :=
  inQueue_congr (fun m => ruled_stream s n m x ruling) z

theorem ruled_rest (s : State) (n : StreamNo) (x : Seq) (ruling : Ruling) : s.streamsOnly (s.ruled n x ruling) := by
  cases ruling <;> rfl

/-! ### The steps -/

theorem exec_purgeStep {x : Slot × Seq} (due : s.stepDue a = some (p, x)) :
    exec (.purgeStep a) s = .next (((s.purgeStep a p x).settleFills).resumeDeferred a) := by
  rw [exec_purgeStep_eq, execPurgeStep, due]

theorem stepDue_some {x : Slot × Seq} : s.stepDue a = some (p, x) ↔
    (s.store a).purge = some p ∧ p.current = some x ∧ p.stepStart + 200 ≤ s.now := by
  rw [State.stepDue]
  cases (s.store a).purge with
  | none => simp
  | some q =>
    simp only [Option.some.injEq]
    by_cases same : q = p
    · subst same
      cases q.current with
      | none => simp
      | some y => simp [reached_iff, Config.walkStep, and_comm]
    · cases q.current with
      | none => simp [same]
      | some y => simp [same]

/-- While a purge is in progress no show ends by its queues (R36). -/
theorem endTest_purge (h : (s.store a).purge.isSome = true) : s.endTest a = s := by
  have busy : (s.store a).purge.isNone = false := by
    cases e : (s.store a).purge with
    | none => rw [e] at h; cases h
    | some p => rfl
  simp [State.endTest, busy]

/-- A cue freed whole while a purge is in progress. -/
theorem freeCue_whilePurge (still : s.insertionRuns (audOfStream n) = false) (purge : (s.store (audOfStream n)).purge.isSome = true) (tag : FreeTag) :
    s.freeCue n c tag = (s.onStream n (fun st => { st with queue := dropCue c.seq st.queue })).freeingAsked (audOfStream n) (1 + c.heldBodies) tag := by
  rw [State.freeCue, State.leaveQueue, catchUpWalk_none still, requestFree_eq]
  refine endTest_purge ?_
  simpa [State.freeingAsked, State.store] using purge

/-- The clear that a cue's removal owes, and its count (R95, R116). -/
def State.removalCounted (s : State) (a : Aud) (n : StreamNo) (kind : PurgeKind) (c : Cue) : State :=
  let cleared : State := if kind.owesClear c then s.oweClear n else s
  if kind.countsExpired then cleared.onCounters a (fun x => { x with expired := bump x.expired }) else cleared

theorem removalCounted_frame (s : State) (a : Aud) (n : StreamNo) (kind : PurgeKind) (c : Cue) :
    (s.removalCounted a n kind c).intakes = s.intakes ∧ (s.removalCounted a n kind c).stores = s.stores ∧
      (s.removalCounted a n kind c).now = s.now ∧ (s.removalCounted a n kind c).links = s.links := by
  have owes : s.streamsOnly (if kind.owesClear c then s.oweClear n else s) := by
    split
    · exact oweClear_streamsOnly s _
    · exact streamsOnly_refl s
  rw [State.removalCounted, show (if kind.owesClear c then s.oweClear n else s) = _ from owes]
  split <;> exact ⟨rfl, rfl, rfl, rfl⟩

/-- A removed cue has left its queue, its request is the unit's last, and the walk waits (R91, R93). -/
def State.cueRemoved (s : State) (a : Aud) (k : Slot) (p : Purge) (x : Seq) (c : Cue) : State :=
  ((s.removalCounted a (streamOf a k) p.kind c).onStream (streamOf a k)
    (fun st => { st with queue := st.queue.filter (fun d => d.seq != x) })).onStore a (fun st => { st with
      freeing := st.freeing ++ [{ cells := 1 + c.heldBodies, tag := .purge }]
      cellStart := if st.freeing = [] then s.now else st.cellStart
      purge := some { p with current := none, waiting := true } })

theorem purgeStep_removes {k : Slot} {x : Seq} (purge : (s.store a).purge = some p) (found : s.findCue (streamOf a k) x = some c)
    (still : s.insertionRuns a = false) (removes : p.kind.ruling c = .remove) : s.purgeStep a p (k, x) = s.cueRemoved a k p x c := by
  have seq : c.seq = x := findCue_seq found
  obtain ⟨intakes, stores, now, -⟩ := removalCounted_frame s a (streamOf a k) p.kind c
  rw [State.cueRemoved, ← now]
  simp only [State.purgeStep, found, removes, State.purgeRemove]
  change ((s.removalCounted a (streamOf a k) p.kind c).freeCue (streamOf a k) c .purge).onStore a _ = _
  generalize s.removalCounted a (streamOf a k) p.kind c = v at intakes stores
  have walk : v.insertionRuns (audOfStream (streamOf a k)) = false := by
    rw [audOfStream_streamOf']
    simpa only [State.insertionRuns, State.intake, intakes] using still
  have purge : (v.store a).purge = some p := by simpa only [State.store, stores] using purge
  rw [freeCue_whilePurge walk (by rw [audOfStream_streamOf', purge]; rfl), audOfStream_streamOf', seq]
  refine (onStore_onStore _ a _ _).trans (onStore_congr ?_)
  simp only [State.onStream_store, purge, Option.map_some]
  rfl

/-- What a step leaves while its purge goes on is settled. -/
theorem settled_purge (links : t.links = s.links) (busy : s.ringsBusy) (purge : (t.store a).purge.isSome = true) :
    t.settleFills.resumeDeferred a = t := by
  rw [settleFills_still links busy, resumeDeferred_purge purge]

theorem exec_purgeStep_removes {k : Slot} {x : Seq} (due : s.stepDue a = some (p, (k, x))) (found : s.findCue (streamOf a k) x = some c)
    (busy : s.ringsBusy) (still : s.insertionRuns a = false) (removes : p.kind.ruling c = .remove) :
    exec (.purgeStep a) s = .next (s.cueRemoved a k p x c) := by
  obtain ⟨purge, -, -⟩ := stepDue_some.mp due
  obtain ⟨-, -, -, links⟩ := removalCounted_frame s a (streamOf a k) p.kind c
  rw [exec_purgeStep due, purgeStep_removes purge found still removes,
    settled_purge (t := s.cueRemoved a k p x c) links busy (by rw [State.cueRemoved, State.onStore_store, if_pos rfl]; rfl)]

/-- What a purge that ends leaves on the part. -/
theorem exec_purgeStep_ends {k : Slot} {x : Seq} (due : s.stepDue a = some (p, (k, x))) (found : s.findCue (streamOf a k) x = some c)
    (busy : s.ringsBusy) (waits : p.waiting = false) (none_ : ∀ z ∈ (if p.kind.stopsAt c then [] else p.todo), ¬ s.inQueue a z)
    (ruling : p.kind.ruling c = .leave ∨ p.kind.ruling c = .toQueued) (unmarked : (r.session a).ending = false)
    (deferred : (r.intake a).deferred = []) (owed : (r.store a).saturationOwed = false) (closing : (r.store a).closeWaiting = none)
    (over_ : (r.store a).purge = none) (stale : (s.store a).staleWaiting = none) (later : (r.store a).staleWaiting = none) (links : r.links = s.links)
    (released : ((s.ruled (streamOf a k) x (p.kind.ruling c)).onStore a (fun st => { st with purge := none })).release a none = r) :
    exec (.purgeStep a) s = .next r := by
  have stays : p.kind.ruling c ≠ .remove := by rcases ruling with e | e <;> rw [e] <;> nofun
  have plain : p.kind.isPlain = true ∧ p.kind.isTotal = false := by
    cases e : p.kind <;> simp [e, PurgeKind.ruling, PurgeKind.isPlain, PurgeKind.isTotal] at stays ⊢
  have same := ruled_rest s (streamOf a k) x (p.kind.ruling c)
  have store (f : Store → Store) : ((s.ruled (streamOf a k) x (p.kind.ruling c)).onStore a f).store a = f (s.store a) := by
    rw [State.onStore_store, if_pos rfl, show (s.ruled (streamOf a k) x (p.kind.ruling c)).store a = s.store a from by
      rw [show s.ruled (streamOf a k) x (p.kind.ruling c) = _ from same]; rfl]
  rw [exec_purgeStep due, purgeStep_stays found stays,
    runPurge_last (r := r) (p := { p with todo := if p.kind.stopsAt c then [] else p.todo, current := none }) plain.1 plain.2
      (by rw [store]) waits rfl (nextPlace_absent fun z mem => (ruled_inQueue ..).not.mpr (none_ z mem)) (by rw [store]; exact stale)
      (by rw [onStore_onStore]; exact released) later unmarked owed closing over_,
    settleFills_still links busy, resumeDeferred_empty deferred]

/-- The walk goes on with the next cue that is still in its queue. -/
theorem exec_purgeStep_goesOn {k : Slot} {x : Seq} {gone rest : List (Slot × Seq)} {y : Slot × Seq} (due : s.stepDue a = some (p, (k, x)))
    (found : s.findCue (streamOf a k) x = some c) (busy : s.ringsBusy) (waits : p.waiting = false) (stays : p.kind.ruling c ≠ .remove)
    (places : (if p.kind.stopsAt c then [] else p.todo) = gone ++ y :: rest) (left : ∀ z ∈ gone, ¬ s.inQueue a z) (here : s.inQueue a y) :
    exec (.purgeStep a) s = .next ((s.ruled (streamOf a k) x (p.kind.ruling c)).onStore a (fun st => { st with
      purge := some { p with todo := rest, current := some y, stepStart := s.now } })) := by
  have same := ruled_rest s (streamOf a k) x (p.kind.ruling c)
  have links : (s.ruled (streamOf a k) x (p.kind.ruling c)).links = s.links := by rw [show s.ruled (streamOf a k) x (p.kind.ruling c) = _ from same]
  have now : (s.ruled (streamOf a k) x (p.kind.ruling c)).now = s.now := by rw [show s.ruled (streamOf a k) x (p.kind.ruling c) = _ from same]
  have next : ((s.ruled (streamOf a k) x (p.kind.ruling c)).onStore a (fun st => { st with
      purge := some { p with todo := if p.kind.stopsAt c then [] else p.todo, current := none } })).nextPlace a
      (if p.kind.stopsAt c then [] else p.todo) = some (y, rest) := by
    rw [places]
    exact nextPlace_append (fun z mem => (ruled_inQueue ..).not.mpr (left z mem)) ((ruled_inQueue ..).mpr here)
  rw [exec_purgeStep due, purgeStep_stays found stays,
    runPurge_examines (p := { p with todo := if p.kind.stopsAt c then [] else p.todo, current := none }) (by rw [State.onStore_store, if_pos rfl])
      waits rfl next, onStore_onStore]
  rw [← now]
  exact congrArg Host.Outcome.next (settled_purge links busy (by rw [State.onStore_store, if_pos rfl]; rfl))

/-- The one cue there is, as the ruling leaves it. -/
theorem ruled_onlyCue (only : s.onlyCue n c) (ruling : Ruling) (h : ruling = .leave ∨ ruling = .toQueued) :
    (s.ruled n c.seq ruling).onlyCue n (if ruling = .toQueued then { c with life := .queued, due := none, resend := false, cursor := 0 } else c) := by
  have placed : Placed (s.stream n).queue [] c [] := by rw [only.1]; exact placed_single c
  rcases h with rfl | rfl
  · exact only
  · rw [State.ruled, onCue_placed placed]
    refine ⟨by simp [State.withQueue, State.stream], fun m ne same => ?_⟩
    rw [withQueue_stream, if_neg ne.symm]
    exact only.2 m ne same

/-- What R95 to R101 rule on a cue, written out. -/
theorem ruling_rows (c : Cue) :
    (∀ target, (PurgeKind.forward target).ruling c =
      if c.start + (if c.kind = .caption then c.length else 24 * c.length) ≤ target then .remove else .leave) ∧
    (∀ target, c.kind = .caption → (PurgeKind.backward target).ruling c =
      if (c.life = .due ∨ c.life = .onAir) ∧ target < c.start then .toQueued else .leave) ∧
    (∀ target, c.kind = .narration → (PurgeKind.backward target).ruling c =
      if c.life = .playing then
        if target < c.start then .toQueued
        else if target < c.start + 24 * c.length ∧ (target - c.start) / 24 < c.cursor then .rewind ((target - c.start) / 24)
        else .leave
      else .leave) ∧
    (∀ k fromTime, (PurgeKind.withdraw k fromTime).ruling c = (if fromTime ≤ c.start then .remove else .leave) ∧
      ((PurgeKind.withdraw k fromTime).stopsAt c = true ↔ c.start < fromTime)) ∧
    (∀ k, (PurgeKind.close k).ruling c = .remove ∧ PurgeKind.saturation.ruling c = .remove ∧ PurgeKind.teardown.ruling c = .remove) := by
  refine ⟨fun target => ?_, fun target kind => ?_, fun target kind => ?_, fun k time => ⟨rfl, decide_eq_true_iff⟩, fun k => ⟨rfl, rfl, rfl⟩⟩
  · cases e : c.kind <;> simp [PurgeKind.ruling, Cue.finish, e, Config.block]
  · cases e : c.life <;> simp [PurgeKind.ruling, kind, e]
  · cases e : c.life <;> simp only [PurgeKind.ruling, kind, e, Cue.finish, Bool.and_eq_true, decide_eq_true_eq, reduceCtorEq, if_false, if_true]
    rfl

/-- The owed clear and the count of a removal, by the kind of the purge. -/
theorem removalCounted_eq (s : State) (a : Aud) (n : StreamNo) (kind : PurgeKind) (c : Cue) : s.removalCounted a n kind c =
    (let cleared : State := match kind with
      | .withdraw _ _ | .close _ => if c.kind = .caption ∧ c.life = .onAir then s.oweClear n else s
      | .forward _ | .backward _ | .saturation | .teardown => s
    match kind with
      | .forward _ => cleared.onCounters a (fun n => { n with expired := bump n.expired })
      | .backward _ | .withdraw _ _ | .close _ | .saturation | .teardown => cleared) := by
  cases kind <;> simp [State.removalCounted, PurgeKind.owesClear, PurgeKind.countsExpired]

/-- The purge has ended, and release looks at the one cue there is (R104, R119). -/
theorem exec_purgeStep_releases {k : Slot} {x : Seq} {d : Cue} (due : s.stepDue a = some (p, (k, x)))
    (found : s.findCue (streamOf a k) x = some c) (busy : s.ringsBusy) (still : s.insertionRuns a = false) (waits : p.waiting = false)
    (none_ : ∀ z ∈ (if p.kind.stopsAt c then [] else p.todo), ¬ s.inQueue a z) (ruling : p.kind.ruling c = .leave ∨ p.kind.ruling c = .toQueued)
    (unmarked : (s.session a).ending = false) (deferred : (s.intake a).deferred = []) (owed : (s.store a).saturationOwed = false)
    (closing : (s.store a).closeWaiting = none) (stale : (s.store a).staleWaiting = none) (only : s.onlyCue (streamOf a k) c)
    (releasing : (s.session a).state.isReleasing = true) (below : s.position a < 43199999)
    (d_eq : d = if p.kind.ruling c = .toQueued then { c with life := .queued, due := none, resend := false, cursor := 0 } else c)
    (queued : d.life = .queued) (undue : d.due = none)
    (one : d.kind = .narration →
      ((s.ruled (streamOf a k) x (p.kind.ruling c)).onStore a (fun st => { st with purge := none })).oneLook (streamOf a k) d) :
    exec (.purgeStep a) s = .next
      (((s.ruled (streamOf a k) x (p.kind.ruling c)).onStore a (fun st => { st with purge := none })).cueReleased (streamOf a k) d) := by
  have seq : c.seq = x := findCue_seq found
  have same := ruled_rest s (streamOf a k) x (p.kind.ruling c)
  have alone : (s.ruled (streamOf a k) x (p.kind.ruling c)).onlyCue (streamOf a k) d := by
    rw [d_eq, ← seq]
    exact ruled_onlyCue only _ ruling
  obtain ⟨u, u_eq⟩ : ∃ u, u = (s.ruled (streamOf a k) x (p.kind.ruling c)).onStore a (fun st => { st with purge := none }) := ⟨_, rfl⟩
  rw [show s.ruled (streamOf a k) x (p.kind.ruling c) = _ from same] at u_eq
  have alone : u.onlyCue (streamOf a k) d := by rw [u_eq]; rw [show s.ruled (streamOf a k) x (p.kind.ruling c) = _ from same] at alone; exact alone
  have store : u.store a = { s.store a with purge := none } := by rw [u_eq, State.onStore_store, if_pos rfl]; rfl
  have session : u.session a = s.session a := by rw [u_eq]; rfl
  have aud := audOfStream_streamOf' a k
  have beside := beside_cueReleased u (streamOf a k) d
  have u_named : (s.ruled (streamOf a k) x (p.kind.ruling c)).onStore a (fun st => { st with purge := none }) = u := by
    rw [u_eq, show s.ruled (streamOf a k) x (p.kind.ruling c) = _ from same]
  rw [u_named] at one ⊢
  obtain ⟨-, -, purge', owed', closing', stale'⟩ := beside.stores a
  have released : u.release a none = u.cueReleased (streamOf a k) d := by
    have releases : u.releases a = true := releases_of (by rw [session]; exact releasing) (by rw [store]) (by rw [u_eq]; exact below)
    have looked := release_cueReleased alone (by rw [aud]; exact releases) (by rw [aud, u_eq]; exact still) (by rw [aud, session]; exact unmarked)
      undue (.inl queued) one
    rwa [aud] at looked
  refine exec_purgeStep_ends due found busy waits none_ ruling ?_ ?_ ?_ ?_ ?_ stale ?_ ?_ (by rw [u_named]; exact released)
  · rw [beside.session_eq, session]; exact unmarked
  · rw [State.intake, beside.intakes, u_eq]; exact deferred
  · rw [owed', store]; exact owed
  · rw [closing', store]; exact closing
  · rw [purge', store]
  · rw [stale', store]; exact stale
  · rw [beside.links, u_eq]; rfl

/-- Settles O37: what a walk's step makes of the cue it has examined, and what a purge that ends leaves to release. -/
theorem purgeSteps : Obligations.PurgeSteps := by
  refine ⟨fun a p x s => stepDue_some, fun a p k x c s due found busy still => ⟨fun removes => ?_, fun waits => ?_⟩, ruling_rows⟩
  · intro cleared counted
    have counted_eq : s.removalCounted a (streamOf a k) p.kind c = counted := by
      refine (removalCounted_eq s a _ p.kind c).trans ?_
      cases e : p.kind <;> simp only [counted, cleared, e]
    rw [exec_purgeStep_removes due found busy still removes, State.cueRemoved, counted_eq]
  · intro places back ruled
    have ruled_eq : s.ruled (streamOf a k) x (p.kind.ruling c) = ruled := by
      simp only [ruled]
      cases e : p.kind.ruling c <;> rfl
    refine ⟨fun gone y rest stays split_ left here => ?_, fun none_ ruling unmarked deferred owed closing stale => ?_⟩
    · rw [exec_purgeStep_goesOn due found busy waits stays split_ left here, ruled_eq]
    · intro u
      have u_eq : (s.ruled (streamOf a k) x (p.kind.ruling c)).onStore a (fun st => { st with purge := none }) = u := by rw [ruled_eq]
      refine ⟨fun idle => ?_, fun d only releasing below d_eq queued undue one => ?_⟩
      · have same := ruled_rest s (streamOf a k) x (p.kind.ruling c)
        rw [ruled_eq] at same
        have store : u.store a = { s.store a with purge := none } := by
          rw [State.onStore_store, if_pos rfl, show ruled = _ from same]
          rfl
        have session : u.session a = s.session a := by
          show ruled.session a = _
          rw [show ruled = _ from same]
          rfl
        refine exec_purgeStep_ends due found busy waits none_ ruling ?_ ?_ ?_ ?_ ?_ stale ?_ ?_ ?_
        · rw [session]; exact unmarked
        · show (ruled.intake a).deferred = []
          rw [show ruled = _ from same]; exact deferred
        · rw [store]; exact owed
        · rw [store]; exact closing
        · rw [store]
        · rw [store]; exact stale
        · show ruled.links = _
          rw [show ruled = _ from same]
        · rw [u_eq, State.release, releases_of_not (by rw [session]; exact idle)]
          rfl
      · rw [← u_eq]
        exact exec_purgeStep_releases due found busy still waits none_ ruling unmarked deferred owed closing stale only releasing below d_eq queued undue
          (by rw [u_eq]; exact one)

end Sys2Proof.Machine
end

section
/-! PROOFS. A walk over all six queues (R93), and a cell returned with what waited for it (R91). -/

namespace Sys2Proof.Machine

variable {s t u r : State} {a : Aud} {n : StreamNo} {c : Cue} {p : Purge} {q : FreeRequest} {rest : List FreeRequest}

/-! ### A walk over all six queues (R93) -/

theorem sixQueues_congr (h : ∀ m, seqs (t.stream m).queue = seqs (s.stream m).queue) (a : Aud) : t.sixQueues a = s.sixQueues a := by
  simp only [State.sixQueues, h]

theorem wholeWalk_congr (h : ∀ m, seqs (t.stream m).queue = seqs (s.stream m).queue) (now : t.now = s.now) (kind : PurgeKind) (waiting : Bool) :
    t.wholeWalk a kind waiting = s.wholeWalk a kind waiting := by
  simp only [State.wholeWalk, sixQueues_congr h, now]

theorem queuesEmpty_iff (s : State) (a : Aud) : s.queuesEmpty a = true ↔ ∀ m, audOfStream m = a → (s.stream m).queue = [] := by
  simp only [State.queuesEmpty, List.all_eq_true, List.isEmpty_iff]
  refine ⟨fun h m same => ?_, fun h k _ => h _ (audOfStream_streamOf' a k)⟩
  have named := h (slotOfStream m) (List.mem_finRange _)
  rwa [(streamOf_eq_iff a _ m).mpr ⟨same, rfl⟩] at named

theorem sixQueues_empty (h : s.queuesEmpty a = true) : s.sixQueues a = [] := by
  simp only [State.sixQueues, List.flatMap_eq_nil_iff, seqs, List.map_eq_nil_iff]
  exact fun k _ => (queuesEmpty_iff s a).mp h _ (audOfStream_streamOf' a k)

theorem mem_sixQueues {x : Slot × Seq} (h : x ∈ s.sixQueues a) : s.inQueue a x := by
  simp only [State.sixQueues, List.mem_flatMap, List.mem_map, seqs] at h
  obtain ⟨k, -, y, ⟨d, mem, rfl⟩, rfl⟩ := h
  exact ⟨d, mem, rfl⟩

theorem sixQueues_cons (h : s.queuesEmpty a = false) : ∃ x rest, s.sixQueues a = x :: rest ∧ s.inQueue a x := by
  cases e : s.sixQueues a with
  | cons x rest => exact ⟨x, rest, rfl, mem_sixQueues (by rw [e]; exact List.mem_cons_self)⟩
  | nil =>
    simp only [State.sixQueues, List.flatMap_eq_nil_iff, List.map_eq_nil_iff, seqs] at e
    have empty : s.queuesEmpty a = true := by
      simp only [State.queuesEmpty, List.all_eq_true, List.isEmpty_iff]
      exact fun k mem => e k mem
    rw [empty] at h
    cases h

/-- A walk over every cue begins its first step with the first cue there is. -/
theorem runPurge_whole {kind : PurgeKind} {start : Nat} (same : ∀ m, seqs (t.stream m).queue = seqs (s.stream m).queue) (now : t.now = s.now)
    (h : (t.store a).purge = some { kind := kind, todo := s.sixQueues a, current := none, stepStart := start, waiting := false })
    (some_ : s.queuesEmpty a = false) (fuel : Nat) :
    State.runPurge a (fuel + 1) t = t.onStore a (fun st => { st with purge := some (s.wholeWalk a kind false) }) := by
  obtain ⟨x, rest, order, here⟩ := sixQueues_cons some_
  have next : t.nextPlace a (s.sixQueues a) = some (x, rest) := by
    rw [order]
    exact nextPlace_append (gone := []) (by simp) ((inQueue_congr same x).mpr here)
  rw [runPurge_examines h rfl rfl next]
  simp only [State.wholeWalk, order, now]
  rfl

theorem removeInProgress_none (h : s.cueInProgress a = false) : s.removeInProgress a = s := by
  cases e : (s.intake a).context <;> simp [State.cueInProgress, State.removeInProgress, e] at h ⊢

/-- A saturation purge of an auditorium with no cue in progress. -/
theorem beginPurge_saturation (h : s.cueInProgress a = false) : s.beginPurge a .saturation = s.onStore a (fun st => { st with
    purge := some { kind := .saturation, todo := s.sixQueues a, current := none, stepStart := s.now, waiting := false } }) := by
  rw [State.beginPurge]
  simp only [removeInProgress_none h, h, Bool.and_false]
  rfl

/-! ### A cell returned (R91) -/

theorem returnCell_frame (s : State) (a : Aud) : s.returnCell a = { s with
    cuePorts := (s.returnCell a).cuePorts
    attention := { s.attention with auds := (s.returnCell a).attention.auds }
    stores := change s.stores a (fun st => { st with used := st.used - 1 })
    freeCells := s.freeCells + 1 } :=
  (flow_hushed ((s.onStore a (fun st => { st with used := st.used - 1 })).onFree (fun n => n + 1)) a).1.rest

/-- The cell has been returned, and the unit goes on with `rest`. -/
def State.cellBack (s : State) (a : Aud) (rest : List FreeRequest) : State :=
  (s.returnCell a).onStore a (fun st => { st with freeing := rest, cellStart := s.now })

theorem cellBack_store (s : State) (a : Aud) (rest : List FreeRequest) :
    (s.cellBack a rest).store a = { s.store a with used := (s.store a).used - 1, freeing := rest, cellStart := s.now } := by
  rw [State.cellBack, State.onStore_store, if_pos rfl, returnCell_frame]
  simp [State.store]

/-- What a cell's return leaves: all but the cells, the cue port and the attention record. -/
structure Banked (s t : State) : Prop where
  now : t.now = s.now
  clocks : t.clocks = s.clocks
  sessions : t.sessions = s.sessions
  intakes : t.intakes = s.intakes
  streams : t.streams = s.streams
  links : t.links = s.links
  mgmt : t.mgmt = s.mgmt

theorem cellBack_banked (s : State) (a : Aud) (rest : List FreeRequest) : Banked s (s.cellBack a rest) := by
  rw [State.cellBack, returnCell_frame]
  exact ⟨rfl, rfl, rfl, rfl, rfl, rfl, rfl⟩

theorem cellDue_nonempty (h : s.dueTest (.cellFreed a) = some true) : s.cellDue a = true := by
  simpa [State.dueTest] using h

/-- The last cell of a request is back. -/
theorem exec_cellFreed_last (due : s.dueTest (.cellFreed a) = some true) (freeing : (s.store a).freeing = q :: rest) (one : q.cells = 1) :
    exec (.cellFreed a) s = .next ((s.cellBack a rest).requestServed a q.tag) := by
  rw [exec_cellFreed_eq, execCellFreed, if_pos (cellDue_nonempty due), State.freeOneCell, freeing]
  simp only [one, Nat.one_ne_zero, if_false, Nat.le_refl, if_true]
  rfl

theorem exec_cellFreed_more (due : s.dueTest (.cellFreed a) = some true) (freeing : (s.store a).freeing = q :: rest) (two : 2 ≤ q.cells) :
    exec (.cellFreed a) s = .next (s.cellBack a ({ q with cells := q.cells - 1 } :: rest)) := by
  rw [exec_cellFreed_eq, execCellFreed, if_pos (cellDue_nonempty due), State.freeOneCell, freeing]
  simp only [if_neg (show q.cells ≠ 0 by omega), if_neg (show ¬ q.cells ≤ 1 by omega)]
  rfl

/-! ### What waited for the request -/

theorem wakePurge_none (h : (s.store a).purge = none) (tag : FreeTag) : s.wakePurge a tag = s := by
  rw [State.wakePurge, h]

/-- With nothing else to wait for, a served request leaves RESET-CUE-PORT's DONE alone (R59). -/
theorem requestServed_alone (purge : (s.store a).purge = none) (deferred : (s.intake a).deferred = []) (tag : FreeTag) :
    s.requestServed a tag = if tag = .resetPort ∧ s.mgmt.transport = .working (.resetCuePort a) then
      s.onMgmt (fun m => { m with transport := .held { code := .done, command := 8, fields := [] } }) else s := by
  rw [State.requestServed]
  by_cases reset : tag = .resetPort
  · simp only [reset, beq_self_eq_true, if_true, true_and, State.finishWork]
    split
    · rw [wakePurge_none (by exact purge), resumeDeferred_empty (by exact deferred)]
      rfl
    · rw [wakePurge_none purge, resumeDeferred_empty deferred]
  · rw [if_neg (by simpa using reset), if_neg (fun h => reset h.1), wakePurge_none purge, resumeDeferred_empty deferred]

/-- The intake's own request has been served, and no other one of its own stands behind it (R91). -/
theorem requestServed_intake (purge : (s.store a).purge = none) (idle : (s.intake a).context = .idle)
    (own : ∀ x ∈ (s.store a).freeing, x.tag ≠ .intake) {d : Deferred} (deferred : (s.intake a).deferred = [d]) :
    s.requestServed a .intake = (s.onIntake a (fun i => { i with deferred := [] })).takeDeferred a d := by
  have walks : s.storeWalks a = false := by simp [State.storeWalks, idle, purge]
  have requests : (s.store a).freeing.any (fun r => r.tag == .intake) = false := by
    rw [List.any_eq_false]
    intro x mem
    simpa using own x mem
  have waits : s.takingWaits a = false := by rw [State.takingWaits, walks, requests]; rfl
  rw [State.requestServed, if_neg (by decide), wakePurge_none purge, State.resumeDeferred, deferred, List.length_singleton, State.runDeferred,
    deferred]
  simp only [waits, Bool.false_eq_true, if_false]
  rfl

/-- A purge whose own cells are back goes on (R93). -/
theorem requestServed_purge (purge : (s.store a).purge = some p) (waits : p.waiting = true) :
    s.requestServed a .purge =
      ((State.runPurge a (3 + 1) (s.onStore a (fun st => { st with purge := some { p with waiting := false } }))).settleFills).resumeDeferred a := by
  rw [State.requestServed, if_neg (by decide), State.wakePurge, purge]
  simp only [waits, beq_self_eq_true, Bool.true_or, Bool.and_self, if_true]
  rfl

/-! ### A purge's end where release has nothing to do (R93, R84, R101) -/

/-- What the end of a purge does for the command it serves. -/
def State.purgeClosed (s : State) (a : Aud) : PurgeKind → State
  | .close k => (s.onStream (streamOf a k) (fun st => { st with isOpen := false })).finishWork (.closeStream a)
  | .teardown => s.finishWork (.disarm a)
  | .forward _ | .backward _ | .withdraw _ _ | .saturation => s

theorem finishWork_frame (s : State) (w : Work) : s.finishWork w = { s with mgmt := (s.finishWork w).mgmt } := by
  unfold State.finishWork
  split <;> rfl

theorem purgeClosed_onStore (s : State) (a : Aud) (kind : PurgeKind) (f : Store → Store) :
    (s.purgeClosed a kind).onStore a f = (s.onStore a f).purgeClosed a kind := by
  cases kind with
  | close k => exact finishWork_onStore _ _ _ _
  | teardown => exact finishWork_onStore _ _ _ _
  | forward _ | backward _ | withdraw _ _ | saturation => rfl

/-- What a served command's answer and a closed stream leave of the part. -/
theorem purgeClosed_frame (s : State) (a : Aud) (kind : PurgeKind) : s.purgeClosed a kind =
    { s with mgmt := (s.purgeClosed a kind).mgmt, streams := (s.purgeClosed a kind).streams } := by
  cases kind with
  | close k =>
    rw [State.purgeClosed, finishWork_frame]
    rfl
  | teardown =>
    rw [State.purgeClosed, finishWork_frame]
  | forward _ | backward _ | withdraw _ _ | saturation => rfl

theorem purgeClosed_queue (s : State) (a : Aud) (kind : PurgeKind) (m : StreamNo) : ((s.purgeClosed a kind).stream m).queue = (s.stream m).queue := by
  cases kind with
  | close k =>
    rw [State.purgeClosed, finishWork_frame]
    simp only [State.stream, State.onStream, pick_change]
    split <;> rfl
  | teardown =>
    rw [State.purgeClosed, finishWork_frame]
    rfl
  | forward _ | backward _ | withdraw _ _ | saturation => rfl

theorem endPurge_quiet (unmarked : (s.session a).ending = false) (quiet : (s.session a).state.isReleasing = false ∨ s.queuesEmpty a = true)
    (kind : PurgeKind) : s.endPurge a kind = (s.onStore a (fun st => { st with purge := none, staleWaiting := none })).purgeClosed a kind := by
  have served : s.endPurge a kind = ((((s.onStore a (fun st => { st with purge := none })).purgeClosed a kind).release a
      (((s.onStore a (fun st => { st with purge := none })).purgeClosed a kind).store a).staleWaiting).onStore a
        (fun st => { st with staleWaiting := none })).endTest a := by
    cases kind <;> rfl
  have session : ((s.onStore a (fun st => { st with purge := none })).purgeClosed a kind).session a = s.session a := by
    rw [purgeClosed_frame]
    rfl
  have still (x : Option Nat) : ((s.onStore a (fun st => { st with purge := none })).purgeClosed a kind).release a x =
      (s.onStore a (fun st => { st with purge := none })).purgeClosed a kind := by
    rcases quiet with idle | empty
    · rw [State.release, releases_of_not (by rw [session]; exact idle)]
      rfl
    · exact release_empty (fun m same => by rw [purgeClosed_queue]; exact (queuesEmpty_iff s a).mp empty m same) x
  rw [served, still, purgeClosed_onStore, onStore_onStore, endTest_unmarked]
  rw [purgeClosed_frame]
  exact unmarked

/-- A purge of an auditorium where release has nothing to do ends, and the owed saturation purge begins its walk. -/
theorem runPurge_quiet (h : (s.store a).purge = some p) (waits : p.waiting = false) (free : p.current = none)
    (next : s.nextPlace a p.todo = none) (last : p.kind.isTotal = true → (s.store a).freeing = []) (unmarked : (s.session a).ending = false)
    (quiet : (s.session a).state.isReleasing = false ∨ s.queuesEmpty a = true) (closing : (s.store a).closeWaiting = none) (fuel : Nat) :
    let after : State := (s.onStore a (fun st => { st with purge := none, staleWaiting := none, saturationOwed := false })).purgeClosed a p.kind
    ((s.store a).saturationOwed = false → State.runPurge a (fuel + 2) s = after) ∧
    ((s.store a).saturationOwed = true → s.cueInProgress a = false → s.queuesEmpty a = false →
      State.runPurge a (fuel + 2) s = after.onStore a (fun st => { st with purge := some (s.wholeWalk a .saturation false) })) := by
  intro after
  have store (f : Store → Store) : ((s.onStore a f).purgeClosed a p.kind).store a = f (s.store a) := by
    rw [purgeClosed_frame]
    exact (State.onStore_store ..).trans (if_pos rfl)
  refine ⟨fun owed => ?_, fun owed none_ some_ => ?_⟩
  · rw [runPurge_ends h waits free next last, endPurge_quiet unmarked quiet, nextPurge_none (by rw [store]; exact owed) (by rw [store]; exact closing),
      runPurge_none (by rw [store])]
    simp only [after]
    exact congrArg (State.purgeClosed · a p.kind) (onStore_congr (by rw [owed]))
  · have begun : ((s.onStore a (fun st => { st with purge := none, staleWaiting := none })).purgeClosed a p.kind).nextPurge a =
        after.onStore a (fun st => { st with
          purge := some { kind := .saturation, todo := s.sixQueues a, current := none, stepStart := s.now, waiting := false } }) := by
      rw [State.nextPurge, if_pos (by rw [store]; exact owed), purgeClosed_onStore, onStore_onStore, beginPurge_saturation]
      · have same : (after.sixQueues a = s.sixQueues a) := sixQueues_congr (fun m => by rw [purgeClosed_queue]; rfl) a
        have now : after.now = s.now := by
          simp only [after]
          rw [purgeClosed_frame]
          rfl
        rw [← same, ← now]
      · rw [purgeClosed_frame]
        exact none_
    rw [runPurge_ends h waits free next last, endPurge_quiet unmarked quiet, begun, runPurge_whole (s := s) (kind := .saturation) (start := s.now) ?same ?now ?held some_,
      onStore_onStore]
    case same =>
      intro m
      rw [State.onStore_stream, purgeClosed_queue]
      rfl
    case now =>
      simp only [after]
      rw [purgeClosed_frame]
      rfl
    case held => rw [State.onStore_store, if_pos rfl]

theorem takeHead_wrongLength {fields : List Byte} (wrong : fields.length ≠ 11) :
    s.takeHead a fields = (s.refuse a headCode 0 .badField).setContext a (.skipping none) := by
  have none_ : headFields fields = none := by
    cases e : headFields fields with
    | none => rfl
    | some h => exact absurd ((headFields_iff fields h).mp e).1 wrong
  simp only [State.takeHead, none_]

/-! ### The rows of a returned cell -/

/-- A record's taking that waited for its cells goes on (R65, R74, R80, R91). -/
theorem cellFreed_intake (due : s.dueTest (.cellFreed a) = some true) (freeing : (s.store a).freeing = q :: rest) (one : q.cells = 1)
    (tag : q.tag = .intake) (own : ∀ x ∈ rest, x.tag ≠ .intake) (purge : (s.store a).purge = none) (idle : (s.intake a).context = .idle) :
    let u : State := s.cellBack a rest
    (∀ n, (s.intake a).deferred = [.skip n] → exec (.cellFreed a) s = .next (u.onIntake a (fun _ =>
      { context := if n = 0 then .idle else .skipping (some n), deferred := [] }))) ∧
    ((s.intake a).deferred = [.record (.framed queryCode [])] → ∃ t, exec (.cellFreed a) s = .next t ∧
      t = { u with cuePorts := t.cuePorts, intakes := change s.intakes a (fun _ => { context := .idle, deferred := [] }) } ∧
      (∀ b, b ≠ a → t.cuePort b = u.cuePort b) ∧
      (u.cuePort a).gainsReply (t.cuePort a) (.status (s.session a).state (min ((s.clock a).base + (s.clock a).sub) 43199999)
        ((s.store a).used - 1) (s.store a).quota (s.session a).ending)) ∧
    (∀ fields, fields.length ≠ 11 → (s.intake a).deferred = [.record (.framed headCode fields)] → ∃ t, exec (.cellFreed a) s = .next t ∧
      (u.onIntake a (fun _ => { context := .skipping none, deferred := [] })).refused t a headCode 0 .badField) := by
  intro u
  have banked : Banked s u := cellBack_banked s a rest
  have store : u.store a = { s.store a with used := (s.store a).used - 1, freeing := rest, cellStart := s.now } := cellBack_store s a rest
  have intake : u.intake a = s.intake a := by rw [State.intake, banked.intakes]; rfl
  have taken {d : Deferred} (deferred : (s.intake a).deferred = [d]) :
      exec (.cellFreed a) s = .next ((u.onIntake a (fun i => { i with deferred := [] })).takeDeferred a d) := by
    rw [exec_cellFreed_last due freeing one, tag, requestServed_intake (by rw [store]; exact purge) (by rw [intake]; exact idle)
      (by rw [store]; exact own) (by rw [intake]; exact deferred)]
  have emptied : u.onIntake a (fun i => { i with deferred := [] }) = u.onIntake a (fun _ => { context := .idle, deferred := [] }) := by
    have same : pick u.intakes a = s.intake a := intake
    simp only [State.onIntake]
    rw [change_congr (g := fun _ => { context := .idle, deferred := [] }) (by rw [same, idle])]
  have paired {w : State} (emptied_ : u.onIntake a (fun _ => { context := .idle, deferred := [] }) = w) {r : Record} (other : r.isOther) :
      w.pairRecord a r = w.takeOther a r := by
    have idle : (w.intake a).context = .idle := by rw [← emptied_]; simp
    rw [pairRecord_closed (by simp [State.insertionRuns, idle]) (by simp [idle]) other, setContext_self idle]
  refine ⟨fun n deferred => ?_, fun deferred => ?_, fun fields wrong deferred => ?_⟩
  · rw [taken deferred, emptied, State.takeDeferred, skipContext_eq]
    simp only [State.setContext, State.onIntake, change_change]
  · generalize emptied_ : u.onIntake a (fun _ => { context := .idle, deferred := [] }) = w at emptied
    have answered : exec (.cellFreed a) s = .next (w.placeReply a (w.statusReply a)) := by
      rw [taken deferred, emptied, State.takeDeferred, paired emptied_ (by exact ⟨by decide, by decide⟩)]
      rfl
    have gains := placeReply_gainsReply w a (w.statusReply a)
    have status : w.statusReply a = .status (s.session a).state (min ((s.clock a).base + (s.clock a).sub) 43199999)
        ((s.store a).used - 1) (s.store a).quota (s.session a).ending := by
      have clock : u.clock a = s.clock a := by rw [State.clock, banked.clocks]; rfl
      have session : u.session a = s.session a := by rw [State.session, banked.sessions]; rfl
      rw [← emptied_]
      show Reply.status (u.session a).state (u.position a) (u.store a).used (u.store a).quota (u.session a).ending = _
      rw [store, session, State.position, clock]
      rfl
    obtain ⟨f, placed, -, -⟩ := placeReply_cases w a (w.statusReply a)
    rw [status] at gains placed answered
    rw [placed] at gains answered
    refine ⟨_, answered, ?_, fun b ne => ?_, ?_⟩
    · rw [← emptied_]
      show { u with cuePorts := _, intakes := _ } = _
      rw [← banked.intakes]
      rfl
    · rw [← emptied_]
      simp [ne.symm]
    · rw [← emptied_] at gains ⊢
      exact gains
  · generalize emptied_ : u.onIntake a (fun _ => { context := .idle, deferred := [] }) = w at emptied
    have refused := refused_onIntake (refused_refuse w a headCode 0 .badField) (fun i => { i with context := .skipping none })
    have answered : exec (.cellFreed a) s = .next ((w.refuse a headCode 0 .badField).setContext a (.skipping none)) := by
      rw [taken deferred, emptied, State.takeDeferred, paired emptied_ (by exact ⟨by decide, by decide⟩)]
      exact congrArg Host.Outcome.next (takeHead_wrongLength wrong)
    refine ⟨_, answered, ?_⟩
    have skips : w.onIntake a (fun i => { i with context := .skipping none }) = u.onIntake a (fun _ => { context := .skipping none, deferred := [] }) := by
      rw [← emptied_]
      simp only [State.onIntake, change_change]
    rw [← skips]
    exact refused

/-- A purge whose own cells are back takes its next step, waits for the unit, or ends (R93). -/
theorem cellFreed_purge (due : s.dueTest (.cellFreed a) = some true) (freeing : (s.store a).freeing = q :: rest) (one : q.cells = 1)
    (tag : q.tag = .purge) (purge : (s.store a).purge = some p) (waits : p.waiting = true) (free : p.current = none) (busy : s.ringsBusy) :
    let u (next : Option Purge) : State := (s.cellBack a rest).onStore a (fun st => { st with purge := next })
    (∀ gone y todo, p.todo = gone ++ y :: todo → (∀ x ∈ gone, ¬ s.inQueue a x) → s.inQueue a y → exec (.cellFreed a) s =
      .next (u (some { p with waiting := false, todo := todo, current := some y, stepStart := s.now }))) ∧
    ((∀ x ∈ p.todo, ¬ s.inQueue a x) → p.kind.isTotal = true → rest ≠ [] → exec (.cellFreed a) s = .next (u (some { p with todo := [] }))) ∧
    ((∀ x ∈ p.todo, ¬ s.inQueue a x) → (p.kind.isTotal = true → rest = []) → (s.session a).ending = false →
      (s.session a).state.isReleasing = false ∨ s.queuesEmpty a = true → (s.intake a).deferred = [] → (s.store a).closeWaiting = none →
      let after : State := ((u none).onStore a (fun st => { st with staleWaiting := none, saturationOwed := false })).purgeClosed a p.kind
      ((s.store a).saturationOwed = false → exec (.cellFreed a) s = .next after) ∧
      ((s.store a).saturationOwed = true → s.cueInProgress a = false → s.queuesEmpty a = false →
        exec (.cellFreed a) s = .next (after.onStore a (fun st => { st with purge := some (s.wholeWalk a .saturation false) })))) := by
  have banked : Banked s (s.cellBack a rest) := cellBack_banked s a rest
  have store : (s.cellBack a rest).store a = { s.store a with used := (s.store a).used - 1, freeing := rest, cellStart := s.now } :=
    cellBack_store s a rest
  generalize back : s.cellBack a rest = w at banked store
  intro u
  have awake (f : Store → Store) : (w.onStore a f).store a = f (w.store a) := by rw [State.onStore_store, if_pos rfl]
  have links (f : Store → Store) : (w.onStore a f).links = s.links := banked.links
  have queue (m : StreamNo) : w.stream m = s.stream m := by rw [State.stream, banked.streams]; rfl
  have inQueue (f : Store → Store) (x : Slot × Seq) : (w.onStore a f).inQueue a x ↔ s.inQueue a x :=
    inQueue_congr (fun m => by rw [State.onStore_stream, queue]) x
  have taken : exec (.cellFreed a) s = .next (((State.runPurge a (3 + 1) (w.onStore a (fun st => { st with
      purge := some { p with waiting := false } }))).settleFills).resumeDeferred a) := by
    rw [exec_cellFreed_last due freeing one, tag, back, requestServed_purge (by rw [store]; exact purge) waits]
  refine ⟨fun gone y todo order left here => ?_, fun left total more => ?_, fun left last unmarked quiet deferred closing => ?_⟩
  · have next : (w.onStore a (fun st => { st with purge := some { p with waiting := false } })).nextPlace a p.todo = some (y, todo) := by
      rw [order]
      exact nextPlace_append (fun x mem => (inQueue _ x).not.mpr (left x mem)) ((inQueue _ y).mpr here)
    rw [taken, runPurge_examines (p := { p with waiting := false }) (awake _ ▸ rfl) rfl free next, onStore_onStore,
      settled_purge (links _) busy (by rw [awake]; rfl), State.onStore_now, banked.now]
  · rw [taken, runPurge_awaits (p := { p with waiting := false }) (awake _ ▸ rfl) rfl free (nextPlace_absent fun x mem => (inQueue _ x).not.mpr (left x mem))
      total (by rw [awake, store]; exact more), onStore_onStore, settled_purge (links _) busy (by rw [awake]; rfl)]
    simp only [u, ← waits]
  · intro after
    have quietly := runPurge_quiet (s := w.onStore a (fun st => { st with purge := some { p with waiting := false } })) (a := a)
      (p := { p with waiting := false }) (awake _ ▸ rfl) rfl free (nextPlace_absent fun x mem => (inQueue _ x).not.mpr (left x mem))
      (fun total => by rw [awake, store]; exact last total)
      (by rw [State.onStore_session, State.session, banked.sessions]; exact unmarked)
      (by
        rw [State.onStore_session, State.session, banked.sessions]
        refine quiet.imp_right fun empty => (queuesEmpty_iff _ a).mpr fun m same => ?_
        rw [State.onStore_stream, queue]
        exact (queuesEmpty_iff s a).mp empty m same)
      (by rw [awake, store]; exact closing) 2
    have same : (((w.onStore a (fun st => { st with purge := some { p with waiting := false } })).onStore a (fun st => { st with
        purge := none, staleWaiting := none, saturationOwed := false })).purgeClosed a p.kind) = after := by
      simp only [after, u, onStore_onStore]
    have after_intake : (after.intake a).deferred = [] := by
      rw [← same, purgeClosed_frame]
      show (w.intake a).deferred = []
      rw [State.intake, banked.intakes]
      exact deferred
    have after_links : after.links = s.links := by
      rw [← same, purgeClosed_frame]
      exact banked.links
    have walk : (w.onStore a (fun st => { st with purge := some { p with waiting := false } })).wholeWalk a .saturation false =
        s.wholeWalk a .saturation false := wholeWalk_congr (fun m => congrArg (fun st => seqs st.queue) (queue m)) banked.now _ _
    rw [taken]
    obtain ⟨unowed, owes⟩ := quietly
    refine ⟨fun owed => ?_, fun owed none_ some_ => ?_⟩
    · rw [unowed (by rw [awake, store]; exact owed), same, settleFills_still after_links busy, resumeDeferred_empty after_intake]
    · have none_ : (w.onStore a (fun st => { st with purge := some { p with waiting := false } })).cueInProgress a = false := by
        rw [State.cueInProgress, State.onStore_intake, State.intake, banked.intakes]
        exact none_
      have some_ : (w.onStore a (fun st => { st with purge := some { p with waiting := false } })).queuesEmpty a = false := by
        have empty : (w.onStore a (fun st => { st with purge := some { p with waiting := false } })).queuesEmpty a = s.queuesEmpty a := by
          simp only [State.queuesEmpty, State.onStore_stream, queue]
        rw [empty, some_]
      rw [owes (by rw [awake, store]; exact owed) none_ some_, same, walk]
      exact congrArg Host.Outcome.next (settled_purge (s := s) after_links busy (by rw [State.onStore_store, if_pos rfl]; rfl))

theorem isTotal_iff (kind : PurgeKind) : kind.isTotal = true ↔ kind = .saturation ∨ kind = .teardown := by
  cases kind <;> simp [PurgeKind.isTotal]

/-- Settles O36: a returned cell, and what its request's last cell lets go on. -/
theorem cellReturned : Obligations.CellReturned := by
  intro a q rest s due freeing some_ back
  refine ⟨fun two => exec_cellFreed_more due freeing two, fun one purge deferred => ?_, fun one tag own purge idle => ?_,
    fun p one tag purge waits free busy => ?_⟩
  · have banked := cellBack_banked s a rest
    have store := cellBack_store s a rest
    rw [exec_cellFreed_last due freeing one, requestServed_alone (by rw [store]; exact purge) (by rw [State.intake, banked.intakes]; exact deferred),
      banked.mgmt]
    rfl
  · exact cellFreed_intake due freeing one tag own purge idle
  · intro u
    have u_eq (next : Option Purge) : (s.cellBack a rest).onStore a (fun st => { st with purge := next }) = u next := onStore_onStore _ a _ _
    have mgmt (next : Option Purge) : (u next).mgmt = s.mgmt := by
      rw [← u_eq]
      exact (cellBack_banked s a rest).mgmt
    obtain ⟨goesOn, awaits, ends⟩ := cellFreed_purge due freeing one tag purge waits free busy
    simp only [u_eq] at goesOn awaits ends
    refine ⟨goesOn, fun left total more => awaits left ((isTotal_iff _).mpr total) more,
      fun left last unmarked quiet deferred closing => ?_⟩
    have ends := ends left (fun total => last ((isTotal_iff _).mp total)) unmarked quiet deferred closing
    intro ended done after
    clear_value u
    have same : ((u none).onStore a (fun st => { st with staleWaiting := none, saturationOwed := false })).purgeClosed a p.kind = after := by
      simp only [after]
      cases p.kind with
      | close k =>
        show State.finishWork _ _ = done _ _ _
        simp only [State.finishWork, done, ended, State.onStream, State.onStore, mgmt]
        rfl
      | teardown =>
        show State.finishWork _ _ = done _ _ _
        simp only [State.finishWork, done, ended, State.onStore, mgmt]
        rfl
      | forward _ | backward _ | withdraw _ _ | saturation => rfl
    rw [← same]
    exact ends

end Sys2Proof.Machine
end

section
/-! PROOFS. The purges that walk all six queues: a jump's, a saturation's and a teardown's (R31, R37, R41, R93). -/

namespace Sys2Proof.Machine

variable {s t u v : State} {a : Aud} {n : StreamNo} {c : Cue}

/-! ### A jump (R31, R32) -/

theorem near_onPort (h : Near s v a) (f : CuePort → CuePort) (line : (f (v.cuePort a)).lineSide = (v.cuePort a).lineSide) :
    Near s (v.onPort a f) a := by
  obtain ⟨tables, others, stores, links, line', faults, accepted⟩ := h
  refine ⟨tables, fun b ne => ?_, stores, links, ?_, faults, accepted⟩
  · obtain ⟨clock, session, run, port, own, record⟩ := others b ne
    exact ⟨clock, session, run, by simpa [ne.symm] using port, own, record⟩
  · simpa using line.trans line'

theorem near_placeReply (h : Near s v a) (r : Reply) : Near s (v.placeReply a r) a := by
  obtain ⟨f, placed, line, -⟩ := placeReply_cases v a r
  rw [placed]
  exact near_onPort h f line

theorem near_raiseAud (h : Near s v a) (k : Byte) : Near s (v.raiseAud a k) a := by
  obtain ⟨tables, others, stores, links, line, faults, accepted⟩ := h
  refine ⟨tables, fun b ne => ?_, stores, links, line, faults, accepted⟩
  obtain ⟨clock, session, run, port, own, record⟩ := others b ne
  exact ⟨clock, session, run, port, own, by rw [raiseAud_audRecord, if_neg ne.symm]; exact record⟩

/-- The clock placed, the jump counted, and sub placed (R9, R31). -/
def State.jumped (s : State) (a : Aud) (m : Nat) : State :=
  ((s.onClock a (·.place m)).onCounters a (fun c => { c with jump := bump c.jump })).settleSub a

theorem near_jumped (s : State) (a : Aud) (m : Nat) : Near s (s.jumped a m) a :=
  Near.settleSub (Near.of_show rfl (fun b hb => by simp [hb.symm, State.audRecord]) (by simp) (by simp))

/-- What a jump writes itself, JUMP-SEEN and JUMP included. -/
def State.jumpSeen (s : State) (a : Aud) (m : Nat) : State :=
  ((s.jumped a m).placeReply a (.jumpSeen (s.clock a).base m)).raiseAud a kindJump

theorem near_jumpSeen (s : State) (a : Aud) (m : Nat) : Near s (s.jumpSeen a m) a :=
  near_raiseAud (near_placeReply (near_jumped s a m) _) _

theorem takeMark_far {m : Nat} {r : Rate} (releasing : (s.session a).state.isReleasing = true) (rate : (s.clock a).rate = some r)
    (inRange : m ≤ 43199999) (far : 2 * r.tpf < (m - (s.clock a).base) + ((s.clock a).base - m)) : s.takeMark a m = s.jump a m := by
  have limit : ¬ Config.maxPosition < m := Nat.not_lt.mpr inRange
  rw [← tpf_of_rate rate] at far
  rw [State.takeMark]
  cases e : (s.session a).state with
  | dark | armed | ended => simp [e, AudState.isReleasing] at releasing
  | paused | running | coasting =>
    dsimp only
    rw [if_neg limit]
    exact if_neg (Nat.not_le.mpr far)

theorem jumped_shows (s : State) (a : Aud) (m : Nat) : (s.jumped a m).session a = s.session a ∧ (s.jumped a m).showRun a = s.showRun a ∧
    (s.jumped a m).clock a = { s.clock a with base := m, sub := if s.subMoves a then (s.clock a).subTarget (s.elapsed a) else 0 } ∧
    (s.jumped a m).audCounter a = { s.audCounter a with jump := bump (s.audCounter a).jump } := by
  obtain ⟨session, run, counters⟩ := settleSub_rest ((s.onClock a (·.place m)).onCounters a (fun c => { c with jump := bump c.jump })) a
  refine ⟨session.trans (by simp), run.trans (by simp), ?_, counters.trans (by simp)⟩
  have moves : State.subMoves ((s.onClock a (·.place m)).onCounters a (fun c => { c with jump := bump c.jump })) a = s.subMoves a := rfl
  have elapsed : State.elapsed ((s.onClock a (·.place m)).onCounters a (fun c => { c with jump := bump c.jump })) a = s.elapsed a := by
    simp only [State.elapsed, State.since, State.onCounters_clock, State.onClock_clock, if_true, Clock.place]
    rfl
  rw [State.jumped, settleSub_clock, moves, elapsed]
  simp only [State.onCounters_clock, State.onClock_clock, if_true]
  split
  · simp [Clock.place, Clock.raiseSub, Clock.subTarget, Clock.tpf]
  · rfl

theorem jumpSeen_shows (s : State) (a : Aud) (m : Nat) : (s.jumpSeen a m).session a = s.session a ∧ (s.jumpSeen a m).showRun a = s.showRun a ∧
    (s.jumpSeen a m).clock a = { s.clock a with base := m, sub := if s.subMoves a then (s.clock a).subTarget (s.elapsed a) else 0 } ∧
    (s.jumpSeen a m).audCounter a = { s.audCounter a with jump := bump (s.audCounter a).jump } := by
  have shows := jumped_shows s a m
  obtain ⟨f, placed, -, -⟩ := placeReply_cases (s.jumped a m) a (.jumpSeen (s.clock a).base m)
  rw [State.jumpSeen, placed]
  exact shows

/-- A jump leaves the queues, the ports and the rest of the part to its purge. -/
theorem jumpSeen_rest (s : State) (a : Aud) (m : Nat) : (s.jumpSeen a m).streams = s.streams ∧ (s.jumpSeen a m).links = s.links ∧
    (s.jumpSeen a m).now = s.now := by
  have rest : (s.jumped a m).streams = s.streams ∧ (s.jumped a m).links = s.links ∧ (s.jumped a m).now = s.now := by
    rw [State.jumped, State.settleSub]
    split <;> exact ⟨rfl, rfl, rfl⟩
  obtain ⟨f, placed, -, -⟩ := placeReply_cases (s.jumped a m) a (.jumpSeen (s.clock a).base m)
  rw [State.jumpSeen, placed]
  exact rest

theorem jump_eq (s : State) (a : Aud) (m : Nat) : s.jump a m =
    if (s.jumpSeen a m).saturated a then ((s.jumpSeen a m).positionChanged a).settleFills
    else (State.runPurge a (3 + 1) (((s.jumpSeen a m).beginPurge a (if (s.clock a).base < m then .forward m else .backward m)).endByPosition a)).settleFills := rfl

theorem jump_works (s : State) (a : Aud) (m : Nat) : Worked (some a) (s.jumpSeen a m) (s.jump a m) := by
  rw [jump_eq]
  split
  · exact (Worked.positionChanged .refl).settleFills
  · exact (Worked.runPurge a _ ((Worked.refl.beginPurge a _).endByPosition a)).settleFills

/-- A jump's purge owes the clears and walks all six queues (R95, R96). -/
theorem beginPurge_jump (s : State) (a : Aud) {kind : PurgeKind} (jump : kind.isTotal = false ∧ ∃ m, kind = .forward m ∨ kind = .backward m) :
    s.beginPurge a kind = (s.oweClears a).onStore a (fun st => { st with
      purge := some { kind := kind, todo := s.sixQueues a, current := none, stepStart := s.now, waiting := false } }) := by
  obtain ⟨-, m, rfl | rfl⟩ := jump <;> rfl

theorem oweClears_queue (s : State) (a : Aud) (m : StreamNo) : ((s.oweClears a).stream m).queue = (s.stream m).queue := by
  simp only [oweClears_stream, State.clearedStream]
  split_ifs <;> rfl

/-- With every cue QUEUED the position ends nothing, and a jump's purge begins its walk (R93). -/
theorem jumpPurge_walks (streams : v.streams = s.streams) (links : v.links = s.links) (now : v.now = s.now) (some_ : s.queuesEmpty a = false)
    (queued : ∀ k, ∀ c ∈ (s.stream (streamOf a k)).queue, c.life = .queued) {kind : PurgeKind}
    (jump : kind.isTotal = false ∧ ∃ m, kind = .forward m ∨ kind = .backward m) (busy : s.ringsBusy) :
    (State.runPurge a (3 + 1) ((v.beginPurge a kind).endByPosition a)).settleFills =
      (v.oweClears a).onStore a (fun st => { st with purge := some (s.wholeWalk a kind false) }) := by
  have queue (n : StreamNo) : ((v.oweClears a).stream n).queue = (s.stream n).queue := by
    rw [oweClears_queue, State.stream, streams]
    rfl
  have only := oweClears_streamsOnly v a
  have order : v.sixQueues a = s.sixQueues a := sixQueues_congr (fun n => by rw [State.stream, streams]; rfl) a
  have ends : (v.beginPurge a kind).endByPosition a = v.beginPurge a kind := by
    refine endByPosition_queued fun n same d mem => ?_
    rw [beginPurge_jump v a jump, State.onStore_stream, queue, ← (streamOf_eq_iff a (slotOfStream n) n).mpr ⟨same, rfl⟩] at mem
    exact queued _ d mem
  rw [ends, beginPurge_jump v a jump, order, now,
    runPurge_whole (s := s) (kind := kind) (start := s.now) ?same ?now ?held some_, onStore_onStore]
  case same => exact fun n => by rw [State.onStore_stream, queue]
  case now =>
    rw [State.onStore_now, only]
    exact now
  case held => rw [State.onStore_store, if_pos rfl]
  refine settleFills_still (s := s) ?_ busy
  rw [State.onStore_links, only]
  exact links

/-- With every cue QUEUED, a jump short of saturation begins its purge and does nothing else (R31, R32, R93). -/
theorem jump_walks {m : Nat} (some_ : s.queuesEmpty a = false) (queued : ∀ k, ∀ c ∈ (s.stream (streamOf a k)).queue, c.life = .queued)
    (below : (s.jumpSeen a m).position a < 43199999) (busy : s.ringsBusy) :
    s.jump a m = ((s.jumpSeen a m).oweClears a).onStore a (fun st => { st with
      purge := some (s.wholeWalk a (if (s.clock a).base < m then .forward m else .backward m) false) }) := by
  obtain ⟨streams, links, now⟩ := jumpSeen_rest s a m
  rw [jump_eq, unsaturated below]
  refine (if_neg Bool.false_ne_true).trans (jumpPurge_walks streams links now some_ queued ?_ busy)
  split
  · exact ⟨rfl, m, .inl rfl⟩
  · exact ⟨rfl, m, .inr rfl⟩

/-- Settles O28: a mark beyond two frames is a jump. -/
theorem jumpingMark : Obligations.JumpingMark := by
  intro a r fields s rest releasing rate four inRange far m sub
  have taken : exec (.mark a fields) s = .next (s.jump a m) := by rw [exec_mark rest four, takeMark_far releasing rate inRange far]
  obtain ⟨session, run, clock, counters⟩ := jumpSeen_shows s a m
  obtain ⟨streams, links, now⟩ := jumpSeen_rest s a m
  have near := near_jumpSeen s a m
  have work := jump_works s a m
  obtain ⟨tables, others, ports, -⟩ := near.onlyShow work (fun b e => (Option.some.inj e).symm)
  have placed : (s.jumpSeen a m).clock a = { s.clock a with base := m, sub := sub } := by
    rw [clock]
    simp only [Clock.subTarget, tpf_of_rate rate]
    rfl
  refine ⟨_, taken, tables, others, ports, (work.clock_eq a).trans placed, ?_, ?_, ?_, fun some_ queued below busy => ?_⟩
  · have moves := work.movesTo (s := s) (a := a) near.tables.1
    rwa [session, run] at moves
  · rw [work.own, counters]
  · exact work.raised a _ (raised_raiseAud _ a _ (by decide))
  · have below : (s.jumpSeen a m).position a < 43199999 := by
      rw [State.position, placed]
      exact lt_of_le_of_lt (Nat.min_le_left _ _) below
    rw [jump_walks some_ queued below busy]
    have only := oweClears_streamsOnly (s.jumpSeen a m) a
    refine ⟨?_, fun n => by rw [State.onStore_stream]; exact oweClears_congr streams links a n, by rw [State.onStore_store, if_pos rfl]⟩
    have gains := placeReply_gainsReply (s.jumped a m) a (.jumpSeen (s.clock a).base m)
    have before : (s.jumped a m).cuePort a = s.cuePort a := by
      rw [State.jumped, State.settleSub]
      split <;> rfl
    have after_ : (s.jumpSeen a m).cuePort a = ((s.jumped a m).placeReply a (.jumpSeen (s.clock a).base m)).cuePort a := rfl
    have after : ((s.jumpSeen a m).oweClears a).cuePort a = ((s.jumped a m).placeReply a (.jumpSeen (s.clock a).base m)).cuePort a := by
      generalize s.jumpSeen a m = v at only after_
      rw [State.cuePort, only]
      exact after_
    rw [before, ← after] at gains
    rwa [State.onStore_cuePort]

end Sys2Proof.Machine
end

section
/-! PROOFS. The purges that take every cue of an auditorium: a saturation's and a teardown's (R37, R41, R77, R93, R100, R101). -/

namespace Sys2Proof.Machine

variable {s t u v e : State} {a : Aud} {n : StreamNo} {c : Cue} {kind : PurgeKind}

/-! ### How such a purge begins (R77, R93) -/

/-- A purge of every cue: its kind, its walk and what it waits for. -/
theorem beginPurge_total (total : kind.isTotal = true) : e.beginPurge a kind = (e.removeInProgress a).onStore a (fun st => { st with
    purge := some { kind := kind, todo := e.sixQueues a, current := none, stepStart := e.now, waiting := e.cueInProgress a } }) := by
  cases kind with
  | saturation | teardown => rfl
  | forward _ | backward _ | withdraw _ _ | close _ => cases total

theorem startPurge_walks (total : kind.isTotal = true) (none_ : e.cueInProgress a = false) (some_ : e.queuesEmpty a = false) :
    e.startPurge a kind = e.onStore a (fun st => { st with purge := some (e.wholeWalk a kind false) }) := by
  rw [startPurge_eq, beginPurge_total total, removeInProgress_none none_, none_,
    runPurge_whole (s := e) (kind := kind) (start := e.now) ?same ?now ?held some_, onStore_onStore]
  case same => exact fun n => by rw [State.onStore_stream]
  case now => rfl
  case held => rw [State.onStore_store, if_pos rfl]

theorem wholeWalk_empty (empty : e.queuesEmpty a = true) (waiting : Bool) :
    e.wholeWalk a kind waiting = { kind := kind, todo := [], current := none, stepStart := e.now, waiting := waiting } := by
  rw [State.wholeWalk, sixQueues_empty empty]
  cases waiting <;> rfl

theorem startPurge_awaits (total : kind.isTotal = true) (none_ : e.cueInProgress a = false) (empty : e.queuesEmpty a = true)
    (cells : (e.store a).freeing ≠ []) :
    e.startPurge a kind = e.onStore a (fun st => { st with purge := some (e.wholeWalk a kind true) }) := by
  rw [startPurge_eq, beginPurge_total total, removeInProgress_none none_, none_, sixQueues_empty empty,
    runPurge_awaits (p := { kind := kind, todo := [], current := none, stepStart := e.now, waiting := false })
      (by rw [State.onStore_store, if_pos rfl]) rfl rfl rfl total (by rw [State.onStore_store, if_pos rfl]; exact cells), onStore_onStore,
    wholeWalk_empty empty]

/-- The purge waits for the cells of the cue in progress (R100, R101). -/
theorem startPurge_removes (total : kind.isTotal = true) (some_ : e.cueInProgress a = true) :
    e.startPurge a kind = (e.removeInProgress a).onStore a (fun st => { st with purge := some (e.wholeWalk a kind true) }) := by
  rw [startPurge_eq, beginPurge_total total, some_,
    runPurge_waiting (p := { kind := kind, todo := e.sixQueues a, current := none, stepStart := e.now, waiting := true })
      (by rw [State.onStore_store, if_pos rfl]) rfl]
  rfl

/-! ### How it ends at once -/

theorem endPurge_idle (idle : (s.session a).state.isActive = false) (kind : PurgeKind) :
    s.endPurge a kind = (s.onStore a (fun st => { st with purge := none, staleWaiting := none })).purgeClosed a kind := by
  have served : s.endPurge a kind = ((((s.onStore a (fun st => { st with purge := none })).purgeClosed a kind).release a
      (((s.onStore a (fun st => { st with purge := none })).purgeClosed a kind).store a).staleWaiting).onStore a
        (fun st => { st with staleWaiting := none })).endTest a := by
    cases kind <;> rfl
  have session : ((s.onStore a (fun st => { st with purge := none })).purgeClosed a kind).session a = s.session a := by
    rw [purgeClosed_frame]
    rfl
  have still (x : Option Nat) : ((s.onStore a (fun st => { st with purge := none })).purgeClosed a kind).release a x =
      (s.onStore a (fun st => { st with purge := none })).purgeClosed a kind := by
    have unreleased : (s.session a).state.isReleasing = false := by
      cases e : (s.session a).state <;> simp [e, AudState.isActive, AudState.isReleasing] at idle ⊢
    rw [State.release, releases_of_not (by rw [session]; exact unreleased)]
    rfl
  rw [served, still, purgeClosed_onStore, onStore_onStore, endTest_inactive]
  rw [purgeClosed_frame]
  exact idle

/-- A walk over every cue with nothing to walk ends. -/
theorem runPurge_total_ends {start : Nat}
    (h : (s.store a).purge = some { kind := kind, todo := [], current := none, stepStart := start, waiting := false })
    (idle : (s.session a).state.isActive = false) (cells : (s.store a).freeing = []) (fuel : Nat) :
    State.runPurge a (fuel + 1) s = State.runPurge a fuel
      (((s.onStore a (fun st => { st with purge := none, staleWaiting := none })).purgeClosed a kind).nextPurge a) := by
  rw [runPurge_ends h rfl rfl rfl (fun _ => cells), endPurge_idle idle]

/-- With no cue to walk, nothing in progress and the unit empty, the purge ends at once, and an owed saturation purge with it. -/
theorem startPurge_ends (total : kind.isTotal = true) (none_ : e.cueInProgress a = false) (empty : e.queuesEmpty a = true)
    (cells : (e.store a).freeing = []) (idle : (e.session a).state.isActive = false) (closing : (e.store a).closeWaiting = none) :
    e.startPurge a kind =
      (e.onStore a (fun st => { st with purge := none, staleWaiting := none, saturationOwed := false })).purgeClosed a kind := by
  have store (v : State) (f : Store → Store) : ((v.onStore a f).purgeClosed a kind).store a = f (v.store a) := by
    rw [purgeClosed_frame]
    exact (State.onStore_store ..).trans (if_pos rfl)
  rw [startPurge_eq, beginPurge_total total, removeInProgress_none none_, none_, sixQueues_empty empty,
    runPurge_total_ends (kind := kind) (start := e.now) (by rw [State.onStore_store, if_pos rfl]) (by exact idle)
      (by rw [State.onStore_store, if_pos rfl]; exact cells), onStore_onStore]
  have cueless : State.cueInProgress (((e.onStore a (fun st => { st with purge := none, staleWaiting := none })).purgeClosed a kind)) a = false := by
    rw [purgeClosed_frame]
    exact none_
  cases owed : (e.store a).saturationOwed with
  | false =>
    rw [nextPurge_none (by rw [store]; exact owed) (by rw [store]; exact closing), runPurge_none (by rw [store])]
    exact congrArg (State.purgeClosed · a kind) (onStore_congr (by rw [owed]))
  | true =>
    have cleared : ((e.onStore a (fun st => { st with purge := none, staleWaiting := none })).purgeClosed a kind).onStore a
        (fun st => { st with saturationOwed := false }) =
        (e.onStore a (fun st => { st with purge := none, staleWaiting := none, saturationOwed := false })).purgeClosed a kind := by
      rw [purgeClosed_onStore, onStore_onStore]
    obtain ⟨w, w_eq⟩ : ∃ w, w = (e.onStore a (fun st => { st with purge := none, staleWaiting := none, saturationOwed := false })).purgeClosed a kind :=
      ⟨_, rfl⟩
    have w_store : w.store a = { e.store a with purge := none, staleWaiting := none, saturationOwed := false } := by rw [w_eq, store]
    have w_empty : w.sixQueues a = [] := by
      rw [← sixQueues_empty empty, w_eq]
      exact sixQueues_congr (fun m => by rw [purgeClosed_queue, State.onStore_stream]) a
    have w_idle : (w.session a).state.isActive = false := by
      rw [w_eq, purgeClosed_frame]
      exact idle
    have w_none : w.cueInProgress a = false := by
      rw [w_eq, purgeClosed_frame]
      exact none_
    rw [State.nextPurge, if_pos (by rw [store]; exact owed), cleared, ← w_eq, beginPurge_saturation w_none, w_empty,
      runPurge_total_ends (kind := .saturation) (start := w.now) (by rw [State.onStore_store, if_pos rfl]) (by exact w_idle)
        (by rw [State.onStore_store, if_pos rfl, w_store]; exact cells), onStore_onStore]
    have again : (w.onStore a (fun st => { st with purge := none, staleWaiting := none })).purgeClosed a .saturation = w :=
      onStore_self (by rw [w_store])
    rw [again, nextPurge_none (by rw [w_store]) (by rw [w_store]; exact closing), runPurge_none (by rw [w_store])]

/-! ### The cue in progress is taken (R77, R100, R101) -/

/-- What is left of the context when the cue in progress is gone (R77). -/
def Context.cueGone : Context → Context
  | .opened _ owed => .skipping (some owed)
  | _ => .idle

theorem cueInProgress_of_some (h : (e.intake a).context.cue = some c) : e.cueInProgress a = true := by
  cases x : (e.intake a).context <;> simp [x, Context.cue, State.cueInProgress] at h ⊢

theorem onIntake_congr {f g : Intake → Intake} (h : f (s.intake a) = g (s.intake a)) : s.onIntake a f = s.onIntake a g := by
  simp only [State.onIntake, change_congr (show f (pick s.intakes a) = g (pick s.intakes a) from h)]

theorem cueInProgress_of_none (h : (e.intake a).context.cue = none) : e.cueInProgress a = false := by
  cases x : (e.intake a).context <;> simp [x, Context.cue, State.cueInProgress] at h ⊢

/-- The cue in progress taken: its request, its refusal and the context left. -/
theorem removeInProgress_some (h : (e.intake a).context.cue = some c) : ∃ f : CuePort → CuePort,
    e.removeInProgress a = (((e.freeingAsked a (1 + c.heldBodies) .purge).onCounters a (fun x => { x with refused := bump x.refused })).onPort a f).onIntake a
      (fun i => { i with context := i.context.cueGone }) ∧
    (e.cuePort a).gainsReply (f (e.cuePort a)) (.refuse headCode c.seq .brokenCue) ∧ (f (e.cuePort a)).lineSide = (e.cuePort a).lineSide := by
  obtain ⟨w, w_eq⟩ : ∃ w, w = (e.freeingAsked a (1 + c.heldBodies) .purge).onCounters a (fun x => { x with refused := bump x.refused }) := ⟨_, rfl⟩
  have port : w.cuePort a = e.cuePort a := by rw [w_eq]; rfl
  obtain ⟨f, placed, line, -⟩ := placeReply_cases w a (.refuse headCode c.seq .brokenCue)
  have gains := placeReply_gainsReply w a (.refuse headCode c.seq .brokenCue)
  rw [placed, State.onPort_cuePort, if_pos rfl, port] at gains
  refine ⟨f, ?_, gains, by rw [← port]; exact line⟩
  rw [← w_eq, ← placed]
  have context : (w.placeReply a (.refuse headCode c.seq .brokenCue)).intake a = e.intake a := by
    rw [placed, w_eq]
    rfl
  have refused : (e.requestFree a c.cells .purge).refuse a headCode c.seq .brokenCue = w.placeReply a (.refuse headCode c.seq .brokenCue) := by
    rw [requestFree_eq, State.refuse, w_eq]
    rfl
  cases x : (e.intake a).context with
  | opened d owed =>
    obtain rfl : d = c := by simpa [x, Context.cue] using h
    simp only [State.removeInProgress, x, refused]
    exact onIntake_congr (by rw [context, x]; rfl)
  | inserting d walk =>
    obtain rfl : d = c := by simpa [x, Context.cue] using h
    simp only [State.removeInProgress, x, refused]
    exact onIntake_congr (by rw [context, x]; rfl)
  | idle => simp [x, Context.cue] at h
  | skipping owed => simp [x, Context.cue] at h

/-! ### A saturated position (R37, R38) -/

/-- `e` is `s` with auditorium `a`'s show ended, the clears owed, and what the session and its clock changed on the way. -/
structure ShowEnded (s e : State) (a : Aud) : Prop where
  stores : e.stores = s.stores
  intakes : e.intakes = s.intakes
  cuePorts : e.cuePorts = s.cuePorts
  links : e.links = s.links
  now : e.now = s.now
  stream : ∀ n, e.stream n = (s.oweClears a).stream n
  ended : (e.session a).state = .ended
  refused : (e.audCounter a).refused = (s.audCounter a).refused

namespace ShowEnded
variable (h : ShowEnded s e a)
include h

theorem queue (n : StreamNo) : (e.stream n).queue = (s.stream n).queue := by rw [h.stream, oweClears_queue]

theorem store_eq (b : Aud) : e.store b = s.store b := by rw [State.store, h.stores]; rfl

theorem intake_eq (b : Aud) : e.intake b = s.intake b := by rw [State.intake, h.intakes]; rfl

theorem queuesEmpty_eq : e.queuesEmpty a = s.queuesEmpty a := by simp only [State.queuesEmpty, h.queue]

theorem cueInProgress_eq : e.cueInProgress a = s.cueInProgress a := by rw [State.cueInProgress, h.intake_eq]; rfl

theorem wholeWalk_eq (kind : PurgeKind) (waiting : Bool) : e.wholeWalk a kind waiting = s.wholeWalk a kind waiting :=
  wholeWalk_congr (fun n => by rw [h.queue]) h.now kind waiting

theorem idle : (e.session a).state.isActive = false := by rw [h.ended]; rfl

theorem settled (busy : s.ringsBusy) (f : Store → Store) : (e.onStore a f).settleFills = e.onStore a f := settleFills_still (s := s) h.links busy

/-- The saturation purge with a cue in progress. -/
theorem saturation_removes (busy : s.ringsBusy) (some_ : (s.intake a).context.cue = some c) :
    ∃ t, (e.startPurge a .saturation).settleFills = t ∧ (∀ n, t.stream n = (s.oweClears a).stream n) ∧
      t.intakes = change s.intakes a (fun i => { i with context := i.context.cueGone }) ∧
      (t.audCounter a).refused = bump (s.audCounter a).refused ∧
      (s.cuePort a).gainsReply (t.cuePort a) (.refuse headCode c.seq .brokenCue) ∧
      (t.store a).freeing = (s.store a).freeing ++ [{ cells := 1 + c.heldBodies, tag := .purge }] ∧
      (t.store a).purge = some (s.wholeWalk a .saturation true) := by
  have some' : (e.intake a).context.cue = some c := by rw [h.intake_eq]; exact some_
  obtain ⟨f, removed, gains, -⟩ := removeInProgress_some some'
  have port : e.cuePort a = s.cuePort a := by rw [State.cuePort, h.cuePorts]; rfl
  rw [startPurge_removes rfl (cueInProgress_of_some some'), removed, h.wholeWalk_eq]
  refine ⟨_, settleFills_still (s := s) h.links busy, fun n => h.stream n, ?_, ?_, ?_, ?_, ?_⟩
  · exact congrArg (fun w => change w a (fun i => { i with context := i.context.cueGone })) h.intakes
  · rw [State.onStore_audCounter, State.onIntake_audCounter, State.onPort_audCounter, State.onCounters_audCounter, if_pos rfl]
    exact congrArg bump h.refused
  · have sends : ((e.freeingAsked a (1 + c.heldBodies) .purge).onCounters a (fun x => { x with refused := bump x.refused })).cuePort a = e.cuePort a := rfl
    rw [State.onStore_cuePort, State.onIntake_cuePort, State.onPort_cuePort, if_pos rfl, sends, ← port]
    exact gains
  · rw [← h.store_eq a, State.onStore_store, if_pos rfl, State.onIntake_store, State.onPort_store, State.onCounters_store]
    simp [State.freeingAsked, State.store]
  · rw [State.onStore_store, if_pos rfl]

/-- The saturation purge with no cue in progress changes its auditorium's store alone. -/
theorem saturation_begins (busy : s.ringsBusy) (none_ : s.cueInProgress a = false) (closing : (s.store a).closeWaiting = none) :
    ∃ f : Store → Store, (e.startPurge a .saturation).settleFills = e.onStore a f ∧ (f (s.store a)).freeing = (s.store a).freeing ∧
      (s.queuesEmpty a = false → (f (s.store a)).purge = some (s.wholeWalk a .saturation false)) ∧
      (s.queuesEmpty a = true → (f (s.store a)).purge =
        if (s.store a).freeing = [] then none else some (s.wholeWalk a .saturation true)) := by
  have none' : e.cueInProgress a = false := h.cueInProgress_eq.trans none_
  have settled (f : Store → Store) := h.settled busy f
  cases empty : s.queuesEmpty a with
  | false =>
    refine ⟨_, by rw [startPurge_walks rfl none' (h.queuesEmpty_eq.trans empty), settled], rfl, fun _ => ?_, nofun⟩
    rw [h.wholeWalk_eq]
  | true =>
    by_cases cells : (s.store a).freeing = []
    · have ends := startPurge_ends (kind := .saturation) rfl none' (h.queuesEmpty_eq.trans empty) (by rw [h.store_eq]; exact cells) h.idle
        (by rw [h.store_eq]; exact closing)
      refine ⟨fun st => { st with purge := none, staleWaiting := none, saturationOwed := false }, ?_, rfl, nofun, fun _ => (if_pos cells).symm⟩
      rw [ends]
      exact settled _
    · refine ⟨_, by rw [startPurge_awaits rfl none' (h.queuesEmpty_eq.trans empty) (by rw [h.store_eq]; exact cells), settled], rfl, nofun, fun _ => ?_⟩
      rw [if_neg cells, h.wholeWalk_eq]

end ShowEnded

/-- Entry into ENDED of a state that differs from `s` in its clocks and sessions alone. -/
theorem showEnded_enterEnded (stores : u.stores = s.stores) (intakes : u.intakes = s.intakes) (cuePorts : u.cuePorts = s.cuePorts)
    (links : u.links = s.links) (now : u.now = s.now) (streams : u.streams = s.streams)
    (refused : (u.audCounter a).refused = (s.audCounter a).refused) : ShowEnded s (u.enterEnded a) a := by
  have ended := enterEnded_ended u a
  have stream (n : StreamNo) : (u.enterEnded a).stream n = (s.oweClears a).stream n := by
    rw [enterEnded_stream]
    exact oweClears_congr streams links a n
  rw [State.enterEnded, oweClears_streamsOnly (State.onSession _ _ _) a] at *
  exact ⟨stores, intakes, cuePorts, links, now, stream, ended, refused⟩

theorem completeWindow_rest (s : State) (a : Aud) (hold : Nat) : s.completeWindow a hold = { s with
    clocks := (s.completeWindow a hold).clocks, audCounters := (s.completeWindow a hold).audCounters
    attention := (s.completeWindow a hold).attention } := by
  unfold State.completeWindow
  split
  · rfl
  · dsimp only
    split_ifs <;> rfl

/-- What counting a strobe in its window leaves: all but the clock, the window, a counter and an attention record. -/
theorem countStrobe_rest (s : State) (a : Aud) : s.countStrobe a = { s with
    clocks := (s.countStrobe a).clocks, runs := (s.countStrobe a).runs, audCounters := (s.countStrobe a).audCounters
    attention := (s.countStrobe a).attention } := by
  unfold State.countStrobe
  split
  · rfl
  · split
    · rw [completeWindow_rest]
      rfl
    · rfl

theorem exists_counted {r : Rate} (rate : (s.clock a).rate = some r) :
    ∃ w hold period rejected, Counted s (s.countStrobe a) a w hold period rejected := by
  cases window : (s.showRun a).window with
  | closed => exact ⟨_, _, _, _, counted_closed window⟩
  | opened k start =>
    rcases Nat.lt_or_ge (k + 1) (s.clock a).windowSize with less | full
    · exact ⟨_, _, _, _, counted_counts window less⟩
    · by_cases good : acceptable (estimate (s.since start) (s.clock a).windowSize) r.nominal = true
      · exact ⟨_, _, _, _, counted_accepts window full rate good⟩
      · exact ⟨_, _, _, _, counted_rejects window full rate good⟩

/-- The strobe counted, B advanced and sub released (R4). -/
def State.strobed (s : State) (a : Aud) : State :=
  ((s.countStrobe a).onClock a (fun c => { c.advance with ref := s.now })).onRun a (fun r => { r with subFrozen := false, strobedAt := some s.now })

/-- A strobe at a position it saturates (R4, R37). -/
theorem strobed_saturates {r : Rate} (running : (s.session a).state = .running) (rate : (s.clock a).rate = some r)
    (saturates : 43199999 ≤ (s.clock a).base + r.tpf) : (s.strobed a).saturated a = true := by
  obtain ⟨w, hold, period, rejected, counted⟩ := exists_counted rate
  have clock := counted.clock_
  have session := counted.session_
  have last : min ((s.clock a).base + r.tpf) Config.maxPosition = Config.maxPosition := Nat.min_eq_right saturates
  have tpf : ((s.countStrobe a).clock a).tpf = r.tpf := by rw [clock]; exact tpf_of_rate rate
  have base : ((s.countStrobe a).clock a).base = (s.clock a).base := by rw [clock]
  simp [State.saturated, State.position, State.strobed, session, running, AudState.isActive, Clock.position, Clock.advance, tpf, base, last]

/-- A saturated strobe with every cue QUEUED ends the show (R37, R38). -/
theorem strobe_saturated {r : Rate} (running : (s.session a).state = .running) (rate : (s.clock a).rate = some r)
    (saturates : 43199999 ≤ (s.clock a).base + r.tpf) (queued : ∀ k, ∀ c ∈ (s.stream (streamOf a k)).queue, c.life = .queued) :
    exec (.strobe a) s = .next (((s.strobed a).saturatePosition a).settleFills) := by
  have strobe : exec (.strobe a) s = .next (((s.strobed a).positionChanged a).settleFills) := by
    rw [exec_strobe_eq, execStrobe, running]
    rfl
  have stream (m : StreamNo) : (s.strobed a).stream m = s.stream m := by
    rw [State.strobed, countStrobe_rest]
    rfl
  have ends : (s.strobed a).endByPosition a = s.strobed a := by
    refine endByPosition_queued fun n same d mem => ?_
    rw [stream, ← (streamOf_eq_iff a (slotOfStream n) n).mpr ⟨same, rfl⟩] at mem
    exact queued _ d mem
  rw [strobe, State.positionChanged, ends]
  exact congrArg (fun v : State => Host.Outcome.next v.settleFills) (if_pos (strobed_saturates running rate saturates))

theorem strobed_showEnded {r : Rate} (rate : (s.clock a).rate = some r) : ShowEnded s ((s.strobed a).enterEnded a) a := by
  obtain ⟨w, hold, period, rejected, counted⟩ := exists_counted rate
  have refused : ((s.strobed a).audCounter a).refused = (s.audCounter a).refused := by
    rw [State.strobed, State.onRun_audCounter, State.onClock_audCounter, counted.counters_]
  have rest := countStrobe_rest s a
  refine showEnded_enterEnded ?_ ?_ ?_ ?_ ?_ ?_ refused <;> rw [State.strobed, rest] <;> rfl

/-- The saturation purge's own work after the show has ended (R37). -/
theorem saturatePosition_works (u : State) (a : Aud) : Worked none (u.enterEnded a) ((u.saturatePosition a).settleFills) := by
  rw [State.saturatePosition]
  split
  · exact (Worked.refl.store a _ (by intro; exact ⟨rfl, rfl⟩)).settleFills
  · exact (Worked.refl.startPurge a _).settleFills

/-- A saturated strobe begins the saturation purge, or owes it to the purge that runs. -/
theorem strobe_ends_show {r : Rate} (running : (s.session a).state = .running) (rate : (s.clock a).rate = some r)
    (saturates : 43199999 ≤ (s.clock a).base + r.tpf) (busy : s.ringsBusy)
    (queued : ∀ k, ∀ c ∈ (s.stream (streamOf a k)).queue, c.life = .queued)
    (alone : s.cueInProgress a = false → (s.store a).closeWaiting = none) :
    ∃ t, exec (.strobe a) s = .next t ∧ (t.session a).state = .ended ∧ t.raised a kindEnded ∧
      (∀ n, t.stream n = (s.oweClears a).stream n) ∧
      (∀ p, (s.store a).purge = some p → t.stores = change s.stores a (fun st => { st with saturationOwed := true }) ∧
        t.intakes = s.intakes) ∧
      ((s.store a).purge = none →
        (s.cueInProgress a = false → t.intakes = s.intakes ∧ t.cuePorts = s.cuePorts ∧ (t.store a).freeing = (s.store a).freeing ∧
          (s.queuesEmpty a = false → (t.store a).purge = some (s.wholeWalk a .saturation false)) ∧
          (s.queuesEmpty a = true → (t.store a).purge =
            if (s.store a).freeing = [] then none else some (s.wholeWalk a .saturation true))) ∧
        (∀ c, (s.intake a).context.cue = some c →
          t.intakes = change s.intakes a (fun i => { i with context := i.context.cueGone }) ∧
          (t.audCounter a).refused = bump (s.audCounter a).refused ∧
          (s.cuePort a).gainsReply (t.cuePort a) (.refuse headCode c.seq .brokenCue) ∧
          (t.store a).freeing = (s.store a).freeing ++ [{ cells := 1 + c.heldBodies, tag := .purge }] ∧
          (t.store a).purge = some (s.wholeWalk a .saturation true))) := by
  have ended := strobed_showEnded (a := a) rate
  obtain ⟨state, raised⟩ := (saturatePosition_works (s.strobed a) a).endedRaised
  refine ⟨_, strobe_saturated running rate saturates queued, state, raised, ?_⟩
  rw [State.saturatePosition]
  generalize (s.strobed a).enterEnded a = e at ended
  cases purge : (s.store a).purge with
  | some p =>
    rw [if_pos (by rw [ended.store_eq, purge]; rfl), ended.settled busy]
    refine ⟨fun n => ended.stream n, fun p _ => ⟨?_, ended.intakes⟩, nofun⟩
    exact congrArg (fun w => change w a (fun st => { st with saturationOwed := true })) ended.stores
  | none =>
    rw [if_neg (by rw [ended.store_eq, purge]; simp)]
    cases inProgress : (s.intake a).context.cue with
    | some c =>
      obtain ⟨t, t_eq, stream, rows⟩ := ended.saturation_removes busy inProgress
      rw [t_eq]
      refine ⟨stream, nofun, fun _ => ⟨fun none_ => ?_, fun d same => ?_⟩⟩
      · rw [cueInProgress_of_some inProgress] at none_
        cases none_
      · obtain rfl : c = d := Option.some.inj same
        exact rows
    | none =>
      have none_ := cueInProgress_of_none inProgress
      obtain ⟨f, t_eq, freeing, some_, empty⟩ := ended.saturation_begins busy none_ (alone none_)
      rw [t_eq]
      refine ⟨fun n => ended.stream n, nofun, fun _ => ⟨fun _ => ⟨ended.intakes, ended.cuePorts, ?_, ?_, ?_⟩, nofun⟩⟩
      · rw [State.onStore_store, if_pos rfl, ended.store_eq]; exact freeing
      · rw [State.onStore_store, if_pos rfl, ended.store_eq]; exact some_
      · rw [State.onStore_store, if_pos rfl, ended.store_eq]; exact empty

/-- Settles O13: a strobe in RUNNING, at a position it saturates and at any other. -/
theorem strobeRunning : Obligations.StrobeRunning := by
  refine ⟨fun a r s running rate saturates busy queued alone => ?_, fun a r s running rate w hold period rejected window => ?_⟩
  · obtain ⟨t, taken, state, raised, stream, runs, begins⟩ := strobe_ends_show running rate saturates busy queued alone
    refine ⟨t, taken, state, raised, stream, runs, fun purge => ?_⟩
    obtain ⟨free, taken⟩ := begins purge
    refine ⟨free, fun c some_ => ?_⟩
    obtain ⟨intakes, rest⟩ := taken c some_
    exact ⟨intakes, rest⟩
  · exact (counted_of_window r rate w hold period rejected window).strobed running rate

end Sys2Proof.Machine
end

section
/-! PROOFS. What happens in one auditorium leaves another's session, cells, intake, cue port and streams alone; and DISARM (R22, R41, R101). -/

namespace Sys2Proof.Machine

variable {s t u v : State} {a b : Aud} {n : StreamNo} {c : Cue} {p : Port}

/-- Auditorium `a`'s session, cells, intake, cue port, streams and counters are in `t` as in `s`, and so are the management port and the link ports. -/
structure Apart (s t : State) (a : Aud) : Prop where
  session : t.session a = s.session a
  store : t.store a = s.store a
  intake : t.intake a = s.intake a
  port : t.cuePort a = s.cuePort a
  streams : ∀ m, audOfStream m = a → t.stream m = s.stream m
  mgmt : t.mgmt = s.mgmt
  links : t.links = s.links
  counters : t.audCounter a = s.audCounter a

namespace Apart

theorem refl (s : State) (a : Aud) : Apart s s a := ⟨rfl, rfl, rfl, rfl, fun _ _ => rfl, rfl, rfl, rfl⟩

theorem trans (h : Apart s t a) (k : Apart t u a) : Apart s u a :=
  ⟨k.session.trans h.session, k.store.trans h.store, k.intake.trans h.intake, k.port.trans h.port,
    fun m same => (k.streams m same).trans (h.streams m same), k.mgmt.trans h.mgmt,
    k.links.trans h.links, k.counters.trans h.counters⟩

theorem onStore (s : State) (ne : b ≠ a) (f : Store → Store) : Apart s (s.onStore b f) a :=
  ⟨rfl, by rw [State.onStore_store, if_neg ne], rfl, rfl, fun _ _ => rfl, rfl, rfl, rfl⟩

theorem onIntake (s : State) (ne : b ≠ a) (f : Intake → Intake) : Apart s (s.onIntake b f) a :=
  ⟨rfl, rfl, by rw [State.onIntake_intake, if_neg ne], rfl, fun _ _ => rfl, rfl, rfl, rfl⟩

theorem onSession (s : State) (ne : b ≠ a) (f : Session → Session) : Apart s (s.onSession b f) a :=
  ⟨by rw [State.onSession_session, if_neg ne], rfl, rfl, rfl, fun _ _ => rfl, rfl, rfl, rfl⟩

theorem onCounters (s : State) (ne : b ≠ a) (f : AudCounters → AudCounters) : Apart s (s.onCounters b f) a :=
  ⟨rfl, rfl, rfl, rfl, fun _ _ => rfl, rfl, rfl, by rw [State.onCounters_audCounter, if_neg ne]⟩

theorem onRun (s : State) (b a : Aud) (f : ShowRun → ShowRun) : Apart s (s.onRun b f) a := ⟨rfl, rfl, rfl, rfl, fun _ _ => rfl, rfl, rfl, rfl⟩

theorem raiseAud (s : State) (b a : Aud) (k : Byte) : Apart s (s.raiseAud b k) a := ⟨rfl, rfl, rfl, rfl, fun _ _ => rfl, rfl, rfl, rfl⟩

theorem onStream (s : State) (ne : audOfStream n ≠ a) (f : Stream → Stream) : Apart s (s.onStream n f) a :=
  ⟨rfl, rfl, rfl, rfl, fun m same => by rw [State.onStream_stream, if_neg (fun e : n = m => ne (by rw [e]; exact same))], rfl, rfl, rfl⟩

theorem of_streamsOnly (only : s.streamsOnly t) (h : ∀ m, audOfStream m = a → t.stream m = s.stream m) : Apart s t a := by
  refine ⟨?_, ?_, ?_, ?_, h, ?_, ?_, ?_⟩ <;> rw [show t = _ from only] <;> rfl

/-! The operations of another auditorium. -/

theorem oweClears (s : State) (ne : b ≠ a) : Apart s (s.oweClears b) a := by
  refine of_streamsOnly (oweClears_streamsOnly s b) fun m same => ?_
  rw [oweClears_stream, if_neg (by rw [same]; exact ne.symm)]

theorem enterEnded (s : State) (ne : b ≠ a) : Apart s (s.enterEnded b) a := by
  rw [State.enterEnded]
  exact ((((onRun s b a _).trans (onSession _ ne _)).trans (oweClears _ ne)).trans (raiseAud _ b a _))

theorem endTest (s : State) (ne : b ≠ a) : Apart s (s.endTest b) a := by
  rw [State.endTest]
  split
  · exact enterEnded s ne
  · exact refl s a

theorem catchUpWalk (s : State) (ne : b ≠ a) (n : StreamNo) : Apart s (s.catchUpWalk b n) a := by
  unfold State.catchUpWalk
  split
  · split
    · exact onIntake s ne _
    · exact refl s a
  · exact refl s a

theorem freeCue (s : State) (ne : audOfStream n ≠ a) (c : Cue) (tag : FreeTag) : Apart s (s.freeCue n c tag) a := by
  rw [State.freeCue, State.leaveQueue, State.requestFree]
  exact (((catchUpWalk s ne n).trans (onStream _ ne _)).trans (onStore _ ne _)).trans (endTest _ ne)

theorem finishBlock (s : State) (ne : audOfStream n ≠ a) (c : Cue) (skipped : Bool) : Apart s (s.finishBlock n c skipped) a := by
  have counted : Apart s (if skipped then s.onCounters (audOfStream n) (fun k => { k with skip := bump k.skip }) else s) a := by
    split
    · exact onCounters s ne _
    · exact refl s a
  rw [State.finishBlock]
  dsimp only
  split_ifs at counted ⊢
  all_goals
    first
    | exact counted.trans (freeCue _ ne c _)
    | exact (counted.trans (onStream _ ne _)).trans (onStore _ ne _)
    | exact counted.trans (onStream _ ne _)

theorem lookAtBlocks (ne : audOfStream n ≠ a) (seq : Seq) (fuel : Nat) : ∀ s : State, Apart s (State.lookAtBlocks n seq fuel s) a := by
  induction fuel with
  | zero => exact fun s => refl s a
  | succ fuel ih =>
    intro s
    rw [State.lookAtBlocks]
    split
    · exact refl s a
    · split
      · exact refl s a
      · dsimp only
        split
        · have plays := onStream s ne (fun st => { st with queue := changeCue seq (fun x => { x with life := .playing }) st.queue })
          split
          · exact (plays.trans (finishBlock _ ne _ _)).trans (ih _)
          · split
            · exact (((plays.trans (onStream _ ne _)).trans (onCounters _ ne _)).trans (finishBlock _ ne _ _)).trans (ih _)
            · exact (plays.trans (onStream _ ne _)).trans (onStream _ ne _)
        · exact refl s a

theorem settleDue (s : State) (p : Port) (staging : Bool) (ne : audOfStream n ≠ a) (seq : Seq) : Apart s (s.settleDue p staging n seq) a := by
  unfold State.settleDue
  split
  · exact refl s a
  · split
    · exact refl s a
    · dsimp only
      split
      · split
        · split
          · exact onStream s ne _
          · exact (finishBlock s ne _ _).trans (lookAtBlocks ne seq _ _)
        · exact onStream s ne _
      · exact refl s a

end Apart

/-! ### The arbiters and a DARK auditorium (R117, R132) -/

theorem leastBy_mem {α : Type} {f : α → Nat} {l : List α} {x : α} (h : leastBy f l = some x) : x ∈ l := by
  induction l generalizing x with
  | nil => cases h
  | cons y rest ih =>
    rw [leastBy] at h
    cases e : leastBy f rest with
    | none =>
      rw [e] at h
      obtain rfl := Option.some.inj h
      exact List.mem_cons_self
    | some z =>
      rw [e] at h
      dsimp only at h
      split at h
      · obtain rfl := Option.some.inj h
        exact List.mem_cons_self
      · obtain rfl := Option.some.inj h
        exact List.mem_cons_of_mem y (ih e)

theorem mem_owing {k : CueKind} {l : Life} {x : StreamNo × Cue} : x ∈ s.owing p k l ↔
    s.lit x.1 = true ∧ x.2 ∈ (s.stream x.1).queue ∧ x.2.kind = k ∧ x.2.life = l ∧ x.2.owedTo p = true := by
  obtain ⟨n, c⟩ := x
  simp only [State.owing, List.mem_flatMap, List.mem_filter, List.mem_map, Prod.mk.injEq, Bool.and_eq_true, beq_iff_eq, streamNos, List.mem_finRange,
    true_and]
  constructor
  · rintro ⟨m, lit, d, ⟨mem, ⟨kind, life⟩, owed⟩, rfl, rfl⟩
    exact ⟨lit, mem, kind, life, owed⟩
  · rintro ⟨lit, mem, kind, life, owed⟩
    exact ⟨n, lit, c, ⟨mem, ⟨kind, life⟩, owed⟩, rfl, rfl⟩

/-- A candidate's stream. -/
def Candidate.stream : Candidate → Option StreamNo
  | .beacon => none
  | .clear n | .item n _ => some n

theorem candidate_lit {x : Candidate} (h : s.candidate p = some x) {n : StreamNo} (named : x.stream = some n) : s.lit n = true := by
  unfold State.candidate at h
  split at h
  · obtain rfl := Option.some.inj h
    cases named
  · split at h
    · next m rest owed =>
      obtain rfl := Option.some.inj h
      obtain rfl := Option.some.inj named
      have mem : m ∈ s.clearsOwedTo p := by rw [owed]; exact List.mem_cons_self
      simp only [State.clearsOwedTo, List.mem_filter, Bool.and_eq_true] at mem
      exact mem.2.1
    · split at h
      · next y least =>
        obtain rfl := Option.some.inj h
        obtain rfl := Option.some.inj named
        exact (mem_owing.mp (leastBy_mem least)).1
      · split at h
        · next y least =>
          obtain rfl := Option.some.inj h
          obtain rfl := Option.some.inj named
          exact (mem_owing.mp (leastBy_mem least)).1
        · cases h

/-- A DARK auditorium as the arbiters leave it: nothing of it changes, and no frame of it is formed. -/
structure DarkStands (s t : State) (a : Aud) : Prop where
  session : t.session a = s.session a
  store : t.store a = s.store a
  intake : t.intake a = s.intake a
  port : t.cuePort a = s.cuePort a
  streams : ∀ m, audOfStream m = a → t.stream m = s.stream m
  mgmt : t.mgmt = s.mgmt
  counters : t.audCounter a = s.audCounter a
  frames : ∀ p b, (pick (t.link p).buffers b).tornDown a = true → (pick (s.link p).buffers b).tornDown a = true

theorem DarkStands.refl (s : State) (a : Aud) : DarkStands s s a := ⟨rfl, rfl, rfl, rfl, fun _ _ => rfl, rfl, rfl, fun _ _ h => h⟩

theorem DarkStands.trans (h : DarkStands s t a) (k : DarkStands t u a) : DarkStands s u a :=
  ⟨k.session.trans h.session, k.store.trans h.store, k.intake.trans h.intake, k.port.trans h.port,
    fun m same => (k.streams m same).trans (h.streams m same), k.mgmt.trans h.mgmt, k.counters.trans h.counters,
    fun p b torn => h.frames p b (k.frames p b torn)⟩

theorem Apart.darkStands (h : Apart s t a) : DarkStands s t a :=
  ⟨h.session, h.store, h.intake, h.port, h.streams, h.mgmt, h.counters, fun p b torn => by rwa [State.link, h.links] at torn⟩

/-- A change of one port's frames that adds none of the auditorium's. -/
theorem DarkStands.onLink (s : State) (p : Port) (a : Aud) (f : LinkPort → LinkPort)
    (h : ∀ b, (pick (f (s.link p)).buffers b).tornDown a = true → (pick (s.link p).buffers b).tornDown a = true) : DarkStands s (s.onLink p f) a := by
  refine ⟨rfl, rfl, rfl, rfl, fun _ _ => rfl, rfl, rfl, fun q b torn => ?_⟩
  rw [State.onLink_link] at torn
  split at torn
  · next e =>
    subst e
    exact h b torn
  · exact torn

theorem DarkStands.startFill (s : State) (p : Port) (b : BufNo) {f : Frame} (h : f.isOf a = false) : DarkStands s (s.startFill p b f) a := by
  refine .onLink s p a _ fun x torn => ?_
  simp only [LinkPort.setBuffer, pick_change] at torn
  split at torn
  · rw [show Buffer.tornDown (.filling f _) a = f.isOf a from rfl, h] at torn
    cases torn
  · exact torn

/-- A fill leaves a DARK auditorium as it is. -/
theorem DarkStands.fill (dark : (s.session a).state = .dark) (p : Port) : DarkStands s (s.fill p) a := by
  have elsewhere {n : StreamNo} (lit : s.lit n = true) : audOfStream n ≠ a := by
    rintro rfl
    simp [State.lit, dark] at lit
  unfold State.fill
  split
  · exact (DarkStands.startFill s p _ rfl).trans (.onLink _ p a _ fun b torn => torn)
  · next b n empty cand =>
    have ne := elsewhere (candidate_lit cand rfl)
    refine (DarkStands.startFill s p _ ?_).trans (Apart.onStream _ ne _).darkStands
    simpa [State.clearFrame, Frame.isOf] using ne
  · next b n seq empty cand =>
    have ne := elsewhere (candidate_lit cand rfl)
    split
    · exact .refl s a
    · split
      · exact .refl s a
      · next c found _ d due =>
        have started : DarkStands s (s.startFill p b (s.itemFrame p n c d)) a := by
          refine DarkStands.startFill s p _ ?_
          unfold State.itemFrame
          split <;> simpa [Frame.isOf] using ne
        dsimp only
        split
        · exact (started.trans (Apart.onCounters _ ne _).darkStands).trans (Apart.settleDue _ p true ne seq).darkStands
        · exact started.trans (Apart.settleDue _ p true ne seq).darkStands
  · exact .refl s a

theorem DarkStands.settleFills (s : State) (dark : (s.session a).state = .dark) : DarkStands s s.settleFills a := by
  have rounds (fuel : Nat) : ∀ s : State, (s.session a).state = .dark → DarkStands s (State.settleFillsFuel fuel s) a := by
    induction fuel with
    | zero => exact fun s _ => .refl s a
    | succ fuel ih =>
      intro s dark
      rw [State.settleFillsFuel]
      split
      · exact .refl s a
      · next p _ =>
        have drawn : DarkStands s (s.onDraws (· + drawsOf (ports.filter s.mayFill))) a :=
          ⟨rfl, rfl, rfl, rfl, fun _ _ => rfl, rfl, rfl, fun _ _ h => h⟩
        have filled := drawn.trans (DarkStands.fill (by exact dark) p)
        exact filled.trans (ih _ (by rw [filled.session]; exact dark))
  exact rounds 4 s dark

end Sys2Proof.Machine
end

section
/-! PROOFS. DISARM: the session cleared, the rings torn down and the teardown begun (R22, R41, R77, R101). -/

namespace Sys2Proof.Machine

variable {s t u v e : State} {a b : Aud} {n : StreamNo} {c : Cue} {p q : Port}

/-! ### The rings torn down (R101, R134) -/

/-- The buffers of a port that hold a READY or FILLING frame of the auditorium. -/
def LinkPort.tornBuffers (l : LinkPort) (a : Aud) : List BufNo := bufNos.filter (fun b => (pick l.buffers b).tornDown a)

theorem emptyOut_buffers (bs : List BufNo) (l : LinkPort) (x : BufNo) :
    pick (bs.foldl LinkPort.emptyOut l).buffers x = if x ∈ bs then .empty else pick l.buffers x := by
  induction bs generalizing l with
  | nil => rfl
  | cons y bs ih =>
    rw [List.foldl_cons, ih]
    simp only [LinkPort.emptyOut, LinkPort.setBuffer, pick_change, List.mem_cons]
    by_cases mem : x ∈ bs
    · simp [mem]
    · by_cases e : y = x
      · simp [e]
      · simp [mem, e, Ne.symm e]

theorem tearRing_link (s : State) (a : Aud) (p q : Port) :
    (s.tearRing a p).link q = if p = q then ((s.link q).tornBuffers a).foldl LinkPort.emptyOut (s.link q) else s.link q := by
  rw [State.tearRing, State.onLinkCounters_link, State.onLink_link]
  split
  · next e => rw [e]; rfl
  · rfl

theorem tearRing_linkCounter (s : State) (a : Aud) (p q : Port) : (s.tearRing a p).linkCounter q = if p = q then
      { s.linkCounter q with discarded := bumpBy ((s.link q).tornBuffers a).length (s.linkCounter q).discarded } else s.linkCounter q := by
  rw [State.tearRing, State.onLinkCounters_linkCounter]
  split
  · next e => rw [e]; rfl
  · rfl

/-- The rings of the ports torn down one after another. -/
theorem tearRings_rows (a : Aud) (q : Port) (ps : List Port) (nodup : ps.Nodup) : ∀ s : State,
    (ps.foldl (State.tearRing a) s).link q = (if q ∈ ps then ((s.link q).tornBuffers a).foldl LinkPort.emptyOut (s.link q) else s.link q) ∧
    (ps.foldl (State.tearRing a) s).linkCounter q = if q ∈ ps then
      { s.linkCounter q with discarded := bumpBy ((s.link q).tornBuffers a).length (s.linkCounter q).discarded } else s.linkCounter q := by
  induction ps with
  | nil => exact fun s => ⟨rfl, rfl⟩
  | cons p ps ih =>
    intro s
    obtain ⟨fresh, nodup⟩ := List.nodup_cons.mp nodup
    obtain ⟨link, counter⟩ := ih nodup (s.tearRing a p)
    rw [List.foldl_cons, link, counter, tearRing_link, tearRing_linkCounter]
    by_cases e : p = q
    · subst e
      simp [fresh]
    · simp [e, Ne.symm e]

theorem tearRings_rest (a : Aud) (ps : List Port) : ∀ s : State, ps.foldl (State.tearRing a) s = { s with
    links := (ps.foldl (State.tearRing a) s).links, linkCounters := (ps.foldl (State.tearRing a) s).linkCounters } := by
  induction ps with
  | nil => exact fun s => rfl
  | cons p ps ih =>
    intro s
    rw [List.foldl_cons]
    exact ih (s.tearRing a p)

/-- The four rings torn down. -/
def State.ringsTorn (s : State) (a : Aud) : State := ports.foldl (State.tearRing a) s

theorem ringsTorn_link (s : State) (a : Aud) (q : Port) :
    (s.ringsTorn a).link q = ((s.link q).tornBuffers a).foldl LinkPort.emptyOut (s.link q) := by
  rw [State.ringsTorn, (tearRings_rows a q ports (List.nodup_finRange 4) s).1, if_pos (show q ∈ ports from List.mem_finRange q)]

theorem ringsTorn_linkCounter (s : State) (a : Aud) (q : Port) : (s.ringsTorn a).linkCounter q =
    { s.linkCounter q with discarded := bumpBy ((s.link q).tornBuffers a).length (s.linkCounter q).discarded } := by
  rw [State.ringsTorn, (tearRings_rows a q ports (List.nodup_finRange 4) s).2, if_pos (show q ∈ ports from List.mem_finRange q)]

theorem ringsTorn_rest (s : State) (a : Aud) : s.ringsTorn a = { s with
    links := (s.ringsTorn a).links, linkCounters := (s.ringsTorn a).linkCounters } := tearRings_rest a ports s

theorem ringsTorn_buffer (s : State) (a : Aud) (q : Port) (x : BufNo) : pick ((s.ringsTorn a).link q).buffers x =
    if (pick (s.link q).buffers x).tornDown a = true then .empty else pick (s.link q).buffers x := by
  rw [ringsTorn_link, emptyOut_buffers]
  simp only [LinkPort.tornBuffers, List.mem_filter, bufNos, List.mem_finRange, true_and]

theorem ringsTorn_none (s : State) (a : Aud) (q : Port) (x : BufNo) : (pick ((s.ringsTorn a).link q).buffers x).tornDown a = false := by
  rw [ringsTorn_buffer]
  split
  · rfl
  · next h => simpa using h

theorem ringsTorn_sending (s : State) (a : Aud) (q : Port) (x : BufNo) (f : Frame) :
    pick ((s.ringsTorn a).link q).buffers x = .sending f ↔ pick (s.link q).buffers x = .sending f := by
  rw [ringsTorn_buffer]
  split
  · next torn =>
    refine ⟨nofun, fun sends => ?_⟩
    rw [sends] at torn
    cases torn
  · rfl

/-! ### The session cleared (R22, R41) -/

/-- No clear is owed on the streams of some slots. -/
def State.unclear (a : Aud) (t : State) (k : Slot) : State := t.onStream (streamOf a k) (fun st => { st with clearOwed := [] })

theorem unclear_fold (a : Aud) (m : StreamNo) (l : List Slot) : ∀ s : State, (l.foldl (State.unclear a) s).stream m =
    if ∃ k ∈ l, streamOf a k = m then { s.stream m with clearOwed := [] } else s.stream m := by
  induction l with
  | nil => intro s; simp
  | cons k l ih =>
    intro s
    rw [List.foldl_cons, ih, State.unclear, State.onStream_stream]
    by_cases here : streamOf a k = m
    · simp [here]
    · simp [here]

theorem unclear_streamsOnly (a : Aud) (l : List Slot) (s : State) : s.streamsOnly (l.foldl (State.unclear a) s) :=
  streamsOnly_foldl (f := State.unclear a) (fun _ _ => rfl) l s

/-- What DISARM clears of the session: the clock, the run part, the session, the clears owed and two marks of the store. -/
theorem clearSession_rest (s : State) (a : Aud) : s.clearSession a = { s with
    clocks := change s.clocks a (fun c => { c with rate := none, period := 0, lastHold := 0, base := 0, sub := 0 })
    runs := change s.runs a (fun _ => { window := .closed, subFrozen := true, pauseStart := none, pauseHold := 0, staleMark := false })
    sessions := change s.sessions a (fun x => { x with state := .dark, ending := false })
    streams := (s.clearSession a).streams
    stores := change s.stores a (fun st => { st with saturationOwed := false, staleWaiting := none }) } := by
  have only := unclear_streamsOnly a slots (((s.onClock a (fun c => { c with rate := none, period := 0, lastHold := 0, base := 0, sub := 0 })).onRun a
    (fun _ => { window := .closed, subFrozen := true, pauseStart := none, pauseHold := 0, staleMark := false })).onSession a
      (fun x => { x with state := .dark, ending := false }))
  have eq : s.clearSession a = (slots.foldl (State.unclear a) (((s.onClock a (fun c =>
      { c with rate := none, period := 0, lastHold := 0, base := 0, sub := 0 })).onRun a
    (fun _ => { window := .closed, subFrozen := true, pauseStart := none, pauseHold := 0, staleMark := false })).onSession a
      (fun x => { x with state := .dark, ending := false }))).onStore a (fun st => { st with saturationOwed := false, staleWaiting := none }) := rfl
  rw [eq]
  generalize slots.foldl (State.unclear a) _ = w at only
  rw [show w = _ from only]
  rfl

theorem clearSession_stream (s : State) (a : Aud) (m : StreamNo) :
    (s.clearSession a).stream m = if audOfStream m = a then { s.stream m with clearOwed := [] } else s.stream m := by
  have mine : (∃ k ∈ slots, streamOf a k = m) ↔ audOfStream m = a := by
    simp only [streamOf_eq_iff, slots, List.mem_finRange, true_and, exists_and_left, exists_eq', and_true]
  have folded := unclear_fold a m slots (((s.onClock a (fun c => { c with rate := none, period := 0, lastHold := 0, base := 0, sub := 0 })).onRun a
    (fun _ => { window := .closed, subFrozen := true, pauseStart := none, pauseHold := 0, staleMark := false })).onSession a
      (fun x => { x with state := .dark, ending := false }))
  simp only [mine] at folded
  exact folded

/-- What flow control makes of its own port is asked of that port, the session, the cells and the time alone (R54, R55). -/
theorem flow_congr (port : u.cuePort a = v.cuePort a) (session : u.session a = v.session a) (quota : (u.store a).quota = (v.store a).quota)
    (used : (u.store a).used = (v.store a).used) (now : u.now = v.now) : (u.flow a).cuePort a = (v.flow a).cuePort a := by
  have resume : u.mayResume a = v.mayResume a := by simp only [State.mayResume, port, session, quota, used]
  have queue : u.queueCause a = v.queueCause a := by simp only [State.queueCause, port]
  have cells : u.quotaCause a = v.quotaCause a := by simp only [State.quotaCause, session, quota, used]
  have placed (f : FlowReply) (o : Bool) : u.flowPlaced f o (v.cuePort a) = v.flowPlaced f o (v.cuePort a) := by
    simp only [State.flowPlaced, now]
  simp only [State.flow, transmit_flowPlaced, port, resume, queue, cells]
  split_ifs <;> simp [port, placed]

/-- The part with the session cleared, flow control evaluated in DARK and the rings torn down: DISARM up to its teardown. -/
def State.disarmed (s : State) (a : Aud) : State :=
  (State.flow (State.clearSession { s with mgmt := { transport := .working (.disarm a), out := [1] } } a) a).ringsTorn a

/-- What DISARM leaves before its teardown. -/
structure Disarmed (s x : State) (a : Aud) : Prop where
  tables : s.tablesStand x
  others : ∀ b, b ≠ a → x.clock b = s.clock b ∧ x.session b = s.session b ∧ x.showRun b = s.showRun b ∧
    (x.cuePort b).lineSide = (s.cuePort b).lineSide ∧ (x.audCounter b).own = (s.audCounter b).own ∧
    (x.store b).quota = (s.store b).quota ∧ (x.store b).used = (s.store b).used ∧ x.audRecord b = s.audRecord b
  clock : x.clock a = { s.clock a with rate := none, period := 0, lastHold := 0, base := 0, sub := 0 }
  run : x.showRun a = { window := .closed, subFrozen := true, pauseStart := none, pauseHold := 0, staleMark := false, strobedAt := none }
  session : x.session a = { s.session a with state := .dark, ending := false }
  counters : x.audCounter a = s.audCounter a
  store : x.store a = { s.store a with saturationOwed := false, staleWaiting := none }
  intake : x.intake a = s.intake a
  port : x.cuePort a = ((s.onSession a (fun y => { y with state := .dark, ending := false })).flow a).cuePort a
  streams : ∀ m, audOfStream m = a → x.stream m = { s.stream m with clearOwed := [] }
  queues : ∀ m, (x.stream m).queue = (s.stream m).queue
  torn : ∀ q b, (pick (x.link q).buffers b).tornDown a = false
  sending : ∀ q b f, pick (x.link q).buffers b = .sending f ↔ pick (s.link q).buffers b = .sending f
  linkCounter : ∀ q, x.linkCounter q =
    { s.linkCounter q with discarded := bumpBy ((s.link q).tornBuffers a).length (s.linkCounter q).discarded }
  mgmt : x.mgmt = { transport := .working (.disarm a), out := [1] }

theorem disarmed_rows (s : State) (a : Aud) : Disarmed s (s.disarmed a) a := by
  obtain ⟨w, w_eq⟩ : ∃ w, w = State.clearSession { s with mgmt := { transport := .working (.disarm a), out := [1] } } a := ⟨_, rfl⟩
  have stream (m : StreamNo) : w.stream m = if audOfStream m = a then { s.stream m with clearOwed := [] } else s.stream m := by
    rw [w_eq, clearSession_stream]
    rfl
  have w_rest := clearSession_rest { s with mgmt := { transport := .working (.disarm a), out := [1] } } a
  rw [← w_eq] at w_rest
  have session (b : Aud) : w.session b = if b = a then { s.session b with state := .dark, ending := false } else s.session b := by
    rw [State.session, w_rest]
    simp only [pick_change, eq_comm]
    rfl
  have store (b : Aud) : w.store b = if b = a then { s.store b with saturationOwed := false, staleWaiting := none } else s.store b := by
    rw [State.store, w_rest]
    simp only [pick_change, eq_comm]
    rfl
  have clock (b : Aud) : w.clock b = if b = a then { s.clock b with rate := none, period := 0, lastHold := 0, base := 0, sub := 0 }
      else s.clock b := by
    rw [State.clock, w_rest]
    simp only [pick_change, eq_comm]
    rfl
  have run (b : Aud) : w.showRun b = if b = a then
      { window := .closed, subFrozen := true, pauseStart := none, pauseHold := 0, staleMark := false, strobedAt := none } else s.showRun b := by
    rw [State.showRun, w_rest]
    simp only [pick_change, eq_comm]
    rfl
  have w_port (b : Aud) : w.cuePort b = s.cuePort b := by
    rw [State.cuePort, w_rest]
    rfl
  have port : (w.flow a).cuePort a = ((s.onSession a (fun y => { y with state := .dark, ending := false })).flow a).cuePort a := by
    refine flow_congr (w_port a) ?_ ?_ ?_ (by rw [w_rest]; rfl)
    · rw [session, if_pos rfl, State.onSession_session, if_pos rfl]
    · rw [store, if_pos rfl]; rfl
    · rw [store, if_pos rfl]; rfl
  obtain ⟨rest, others, -⟩ := (flow_hushed w a).1
  have torn := ringsTorn_rest (w.flow a) a
  have disarmed : s.disarmed a = (w.flow a).ringsTorn a := by rw [State.disarmed, w_eq]
  rw [disarmed]
  have links (q : Port) : (w.flow a).link q = s.link q := by
    rw [State.link, rest, w_rest]
    rfl
  have linkCounters (q : Port) : (w.flow a).linkCounter q = s.linkCounter q := by
    rw [State.linkCounter, rest, w_rest]
    rfl
  have attention : ((w.flow a).ringsTorn a).attention.deviceWide = s.attention.deviceWide := by
    rw [torn, rest, w_rest]
    rfl
  have streams (m : StreamNo) : ((w.flow a).ringsTorn a).stream m = w.stream m := by
    rw [State.stream, torn, rest]
    rfl
  have tables : s.tablesStand ((w.flow a).ringsTorn a) := by
    refine ⟨?_, ?_, ?_, ?_, ?_, ?_, ?_, attention⟩ <;> rw [torn, rest, w_rest]
  have same (m : StreamNo) : (w.stream m).queue = (s.stream m).queue := by
    rw [stream]
    split <;> rfl
  constructor
  case tables => exact tables
  case others =>
    intro b ne
    refine ⟨?_, ?_, ?_, ?_, ?_, ?_, ?_, ?_⟩
    · rw [State.clock, torn, rest]; exact (clock b).trans (if_neg ne)
    · rw [State.session, torn, rest]; exact (session b).trans (if_neg ne)
    · rw [State.showRun, torn, rest]; exact (run b).trans (if_neg ne)
    · rw [State.cuePort, torn]; exact congrArg CuePort.lineSide ((others b ne).1.trans (w_port b))
    · rw [State.audCounter, torn, rest, w_rest]; rfl
    · rw [State.store, torn, rest]; exact congrArg Store.quota ((store b).trans (if_neg ne))
    · rw [State.store, torn, rest]; exact congrArg Store.used ((store b).trans (if_neg ne))
    · rw [State.audRecord, torn]
      refine (others b ne).2.trans ?_
      rw [State.audRecord, w_rest]
      rfl
  case clock => rw [State.clock, torn, rest]; exact (clock a).trans (if_pos rfl)
  case run => rw [State.showRun, torn, rest]; exact (run a).trans (if_pos rfl)
  case session => rw [State.session, torn, rest]; exact (session a).trans (if_pos rfl)
  case counters => rw [State.audCounter, torn, rest, w_rest]; rfl
  case store => rw [State.store, torn, rest]; exact (store a).trans (if_pos rfl)
  case intake => rw [State.intake, torn, rest, w_rest]; rfl
  case port => rw [State.cuePort, torn]; exact port
  case streams =>
    intro m same
    rw [streams, stream, if_pos same]
  case queues =>
    intro m
    rw [streams, same]
  case torn => exact fun q b => ringsTorn_none (w.flow a) a q b
  case sending =>
    intro q b f
    rw [ringsTorn_sending, links]
  case linkCounter =>
    intro q
    rw [ringsTorn_linkCounter, links, linkCounters]
  case mgmt => rw [torn, rest, w_rest]

/-! ### The teardown begun (R101) -/

/-- What a teardown that has begun leaves of a part without a cue in progress. -/
structure TeardownBegun (x y : State) (a : Aud) : Prop where
  session : y.session a = x.session a
  intake : y.intake a = x.intake a
  port : y.cuePort a = x.cuePort a
  links : y.links = x.links
  freeing : (y.store a).freeing = (x.store a).freeing
  owed : (y.store a).saturationOwed = false
  stale : (y.store a).staleWaiting = none
  streams : (x.store a).closeWaiting = none → ∀ m, y.stream m = x.stream m
  walks : x.queuesEmpty a = false ∨ (x.store a).freeing ≠ [] →
    y.mgmt = x.mgmt ∧ (y.store a).purge = some (x.wholeWalk a .teardown (x.queuesEmpty a))
  ends : (x.store a).closeWaiting = none → x.queuesEmpty a = true → (x.store a).freeing = [] →
    (y.store a).purge = none ∧ y.mgmt = (x.finishWork (.disarm a)).mgmt

/-- A CLOSE-STREAM that waited follows the purge that ends. -/
theorem startPurge_ends_closes {x : State} {k : Slot} (none_ : x.cueInProgress a = false) (empty : x.queuesEmpty a = true)
    (cells : (x.store a).freeing = []) (idle : (x.session a).state.isActive = false) (owed : (x.store a).saturationOwed = false)
    (closing : (x.store a).closeWaiting = some k) : x.startPurge a .teardown =
      ((x.onStore a (fun st => { st with purge := none, staleWaiting := none, closeWaiting := none })).purgeClosed a .teardown).purgeClosed a (.close k) := by
  have store (kind : PurgeKind) (v : State) (f : Store → Store) : ((v.onStore a f).purgeClosed a kind).store a = f (v.store a) := by
    rw [purgeClosed_frame]
    exact (State.onStore_store ..).trans (if_pos rfl)
  obtain ⟨w, w_eq⟩ : ∃ w, w = (x.onStore a (fun st => { st with purge := none, staleWaiting := none, closeWaiting := none })).purgeClosed a .teardown :=
    ⟨_, rfl⟩
  have w_store : w.store a = { x.store a with purge := none, staleWaiting := none, closeWaiting := none } := by rw [w_eq, store]
  have w_idle : (w.session a).state.isActive = false := by
    rw [w_eq, purgeClosed_frame]
    exact idle
  have w_queue : w.walkOf a k = [] := by
    rw [State.walkOf, w_eq, purgeClosed_queue, State.onStore_stream, (queuesEmpty_iff x a).mp empty _ (audOfStream_streamOf' a k)]
    rfl
  have begun : ((x.onStore a (fun st => { st with purge := none, staleWaiting := none })).purgeClosed a .teardown).nextPurge a =
      w.onStore a (fun st => { st with purge := some { kind := .close k, todo := [], current := none, stepStart := w.now, waiting := false } }) := by
    rw [State.nextPurge, if_neg (by rw [store]; simp [owed]), store]
    simp only [closing]
    rw [purgeClosed_onStore, onStore_onStore, ← w_eq, State.beginPurge, State.purgeOrder, w_queue]
    rfl
  have again : (w.onStore a (fun st => { st with purge := none, staleWaiting := none })) = w := onStore_self (by rw [w_store])
  have last : (w.purgeClosed a (.close k)).store a = w.store a := by
    rw [purgeClosed_frame]
    rfl
  rw [startPurge_eq, beginPurge_total rfl, removeInProgress_none none_, none_, sixQueues_empty empty,
    runPurge_total_ends (kind := .teardown) (start := x.now) (by rw [State.onStore_store, if_pos rfl]) (by exact idle)
      (by rw [State.onStore_store, if_pos rfl]; exact cells), onStore_onStore, begun,
    runPurge_ends (p := { kind := .close k, todo := [], current := none, stepStart := w.now, waiting := false })
      (by rw [State.onStore_store, if_pos rfl]) rfl rfl rfl nofun, endPurge_idle (by exact w_idle), onStore_onStore, again,
    nextPurge_none (by rw [last, w_store]; exact owed) (by rw [last, w_store]), runPurge_none (by rw [last, w_store]), w_eq]

/-- The session, the intake, the cue port and the link ports stand. -/
def TeardownRest (x y : State) (a : Aud) : Prop :=
  y.session a = x.session a ∧ y.intake a = x.intake a ∧ y.cuePort a = x.cuePort a ∧ y.links = x.links

theorem teardownRest_onStore (x : State) (a : Aud) (f : Store → Store) : TeardownRest x (x.onStore a f) a := ⟨rfl, rfl, rfl, rfl⟩

theorem TeardownRest.purgeClosed {x y : State} (h : TeardownRest x y a) (kind : PurgeKind) : TeardownRest x (y.purgeClosed a kind) a := by
  rw [purgeClosed_frame]
  exact h

theorem teardown_begun {x : State} (none_ : x.cueInProgress a = false) (idle : (x.session a).state.isActive = false)
    (owed : (x.store a).saturationOwed = false) (stale : (x.store a).staleWaiting = none) : TeardownBegun x (x.startPurge a .teardown) a := by
  cases empty : x.queuesEmpty a with
  | false =>
    rw [startPurge_walks rfl none_ empty]
    refine ⟨rfl, rfl, rfl, rfl, ?_, ?_, ?_, fun _ _ => rfl, fun _ => ⟨rfl, ?_⟩, fun _ e => ?_⟩
    · rw [State.onStore_store, if_pos rfl]
    · rw [State.onStore_store, if_pos rfl]; exact owed
    · rw [State.onStore_store, if_pos rfl]; exact stale
    · rw [State.onStore_store, if_pos rfl, empty]
    · rw [empty] at e; cases e
  | true =>
    by_cases cells : (x.store a).freeing = []
    · have store (kind : PurgeKind) (v : State) : (v.purgeClosed a kind).store a = v.store a := by
        rw [purgeClosed_frame]
        rfl
      cases closing : (x.store a).closeWaiting with
      | none =>
        rw [startPurge_ends rfl none_ empty cells idle closing]
        have rows (f : Store → Store) : TeardownRest x ((x.onStore a f).purgeClosed a .teardown) a := (teardownRest_onStore x a f).purgeClosed .teardown
        obtain ⟨session, intake, port, links⟩ := rows (fun st => { st with purge := none, staleWaiting := none, saturationOwed := false })
        refine ⟨session, intake, port, links, ?_, ?_, ?_, fun _ m => ?_, fun h => ?_, fun _ _ _ => ⟨?_, ?_⟩⟩
        · rw [store, State.onStore_store, if_pos rfl]
        · rw [store, State.onStore_store, if_pos rfl]
        · rw [store, State.onStore_store, if_pos rfl]
        · rw [State.purgeClosed, finishWork_frame]; rfl
        · simp [empty, cells] at h
        · rw [store, State.onStore_store, if_pos rfl]
        · rw [State.purgeClosed, ← finishWork_onStore]
          rfl
      | some k =>
        rw [startPurge_ends_closes none_ empty cells idle owed closing]
        obtain ⟨session, intake, port, links⟩ := ((teardownRest_onStore x a (fun st =>
          { st with purge := none, staleWaiting := none, closeWaiting := none })).purgeClosed .teardown).purgeClosed (.close k)
        refine ⟨session, intake, port, links, ?_, ?_, ?_, fun e => absurd (closing.symm.trans e) nofun, fun h => ?_,
          fun e => absurd (closing.symm.trans e) nofun⟩
        · rw [store, store, State.onStore_store, if_pos rfl]
        · rw [store, store, State.onStore_store, if_pos rfl]; exact owed
        · rw [store, store, State.onStore_store, if_pos rfl]
        · simp [empty, cells] at h
    · rw [startPurge_awaits rfl none_ empty cells]
      refine ⟨rfl, rfl, rfl, rfl, ?_, ?_, ?_, fun _ _ => rfl, fun _ => ⟨rfl, ?_⟩, fun _ _ e => absurd e cells⟩
      · rw [State.onStore_store, if_pos rfl]
      · rw [State.onStore_store, if_pos rfl]; exact owed
      · rw [State.onStore_store, if_pos rfl]; exact stale
      · rw [State.onStore_store, if_pos rfl, empty]

/-! ### DISARM -/

theorem exec_disarm (h : s.takesCommands) : exec (.disarm [BitVec.ofNat 8 a.val]) s = .next
    (if (s.session a).state = .dark then s.respond 3 .refusedState []
    else if (s.store a).purge ≠ none then s.respond 3 .busy []
    else ((s.disarmed a).startPurge a .teardown).settleFills) := by
  rw [exec_disarm_eq, execDisarm]
  refine respond_of_write h ?_
  simp only [audOf_ofNat, State.onMgmt_session, State.onMgmt_store, beq_iff_eq, Option.isSome_iff_ne_none]
  split
  · rfl
  · split <;> rfl

/-- A frame torn down is READY or FILLING, and of the auditorium. -/
theorem tornDown_ready {x : Buffer} {f : Frame} (h : x.tornDown a = false) (ready : x = .ready f) : f.isOf a = false := by
  rw [ready] at h
  exact h

theorem tornDown_filling {x : Buffer} {f : Frame} {k : Nat} (h : x.tornDown a = false) (filling : x = .filling f k) : f.isOf a = false := by
  rw [filling] at h
  exact h

/-- What a DISARM that is taken leaves of the part, its teardown begun. -/
theorem disarm_rows (s : State) (a : Aud) (t : State) (t_eq : t = ((s.disarmed a).startPurge a .teardown).settleFills) :
    s.tablesStand t ∧ s.othersStand t a ∧
      t.clock a = { s.clock a with rate := none, period := 0, lastHold := 0, base := 0, sub := 0 } ∧
      t.showRun a = { window := .closed, subFrozen := true, pauseStart := none, pauseHold := 0, staleMark := false, strobedAt := none } ∧
      t.session a = { s.session a with state := .dark, ending := false } ∧
      (t.audCounter a).own = (s.audCounter a).own ∧
      (t.store a).quota = (s.store a).quota ∧ (t.store a).used = (s.store a).used ∧
      (∀ p b f, pick (t.link p).buffers b = .sending f ↔ pick (s.link p).buffers b = .sending f) ∧
      (∀ p, (t.linkCounter p).own = { s.linkCounter p with
        discarded := bumpBy ((List.finRange 3).filter (fun b => (pick (s.link p).buffers b).tornDown a)).length
          (s.linkCounter p).discarded }.own) := by
  have rows := disarmed_rows s a
  have work : Worked none (s.disarmed a) t := t_eq ▸ (Worked.refl.startPurge a .teardown).settleFills
  have dark : ((s.disarmed a).session a).state = .dark := by rw [rows.session]
  obtain ⟨session, run, -⟩ : t.session a = (s.disarmed a).session a ∧ t.showRun a = (s.disarmed a).showRun a ∧ _ :=
    (work.session a).resolve_right fun h => by rw [dark] at h; exact absurd h.1 (by decide)
  refine ⟨work.tablesStand rows.tables, fun b ne => work.audStands nofun rows.tables.1 (rows.others b ne), (work.clock_eq a).trans rows.clock,
    run.trans rows.run, session.trans rows.session, (work.own a).trans (by rw [rows.counters]), ?_, ?_, fun p b f => ?_, fun p => ?_⟩
  · exact (work.cells a).1.trans (by rw [rows.store])
  · exact (work.cells a).2.trans (by rw [rows.store])
  · rw [← rows.sending p b f]
    rcases work.buffer p b with same | ⟨empty, -, g, k, fills⟩
    · rw [same]
    · rw [empty, fills]
      exact ⟨nofun, nofun⟩
  · rw [work.linkOwn, rows.linkCounter]
    rfl

/-- What a teardown leaves that takes the cue in progress first (R77, R101). -/
theorem teardown_removes {x : State} (some_ : (x.intake a).context.cue = some c) :
    (x.startPurge a .teardown).session a = x.session a ∧ (x.startPurge a .teardown).links = x.links ∧
      (∀ m, (x.startPurge a .teardown).stream m = x.stream m) ∧
      (x.startPurge a .teardown).mgmt = x.mgmt ∧
      (x.startPurge a .teardown).intake a = { x.intake a with context := (x.intake a).context.cueGone } ∧
      ((x.startPurge a .teardown).audCounter a).refused = bump (x.audCounter a).refused ∧
      (x.cuePort a).gainsReply ((x.startPurge a .teardown).cuePort a) (.refuse headCode c.seq .brokenCue) ∧
      (x.startPurge a .teardown).store a = { x.store a with
        freeing := (x.store a).freeing ++ [{ cells := 1 + c.heldBodies, tag := .purge }]
        cellStart := if (x.store a).freeing = [] then x.now else (x.store a).cellStart
        purge := some (x.wholeWalk a .teardown true) } := by
  obtain ⟨f, removed, gains, -⟩ := removeInProgress_some some_
  rw [startPurge_removes rfl (cueInProgress_of_some some_), removed]
  have sends : ((x.freeingAsked a (1 + c.heldBodies) .purge).onCounters a (fun y => { y with refused := bump y.refused })).cuePort a = x.cuePort a := rfl
  refine ⟨rfl, rfl, fun m => rfl, rfl, ?_, ?_, ?_, ?_⟩
  · rw [State.onStore_intake, State.onIntake_intake, if_pos rfl]
    rfl
  · rw [State.onStore_audCounter, State.onIntake_audCounter, State.onPort_audCounter, State.onCounters_audCounter, if_pos rfl]
    rfl
  · rw [State.onStore_cuePort, State.onIntake_cuePort, State.onPort_cuePort, if_pos rfl, sends]
    exact gains
  · rw [State.onStore_store, if_pos rfl, State.onIntake_store, State.onPort_store, State.onCounters_store]
    simp [State.freeingAsked, State.store]
    rfl

/-- Settles O53: DISARM clears the session, its frames and clears, takes the cue in progress and begins the teardown. -/
theorem disarmSession : Obligations.DisarmSession := by
  intro a s h
  have taken := exec_disarm (s := s) (a := a) h
  refine ⟨fun dark => by rw [taken, if_pos dark], fun lit busy => by rw [taken, if_neg lit, if_pos busy], fun lit free => ?_⟩
  rw [if_neg lit, if_neg (not_not_intro free)] at taken
  have rows := disarmed_rows s a
  obtain ⟨tables, others, clock, run, session, own, quota, used, sending, linkOwn⟩ := disarm_rows s a _ rfl
  generalize s.disarmed a = x at *
  have dark : (x.session a).state = .dark := by rw [rows.session]
  have idle : (x.session a).state.isActive = false := by rw [dark]; rfl
  have empty : x.queuesEmpty a = s.queuesEmpty a := by simp only [State.queuesEmpty, rows.queues]
  have inProgress : x.cueInProgress a = s.cueInProgress a := by rw [State.cueInProgress, rows.intake]; rfl
  have walk (waiting : Bool) : x.wholeWalk a .teardown waiting = s.wholeWalk a .teardown waiting :=
    wholeWalk_congr (fun m => by rw [rows.queues]) rows.tables.1 _ _
  have frames {y : State} (links : y.links = x.links) (dark : (y.session a).state = .dark) (p : Port) (b : BufNo) :
      (pick (y.settleFills.link p).buffers b).tornDown a = false := by
    rw [Bool.eq_false_iff]
    intro torn
    have before := (DarkStands.settleFills y dark).frames p b torn
    rw [State.link, links] at before
    exact absurd ((rows.torn p b).symm.trans before) nofun
  refine ⟨_, taken, tables, others, clock, run, session, own, quota, used, ?_⟩
  cases inProgress' : (s.intake a).context.cue with
  | some c =>
    have some_ : (x.intake a).context.cue = some c := by rw [rows.intake]; exact inProgress'
    obtain ⟨y_session, y_links, y_stream, y_mgmt, y_intake, y_refused, y_port, y_store⟩ := teardown_removes some_
    have y_dark : ((x.startPurge a .teardown).session a).state = .dark := by rw [y_session]; exact dark
    have stands := DarkStands.settleFills (x.startPurge a .teardown) y_dark
    have busy : s.cueInProgress a = true := cueInProgress_of_some inProgress'
    have store := stands.store.trans y_store
    rw [rows.store] at store
    refine ⟨?_, ?_, fun p b f ready => tornDown_ready (frames y_links y_dark p b) ready,
      fun p b f k fills => tornDown_filling (frames y_links y_dark p b) fills, sending, linkOwn, fun _ k => ?_,
      ⟨fun none_ => absurd (busy.symm.trans none_) nofun, fun d same => ?_⟩, fun _ _ none_ => absurd (busy.symm.trans none_) nofun,
      fun none_ => absurd (busy.symm.trans none_) nofun⟩
    · rw [store]
    · rw [store]
    · rw [stands.streams _ (audOfStream_streamOf' a k), y_stream, rows.streams _ (audOfStream_streamOf' a k)]
    · obtain rfl : c = d := Option.some.inj same
      refine ⟨?_, ?_, ?_, ?_, ?_, ?_⟩
      · rw [stands.intake, y_intake, rows.intake]
        rfl
      · rw [stands.counters, y_refused, rows.counters]
      · rw [stands.port, ← rows.port]
        exact y_port
      · rw [store]
      · rw [store, walk]
      · rw [stands.mgmt, y_mgmt, rows.mgmt]
  | none =>
    have none_ := cueInProgress_of_none inProgress'
    have owed : (x.store a).saturationOwed = false := by rw [rows.store]
    have stale : (x.store a).staleWaiting = none := by rw [rows.store]
    have begun := teardown_begun (inProgress.trans none_) idle owed stale
    have y_dark : ((x.startPurge a .teardown).session a).state = .dark := by rw [begun.session]; exact dark
    have stands := DarkStands.settleFills (x.startPurge a .teardown) y_dark
    refine ⟨?_, ?_, fun p b f ready => tornDown_ready (frames begun.links y_dark p b) ready,
      fun p b f k fills => tornDown_filling (frames begun.links y_dark p b) fills, sending, linkOwn, fun closing k => ?_,
      ⟨fun _ => ⟨?_, ?_, ?_⟩, nofun⟩, fun closing none' _ cells => ?_, fun _ some_ => ?_⟩
    · rw [stands.store, begun.owed]
    · rw [stands.store, begun.stale]
    · have closing : (x.store a).closeWaiting = none := by rw [rows.store]; exact closing none_
      rw [stands.streams _ (audOfStream_streamOf' a k), begun.streams closing, rows.streams _ (audOfStream_streamOf' a k)]
    · rw [stands.intake, begun.intake, rows.intake]
    · rw [stands.port, begun.port, rows.port]
    · rw [stands.store, begun.freeing, rows.store]
    · obtain ⟨ended, done⟩ := begun.ends (by rw [rows.store]; exact closing) (empty.trans none') (by rw [rows.store]; exact cells)
      refine ⟨by rw [stands.store, ended], ?_⟩
      rw [stands.mgmt, done, State.finishWork, if_pos (by rw [rows.mgmt])]
      simp only [State.onMgmt, rows.mgmt]
      rfl
    · obtain ⟨mgmt, purge⟩ := begun.walks (by rw [empty, rows.store]; exact some_)
      refine ⟨by rw [stands.mgmt, mgmt, rows.mgmt], ?_⟩
      rw [stands.store, purge, walk, empty]

end Sys2Proof.Machine
end

section
/-! PROOFS. A fill ended, and the next one (R131 to R134): the candidate a port's arbiter prefers, the frame it forms, and what its staging leaves. -/

namespace Sys2Proof.Machine

variable {s t u v w : State} {n : StreamNo} {c : Cue} {p : Port} {b e : BufNo} {f : Frame} {d : DueRecord} {k : Option Port}

/-! ### The candidate (R132) -/

/-- The first of the least: smaller than all before it, and at most all behind it. -/
theorem leastBy_append {α : Type} {g : α → Nat} {x : α} {before behind : List α} (smaller : ∀ y ∈ before, g x < g y)
    (least : ∀ y ∈ behind, g x ≤ g y) : leastBy g (before ++ x :: behind) = some x := by
  induction before with
  | nil =>
    rw [List.nil_append, leastBy]
    cases rest : leastBy g behind with
    | none => rfl
    | some y => exact if_pos (least y (leastBy_mem rest))
  | cons y before ih =>
    have rest := ih fun z mem => smaller z (List.mem_cons_of_mem y mem)
    have larger : ¬ g y ≤ g x := Nat.not_le.mpr (smaller y List.mem_cons_self)
    simp only [List.cons_append, leastBy, rest, if_neg larger]

theorem leastBy_none {α : Type} {g : α → Nat} {l : List α} (h : leastBy g l = none) : l = [] := by
  cases l with
  | nil => rfl
  | cons x rest =>
    rw [leastBy] at h
    split at h
    · cases h
    · split at h <;> cases h

theorem lit_iff : s.lit n = true ↔ (s.session (audOfStream n)).state ≠ .dark := by simp [State.lit]

theorem owedTo_iff : c.owedTo p = true ↔ ∃ d, c.due = some d ∧ p ∈ d.pending := by
  cases due : c.due <;> simp [Cue.owedTo, Cue.outstanding, due]

theorem mem_owing_iff {kind : CueKind} {life : Life} {x : StreamNo × Cue} : x ∈ s.owing p kind life ↔ s.candidateCue p kind life x.1 x.2 := by
  rw [mem_owing, lit_iff, owedTo_iff, State.candidateCue]

/-- The cues of one stream that owe a port a copy, from the head. -/
def State.owingOn (s : State) (p : Port) (kind : CueKind) (life : Life) (n : StreamNo) : List (StreamNo × Cue) :=
  ((s.stream n).queue.filter fun c => c.kind == kind && c.life == life && c.owedTo p).map fun c => (n, c)

theorem owing_eq (s : State) (p : Port) (kind : CueKind) (life : Life) :
    s.owing p kind life = (streamNos.filter s.lit).flatMap (s.owingOn p kind life) := rfl

theorem owingOn_split {kind : CueKind} {life : Life} {before behind : List Cue} (cand : s.candidateCue p kind life n c)
    (queue : (s.stream n).queue = before ++ c :: behind) :
    ∃ l m, s.owingOn p kind life n = l ++ (n, c) :: m ∧ ∀ x ∈ l, x.1 = n ∧ x.2 ∈ before := by
  obtain ⟨-, -, ofKind, ofLife, owed⟩ := cand
  have fits : (c.kind == kind && c.life == life && c.owedTo p) = true := by simp [ofKind, ofLife, owedTo_iff.mpr owed]
  let owes (c : Cue) : Bool := c.kind == kind && c.life == life && c.owedTo p
  refine ⟨(before.filter owes).map fun c => (n, c), (behind.filter owes).map fun c => (n, c), ?_, ?_⟩
  · rw [State.owingOn, queue, List.filter_append, List.filter_cons, if_pos fits, List.map_append, List.map_cons]
  · intro x mem
    obtain ⟨y, kept, rfl⟩ := List.mem_map.mp mem
    exact ⟨rfl, List.mem_of_mem_filter kept⟩

/-- The cues that owe a port a copy, around one of them: before it those of lower streams and those before it in its queue. -/
theorem owing_split {kind : CueKind} {life : Life} {before behind : List Cue} (cand : s.candidateCue p kind life n c)
    (queue : (s.stream n).queue = before ++ c :: behind) :
    ∃ l m, s.owing p kind life = l ++ (n, c) :: m ∧ ∀ x ∈ l, x.1 < n ∨ x.1 = n ∧ x.2 ∈ before := by
  obtain ⟨lower, upper, split⟩ : ∃ l m, streamNos.filter s.lit = l ++ n :: m :=
    List.append_of_mem (List.mem_filter.mpr ⟨List.mem_finRange n, lit_iff.mpr cand.1⟩)
  have sorted : (streamNos.filter s.lit).Pairwise (· < ·) := (List.pairwise_lt_finRange 96).filter _
  rw [split, List.pairwise_append] at sorted
  obtain ⟨l, m, here, ahead⟩ := owingOn_split cand queue
  refine ⟨lower.flatMap (s.owingOn p kind life) ++ l, m ++ upper.flatMap (s.owingOn p kind life), ?_, fun x mem => ?_⟩
  · rw [owing_eq, split, List.flatMap_append, List.flatMap_cons, here, List.append_assoc, List.append_assoc, List.cons_append]
  · rcases List.mem_append.mp mem with inLower | inQueue
    · obtain ⟨i, isLower, mapped⟩ := List.mem_flatMap.mp inLower
      obtain ⟨y, -, rfl⟩ := List.mem_map.mp mapped
      exact .inl (sorted.2.2 i isLower n List.mem_cons_self)
    · exact .inr (ahead x inQueue)

/-- The cue a port is owed a copy of with the least measure, of those the first by stream number and place in the queue. -/
theorem leastBy_owing {kind : CueKind} {life : Life} {g : Cue → Nat} {before behind : List Cue} (cand : s.candidateCue p kind life n c)
    (queue : (s.stream n).queue = before ++ c :: behind)
    (first : ∀ m x, s.candidateCue p kind life m x → g c < g x ∨ g c = g x ∧ (n < m ∨ n = m ∧ x ∉ before)) :
    leastBy (fun x => g x.2) (s.owing p kind life) = some (n, c) := by
  obtain ⟨l, m, split, lower⟩ := owing_split cand queue
  have measured : ∀ x ∈ l ++ (n, c) :: m, s.candidateCue p kind life x.1 x.2 := fun x mem => mem_owing_iff.mp (by rwa [split])
  rw [split]
  refine leastBy_append (fun x mem => ?_) fun x mem => ?_
  · rcases first x.1 x.2 (measured x (List.mem_append_left _ mem)) with less | ⟨-, above⟩
    · exact less
    · rcases lower x mem with below | ⟨same, inBefore⟩
      · rcases above with above | ⟨same, -⟩
        · exact absurd above (lt_asymm below)
        · exact absurd below (same ▸ lt_irrefl n)
      · rcases above with above | ⟨-, notBefore⟩
        · exact absurd above (same ▸ lt_irrefl _)
        · exact absurd inBefore notBefore
  · rcases first x.1 x.2 (measured x (List.mem_append_right _ (List.mem_cons_of_mem _ mem))) with less | ⟨same, -⟩
    · exact less.le
    · exact same.le

theorem owing_none {kind : CueKind} {life : Life} (no : ∀ n c, ¬ s.candidateCue p kind life n c) : s.owing p kind life = [] :=
  List.eq_nil_iff_forall_not_mem.mpr fun x mem => no x.1 x.2 (mem_owing_iff.mp mem)

theorem mem_clearsOwedTo : n ∈ s.clearsOwedTo p ↔ s.candidateClear p n := by
  simp [State.clearsOwedTo, streamNos, State.candidateClear, lit_iff]

theorem clearsOwedTo_none (no : ∀ n, ¬ s.candidateClear p n) : s.clearsOwedTo p = [] :=
  List.eq_nil_iff_forall_not_mem.mpr fun n mem => no n (mem_clearsOwedTo.mp mem)

theorem candidate_beacon (owed : (s.link p).beaconOwed = true) : s.candidate p = some .beacon := if_pos owed

theorem candidate_clear (notOwed : (s.link p).beaconOwed = false) (cand : s.candidateClear p n) (lowest : ∀ m, m < n → ¬ s.candidateClear p m) :
    s.candidate p = some (.clear n) := by
  have sorted : (s.clearsOwedTo p).Pairwise (· < ·) := (List.pairwise_lt_finRange 96).filter _
  have mem := mem_clearsOwedTo.mpr cand
  cases owed : s.clearsOwedTo p with
  | nil => rw [owed] at mem; cases mem
  | cons m rest =>
    rw [owed] at mem sorted
    have first : m = n := by
      rcases List.mem_cons.mp mem with same | behind
      · exact same.symm
      · exact absurd (mem_clearsOwedTo.mp (by rw [owed]; exact List.mem_cons_self)) (lowest m (List.rel_of_pairwise_cons sorted behind))
    simp [State.candidate, notOwed, owed, first]

theorem candidate_narration (notOwed : (s.link p).beaconOwed = false) (noClear : ∀ n, ¬ s.candidateClear p n)
    (least : leastBy (fun x => x.2.blockStart) (s.owing p .narration .playing) = some (n, c)) : s.candidate p = some (.item n c.seq) := by
  simp [State.candidate, notOwed, clearsOwedTo_none noClear, least]

theorem candidate_caption (notOwed : (s.link p).beaconOwed = false) (noClear : ∀ n, ¬ s.candidateClear p n)
    (noBlock : ∀ n c, ¬ s.candidateCue p .narration .playing n c)
    (least : leastBy (fun x => x.2.start) (s.owing p .caption .due) = some (n, c)) : s.candidate p = some (.item n c.seq) := by
  simp [State.candidate, notOwed, clearsOwedTo_none noClear, owing_none noBlock, least, leastBy]

theorem candidate_none (notOwed : (s.link p).beaconOwed = false) (noClear : ∀ n, ¬ s.candidateClear p n)
    (noBlock : ∀ n c, ¬ s.candidateCue p .narration .playing n c) (noCaption : ∀ n c, ¬ s.candidateCue p .caption .due n c) :
    s.candidate p = none := by
  simp [State.candidate, notOwed, clearsOwedTo_none noClear, owing_none noBlock, owing_none noCaption, leastBy]

/-! ### The frame (R109, R115, R129, R133) -/

theorem filterNumber_eq (lowest : s.lowestFilter p n k) : s.filterNumber p n = k := by
  rw [State.filterNumber, State.acceptingFilters, ports, List.head?_filter]
  cases k with
  | none => exact (find_finRange_none _).mpr fun j => Bool.eq_false_iff.mpr fun h => lowest j ((filterAccepts_iff s p j n).mp h)
  | some k =>
    obtain ⟨takes, first⟩ := lowest
    exact (find_finRange _ _).mpr ⟨(filterAccepts_iff s p k n).mpr takes,
      fun j less => Bool.eq_false_iff.mpr fun h => first j less ((filterAccepts_iff s p j n).mp h)⟩

theorem emptyBuffer_iff (l : LinkPort) (e : BufNo) : l.emptyBuffer = some e ↔ pick l.buffers e = .empty ∧ ∀ c, c < e → pick l.buffers c ≠ .empty := by
  simp [LinkPort.emptyBuffer, bufNos, find_finRange]

theorem emptyBuffer_none (l : LinkPort) : l.emptyBuffer = none ↔ ∀ c, pick l.buffers c ≠ .empty := by
  simp [LinkPort.emptyBuffer, bufNos]

theorem fillingBuffer_none (l : LinkPort) : l.fillingBuffer = none ↔ ∀ c g x, pick l.buffers c ≠ .filling g x := by
  rw [LinkPort.fillingBuffer, bufNos, find_finRange_none]
  refine forall_congr' fun c => ?_
  cases pick l.buffers c <;> simp [Buffer.isFilling]

/-! ### One SERVING port (R131) -/

/-- With a fill begun on the one SERVING port, none can begin. -/
theorem ringsBusy_filling (alone : ∀ q, q ≠ p → (u.link q).state ≠ .serving) (h : w.links = (u.filling p e f).links) : w.ringsBusy := by
  refine ringsBusy_congr h fun q serving => ?_
  by_cases same : p = q
  · subst same
    exact .inl ⟨e, f, u.now + 4 * f.bytes.length, by simp [State.filling, State.link]⟩
  · refine absurd ?_ (alone q (Ne.symm same))
    simpa only [State.filling, State.link, pick_change, if_neg same] using serving

theorem ports_one : ∀ p : Port, ports.filter (fun q => q == p) = [p] := by decide

/-- Where one port may begin a fill and none after it, its fill is all that settling does. -/
theorem settleFills_alone (alone : ∀ q, q ≠ p → (u.link q).state ≠ .serving) (may : u.mayFill p = true) (fill : u.fill p = w)
    (busy : w.ringsBusy) : u.settleFills = w := by
  have onlyOne : ports.filter u.mayFill = [p] := by
    have same : ports.filter u.mayFill = ports.filter (fun q => q == p) := List.filter_congr fun q _ => by
      by_cases at_ : q = p
      · rw [at_, may, beq_self_eq_true]
      · rw [beq_false_of_ne at_]
        exact Bool.eq_false_iff.mpr fun fills => alone q at_ (mayFill_serving fills)
    rw [same]
    exact ports_one p
  have noMore : ports.filter w.mayFill = [] := List.filter_eq_nil_iff.mpr fun q _ => by simp [mayFill_busy (busy q)]
  have first : State.settleFillsFuel 4 u = State.settleFillsFuel 3 (u.fill p) := by rw [State.settleFillsFuel, onlyOne]; rfl
  rw [State.settleFills, first, fill, State.settleFillsFuel, noMore]
  rfl

theorem mayFill_of {x : Candidate} (serving : (u.link p).state = .serving) (idle : ∀ c g x, pick (u.link p).buffers c ≠ .filling g x)
    (empty : (u.link p).emptyBuffer = some e) (cand : u.candidate p = some x) : u.mayFill p = true := by
  simp [State.mayFill, serving, (fillingBuffer_none _).mpr idle, empty, cand]

theorem mayFill_of_none (h : (u.link p).emptyBuffer = none ∨ u.candidate p = none) : u.mayFill p = false := by
  rcases h with h | h <;> simp [State.mayFill, h]

/-! ### What a staging leaves (R106, R108, R114) -/

/-- A copy staged, with ports still outstanding. -/
theorem settleDue_owes (found : s.findCue n c.seq = some c) (due : c.due = some d) (mem : p ∈ d.pending)
    (left : d.pending.filter (fun q => !(q == p)) ≠ []) (staging : Bool) : s.settleDue p staging n c.seq =
      s.onCue n c.seq (fun x => { x with due := some { number := d.number, pending := d.pending.filter (fun q => !(q == p)), staged := d.staged || staging } }) := by
  have more : (d.pending.filter (fun q => !(q == p))).isEmpty = false := by simpa [List.isEmpty_eq_false_iff] using left
  simp only [State.settleDue, found, due, List.contains_iff_mem, mem, if_true, more]
  rfl

/-- The last port's copy of a caption staged. -/
theorem settleDue_onAir (found : s.findCue n c.seq = some c) (due : c.due = some d) (mem : p ∈ d.pending)
    (left : d.pending.filter (fun q => !(q == p)) = []) (kind : c.kind = .caption) (staging : Bool) : s.settleDue p staging n c.seq =
      s.onCue n c.seq (fun x => { x with life := .onAir, due := none, resend := false }) := by
  simp only [State.settleDue, found, due, List.contains_iff_mem, mem, if_true, left, List.isEmpty_nil, kind]

/-- The last port's copy of a narration block staged. -/
theorem settleDue_block (found : s.findCue n c.seq = some c) (due : c.due = some d) (mem : p ∈ d.pending)
    (left : d.pending.filter (fun q => !(q == p)) = []) (kind : c.kind = .narration) (staging : Bool) : s.settleDue p staging n c.seq =
      State.lookAtBlocks n c.seq lookFuel (s.finishBlock n c (!(d.staged || staging))) := by
  simp only [State.settleDue, found, due, List.contains_iff_mem, mem, if_true, left, List.isEmpty_nil, kind]

/-- A block finished with, and no further one looked at. -/
theorem settleDue_passes (queue : (s.stream n).queue = [c]) (due : c.due = some d) (mem : p ∈ d.pending)
    (left : d.pending.filter (fun q => !(q == p)) = []) (kind : c.kind = .narration) (still : s.insertionRuns (audOfStream n) = false)
    (unmarked : (s.session (audOfStream n)).ending = false)
    (settled : c.length ≤ c.cursor + 1 ∨ s.position (audOfStream n) + (s.stream n).lead < c.start + 24 * (c.cursor + 1) ∨
      (s.store (audOfStream n)).purge ≠ none) (staging : Bool) :
    s.settleDue p staging n c.seq = s.blockPassed n c (!(d.staged || staging)) := by
  have found : s.findCue n c.seq = some c := by
    rw [State.findCue, queue]
    simp [findCue]
  rw [settleDue_block found due mem left kind, finishBlock_alone queue still unmarked]
  by_cases purge : (s.store (audOfStream n)).purge = none
  · refine lookAtBlocks_passed ?_ _ _
    rcases settled with last | waits | runs
    · exact .inl last
    · exact .inr (.inl waits)
    · exact absurd purge runs
  · obtain ⟨-, -, -, -, stores⟩ := blockPassed_frame s n c (!(d.staged || staging))
    obtain ⟨-, -, samePurge, -⟩ := stores (audOfStream n)
    have noRelease := releases_of_purge (s := s.blockPassed n c (!(d.staged || staging))) (by rw [samePurge]; exact purge)
    rw [lookFuel, State.lookAtBlocks, noRelease]
    rfl

/-! ### The frames formed -/

theorem clearFrame_eq (lowest : s.lowestFilter p n k) : s.clearFrame p n = .item {
    kind := .clear, stream := n, number := (s.stream n).clearNumber, language := (s.stream n).language
    start := s.position (audOfStream n), finish := s.position (audOfStream n), payload := [], secondCopy := false, twoCopies := false
    robust := false, late := false, filter := k } := by rw [State.clearFrame, filterNumber_eq lowest]

theorem itemFrame_narration (lowest : s.lowestFilter p n k) (kind : c.kind = .narration) : s.itemFrame p n c d = .item {
    kind := .narration, stream := n, number := d.number, language := (s.stream n).language
    start := c.start + 24 * c.cursor, finish := c.start + 24 * (c.cursor + 1), payload := (c.bodies[c.cursor]?).join.getD []
    secondCopy := false, twoCopies := false, robust := decide (0 < (s.stream n).degraded), late := false, filter := k } := by
  have payload : ((c.bodies[c.cursor]?).getD none).getD [] = (c.bodies[c.cursor]?).join.getD [] := by cases c.bodies[c.cursor]? <;> rfl
  simp only [State.itemFrame, kind, filterNumber_eq lowest, payload, State.struggling, Cue.blockStart, Cue.blockEnd, Config.block]

theorem itemFrame_caption (lowest : s.lowestFilter p n k) (kind : c.kind = .caption) : s.itemFrame p n c d = .item {
    kind := .caption, stream := n, number := d.number, language := (s.stream n).language
    start := if s.position (audOfStream n) ≤ c.start then c.start else s.position (audOfStream n), finish := c.start + c.length
    payload := c.bodies.flatMap (fun x => x.getD []), secondCopy := false, twoCopies := decide (0 < (s.stream n).degraded)
    robust := false, late := decide (c.start < s.position (audOfStream n)) && !c.resend, filter := k } := by
  have start : max c.start (s.position (audOfStream n)) =
      if s.position (audOfStream n) ≤ c.start then c.start else s.position (audOfStream n) := by
    split <;> omega
  simp only [State.itemFrame, kind, filterNumber_eq lowest, start, State.struggling, Cue.finish, Cue.text, Cue.lateAt]

/-! ### The one SERVING port's fill -/

/-- Port `p` is the one SERVING port, no fill is in progress on it, and `e` is its lowest-numbered EMPTY buffer. -/
structure SoleFill (s : State) (p : Port) (e : BufNo) : Prop where
  serving : (s.link p).state = .serving
  alone : ∀ q, q ≠ p → (s.link q).state ≠ .serving
  idle : ∀ c g x, pick (s.link p).buffers c ≠ .filling g x
  empty : (s.link p).emptyBuffer = some e

/-- Settling is the one fill the port begins. -/
theorem SoleFill.settles {x : Candidate} (sole : SoleFill s p e) (cand : s.candidate p = some x) (fill : s.fill p = w)
    (links : w.links = (s.filling p e f).links) : s.settleFills = w :=
  settleFills_alone sole.alone (mayFill_of sole.serving sole.idle sole.empty cand) fill (ringsBusy_filling sole.alone links)

theorem SoleFill.beacon (sole : SoleFill s p e) (owed : (s.link p).beaconOwed = true) : s.settleFills =
    (s.filling p e (.beacon (s.beaconEntries p))).onLink p (fun l => { l with beaconOwed := false }) := by
  have cand := candidate_beacon owed
  refine settleFills_alone sole.alone (mayFill_of sole.serving sole.idle sole.empty cand) ?_ ?_
  · simp only [State.fill, sole.empty, cand]
    rfl
  · have busy := ringsBusy_filling (w := s.filling p e (.beacon (s.beaconEntries p))) sole.alone rfl
    intro q
    have busy := busy q
    unfold State.portBusy at busy ⊢
    rw [State.onLink_link]
    split
    · next same =>
      subst same
      exact busy
    · exact busy

theorem SoleFill.clear (sole : SoleFill s p e) (notOwed : (s.link p).beaconOwed = false) (cand : s.candidateClear p n)
    (lowest : ∀ m, m < n → ¬ s.candidateClear p m) : s.settleFills =
      (s.filling p e (s.clearFrame p n)).onStream n (fun st => { st with clearOwed := st.clearOwed.filter (fun q => !(q == p)) }) := by
  have cand := candidate_clear notOwed cand lowest
  refine sole.settles cand ?_ rfl
  simp only [State.fill, sole.empty, cand]
  rfl

/-- The fill of an item is its frame's and the staging's. -/
theorem fill_item (sole : SoleFill s p e) (cand : s.candidate p = some (.item n c.seq)) (found : s.findCue n c.seq = some c)
    (due : c.due = some d) : s.fill p =
      (if c.kind == .caption && c.lateAt (s.position (audOfStream n)) then
          (s.filling p e (s.itemFrame p n c d)).onCounters (audOfStream n) (fun k => { k with late := bump k.late })
        else s.filling p e (s.itemFrame p n c d)).settleDue p true n c.seq := by
  simp only [State.fill, sole.empty, cand, found, due]
  rfl

section Narration

variable (sole : SoleFill s p e) (cand : s.candidate p = some (.item n c.seq)) (found : s.findCue n c.seq = some c) (due : c.due = some d)
  (kind : c.kind = .narration)

include sole cand found due kind

theorem fill_block : s.fill p = (s.filling p e (s.itemFrame p n c d)).settleDue p true n c.seq := by
  rw [fill_item sole cand found due, if_neg (by rw [kind]; simp)]

theorem SoleFill.block_owes (mem : p ∈ d.pending) (left : d.pending.filter (fun q => !(q == p)) ≠ []) : s.settleFills =
    (s.filling p e (s.itemFrame p n c d)).onCue n c.seq (fun x => { x with
      due := some { number := d.number, pending := d.pending.filter (fun q => !(q == p)), staged := true } }) := by
  refine sole.settles cand ?_ rfl
  rw [fill_block sole cand found due kind]
  exact (settleDue_owes (by exact found) due mem left true).trans (by rw [Bool.or_true])

theorem SoleFill.block_passes (mem : p ∈ d.pending) (left : d.pending.filter (fun q => !(q == p)) = []) (queue : (s.stream n).queue = [c])
    (still : s.insertionRuns (audOfStream n) = false) (unmarked : (s.session (audOfStream n)).ending = false)
    (settled : c.length ≤ c.cursor + 1 ∨ s.position (audOfStream n) + (s.stream n).lead < c.start + 24 * (c.cursor + 1) ∨
      (s.store (audOfStream n)).purge ≠ none) : s.settleFills = (s.filling p e (s.itemFrame p n c d)).blockPassed n c false := by
  obtain ⟨-, -, -, links, -⟩ := blockPassed_frame (s.filling p e (s.itemFrame p n c d)) n c false
  refine sole.settles cand ?_ links
  rw [fill_block sole cand found due kind]
  exact (settleDue_passes (s := s.filling p e (s.itemFrame p n c d)) queue due mem left kind still unmarked settled true).trans
    (by rw [Bool.or_true]; rfl)

end Narration

theorem SoleFill.caption (sole : SoleFill s p e) (cand : s.candidate p = some (.item n c.seq)) (found : s.findCue n c.seq = some c)
    (due : c.due = some d) (mem : p ∈ d.pending) (kind : c.kind = .caption) : s.settleFills =
      (if c.lateAt (s.position (audOfStream n)) then
          (s.filling p e (s.itemFrame p n c d)).onCounters (audOfStream n) (fun x => { x with late := bump x.late })
        else s.filling p e (s.itemFrame p n c d)).onCue n c.seq (fun x =>
          if d.pending.filter (fun q => !(q == p)) = [] then { x with life := .onAir, due := none, resend := false }
          else { x with due := some { number := d.number, pending := d.pending.filter (fun q => !(q == p)), staged := true } }) := by
  refine sole.settles (f := s.itemFrame p n c d) cand ?_ ?_
  · rw [fill_item sole cand found due, kind, beq_self_eq_true, Bool.true_and]
    generalize counted : (if c.lateAt (s.position (audOfStream n)) = true then
      (s.filling p e (s.itemFrame p n c d)).onCounters (audOfStream n) (fun x => { x with late := bump x.late })
        else s.filling p e (s.itemFrame p n c d)) = v
    have found' : v.findCue n c.seq = some c := by rw [← counted]; split <;> exact found
    by_cases left : d.pending.filter (fun q => !(q == p)) = []
    · simp only [settleDue_onAir found' due mem left kind, if_pos left]
    · simp only [settleDue_owes found' due mem left, if_neg left, Bool.or_true]
  · split <;> rfl

/-! ### The obligation -/

theorem fillDue_eq_some (s : State) (p : Port) (b : BufNo) (f : Frame) : s.fillDue p = some (b, f) ↔
    ∃ e, pick (s.link p).buffers b = .filling f e ∧ e ≤ s.now ∧ ∀ c, c < b → ∀ g x, pick (s.link p).buffers c ≠ .filling g x := by
  constructor
  · intro due
    unfold State.fillDue at due
    split at due
    · next a first =>
      obtain ⟨-, before⟩ := (fillingBuffer_iff _ _).mp first
      split at due
      · next g x filling =>
        split at due
        · next reached =>
          obtain ⟨rfl, rfl⟩ := Prod.mk.inj (Option.some.inj due)
          exact ⟨x, filling, (reached_iff _ _).mp reached, before⟩
        · cases due
      · cases due
    · cases due
  · rintro ⟨x, filling, reached, before⟩
    have first := (fillingBuffer_iff (s.link p) b).mpr ⟨⟨f, x, filling⟩, before⟩
    simp [State.fillDue, first, filling, reached_iff, reached]

/-- The port with the frame of buffer `b` READY at the tail of the READY queue (R133, R134). -/
def LinkPort.readied (l : LinkPort) (b : BufNo) (f : Frame) : LinkPort :=
  { l with buffers := change l.buffers b (fun _ => .ready f), readyQueue := l.readyQueue ++ [b] }

/-- The fill of buffer `b` has ended. -/
def State.fillEnded (s : State) (p : Port) (b : BufNo) (f : Frame) : State := s.onLink p (fun l => l.readied b f)

theorem exec_fillEnds (due : s.fillDue p = some (b, f)) : exec (.fillEnds p) s = .next (s.fillEnded p b f).settleFills := by
  rw [exec_fillEnds_eq, execFillEnds, due]
  rfl

theorem fillEnded_link (s : State) (p : Port) (b : BufNo) (f : Frame) : (s.fillEnded p b f).link p = (s.link p).readied b f := by
  rw [State.fillEnded, State.onLink_link, if_pos rfl]

theorem fillEnded_buffer (s : State) (p : Port) (b c : BufNo) (f : Frame) :
    pick ((s.fillEnded p b f).link p).buffers c = if b = c then .ready f else pick (s.link p).buffers c := by
  rw [fillEnded_link, LinkPort.readied, pick_change]

theorem fillEnded_moved (s : State) (p : Port) (b : BufNo) (f : Frame) :
    PortMoved s (s.fillEnded p b f).settleFills p ((s.link p).readied b f) (s.linkCounter p) := by
  rw [State.fillEnded, onLink_eq_atPort]
  exact atPort_settles s p _ _

/-- Settings of a port and a stream as a filter reads them. -/
theorem filterTakes_congr {k : Port} (filters : (t.link p).filters = (s.link p).filters) (streams : t.streams = s.streams) :
    t.filterTakes p k n ↔ s.filterTakes p k n := by
  simp only [State.filterTakes, State.stream, filters, streams]

theorem lowestFilter_congr (filters : (t.link p).filters = (s.link p).filters) (streams : t.streams = s.streams) :
    t.lowestFilter p n k ↔ s.lowestFilter p n k := by
  cases k <;> simp only [State.lowestFilter, filterTakes_congr filters streams]

/-- A beacon's entries in the manual's figures (R140). -/
theorem beaconEntries_eq (p : Port) (s : State) : s.beaconEntries p =
    ((List.finRange 16).filter (fun a => !((s.session a).state == .dark) &&
      (List.finRange 6).any (fun k => (s.stream (streamOf a k)).isOpen && s.accepts p (streamOf a k)))).map (fun a => {
        auditorium := a, state := (s.session a).state, rate := (s.clock a).rate
        position := min ((s.clock a).base + (s.clock a).sub) 43199999 }) := rfl

/-- The state behind a fill's end, its port the one SERVING. -/
theorem fillEnded_sole (due : s.fillDue p = some (b, f)) (serving : (s.link p).state = .serving) (alone : ∀ q, q ≠ p → (s.link q).state ≠ .serving)
    (other : ∀ c g x, c ≠ b → pick (s.link p).buffers c ≠ .filling g x) (empty : pick (s.link p).buffers e = .empty)
    (lowest : ∀ c, c < e → pick (s.link p).buffers c ≠ .empty) : SoleFill (s.fillEnded p b f) p e := by
  obtain ⟨x, filling, -⟩ := (fillDue_eq_some s p b f).mp due
  have ne : b ≠ e := by
    rintro rfl
    rw [filling] at empty
    cases empty
  refine ⟨by rw [fillEnded_link]; exact serving, fun q ne => ?_, fun c g x => ?_, (emptyBuffer_iff _ _).mpr ⟨?_, fun c less => ?_⟩⟩
  · rw [State.fillEnded, State.onLink_link, if_neg ne.symm]
    exact alone q ne
  · rw [fillEnded_buffer]
    split
    · nofun
    · next ne => exact other c g x (Ne.symm ne)
  · rw [fillEnded_buffer, if_neg ne, empty]
  · rw [fillEnded_buffer]
    split
    · nofun
    · exact lowest c less

/-- Settling begins no fill where the one SERVING port has no EMPTY buffer or no candidate. -/
theorem fillEnded_stays (alone : ∀ q, q ≠ p → (s.link q).state ≠ .serving)
    (h : ((s.fillEnded p b f).link p).emptyBuffer = none ∨ (s.fillEnded p b f).candidate p = none) :
    (s.fillEnded p b f).settleFills = s.fillEnded p b f := by
  refine settleFills_none _ fun q => ?_
  by_cases same : q = p
  · rw [same]
    exact mayFill_of_none h
  · refine Bool.eq_false_iff.mpr fun fills => alone q same ?_
    have serving := mayFill_serving fills
    rwa [State.fillEnded, State.onLink_link, if_neg (Ne.symm same)] at serving

section Ended

variable (due : s.fillDue p = some (b, f)) (sole : SoleFill (s.fillEnded p b f) p e)

include due sole

theorem fillEnds_beacon (owed : (s.link p).beaconOwed = true) : exec (.fillEnds p) s =
    .next (((s.fillEnded p b f).filling p e (.beacon (s.beaconEntries p))).onLink p (fun l => { l with beaconOwed := false })) := by
  have entries : (s.fillEnded p b f).beaconEntries p = s.beaconEntries p := beaconEntries_congr rfl rfl rfl (by rw [fillEnded_link]; rfl)
  rw [exec_fillEnds due, sole.beacon (by rw [fillEnded_link]; exact owed), entries]

variable (notOwed : (s.link p).beaconOwed = false)

include notOwed

theorem fillEnds_clear (cand : s.candidateClear p n) (lowest : ∀ m, m < n → ¬ s.candidateClear p m) : exec (.fillEnds p) s =
    .next (((s.fillEnded p b f).filling p e ((s.fillEnded p b f).clearFrame p n)).onStream n (fun st => { st with
      clearOwed := st.clearOwed.filter (fun q => !(q == p)) })) := by
  rw [exec_fillEnds due, sole.clear (by rw [fillEnded_link]; exact notOwed) cand lowest]

variable (noClear : ∀ n, ¬ s.candidateClear p n)

include noClear

omit due sole in
theorem fillEnded_block (cand : s.candidateCue p .narration .playing n c)
    (first : ∀ m x, s.candidateCue p .narration .playing m x →
      c.start + 24 * c.cursor < x.start + 24 * x.cursor ∨ c.start + 24 * c.cursor = x.start + 24 * x.cursor ∧ (n < m ∨ n = m ∧ x = c)) :
    (s.fillEnded p b f).candidate p = some (.item n c.seq) := by
  obtain ⟨before, behind, queue, notBefore⟩ := List.eq_append_cons_of_mem cand.2.1
  refine candidate_narration (by rw [fillEnded_link]; exact notOwed) noClear (leastBy_owing (g := Cue.blockStart) cand queue fun m x other => ?_)
  rcases first m x other with less | ⟨same, below | ⟨stream, rfl⟩⟩
  · exact .inl less
  · exact .inr ⟨same, .inl below⟩
  · exact .inr ⟨rfl, .inr ⟨stream, notBefore⟩⟩

omit due sole in
theorem fillEnded_caption (noBlock : ∀ n c, ¬ s.candidateCue p .narration .playing n c) (cand : s.candidateCue p .caption .due n c)
    {before behind : List Cue} (queue : (s.stream n).queue = before ++ c :: behind)
    (first : ∀ m x, s.candidateCue p .caption .due m x → c.start < x.start ∨ c.start = x.start ∧ (n < m ∨ n = m ∧ x ∉ before)) :
    (s.fillEnded p b f).candidate p = some (.item n c.seq) :=
  candidate_caption (by rw [fillEnded_link]; exact notOwed) noClear noBlock (leastBy_owing (g := Cue.start) cand queue first)

end Ended

/-- Settles O38. -/
theorem fillEndsReady : Obligations.FillEndsReady := by
  refine ⟨fun p b f s => fillDue_eq_some s p b f, fun p b f s due => ?_, beaconEntries_eq, fun p b f s due serving alone other => ?_⟩
  · have moved := fillEnded_moved s p b f
    refine ⟨_, exec_fillEnds due, moved.only, moved.own, moved.outside, moved.kept (by simp [LinkPort.readied]) nofun, fun c ne => ?_⟩
    exact moved.stands (by rw [LinkPort.readied, pick_change, if_neg (Ne.symm ne)]) rfl
  · intro u
    have filters : (u.link p).filters = (s.link p).filters := by rw [show u = s.fillEnded p b f from rfl, fillEnded_link]; rfl
    refine ⟨fun full => ?_, fun notOwed noClear noBlock noCaption => ?_, fun e empty lowest => ?_⟩
    · refine (exec_fillEnds due).trans (congrArg Host.Outcome.next (fillEnded_stays alone (.inl ((emptyBuffer_none _).mpr fun c => ?_))))
      rw [fillEnded_buffer]
      split
      · nofun
      · next ne => exact full c (Ne.symm ne)
    · exact (exec_fillEnds due).trans (congrArg Host.Outcome.next
        (fillEnded_stays alone (.inr (candidate_none (by rw [fillEnded_link]; exact notOwed) noClear noBlock noCaption))))
    · have sole := fillEnded_sole due serving alone other empty lowest
      refine ⟨fillEnds_beacon due sole, fun notOwed => ⟨fun n k cand first lowestFilter => ?_, fun noClear => ⟨?_, fun noBlock => ?_⟩⟩⟩
      · have frame := clearFrame_eq (s := s.fillEnded p b f) ((lowestFilter_congr filters rfl).mpr lowestFilter)
        exact (fillEnds_clear due sole notOwed cand first).trans (by rw [frame]; rfl)
      · intro n c d k cand first found isDue lowestFilter v left
        obtain ⟨d', due', mem⟩ := cand.2.2.2.2
        obtain rfl := Option.some.inj (isDue.symm.trans due')
        have kind := cand.2.2.1
        have frame : (s.fillEnded p b f).filling p e ((s.fillEnded p b f).itemFrame p n c d) = v :=
          congrArg ((s.fillEnded p b f).filling p e) (itemFrame_narration ((lowestFilter_congr filters rfl).mpr lowestFilter) kind)
        have item := fillEnded_block (b := b) (f := f) notOwed noClear cand first
        refine ⟨fun more => ?_, fun none_ only still unmarked settled => ?_⟩
        · rw [exec_fillEnds due, sole.block_owes item found isDue kind mem more, frame]
        · rw [exec_fillEnds due, sole.block_passes item found isDue kind mem none_ only.1 still unmarked settled, frame]
      · intro n before behind c d k cand queue first found isDue lowestFilter at_ late left v w
        obtain ⟨d', due', mem⟩ := cand.2.2.2.2
        obtain rfl := Option.some.inj (isDue.symm.trans due')
        have kind := cand.2.2.1
        have frame : (s.fillEnded p b f).filling p e ((s.fillEnded p b f).itemFrame p n c d) = v :=
          congrArg ((s.fillEnded p b f).filling p e) (itemFrame_caption ((lowestFilter_congr filters rfl).mpr lowestFilter) kind)
        have item := fillEnded_caption (b := b) (f := f) notOwed noClear noBlock cand queue first
        rw [exec_fillEnds due, sole.caption item found isDue mem kind, frame]
        rfl

end Sys2Proof.Machine
end

section
/-! PROOFS. A port that leaves SERVING owes nothing any more (R85, R106, R108, R114, R126). -/

namespace Sys2Proof.Machine

variable {s t u v w : State} {a : Aud} {n : StreamNo} {c : Cue} {p : Port} {d : DueRecord} {x : Seq} {K : StreamNo → Seq → Prop}

/-- Work on the cues that `K` names, with port `p` out of SERVING: the port is owed nothing that it was not owed, and the other cues
stand. -/
structure CueWork (p : Port) (K : StreamNo → Seq → Prop) (s t : State) : Prop where
  away : (t.link p).state ≠ .serving
  clears : ∀ m, p ∈ (t.stream m).clearOwed → p ∈ (s.stream m).clearOwed
  owed : ∀ m, ∀ y ∈ (t.stream m).queue, p ∈ y.outstanding → ∃ z ∈ (s.stream m).queue, z.seq = y.seq ∧ p ∈ z.outstanding
  kept : ∀ m, ∀ y ∈ (s.stream m).queue, ¬ K m y.seq → y ∈ (t.stream m).queue

namespace CueWork

theorem refl (away : (s.link p).state ≠ .serving) : CueWork p K s s :=
  ⟨away, fun _ h => h, fun _ y mem owes => ⟨y, mem, rfl, owes⟩, fun _ _ mem _ => mem⟩

theorem trans (h : CueWork p K s t) (k : CueWork p K t u) : CueWork p K s u := by
  refine ⟨k.away, fun m owed => h.clears m (k.clears m owed), fun m y mem owes => ?_, fun m y mem others => k.kept m y (h.kept m y mem others) others⟩
  obtain ⟨z, memZ, seqZ, owesZ⟩ := k.owed m y mem owes
  obtain ⟨x, memX, seqX, owesX⟩ := h.owed m z memZ owesZ
  exact ⟨x, memX, seqX.trans seqZ, owesX⟩

/-- A change elsewhere than in the streams. -/
theorem rest (h : CueWork p K s t) (streams : u.streams = t.streams) (link : (u.link p).state = (t.link p).state) : CueWork p K s u := by
  have stream : ∀ m, u.stream m = t.stream m := fun m => by simp only [State.stream, streams]
  exact ⟨link ▸ h.away, fun m => stream m ▸ h.clears m, fun m => stream m ▸ h.owed m, fun m => stream m ▸ h.kept m⟩

/-- A change of one stream's settings: its queue stands, and the port joins no set. -/
theorem settings (h : CueWork p K s t) (n : StreamNo) {f : Stream → Stream} (queue : (f (t.stream n)).queue = (t.stream n).queue)
    (clears : p ∈ (f (t.stream n)).clearOwed → p ∈ (t.stream n).clearOwed) : CueWork p K s (t.onStream n f) := by
  have queues : ∀ m, ((t.onStream n f).stream m).queue = (t.stream m).queue := by
    intro m
    rw [State.onStream_stream]
    split
    · next same => exact same ▸ queue
    · rfl
  refine h.trans ⟨h.away, fun m owed => ?_, fun m y mem owes => ⟨y, queues m ▸ mem, rfl, owes⟩, fun m y mem _ => (queues m).symm ▸ mem⟩
  rw [State.onStream_stream] at owed
  split at owed
  · next same =>
    subst same
    exact clears owed
  · exact owed

/-- A change of one stream's queue at cue `x`. -/
theorem queue (h : CueWork p K s t) {x : Seq} (named : K n x) {g : List Cue → List Cue}
    (from_ : ∀ y ∈ g (t.stream n).queue, p ∈ y.outstanding → ∃ z ∈ (t.stream n).queue, z.seq = y.seq ∧ p ∈ z.outstanding)
    (others : ∀ y ∈ (t.stream n).queue, y.seq ≠ x → y ∈ g (t.stream n).queue) :
    CueWork p K s (t.onStream n (fun st => { st with queue := g st.queue })) := by
  refine h.trans ⟨h.away, fun m owed => ?_, fun m y mem owes => ?_, fun m y mem free => ?_⟩
  all_goals by_cases same : n = m
  · subst same
    simpa only [State.onStream_stream, if_true] using owed
  · simpa only [State.onStream_stream, if_neg same] using owed
  · subst same
    rw [State.onStream_stream, if_pos rfl] at mem
    exact from_ y mem owes
  · rw [State.onStream_stream, if_neg same] at mem
    exact ⟨y, mem, rfl, owes⟩
  · subst same
    rw [State.onStream_stream, if_pos rfl]
    exact others y mem fun e => free (e ▸ named)
  · rw [State.onStream_stream, if_neg same]
    exact mem

/-- A change of the cues with sequence `x`, by which port `p` is owed nothing that none of them owed it. -/
theorem onCueOf (h : CueWork p K s t) (named : K n x) {f : Cue → Cue} (seq : ∀ y, (f y).seq = y.seq)
    (owes : ∀ y ∈ (t.stream n).queue, y.seq = x → p ∈ (f y).outstanding → ∃ z ∈ (t.stream n).queue, z.seq = x ∧ p ∈ z.outstanding) :
    CueWork p K s (t.onCue n x f) := by
  refine h.queue (g := changeCue x f) named (fun y mem owed => ?_) fun y mem other => ?_
  · obtain ⟨z, memZ, rfl⟩ := List.mem_map.mp mem
    split at owed
    · next e =>
      rw [if_pos e, seq, show z.seq = x by simpa using e]
      exact owes z memZ (by simpa using e) owed
    · next e => exact ⟨z, memZ, by rw [if_neg e], owed⟩
  · exact List.mem_map.mpr ⟨y, mem, if_neg (by simpa using other)⟩

theorem onCue (h : CueWork p K s t) (named : K n x) {f : Cue → Cue} (seq : ∀ y, (f y).seq = y.seq)
    (owes : ∀ y, p ∈ (f y).outstanding → p ∈ y.outstanding) : CueWork p K s (t.onCue n x f) :=
  h.onCueOf named seq fun y mem same owed => ⟨y, mem, same, owes y owed⟩

theorem drop (h : CueWork p K s t) (named : K n x) : CueWork p K s (t.onStream n (fun st => { st with queue := dropCue x st.queue })) :=
  h.queue (g := dropCue x) named (fun y mem owed => ⟨y, List.mem_of_mem_filter mem, rfl, owed⟩) fun y mem other => List.mem_filter.mpr ⟨mem, by simpa using other⟩

/-! The operations of release. -/

/-- A port out of SERVING carries nothing. -/
theorem not_carrier (h : CueWork p K s t) (n : StreamNo) : p ∉ t.carriers n := fun mem => h.away ((mem_carriers t p n).mp mem).1

theorem oweClearIfCaption (h : CueWork p K s t) (n : StreamNo) : CueWork p K s (t.oweClearIfCaption n) := by
  rw [State.oweClearIfCaption, oweClear_eq]
  split
  · split
    · exact h
    · refine h.settings n rfl fun owed => (List.mem_append.mp owed).resolve_right fun fresh => h.away ?_
      simp only [State.freshCarriers, List.mem_filter, Bool.and_eq_true, beq_iff_eq] at fresh
      exact fresh.2.1.1
  · exact h

theorem foldl {α : Type} {f : State → α → State} (one : ∀ t y, CueWork p K s t → CueWork p K s (f t y)) (l : List α) :
    ∀ t, CueWork p K s t → CueWork p K s (l.foldl f t) := by
  induction l with
  | nil => exact fun _ h => h
  | cons y l ih => exact fun t h => ih _ (one t y h)

theorem raiseAud (h : CueWork p K s t) (b : Aud) (k : Byte) : CueWork p K s (t.raiseAud b k) := h.rest rfl rfl

theorem enterEnded (h : CueWork p K s t) (b : Aud) : CueWork p K s (t.enterEnded b) := by
  have ended : CueWork p K s ((t.onRun b (fun r => r.atEnd (t.captureHold b))).onSession b (fun y => { y with state := .ended })) :=
    h.rest rfl rfl
  have owed : CueWork p K s (((t.onRun b (fun r => r.atEnd (t.captureHold b))).onSession b (fun y => { y with state := .ended })).oweClears b) :=
    foldl (fun _ _ k => k.oweClearIfCaption _) slots _ ended
  rw [State.enterEnded]
  exact owed.raiseAud b kindEnded

theorem endTest (h : CueWork p K s t) (b : Aud) : CueWork p K s (t.endTest b) := by
  rw [State.endTest]
  split
  · exact h.enterEnded b
  · exact h

theorem catchUpWalk (h : CueWork p K s t) (b : Aud) (n : StreamNo) : CueWork p K s (t.catchUpWalk b n) := by
  unfold State.catchUpWalk
  split
  · split
    · exact h.rest rfl rfl
    · exact h
  · exact h

theorem leaveQueue (h : CueWork p K s t) (named : K n x) : CueWork p K s (t.leaveQueue n x) := (h.catchUpWalk _ n).drop named

theorem requestFree (h : CueWork p K s t) (b : Aud) (cells : Nat) (tag : FreeTag) : CueWork p K s (t.requestFree b cells tag) := h.rest rfl rfl

theorem freeCue (h : CueWork p K s t) (named : K n c.seq) (tag : FreeTag) : CueWork p K s (t.freeCue n c tag) :=
  ((h.leaveQueue named).requestFree _ _ _).endTest _

theorem finishBlock (h : CueWork p K s t) (named : K n c.seq) (skipped : Bool) : CueWork p K s (t.finishBlock n c skipped) := by
  have counted : CueWork p K s (if skipped then t.onCounters (audOfStream n) (fun k => { k with skip := bump k.skip }) else t) := by
    split
    · exact h.rest rfl rfl
    · exact h
  have passed := fun {v : State} (k : CueWork p K s v) => k.onCue (f := Cue.finishBlock) named (fun _ => rfl) nofun
  rw [State.finishBlock]
  dsimp only
  generalize (if skipped then t.onCounters (audOfStream n) (fun k => { k with skip := bump k.skip }) else t) = v at counted ⊢
  split
  · exact counted.freeCue named .none
  · split
    · exact (passed counted).requestFree _ _ _
    · exact passed counted

theorem onCounters (h : CueWork p K s t) (b : Aud) (f : AudCounters → AudCounters) : CueWork p K s (t.onCounters b f) := h.rest rfl rfl

theorem takeNumber (h : CueWork p K s t) (n : StreamNo) : CueWork p K s (t.takeNumber n) := h.settings n rfl fun owed => owed

theorem lookAtBlocks (named : K n x) (fuel : Nat) : ∀ t, CueWork p K s t → CueWork p K s (State.lookAtBlocks n x fuel t) := by
  induction fuel with
  | zero => exact fun _ h => h
  | succ fuel ih =>
    intro t h
    rw [State.lookAtBlocks]
    split
    · exact h
    · split
      · exact h
      · next c found =>
        obtain rfl : c.seq = x := findCue_seq found
        dsimp only
        split
        · have plays := h.onCue (f := fun y => { y with life := .playing }) named (fun _ => rfl) (fun _ owed => owed)
          split
          · exact ih _ (plays.finishBlock (c := { c with life := .playing }) named true)
          · split
            · exact ih _ (((plays.takeNumber n).onCounters _ _).finishBlock (c := { c with life := .playing }) named false)
            · refine (plays.onCue (f := fun y => { y with due := some { number := _, pending := _, staged := false } }) named (fun _ => rfl)
                fun y owed => absurd owed (plays.not_carrier n)).takeNumber n
        · exact h

theorem settleDue (h : CueWork p K s t) (named : K n x) (q : Port) (staging : Bool) : CueWork p K s (t.settleDue q staging n x) := by
  unfold State.settleDue
  split
  · exact h
  · next c found =>
    obtain rfl : c.seq = x := findCue_seq found
    split
    · exact h
    · next d due =>
      have mem := List.mem_of_find?_eq_some found
      split
      · next holds =>
        dsimp only
        split
        · split
          · exact h.onCue (f := fun y => { y with life := .onAir, due := none, resend := false }) named (fun _ => rfl) nofun
          · exact lookAtBlocks named _ _ (h.finishBlock named _)
        · refine h.onCueOf (f := fun y => { y with due := some _ }) named (fun _ => rfl) fun y _ _ owed => ⟨c, mem, rfl, ?_⟩
          rw [Cue.outstanding, due]
          exact List.mem_of_mem_filter owed
      · exact h

/-! The fills of other ports. -/

theorem onLink (h : CueWork p K s t) (q : Port) (f : LinkPort → LinkPort) (state : ∀ l, (f l).state = l.state) : CueWork p K s (t.onLink q f) := by
  refine h.rest rfl ?_
  rw [State.onLink_link]
  split
  · exact state _
  · rfl

theorem fill (h : CueWork p K s t) (all : ∀ m y, K m y) (q : Port) : CueWork p K s (t.fill q) := by
  have started (b : BufNo) (f : Frame) : CueWork p K s (t.startFill q b f) := h.onLink q _ fun _ => rfl
  unfold State.fill
  split
  · exact (started _ _).onLink q _ fun _ => rfl
  · exact (started _ _).settings _ rfl fun owed => List.mem_of_mem_filter owed
  · split
    · exact h
    · split
      · exact h
      · dsimp only
        refine settleDue ?_ (all _ _) q true
        split
        · exact (started _ _).onCounters _ _
        · exact started _ _
  · exact h

theorem settleFills (h : CueWork p K s t) (all : ∀ m y, K m y) : CueWork p K s t.settleFills := by
  have rounds (fuel : Nat) : ∀ t, CueWork p K s t → CueWork p K s (State.settleFillsFuel fuel t) := by
    induction fuel with
    | zero => exact fun _ h => h
    | succ fuel ih =>
      intro t h
      rw [State.settleFillsFuel]
      split
      · exact h
      · exact ih _ ((h.rest rfl rfl : CueWork p K s (t.onDraws (· + drawsOf (ports.filter t.mayFill)))).fill all _)
  exact rounds 4 t h

end CueWork

/-! ### A port that leaves every set (R126) -/

/-- No cue of stream `n` with sequence `x` is owed to port `p`. -/
def State.cueUnowed (s : State) (p : Port) (n : StreamNo) (x : Seq) : Prop := ∀ y ∈ (s.stream n).queue, y.seq = x → p ∉ y.outstanding

/-- Stream `n` owes port `p` nothing. -/
def State.unowed (s : State) (p : Port) (n : StreamNo) : Prop := p ∉ (s.stream n).clearOwed ∧ ∀ y ∈ (s.stream n).queue, p ∉ y.outstanding

theorem CueWork.cueUnowed (h : CueWork p K s t) (none_ : s.cueUnowed p n x) : t.cueUnowed p n x := by
  intro y mem seq owes
  obtain ⟨z, memZ, seqZ, owesZ⟩ := h.owed n y mem owes
  exact none_ z memZ (seqZ.trans seq) owesZ

theorem CueWork.unowed (h : CueWork p K s t) (none_ : s.unowed p n) : t.unowed p n := by
  refine ⟨fun owed => none_.1 (h.clears n owed), fun y mem owes => ?_⟩
  obtain ⟨z, memZ, -, owesZ⟩ := h.owed n y mem owes
  exact none_.2 z memZ owesZ

theorem onCue_unowed {f : Cue → Cue} (free : ∀ y, p ∉ (f y).outstanding) : (s.onCue n x f).cueUnowed p n x := by
  intro y mem seq
  rw [State.onCue, State.onStream_stream, if_pos rfl] at mem
  obtain ⟨z, -, rfl⟩ := List.mem_map.mp mem
  split at seq
  · next e => rw [if_pos e]; exact free z
  · next e => exact absurd (by simpa using seq) e

theorem finishBlock_unowed (away : (s.link p).state ≠ .serving) (skipped : Bool) : (s.finishBlock n c skipped).cueUnowed p n c.seq := by
  rw [State.finishBlock]
  dsimp only
  generalize counted : (if skipped then s.onCounters (audOfStream n) (fun k => { k with skip := bump k.skip }) else s) = v
  have away' : (v.link p).state ≠ .serving := by rw [← counted]; split <;> exact away
  split
  · have left : (v.leaveQueue n c.seq).cueUnowed p n c.seq := by
      intro y mem seq
      rw [State.leaveQueue, State.onStream_stream, if_pos rfl] at mem
      have ne := (List.mem_filter.mp mem).2
      simp [seq] at ne
    have away'' : ((v.leaveQueue n c.seq).link p).state ≠ .serving :=
      (CueWork.leaveQueue (K := fun _ _ => True) (x := c.seq) (n := n) (.refl away') trivial).away
    exact (((CueWork.refl (K := fun _ _ => True) away'').requestFree _ _ _).endTest _).cueUnowed left
  · have passed : (v.onCue n c.seq Cue.finishBlock).cueUnowed p n c.seq := onCue_unowed fun _ => nofun
    split
    · exact passed
    · exact passed

theorem findCue_of_mem (distinct : (seqs (s.stream n).queue).Nodup) (mem : c ∈ (s.stream n).queue) : s.findCue n c.seq = some c := by
  obtain ⟨l, m, placed⟩ := exists_placed mem distinct
  exact findCue_placed placed

/-- A cue whose port is struck out owes it nothing. -/
theorem settleDue_unowed (distinct : (seqs (s.stream n).queue).Nodup) (away : (s.link p).state ≠ .serving) :
    (s.settleDue p false n x).cueUnowed p n x := by
  have alone {c : Cue} (found : s.findCue n x = some c) (free : p ∉ c.outstanding) : s.cueUnowed p n x := by
    rintro y mem rfl
    obtain rfl := Option.some.inj ((findCue_of_mem distinct mem).symm.trans found)
    exact free
  unfold State.settleDue
  split
  · next absent =>
    intro y mem seq
    have ne := List.find?_eq_none.mp absent y mem
    simp [seq] at ne
  · next c found =>
    split
    · next due => exact alone found (by simp [Cue.outstanding, due])
    · next d due =>
      obtain rfl := findCue_seq found
      split
      · dsimp only
        split
        · split
          · exact onCue_unowed fun _ => nofun
          · exact (CueWork.lookAtBlocks (K := fun _ _ => True) trivial lookFuel _
              (.refl (CueWork.finishBlock (K := fun _ _ => True) (.refl away) trivial _).away)).cueUnowed (finishBlock_unowed away _)
        · exact onCue_unowed fun _ => by simp [Cue.outstanding]
      · next notOwed => exact alone found (by simpa [Cue.outstanding, due] using notOwed)

/-- A port leaves one stream's clear-owed set and the pending sets of its cues. -/
def State.struckClear (s : State) (p : Port) (n : StreamNo) : State :=
  s.onStream n (fun st => { st with clearOwed := st.clearOwed.filter (fun q => !(q == p)) })

def State.struck (s : State) (p : Port) (n : StreamNo) : State :=
  (s.struckClear p n).eachCue n (fun m u seq => u.settleDue p false m seq)

theorem portOwesNothing_eq (s : State) (p : Port) : s.portOwesNothing p = streamNos.foldl (fun t n => t.struck p n) s := rfl

/-- What holds while a port leaves the sets: `P` until cue `x` of stream `n` is looked at, and `Q` from then on. -/
theorem portOwesNothing_passes {P Q : State → Prop} (start : P s)
    (named : ∀ t, P t → (seqs (t.stream n).queue).Nodup ∧ x ∈ seqs (t.stream n).queue)
    (clearP : ∀ t m, P t → P (t.struckClear p m)) (cueP : ∀ t m y, ¬ (m = n ∧ y = x) → P t → P (t.settleDue p false m y))
    (turn : ∀ t, P t → Q (t.settleDue p false n x))
    (clearQ : ∀ t m, m ≠ n → Q t → Q (t.struckClear p m)) (cueQ : ∀ t m y, ¬ (m = n ∧ y = x) → Q t → Q (t.settleDue p false m y)) :
    Q (s.portOwesNothing p) := by
  obtain ⟨lower, upper, split⟩ : ∃ l m, streamNos = l ++ n :: m := List.append_of_mem (List.mem_finRange n)
  have once : (lower ++ n :: upper).Nodup := split ▸ List.nodup_finRange 96
  obtain ⟨notLower, notUpper⟩ : n ∉ lower ∧ n ∉ upper := by
    have := List.nodup_middle.mp once
    simpa [not_or] using (List.nodup_cons.mp this).1
  have below : P (lower.foldl (fun t m => t.struck p m) s) := List.foldlRecOn lower _ start fun t held m mem =>
    List.foldlRecOn _ _ (clearP t m held) fun u held' y _ => cueP u m y (fun same => notLower (same.1 ▸ mem)) held'
  have here : Q ((lower.foldl (fun t m => t.struck p m) s).struck p n) := by
    have begun := clearP _ n below
    obtain ⟨nodup, mem⟩ := named _ begun
    obtain ⟨first, last, queue⟩ := List.append_of_mem mem
    rw [queue] at nodup
    obtain ⟨notFirst, notLast⟩ : x ∉ first ∧ x ∉ last := by
      have := List.nodup_middle.mp nodup
      simpa [not_or] using (List.nodup_cons.mp this).1
    rw [State.struck, State.eachCue, queue, List.foldl_append, List.foldl_cons]
    refine List.foldlRecOn last _ (turn _ (List.foldlRecOn first _ begun fun t held y memY => ?_)) fun t held y memY => ?_
    · exact cueP t n y (fun same => notFirst (same.2 ▸ memY)) held
    · exact cueQ t n y (fun same => notLast (same.2 ▸ memY)) held
  rw [portOwesNothing_eq, split, List.foldl_append, List.foldl_cons]
  exact List.foldlRecOn upper _ here fun t held m mem =>
    List.foldlRecOn _ _ (clearQ t m (fun same => notUpper (same ▸ mem)) held) fun u held' y _ =>
      cueQ u m y (fun same => notUpper (same.1 ▸ mem)) held'

/-- The work of one cue's turn, as work on that cue alone. -/
theorem CueWork.turn (away : (s.link p).state ≠ .serving) (n : StreamNo) (x : Seq) (q : Port) (staging : Bool) :
    CueWork p (fun m y => m = n ∧ y = x) s (s.settleDue q staging n x) :=
  (CueWork.refl away).settleDue ⟨rfl, rfl⟩ q staging

theorem CueWork.struckClear (h : CueWork p K s t) (n : StreamNo) : CueWork p K s (t.struckClear p n) :=
  h.settings n rfl List.mem_of_mem_filter

theorem cuesDistinct_settleDue (distinct : s.cuesDistinct) (n : StreamNo) (x : Seq) : (s.settleDue p false n x).cuesDistinct :=
  (Worked.settleDue (σ := none) .refl p false n x).cuesDistinct distinct

theorem worked_struckClear (s : State) (p : Port) (n : StreamNo) : Worked none s (s.struckClear p n) :=
  Worked.stream .refl n _ fun _ => ⟨rfl, rfl, rfl, rfl, rfl⟩

theorem cuesDistinct_struckClear (distinct : s.cuesDistinct) (n : StreamNo) : (s.struckClear p n).cuesDistinct :=
  (worked_struckClear s p n).cuesDistinct distinct

/-- A stream struck out owes the port nothing. -/
theorem struck_unowed (distinct : s.cuesDistinct) (away : (s.link p).state ≠ .serving) (n : StreamNo) :
    (s.struck p n).unowed p n ∧ CueWork p (fun _ _ => True) s (s.struck p n) ∧ (s.struck p n).cuesDistinct := by
  have cleared := (CueWork.refl (K := fun _ _ => True) away).struckClear n
  have turns (l : List Seq) : ∀ t, CueWork p (fun _ _ => True) (s.struckClear p n) t → t.cuesDistinct →
      CueWork p (fun _ _ => True) (s.struckClear p n) (l.foldl (fun u y => u.settleDue p false n y) t) ∧
        (l.foldl (fun u y => u.settleDue p false n y) t).cuesDistinct ∧
        ∀ x, x ∈ l ∨ t.cueUnowed p n x → (l.foldl (fun u y => u.settleDue p false n y) t).cueUnowed p n x := by
    induction l with
    | nil => exact fun t work distinct => ⟨work, distinct, fun x h => h.resolve_left (by simp)⟩
    | cons y l ih =>
      intro t work distinct
      obtain ⟨work', distinct', unowed'⟩ := ih _ (work.settleDue trivial p false) (cuesDistinct_settleDue distinct n y)
      refine ⟨work', distinct', fun x h => unowed' x ?_⟩
      by_cases same : x = y
      · exact .inr (same ▸ settleDue_unowed (distinct.1 n).1 work.away)
      · rcases h with mem | free
        · exact .inl ((List.mem_cons.mp mem).resolve_left same)
        · exact .inr ((CueWork.turn work.away n y p false).cueUnowed free)
  obtain ⟨work, distinct', unowed⟩ := turns (seqs ((s.struckClear p n).stream n).queue) _ (.refl cleared.away) (cuesDistinct_struckClear distinct n)
  refine ⟨⟨fun owed => ?_, fun y mem owes => ?_⟩, cleared.trans work, distinct'⟩
  · have here := work.clears n owed
    simp [State.struckClear] at here
  · obtain ⟨z, memZ, seqZ, -⟩ := work.owed n y mem owes
    exact unowed y.seq (.inl (seqZ ▸ List.mem_map_of_mem memZ)) y mem rfl owes

/-- A port that has left every set is owed nothing. -/
theorem portOwesNothing_unowed (distinct : s.cuesDistinct) (away : (s.link p).state ≠ .serving) :
    (∀ n, (s.portOwesNothing p).unowed p n) ∧ ((s.portOwesNothing p).link p).state ≠ .serving := by
  have streams (l : List StreamNo) : ∀ t : State, t.cuesDistinct → (t.link p).state ≠ .serving →
      ((l.foldl (fun t n => t.struck p n) t).link p).state ≠ .serving ∧
        ∀ n, n ∈ l ∨ t.unowed p n → (l.foldl (fun t n => t.struck p n) t).unowed p n := by
    induction l with
    | nil => exact fun t _ away => ⟨away, fun n h => h.resolve_left (by simp)⟩
    | cons m l ih =>
      intro t distinct away
      obtain ⟨unowed, work, distinct'⟩ := struck_unowed distinct away m
      obtain ⟨away', unowed'⟩ := ih _ distinct' work.away
      refine ⟨away', fun n h => unowed' n ?_⟩
      by_cases same : n = m
      · exact .inr (same ▸ unowed)
      · rcases h with mem | free
        · exact .inl ((List.mem_cons.mp mem).resolve_left same)
        · exact .inr (work.unowed free)
  obtain ⟨away', unowed⟩ := streams streamNos s distinct away
  exact ⟨fun n => unowed n (.inl (List.mem_finRange n)), away'⟩

end Sys2Proof.Machine
end

section
/-! PROOFS. The cues of a port that leaves SERVING: what stands, what waits for the other ports, and what ends (R106, R108, R114, R126). -/

namespace Sys2Proof.Machine

variable {s t u v w : State} {a : Aud} {n : StreamNo} {c : Cue} {p : Port} {d : DueRecord} {x : Seq}

/-! ### The three ways out of SERVING -/

/-- The shows and their cues are in `t` as in `s`. -/
structure SameShows (s t : State) : Prop where
  now : t.now = s.now
  clocks : t.clocks = s.clocks
  sessions : t.sessions = s.sessions
  counters : t.audCounters = s.audCounters
  intakes : t.intakes = s.intakes
  streams : t.streams = s.streams
  stores : t.stores = s.stores

/-- A port leaves SERVING (R126): from `s` but for the links, out of its sets in `v`, and with the fills that follow in `t`. -/
structure Left (p : Port) (s t : State) : Prop where
  path : ∃ w v : State, SameShows s w ∧ (w.link p).state ≠ .serving ∧ (∀ q, q ≠ p → w.link q = s.link q) ∧
    SameShows (w.portOwesNothing p) v ∧ v.links = (w.portOwesNothing p).links ∧ SameShows v.settleFills t

theorem departed_away {dest : LinkState} (away : dest ≠ .serving) : ((s.departed p dest).link p).state ≠ .serving := by
  rw [State.departed, atPort_link]
  exact away

theorem departed_link {dest : LinkState} {q : Port} (ne : q ≠ p) : (s.departed p dest).link q = s.link q := by
  simp [State.departed, State.atPort, ne.symm]

theorem SameShows.refl (s : State) : SameShows s s := ⟨rfl, rfl, rfl, rfl, rfl, rfl, rfl⟩

theorem SameShows.raiseLink (s : State) (p : Port) (k : Byte) : SameShows s (s.raiseLink p k) := ⟨rfl, rfl, rfl, rfl, rfl, rfl, rfl⟩

theorem SameShows.onMgmt (s : State) (f : Mgmt → Mgmt) : SameShows s (s.onMgmt f) := ⟨rfl, rfl, rfl, rfl, rfl, rfl, rfl⟩

theorem SameShows.onLink (s : State) (p : Port) (f : LinkPort → LinkPort) : SameShows s (s.onLink p f) := ⟨rfl, rfl, rfl, rfl, rfl, rfl, rfl⟩

theorem SameShows.answer (s : State) (p : Port) (bytes : List Byte) : SameShows s (s.answer p bytes) := ⟨rfl, rfl, rfl, rfl, rfl, rfl, rfl⟩

theorem SameShows.done (s : State) (k : Nat) (bytes : List Byte) : SameShows s (s.done k bytes) := ⟨rfl, rfl, rfl, rfl, rfl, rfl, rfl⟩

theorem SameShows.departed (s : State) (p : Port) (dest : LinkState) : SameShows s (s.departed p dest) := ⟨rfl, rfl, rfl, rfl, rfl, rfl, rfl⟩

theorem SameShows.trans (h : SameShows s t) (k : SameShows t u) : SameShows s u :=
  ⟨k.now.trans h.now, k.clocks.trans h.clocks, k.sessions.trans h.sessions, k.counters.trans h.counters, k.intakes.trans h.intakes,
    k.streams.trans h.streams, k.stores.trans h.stores⟩

theorem left_of_leaving {i : Instr} {dest : LinkState} (leaves : s.leavesServing p i dest) (ex : exec i s = .next t) : Left p s t := by
  obtain ⟨serving, ⟨rfl, rfl, due⟩ | ⟨rfl, rfl⟩ | ⟨rfl, rfl, takes⟩⟩ := leaves
  · rw [exec_silenceTimerExpires_eq, execSilenceTimerExpires, if_pos due, leaveServing_eq] at ex
    obtain rfl := Host.Outcome.next.inj ex
    exact ⟨_, _, .departed s p .stalled, departed_away (by decide), fun q ne => departed_link ne, .raiseLink _ p kindStalled, State.raiseLink_links _ p _, .refl _⟩
  · rw [exec_alignStart_eq, execAlignStart, if_pos (by simp [serving]), leaveServing_eq] at ex
    obtain rfl := Host.Outcome.next.inj ex
    exact ⟨_, (s.departed p .aligning).portOwesNothing p, .departed s p .aligning, departed_away (by decide), fun q ne => departed_link ne, .refl _, rfl,
      (SameShows.onLink _ p _).trans (.answer _ p _)⟩
  · rw [exec_resetLinkPort_eq, execResetLinkPort, write_taken takes] at ex
    have serving' : ((s.onMgmt (fun m => { m with out := [1] })).link p).state = .serving := serving
    simp only [portOf_ofNat, State.resetLink, serving', beq_self_eq_true, if_true, leaveServing_eq] at ex
    obtain rfl := Host.Outcome.next.inj ex
    exact ⟨_, _, (SameShows.onMgmt s _).trans (.departed _ p .down), departed_away (by decide), fun q ne => departed_link ne, .refl _, rfl,
      (SameShows.onLink _ p _).trans (.done _ 11 _)⟩

/-- A port that can begin no fill can begin none behind background work. -/
theorem Worked.portBusy {σ : Option Aud} (h : Worked σ s t) {q : Port} (busy : s.portBusy q) : t.portBusy q := by
  have state : (t.link q).state = (s.link q).state := congrArg (·.1) (h.outside q)
  intro serving
  rcases busy (state ▸ serving) with ⟨b, f, e, filling⟩ | full
  · refine .inl ⟨b, f, e, ?_⟩
    rcases h.buffer q b with stands | ⟨empty, -⟩
    · rw [stands, filling]
    · rw [filling] at empty
      cases empty
  · refine .inr fun b => ?_
    rcases h.buffer q b with stands | ⟨empty, -⟩
    · rw [stands]
      exact full b
    · exact absurd empty (full b)

theorem portOwesNothing_ringsBusy (away : (s.link p).state ≠ .serving) (others : ∀ q, q ≠ p → s.portBusy q) : (s.portOwesNothing p).ringsBusy := by
  intro q
  by_cases same : q = p
  · subst same
    exact (Worked.portOwesNothing (σ := none) .refl q).portBusy fun serving => absurd serving away
  · exact (Worked.portOwesNothing (σ := none) .refl p).portBusy (others q same)

theorem SameShows.cuesDistinct (h : SameShows s t) (distinct : s.cuesDistinct) : t.cuesDistinct := by
  simpa only [State.cuesDistinct, State.stream, State.intake, h.streams, h.intakes] using distinct

theorem SameShows.stream (h : SameShows s t) (n : StreamNo) : t.stream n = s.stream n := by simp only [State.stream, h.streams]

/-- Behind the fills too the port is owed nothing. -/
theorem Left.unowed (h : Left p s t) (distinct : s.cuesDistinct) (n : StreamNo) : t.unowed p n := by
  obtain ⟨w, v, shows_, away, -, struck, links, filled⟩ := h.path
  obtain ⟨unowed, away'⟩ := portOwesNothing_unowed (shows_.cuesDistinct distinct) away
  have state : (v.link p).state ≠ .serving := by simpa only [State.link, links] using away'
  have free : v.unowed p n := by simpa only [State.unowed, struck.stream] using unowed n
  have settled := ((CueWork.refl (K := fun _ _ => True) state).settleFills fun _ _ => trivial).unowed free
  simpa only [State.unowed, filled.stream] using settled

/-- Where no other port can begin a fill, none follows. -/
theorem Left.still (h : Left p s t) (others : ∀ q, q ≠ p → s.portBusy q) :
    ∃ w : State, SameShows s w ∧ (w.link p).state ≠ .serving ∧ SameShows (w.portOwesNothing p) t := by
  obtain ⟨w, v, shows_, away, elsewhere, struck, links, filled⟩ := h.path
  have others' : ∀ q, q ≠ p → w.portBusy q := fun q ne => by
    have busy := others q ne
    unfold State.portBusy at busy ⊢
    rwa [elsewhere q ne]
  rw [settleFills_still links (portOwesNothing_ringsBusy away others')] at filled
  exact ⟨w, shows_, away, struck.trans filled⟩

/-! ### A cue's turn -/

/-- A cue in its queue has its turn, and all else leaves it as its turn leaves it. -/
theorem portOwesNothing_cue {e : Cue} (distinct : s.cuesDistinct) (away : (s.link p).state ≠ .serving) (mem : c ∈ (s.stream n).queue)
    (same : e.seq = c.seq)
    (turn : ∀ t : State, (t.link p).state ≠ .serving → t.findCue n c.seq = some c → e ∈ ((t.settleDue p false n c.seq).stream n).queue) :
    e ∈ ((s.portOwesNothing p).stream n).queue := by
  have clear (t : State) (m : StreamNo) (f : Cue) (away : (t.link p).state ≠ .serving) (mem : f ∈ (t.stream n).queue) :
      ((t.struckClear p m).link p).state ≠ .serving ∧ f ∈ ((t.struckClear p m).stream n).queue :=
    have work := (CueWork.refl (K := fun _ _ => False) away).struckClear m
    ⟨work.away, work.kept n f mem id⟩
  have other (t : State) (m : StreamNo) (y : Seq) (f : Cue) (fseq : f.seq = c.seq) (ne : ¬ (m = n ∧ y = c.seq)) (away : (t.link p).state ≠ .serving)
      (mem : f ∈ (t.stream n).queue) :
      ((t.settleDue p false m y).link p).state ≠ .serving ∧ f ∈ ((t.settleDue p false m y).stream n).queue :=
    have work := CueWork.turn away m y p false
    ⟨work.away, work.kept n f mem fun here => ne ⟨here.1.symm, here.2.symm.trans fseq⟩⟩
  refine (portOwesNothing_passes (x := c.seq) (n := n)
    (P := fun t => t.cuesDistinct ∧ (t.link p).state ≠ .serving ∧ c ∈ (t.stream n).queue)
    (Q := fun t => (t.link p).state ≠ .serving ∧ e ∈ (t.stream n).queue) ⟨distinct, away, mem⟩ ?_ ?_ ?_ ?_ ?_ ?_).2
  · rintro t ⟨distinct, -, mem⟩
    exact ⟨(distinct.1 n).1, List.mem_map_of_mem mem⟩
  · rintro t m ⟨distinct, away, mem⟩
    exact ⟨cuesDistinct_struckClear distinct m, clear t m c away mem⟩
  · rintro t m y ne ⟨distinct, away, mem⟩
    exact ⟨cuesDistinct_settleDue distinct m y, other t m y c rfl ne away mem⟩
  · rintro t ⟨distinct, away, mem⟩
    exact ⟨(CueWork.turn away n c.seq p false).away, turn t away (findCue_of_mem (distinct.1 n).1 mem)⟩
  · rintro t m - ⟨away, mem⟩
    exact clear t m e away mem
  · rintro t m y ne ⟨away, mem⟩
    exact other t m y e same ne away mem

/-- A changed cue is in its queue. -/
theorem onCue_mem {f : Cue → Cue} (found : s.findCue n c.seq = some c) : f c ∈ ((s.onCue n c.seq f).stream n).queue := by
  rw [State.onCue, State.onStream_stream, if_pos rfl]
  exact List.mem_map.mpr ⟨c, List.mem_of_find?_eq_some found, by simp⟩

/-- A cue that owes the port nothing has nothing done in its turn. -/
theorem settleDue_free (found : s.findCue n c.seq = some c) (free : p ∉ c.outstanding) (staging : Bool) : s.settleDue p staging n c.seq = s := by
  unfold State.settleDue
  rw [found]
  dsimp only
  split
  · rfl
  · next d due => exact if_neg (by simpa [Cue.outstanding, due] using free)

/-! ### A narration cue alone in its auditorium -/

/-- Auditorium `a` as it is asked of when a block of its only cue passes. -/
structure Alike (a : Aud) (s t : State) : Prop where
  now : t.now = s.now
  clocks : t.clocks = s.clocks
  session : t.session a = s.session a
  store : t.store a = s.store a
  intake : t.intake a = s.intake a
  counters : t.audCounter a = s.audCounter a
  queue : ∀ m, audOfStream m = a → (t.stream m).queue = (s.stream m).queue
  lead : ∀ m, audOfStream m = a → (t.stream m).lead = (s.stream m).lead

namespace Alike

theorem refl (a : Aud) (s : State) : Alike a s s := ⟨rfl, rfl, rfl, rfl, rfl, rfl, fun _ _ => rfl, fun _ _ => rfl⟩

theorem trans (h : Alike a s t) (k : Alike a t u) : Alike a s u :=
  ⟨k.now.trans h.now, k.clocks.trans h.clocks, k.session.trans h.session, k.store.trans h.store, k.intake.trans h.intake,
    k.counters.trans h.counters, fun m of => (k.queue m of).trans (h.queue m of), fun m of => (k.lead m of).trans (h.lead m of)⟩

theorem of_sameShows (h : SameShows s t) (a : Aud) : Alike a s t :=
  ⟨h.now, h.clocks, by rw [State.session, h.sessions]; rfl, by rw [State.store, h.stores]; rfl, by rw [State.intake, h.intakes]; rfl,
    by rw [State.audCounter, h.counters]; rfl, fun m _ => by rw [h.stream], fun m _ => by rw [h.stream]⟩

theorem struckClear (h : Alike a s t) (m : StreamNo) : Alike a s (t.struckClear p m) := by
  refine h.trans ⟨rfl, rfl, rfl, rfl, rfl, rfl, fun k _ => ?_, fun k _ => ?_⟩
  all_goals
    rw [State.struckClear, State.onStream_stream]
    split <;> rfl

/-- A turn that finds none of the auditorium's cues. -/
theorem settleDue (h : Alike a s t) (m : StreamNo) (y : Seq) (absent : audOfStream m = a → s.findCue m y = none) :
    Alike a s (t.settleDue p false m y) := by
  by_cases of : audOfStream m = a
  · have absent' : t.findCue m y = none := by rw [State.findCue, h.queue m of]; exact absent of
    rw [State.settleDue, absent']
    exact h
  · have apart := Apart.settleDue t p false of y
    have work := Worked.settleDue (σ := none) (t := t) .refl p false m y
    exact h.trans ⟨work.now_eq, work.frame.2.2.2.1, apart.session, apart.store, apart.intake, apart.counters,
      fun k same => by rw [apart.streams k same], fun k same => by rw [apart.streams k same]⟩

theorem position (h : Alike a s t) : t.position a = s.position a := position_congr h.clocks a

theorem blockPassed (h : Alike (audOfStream n) s t) (c : Cue) (skipped : Bool) :
    Alike (audOfStream n) (s.blockPassed n c skipped) (t.blockPassed n c skipped) := by
  obtain ⟨tc, ts, ti, -, -⟩ := blockPassed_frame t n c skipped
  obtain ⟨sc, ss, si, -, -⟩ := blockPassed_frame s n c skipped
  have now (v : State) : (v.blockPassed n c skipped).now = v.now := by
    simp only [State.blockPassed, State.lastLeaves]
    split_ifs <;> rfl
  have store (v : State) : (v.blockPassed n c skipped).store (audOfStream n) =
      let asked (k : Nat) (st : Store) : Store := { st with
        freeing := st.freeing ++ [{ cells := k, tag := .none }], cellStart := if st.freeing = [] then v.now else st.cellStart }
      if c.length ≤ c.cursor + 1 then asked (1 + c.heldBodies) (v.store (audOfStream n))
      else if (c.bodies[c.cursor]?).join.isSome then asked 1 (v.store (audOfStream n)) else v.store (audOfStream n) := by
    cases skipped <;> simp only [State.blockPassed, State.lastLeaves] <;> split_ifs <;>
      simp_all [State.freeingAsked, State.withQueue, State.store]
  have counters (v : State) : (v.blockPassed n c skipped).audCounter (audOfStream n) =
      if skipped then { v.audCounter (audOfStream n) with skip := bump (v.audCounter (audOfStream n)).skip } else v.audCounter (audOfStream n) := by
    cases skipped <;> simp only [State.blockPassed, State.lastLeaves] <;> split_ifs <;>
      simp_all [State.freeingAsked, State.withQueue, State.audCounter]
  refine ⟨by rw [now, now, h.now], by rw [tc, sc, h.clocks], ?_, by rw [store, store, h.store, h.now], ?_, by rw [counters, counters, h.counters],
    fun m of => ?_, fun m of => ?_⟩
  · rw [State.session, ts, State.session, ss]
    exact h.session
  · rw [State.intake, ti, State.intake, si]
    exact h.intake
  · rw [blockPassed_queue, blockPassed_queue]
    split
    · rfl
    · exact h.queue m of
  · rw [blockPassed_queue, blockPassed_queue]
    split
    · exact h.lead m of
    · exact h.lead m of

end Alike

/-- The block of a narration cue alone in its auditorium passes when the last port owed it leaves. -/
theorem portOwesNothing_block (distinct : s.cuesDistinct) (only : s.onlyCue n c) (due : c.due = some d) (mem : p ∈ d.pending)
    (left : d.pending.filter (fun q => !(q == p)) = []) (kind : c.kind = .narration) (still : s.insertionRuns (audOfStream n) = false)
    (unmarked : (s.session (audOfStream n)).ending = false)
    (settled : c.length ≤ c.cursor + 1 ∨ s.position (audOfStream n) + (s.stream n).lead < c.start + 24 * (c.cursor + 1) ∨
      (s.store (audOfStream n)).purge ≠ none) :
    Alike (audOfStream n) (s.blockPassed n c (!d.staged)) (s.portOwesNothing p) := by
  have absent (m : StreamNo) (y : Seq) (ne : ¬ (m = n ∧ y = c.seq)) (of : audOfStream m = audOfStream n) : s.findCue m y = none := by
    by_cases same : m = n
    · subst same
      rw [State.findCue, only.1]
      simpa [findCue] using fun e : c.seq = y => ne ⟨rfl, e.symm⟩
    · rw [State.findCue, only.2 m same of]
      rfl
  have absent' (m : StreamNo) (y : Seq) (ne : ¬ (m = n ∧ y = c.seq)) (of : audOfStream m = audOfStream n) :
      (s.blockPassed n c (!d.staged)).findCue m y = none := by
    by_cases same : n = m
    · subst same
      have other : c.seq ≠ y := fun e => ne ⟨rfl, e.symm⟩
      rw [State.findCue, blockPassed_queue, if_pos rfl]
      dsimp only
      split
      · rfl
      · simpa [findCue, Cue.oneBlockOn] using other
    · rw [State.findCue, blockPassed_queue, if_neg same]
      exact absent m y ne of
  refine portOwesNothing_passes (x := c.seq) (n := n) (P := fun t => t.cuesDistinct ∧ Alike (audOfStream n) s t)
    (Q := fun t => Alike (audOfStream n) (s.blockPassed n c (!d.staged)) t) ⟨distinct, .refl _ s⟩ ?_ ?_ ?_ ?_ ?_ ?_
  · rintro t ⟨-, alike⟩
    rw [alike.queue n rfl, only.1]
    simp [seqs]
  · rintro t m ⟨distinct, alike⟩
    exact ⟨cuesDistinct_struckClear distinct m, alike.struckClear m⟩
  · rintro t m y ne ⟨distinct, alike⟩
    exact ⟨cuesDistinct_settleDue distinct m y, alike.settleDue m y (absent m y ne)⟩
  · rintro t ⟨-, alike⟩
    have still' : t.insertionRuns (audOfStream n) = false := by
      rw [State.insertionRuns, alike.intake]
      exact still
    have passes := settleDue_passes (s := t) ((alike.queue n rfl).trans only.1) due mem left kind still'
      (by rw [alike.session]; exact unmarked) (by rw [alike.position, alike.lead n rfl, alike.store]; exact settled) false
    rw [passes, Bool.or_false]
    exact alike.blockPassed c _
  · exact fun t m _ alike => alike.struckClear m
  · exact fun t m y ne alike => alike.settleDue m y (absent' m y ne)

/-- Settles O46. -/
theorem leavingPortOwesNothing : Obligations.LeavingPortOwesNothing := by
  intro p i dest s t leaves distinct ex
  have gone := left_of_leaving leaves ex
  refine ⟨fun n => gone.unowed distinct n, fun others n c mem => ?_⟩
  obtain ⟨w, shows_, away, landed⟩ := gone.still others
  have distinct' := shows_.cuesDistinct distinct
  have mem' : c ∈ (w.stream n).queue := by rw [shows_.stream]; exact mem
  refine ⟨fun free => ?_, fun d due owed => ?_⟩
  · rw [landed.stream]
    exact portOwesNothing_cue distinct' away mem' rfl fun v _ found => by
      rw [settleDue_free found free]
      exact List.mem_of_find?_eq_some found
  intro left
  refine ⟨fun more => ?_, fun none_ kind => ?_, fun none_ kind only still unmarked settled => ?_⟩
  · rw [landed.stream]
    refine portOwesNothing_cue distinct' away mem' rfl fun v _ found => ?_
    rw [settleDue_owes found due owed more, Bool.or_false]
    exact onCue_mem (f := fun x => { x with due := some { d with pending := left } }) found
  · rw [landed.stream]
    refine portOwesNothing_cue distinct' away mem' rfl fun v _ found => ?_
    rw [settleDue_onAir found due owed none_ kind]
    exact onCue_mem (f := fun x => { x with life := .onAir, due := none, resend := false }) found
  · have same := Alike.of_sameShows shows_ (audOfStream n)
    have passed := portOwesNothing_block (s := w) distinct' ⟨(same.queue n rfl).trans only.1, fun m ne of => (same.queue m of).trans (only.2 m ne of)⟩
      due owed none_ kind (by rw [State.insertionRuns, same.intake]; exact still) (by rw [same.session]; exact unmarked)
      (by rw [same.position, same.lead n rfl, same.store]; exact settled)
    have all := ((same.blockPassed c (!d.staged)).trans passed).trans (Alike.of_sameShows landed (audOfStream n))
    exact ⟨all.queue n rfl, all.counters, all.store⟩

end Sys2Proof.Machine
end

section
/-! PROOFS. What release and the fills leave of streams and stores, and the placing of an insertion (R75, R76, R104). -/

namespace Sys2Proof.Machine

variable {s t u v w : State} {a : Aud} {n m : StreamNo} {c d : Cue} {p : Port} {x : Seq} {f : StreamNo → State → Seq → State}

/-- The streams are as open as they were, and of the stores only the freeing units have changed. -/
structure Steady (s t : State) : Prop where
  open_ : ∀ m, (t.stream m).isOpen = (s.stream m).isOpen
  stores : ∀ b, (t.store b).otherThanFreeing (s.store b)

namespace Steady

theorem refl (s : State) : Steady s s := ⟨fun _ => rfl, fun _ => Store.otherThanFreeing_refl _⟩

theorem trans (h : Steady s t) (k : Steady t u) : Steady s u :=
  ⟨fun m => (k.open_ m).trans (h.open_ m), fun b => Store.otherThanFreeing_trans (k.stores b) (h.stores b)⟩

/-- A change elsewhere than in the streams and the stores. -/
theorem rest (h : Steady s t) (streams : u.streams = t.streams) (stores : u.stores = t.stores) : Steady s u :=
  ⟨fun m => by rw [State.stream, streams]; exact h.open_ m, fun b => by rw [State.store, stores]; exact h.stores b⟩

theorem onStream (h : Steady s t) (n : StreamNo) {g : Stream → Stream} (open_ : ∀ y, (g y).isOpen = y.isOpen) : Steady s (t.onStream n g) := by
  refine h.trans ⟨fun m => ?_, fun b => Store.otherThanFreeing_refl _⟩
  rw [State.onStream_stream]
  split
  · next same =>
    subst same
    exact open_ _
  · rfl

theorem onCue (h : Steady s t) (n : StreamNo) (x : Seq) (g : Cue → Cue) : Steady s (t.onCue n x g) := h.onStream n fun _ => rfl

theorem onCounters (h : Steady s t) (b : Aud) (g : AudCounters → AudCounters) : Steady s (t.onCounters b g) := h.rest rfl rfl

theorem onIntake (h : Steady s t) (b : Aud) (g : Intake → Intake) : Steady s (t.onIntake b g) := h.rest rfl rfl

theorem onLink (h : Steady s t) (q : Port) (g : LinkPort → LinkPort) : Steady s (t.onLink q g) := h.rest rfl rfl

theorem raiseAud (h : Steady s t) (b : Aud) (k : Byte) : Steady s (t.raiseAud b k) := h.rest rfl rfl

theorem foldl {α : Type} {g : State → α → State} (one : ∀ t y, Steady s t → Steady s (g t y)) (l : List α) :
    ∀ t, Steady s t → Steady s (l.foldl g t) := by
  induction l with
  | nil => exact fun _ h => h
  | cons y l ih => exact fun t h => ih _ (one t y h)

theorem oweClear (h : Steady s t) (n : StreamNo) : Steady s (t.oweClear n) := by
  rw [oweClear_eq]
  split
  · exact h
  · exact h.onStream n fun _ => rfl

theorem oweClears (h : Steady s t) (b : Aud) : Steady s (t.oweClears b) :=
  foldl (fun t k h => by
    rw [State.oweClearIfCaption]
    split
    · exact h.oweClear _
    · exact h) slots t h

theorem enterEnded (h : Steady s t) (b : Aud) : Steady s (t.enterEnded b) := by
  have ended : Steady s ((t.onRun b (fun r => r.atEnd (t.captureHold b))).onSession b (fun y => { y with state := .ended })) := h.rest rfl rfl
  rw [State.enterEnded]
  exact (ended.oweClears b).raiseAud b kindEnded

theorem endTest (h : Steady s t) (b : Aud) : Steady s (t.endTest b) := by
  rw [State.endTest]
  split
  · exact h.enterEnded b
  · exact h

theorem requestFree (h : Steady s t) (b : Aud) (cells : Nat) (tag : FreeTag) : Steady s (t.requestFree b cells tag) := by
  refine h.trans ⟨fun m => rfl, fun y => ?_⟩
  rw [State.requestFree, State.onStore_store]
  split
  · exact ⟨rfl, rfl, rfl, rfl, rfl, rfl⟩
  · exact Store.otherThanFreeing_refl _

theorem catchUpWalk (h : Steady s t) (b : Aud) (n : StreamNo) : Steady s (t.catchUpWalk b n) := by
  unfold State.catchUpWalk
  split
  · split
    · exact h.onIntake b _
    · exact h
  · exact h

theorem leaveQueue (h : Steady s t) (n : StreamNo) (x : Seq) : Steady s (t.leaveQueue n x) :=
  (h.catchUpWalk _ n).onStream n (g := fun st => { st with queue := dropCue x st.queue }) fun _ => rfl

theorem freeCue (h : Steady s t) (n : StreamNo) (c : Cue) (tag : FreeTag) : Steady s (t.freeCue n c tag) :=
  ((h.leaveQueue n c.seq).requestFree _ _ _).endTest _

theorem onLinkCounters (h : Steady s t) (q : Port) (g : LinkCounters → LinkCounters) : Steady s (t.onLinkCounters q g) := h.rest rfl rfl

theorem chargePorts (h : Steady s t) (l : List Port) : Steady s (t.chargePorts l) := foldl (fun _ _ h => h.onLinkCounters _ _) l t h

theorem expireCue (h : Steady s t) (n : StreamNo) (c : Cue) : Steady s (t.expireCue n c) := ((h.onCounters _ _).chargePorts _).freeCue n c .none

theorem takeNumber (h : Steady s t) (n : StreamNo) : Steady s (t.takeNumber n) := h.onStream n fun _ => rfl

theorem captionFallsDue (h : Steady s t) (n : StreamNo) (x : Seq) : Steady s (t.captionFallsDue n x) := by
  unfold State.captionFallsDue
  dsimp only
  split
  · exact ((h.onCue n x _).takeNumber n).onCounters _ _
  · exact (h.onCue n x _).takeNumber n

theorem reRelease (h : Steady s t) (n : StreamNo) (x : Seq) : Steady s (t.reRelease n x) := by
  unfold State.reRelease
  dsimp only
  split
  · exact h
  · exact ((h.onCue n x _).takeNumber n).onCounters _ _

theorem finishBlock (h : Steady s t) (n : StreamNo) (c : Cue) (skipped : Bool) : Steady s (t.finishBlock n c skipped) := by
  have counted : Steady s (if skipped then t.onCounters (audOfStream n) (fun k => { k with skip := bump k.skip }) else t) := by
    split
    · exact h.onCounters _ _
    · exact h
  rw [State.finishBlock]
  dsimp only
  generalize (if skipped then t.onCounters (audOfStream n) (fun k => { k with skip := bump k.skip }) else t) = v at counted ⊢
  split
  · exact counted.freeCue n c .none
  · split
    · exact (counted.onCue n _ _).requestFree _ _ _
    · exact counted.onCue n _ _

theorem lookAtBlocks (n : StreamNo) (x : Seq) (fuel : Nat) : ∀ t, Steady s t → Steady s (State.lookAtBlocks n x fuel t) := by
  induction fuel with
  | zero => exact fun _ h => h
  | succ fuel ih =>
    intro t h
    rw [State.lookAtBlocks]
    split
    · exact h
    · split
      · exact h
      · dsimp only
        split
        · split
          · exact ih _ ((h.onCue n x _).finishBlock n _ true)
          · split
            · exact ih _ ((((h.onCue n x _).takeNumber n).onCounters _ _).finishBlock n _ false)
            · exact ((h.onCue n x _).onCue n x _).takeNumber n
        · exact h

theorem releaseCue (h : Steady s t) (stale : Option Nat) (n : StreamNo) (x : Seq) : Steady s (State.releaseCue stale n t x) := by
  unfold State.releaseCue
  split
  · exact h
  · dsimp only
    split
    · split
      · split
        · exact h.expireCue n _
        · exact h.captionFallsDue n x
      · exact h
    · split
      · split
        · exact h.reRelease n x
        · exact h
      · exact h
    · exact lookAtBlocks n x _ _ h
    · exact h

theorem release (h : Steady s t) (b : Aud) (stale : Option Nat) : Steady s (t.release b stale) := by
  rw [State.release]
  split
  · exact foldl (fun _ k h => foldl (fun _ y h => h.releaseCue stale _ y) _ _ h) slots t h
  · exact h

theorem settleDue (h : Steady s t) (q : Port) (staging : Bool) (n : StreamNo) (x : Seq) : Steady s (t.settleDue q staging n x) := by
  unfold State.settleDue
  split
  · exact h
  · split
    · exact h
    · split
      · dsimp only
        split
        · split
          · exact h.onCue n x _
          · exact lookAtBlocks n x _ _ (h.finishBlock n _ _)
        · exact h.onCue n x _
      · exact h

theorem fill (h : Steady s t) (q : Port) : Steady s (t.fill q) := by
  have started (b : BufNo) (g : Frame) : Steady s (t.startFill q b g) := h.onLink q _
  unfold State.fill
  split
  · exact (started _ _).onLink q _
  · exact (started _ _).onStream _ fun _ => rfl
  · split
    · exact h
    · split
      · exact h
      · dsimp only
        refine settleDue ?_ q true _ _
        split
        · exact (started _ _).onCounters _ _
        · exact started _ _
  · exact h

theorem settleFills (h : Steady s t) : Steady s t.settleFills := by
  have rounds (fuel : Nat) : ∀ t, Steady s t → Steady s (State.settleFillsFuel fuel t) := by
    induction fuel with
    | zero => exact fun _ h => h
    | succ fuel ih =>
      intro t h
      rw [State.settleFillsFuel]
      split
      · exact h
      · exact ih _ ((h.rest rfl rfl : Steady s (t.onDraws (· + drawsOf (ports.filter t.mayFill)))).fill _)
  exact rounds 4 t h

end Steady

end Sys2Proof.Machine
end

section
/-! PROOFS. The sorted insertion places its cue, and what follows at once (R75, R76, R99, R104, R105, R107, R113). -/

namespace Sys2Proof.Machine

variable {s t u v w : State} {a : Aud} {n : StreamNo} {c d : Cue} {l m : List Cue} {k : Slot} {x : Seq} {σ : Option Aud}

/-! ### The place (R75) -/

theorem placeCue_split (c : Cue) (q : List Cue) : ∃ l m, q = l ++ m ∧ (∀ d ∈ l.getLast?, d.start ≤ c.start) ∧ (∀ d ∈ m, c.start < d.start) ∧
    placeCue c q = l ++ c :: m := by
  induction q with
  | nil => exact ⟨[], [], rfl, nofun, nofun, rfl⟩
  | cons d rest ih =>
    by_cases passes : (rest.any (fun e => decide (e.start ≤ c.start)) || decide (d.start ≤ c.start)) = true
    · obtain ⟨l, m, rfl, last, later, placed⟩ := ih
      refine ⟨d :: l, m, rfl, ?_, later, by rw [placeCue, if_pos passes, placed]; rfl⟩
      cases l with
      | cons e l => simpa using last
      | nil =>
        simp only [List.nil_append, Bool.or_eq_true, List.any_eq_true, decide_eq_true_eq] at passes
        have here : d.start ≤ c.start := passes.resolve_left fun ⟨e, mem, early⟩ => absurd early (Nat.not_le.mpr (later e mem))
        simpa using here
    · simp only [Bool.or_eq_true, List.any_eq_true, decide_eq_true_eq, not_or, not_exists, not_and, not_le] at passes
      refine ⟨[], d :: rest, rfl, nofun, ?_, ?_⟩
      · simpa using ⟨passes.2, passes.1⟩
      · rw [placeCue, if_neg (by simpa using ⟨passes.1, passes.2⟩)]
        rfl

/-- The cue stands in its queue as QUEUED between `l` and `m`, is counted, and the context is IDLE (R75). -/
def State.inserted (s : State) (a : Aud) (c : Cue) (l m : List Cue) : State :=
  ((s.onStream c.stream (fun st => { st with queue := l ++ { c with life := .queued } :: m })).onCounters a
    (fun x => { x with accepted := bump x.accepted })).setContext a .idle

theorem inserted_placed (placed : placeCue { c with life := .queued } (s.stream c.stream).queue = l ++ { c with life := .queued } :: m) :
    s.onStream c.stream (fun st => { st with queue := placeCue { c with life := .queued } st.queue }) =
      s.onStream c.stream (fun st => { st with queue := l ++ { c with life := .queued } :: m }) := by
  rw [← placed]
  exact congrArg (fun y => ({ s with streams := y } : State)) (change_congr rfl)

theorem placeInserted_releases (placed : placeCue { c with life := .queued } (s.stream c.stream).queue = l ++ { c with life := .queued } :: m)
    (closing : (s.store a).closeWaiting = none) : s.placeInserted a c = (s.inserted a c l m).release a none := by
  have closing' : ((s.inserted a c l m).store a).closeWaiting = none := closing
  rw [State.placeInserted, inserted_placed placed]
  unfold State.inserted at closing' ⊢
  simp only [closing']

theorem placeInserted_closes (placed : placeCue { c with life := .queued } (s.stream c.stream).queue = l ++ { c with life := .queued } :: m)
    (closing : (s.store a).closeWaiting = some k) : s.placeInserted a c =
      ((s.inserted a c l m).onStore a (fun st => { st with closeWaiting := none })).startPurge a (.close k) := by
  have closing' : ((s.inserted a c l m).store a).closeWaiting = some k := closing
  rw [State.placeInserted, inserted_placed placed]
  unfold State.inserted at closing' ⊢
  simp only [closing']

theorem placingDue_eq_some (a : Aud) (c : Cue) (s : State) : s.placingDue a = some c ↔
    s.fallsDue (.insertionPlaces a) ∧ ∃ w, (s.intake a).context = .inserting c w := by
  rw [← placingDue_iff]
  unfold State.placingDue
  cases (s.intake a).context with
  | inserting e w =>
    simp only [Context.inserting.injEq, exists_and_left, Option.isSome_ite]
    split <;> simp_all
  | idle => simp
  | opened e owed => simp
  | skipping owed => simp

theorem exec_insertionPlaces (due : s.placingDue a = some c) : exec (.insertionPlaces a) s = .next (s.placeInserted a c).settleFills := by
  rw [exec_insertionPlaces_eq, execInsertionPlaces, due]

/-! ### What stands -/

theorem inserted_store (b : Aud) : (s.inserted a c l m).store b = s.store b := rfl

theorem inserted_queue : ((s.inserted a c l m).stream c.stream).queue = l ++ { c with life := .queued } :: m := by
  simp [State.inserted, State.setContext]

theorem inserted_stream {i : StreamNo} (ne : i ≠ c.stream) : (s.inserted a c l m).stream i = s.stream i := by
  simp [State.inserted, State.setContext, Ne.symm ne]

theorem inserted_lead (i : StreamNo) : ((s.inserted a c l m).stream i).lead = (s.stream i).lead := by
  simp only [State.inserted, State.setContext, State.onIntake_stream, State.onCounters_stream, State.onStream_stream]
  split <;> rfl

theorem inserted_context : ((s.inserted a c l m).intake a).context = .idle := by simp [State.inserted, State.setContext]

theorem inserted_still : (s.inserted a c l m).insertionRuns a = false := by rw [State.insertionRuns, inserted_context]

/-- Background work takes cues out of a queue, and adds none. -/
theorem Worked.seqs_sublist (h : Worked σ s t) (n : StreamNo) : (seqs (t.stream n).queue).Sublist (seqs (s.stream n).queue) := by
  refine h.carries (P := fun u => (seqs (u.stream n).queue).Sublist (seqs (s.stream n).queue)) ?_ (List.Sublist.refl _)
  intro u v hn hu
  cases hn with
  | stream i f hf =>
    rw [State.onStream_stream]
    split
    · next same => rw [(hf _).1]; exact hu
    · exact hu
  | cue i x f hf =>
    rw [State.onCue, State.onStream_stream]
    split
    · next same =>
      subst same
      exact (seqs_changeCue x f (fun d => (hf d).2.1) _).symm ▸ hu
    · exact hu
  | drop i x =>
    rw [State.onStream_stream]
    split
    · next same =>
      subst same
      exact (List.filter_sublist.map Cue.seq).trans hu
    · exact hu
  | reply c r => obtain ⟨f, hf, -⟩ := placeReply_cases u c r; rw [hf]; exact hu
  | finish w => unfold State.finishWork; split <;> exact hu
  | _ => exact hu

/-- What an insertion's placing leaves of the part, whatever follows it. -/
theorem inserted_frame (work : Worked none (s.inserted a c l m) t) : s.tablesStand t ∧ s.othersStand t a ∧ s.linksStand t ∧ t.clock a = s.clock a ∧
    (t.audCounter a).own = { s.audCounter a with accepted := bump (s.audCounter a).accepted }.own ∧ (t.intake a).context = .idle ∧
    (seqs (t.stream c.stream).queue).Sublist (seqs l ++ c.seq :: seqs m) := by
  refine ⟨work.tablesStand ⟨rfl, rfl, rfl, rfl, rfl, rfl, rfl, rfl⟩, fun b ne => ?_, fun p => work.portStands rfl rfl rfl, work.clock_eq a, ?_, ?_, ?_⟩
  · refine work.audStands (by rintro ⟨⟩) rfl ⟨rfl, rfl, rfl, rfl, ?_, rfl, rfl, rfl⟩
    simp [State.inserted, State.setContext, ne.symm]
  · rw [work.own a]
    simp [State.inserted, State.setContext]
  · rw [work.context a (by rw [inserted_context]; rfl), inserted_context]
  · have sub := work.seqs_sublist c.stream
    rw [inserted_queue] at sub
    simpa [seqs] using sub

/-! ### Release looks (R104, R105, R107, R113) -/

theorem waits_congr (clocks : t.clocks = s.clocks) (lead : (t.stream n).lead = (s.stream n).lead) (d : Cue) : t.waits n d ↔ s.waits n d := by
  simp only [State.waits, position_congr clocks, lead]

theorem inserted_waits (i : StreamNo) (d : Cue) : (s.inserted a c l m).waits i d ↔ s.waits i d :=
  waits_congr (s := s) (t := s.inserted a c l m) rfl (inserted_lead i) d

/-- Release leaves the cues of a queue that wait. -/
theorem releaseCue_stays (distinct : (seqs (s.stream n).queue).Nodup) (mem : d ∈ (s.stream n).queue) (waits : s.waits n d) :
    State.releaseCue none n s d.seq = s := releaseCue_waits (findCue_of_mem distinct mem) waits

/-- Release among cues that wait does what it does at one cue. -/
theorem release_among (releases : s.releases (audOfStream n) = true) (distinct : ∀ i, (seqs (s.stream i).queue).Nodup)
    (queue : (s.stream n).queue = l ++ c :: m) (here : State.releaseCue none n s c.seq = t) (beside : Beside s t n)
    (left : (seqs (t.stream n).queue).Nodup) (behind : ∀ e ∈ m, e ∈ (t.stream n).queue)
    (waits : ∀ e, e ∈ l ∨ e ∈ m → s.waits n e) (others : ∀ i, i ≠ n → audOfStream i = audOfStream n → ∀ e ∈ (s.stream i).queue, s.waits i e) :
    s.release (audOfStream n) none = t := by
  have elsewhere (v : State) (clocks : v.clocks = s.clocks) (streams : ∀ i, i ≠ n → v.stream i = s.stream i) (j : Slot) (ne : j ≠ slotOfStream n) :
      v.eachCue (streamOf (audOfStream n) j) (State.releaseCue none) = v := by
    have away := streamOf_ne ne
    refine eachCue_stays fun y mem => ?_
    obtain ⟨e, memE, rfl⟩ := List.mem_map.mp mem
    have same := streams _ away
    refine releaseCue_stays (by rw [same]; exact distinct _) memE ((waits_congr clocks (by rw [same]) e).mpr ?_)
    exact others _ away (audOfStream_streamOf' _ _) e (by rw [← same]; exact memE)
  rw [State.release, if_pos releases]
  refine eachCueOf_at (slotOfStream n) (elsewhere s rfl fun _ _ => rfl) ?_ (elsewhere t beside.clocks beside.streams)
  rw [streamOf_self]
  refine eachCue_at queue (fun y mem => ?_) here fun y mem => ?_
  · obtain ⟨e, memE, rfl⟩ := List.mem_map.mp mem
    exact releaseCue_stays (distinct n) (by rw [queue]; exact List.mem_append_left _ memE) (waits e (.inl memE))
  · obtain ⟨e, memE, rfl⟩ := List.mem_map.mp mem
    exact releaseCue_stays left (behind e memE) ((waits_congr beside.clocks beside.lead e).mpr (waits e (.inr memE)))

theorem captionReleasedIn_queue (s : State) (n : StreamNo) (l m : List Cue) (c : Cue) :
    ((s.captionReleasedIn n l m c).stream n).queue = l ++ m ∨
      ∃ e : Cue, e.seq = c.seq ∧ ((s.captionReleasedIn n l m c).stream n).queue = l ++ e :: m := by
  rw [State.captionReleasedIn]
  split
  · exact .inl (by simp [State.expires, State.freeingAsked, State.withQueue, State.stream])
  · split
    · exact .inr ⟨{ c with life := .onAir }, rfl, by simp [State.unroutedCounted, State.withQueue, State.stream]⟩
    · exact .inr ⟨{ c with life := .due, due := some (s.newDue n) }, rfl, by simp [State.withQueue, State.stream]⟩

/-- The placed cue's release, as R105 and R107 say it (R104). -/
theorem inserted_released (distinct : ∀ i, (seqs ((s.inserted a c l m).stream i).queue).Nodup) (of : audOfStream c.stream = a)
    (releasing : (s.session a).state.isReleasing = true) (below : s.position a < 43199999) (purge : (s.store a).purge = none)
    (unmarked : (s.session a).ending = false) (due : c.due = none)
    (lists : (s.stream c.stream).queue = l ++ m) (waits : ∀ k, ∀ x ∈ (s.stream (streamOf a k)).queue, s.waits (streamOf a k) x) :
    (s.waits c.stream { c with life := .queued } → (s.inserted a c l m).release a none = s.inserted a c l m) ∧
    (c.kind = .caption → c.start ≤ s.position a + (s.stream c.stream).lead → (s.inserted a c l m).release a none =
      (s.inserted a c l m).captionReleasedIn c.stream l m { c with life := .queued }) := by
  subst of
  have queue : ((s.inserted (audOfStream c.stream) c l m).stream c.stream).queue = l ++ { c with life := .queued } :: m := inserted_queue
  have placed : Placed ((s.inserted (audOfStream c.stream) c l m).stream c.stream).queue l { c with life := .queued } m := by
    have nodup := distinct c.stream
    rw [queue] at nodup ⊢
    exact placed_of_nodup nodup
  have releases : (s.inserted (audOfStream c.stream) c l m).releases (audOfStream c.stream) = true := releases_of releasing purge below
  have inAud (i : StreamNo) (same : audOfStream i = audOfStream c.stream) : ∀ e ∈ (s.stream i).queue, s.waits i e := by
    have all := waits (slotOfStream i)
    rwa [← same, streamOf_self] at all
  have around : ∀ e, e ∈ l ∨ e ∈ m → (s.inserted (audOfStream c.stream) c l m).waits c.stream e := fun e mem =>
    (inserted_waits _ e).mpr (inAud c.stream rfl e (by rw [lists]; exact List.mem_append.mpr mem))
  have others : ∀ i, i ≠ c.stream → audOfStream i = audOfStream c.stream → ∀ e ∈ ((s.inserted (audOfStream c.stream) c l m).stream i).queue,
      (s.inserted (audOfStream c.stream) c l m).waits i e := fun i ne same e mem => by
    rw [inserted_stream ne] at mem
    exact (inserted_waits _ e).mpr (inAud i same e mem)
  refine ⟨fun still => ?_, fun kind early => ?_⟩
  · refine release_among releases distinct queue ?_ (.refl _ _) (distinct _) (fun e mem => ?_) around others
    · exact releaseCue_waits placed.find ((inserted_waits _ _).mpr still)
    · rw [queue]
      exact List.mem_append_right _ (List.mem_cons_of_mem _ mem)
  · have here := releaseCue_caption placed kind rfl due inserted_still unmarked none
    rw [if_neg (by rw [inserted_lead]; exact Nat.not_lt.mpr early)] at here
    have nodup := distinct c.stream
    rw [queue] at nodup
    refine release_among releases distinct queue here (beside_captionReleasedIn _ _ _ _ _) ?_ (fun e mem => ?_) around others
    · rcases captionReleasedIn_queue (s.inserted (audOfStream c.stream) c l m) c.stream l m { c with life := .queued } with gone | ⟨e, same, stays⟩
      · rw [gone]
        refine nodup.sublist ?_
        simp [seqs]
      · rw [stays]
        simpa [seqs, same] using nodup
    · rcases captionReleasedIn_queue (s.inserted (audOfStream c.stream) c l m) c.stream l m { c with life := .queued } with gone | ⟨e, -, stays⟩
      · rw [gone]
        exact List.mem_append_right _ mem
      · rw [stays]
        exact List.mem_append_right _ (List.mem_cons_of_mem _ mem)

/-- The caption's release in the words of the state before its placing. -/
theorem inserted_captionReleased (of : audOfStream c.stream = a) :
    (s.inserted a c l m).captionReleasedIn c.stream l m { c with life := .queued } =
      if c.start + c.length ≤ s.position a then
        (((s.inserted a c l m).withQueue c.stream (l ++ m)).onCounters a (fun x => { x with expired := bump x.expired })).freeingAsked a
          (1 + c.heldBodies) .none
      else if s.carriers c.stream = [] then
        (((s.inserted a c l m).numbered c.stream).withQueue c.stream (l ++ { c with life := .onAir } :: m)).unroutedCounted a
      else ((s.inserted a c l m).numbered c.stream).withQueue c.stream (l ++ { c with life := .due, due := some (s.newDue c.stream) } :: m) := by
  subst of
  have stream : (s.inserted (audOfStream c.stream) c l m).stream c.stream =
      { s.stream c.stream with queue := l ++ { c with life := .queued } :: m } := by simp [State.inserted, State.setContext]
  have carriers : (s.inserted (audOfStream c.stream) c l m).carriers c.stream = s.carriers c.stream :=
    carriers_congr rfl (by rw [stream]) (by rw [stream])
  have newDue : (s.inserted (audOfStream c.stream) c l m).newDue c.stream = s.newDue c.stream := by
    rw [State.newDue, carriers, stream]
    rfl
  rw [State.captionReleasedIn, carriers, newDue, State.expires, lapses_nil]
  rfl

/-! ### A CLOSE-STREAM that waited (R76, R84, R99) -/

theorem endPurge_eq (s : State) (a : Aud) (kind : PurgeKind) : s.endPurge a kind =
    ((((s.onStore a (fun st => { st with purge := none })).purgeClosed a kind).release a
      (((s.onStore a (fun st => { st with purge := none })).purgeClosed a kind).store a).staleWaiting).onStore a
      (fun st => { st with staleWaiting := none })).endTest a := by cases kind <;> rfl

/-- A purge opens no stream. -/
theorem shut_purgeClosed {i : StreamNo} (shut : (s.stream i).isOpen = false) (kind : PurgeKind) : ((s.purgeClosed a kind).stream i).isOpen = false := by
  cases kind with
  | close k =>
    rw [State.purgeClosed, finishWork_frame]
    refine (congrArg Stream.isOpen (State.onStream_stream ..)).trans ?_
    split
    · rfl
    · exact shut
  | teardown =>
    rw [State.purgeClosed, finishWork_frame]
    exact shut
  | forward _ | backward _ | withdraw _ _ | saturation => exact shut

theorem shut_endPurge {i : StreamNo} (shut : (s.stream i).isOpen = false) (kind : PurgeKind) : ((s.endPurge a kind).stream i).isOpen = false := by
  rw [endPurge_eq, (Steady.endTest (.refl _) a).open_ i, State.onStore_stream, (Steady.release (.refl _) a _).open_ i]
  exact shut_purgeClosed (by exact shut) kind

theorem removeInProgress_streams (s : State) (a : Aud) : (s.removeInProgress a).streams = s.streams := by
  cases none_ : (s.intake a).context.cue with
  | none =>
    have still : s.cueInProgress a = false := by cases e : (s.intake a).context <;> simp_all [State.cueInProgress, Context.cue]
    rw [removeInProgress_none still]
  | some c =>
    obtain ⟨f, removed, -⟩ := removeInProgress_some none_
    rw [removed]
    rfl

theorem shut_beginPurge {i : StreamNo} (shut : (s.stream i).isOpen = false) (kind : PurgeKind) : ((s.beginPurge a kind).stream i).isOpen = false := by
  cases kind with
  | forward _ | backward _ =>
    rw [State.beginPurge, State.onStore_stream, (Steady.oweClears (.refl s) a).open_ i]
    exact shut
  | saturation | teardown =>
    rw [State.beginPurge, State.onStore_stream, State.stream, removeInProgress_streams]
    exact shut
  | withdraw _ _ | close _ => exact shut

theorem shut_nextPurge {i : StreamNo} (shut : (s.stream i).isOpen = false) : ((s.nextPurge a).stream i).isOpen = false := by
  unfold State.nextPurge
  split
  · exact shut_beginPurge (by exact shut) _
  · split
    · exact shut_beginPurge (by exact shut) _
    · exact shut

theorem shut_runPurge {i : StreamNo} (fuel : Nat) : ∀ s : State, (s.stream i).isOpen = false → ((State.runPurge a fuel s).stream i).isOpen = false := by
  induction fuel with
  | zero => exact fun _ shut => shut
  | succ fuel ih =>
    intro s shut
    rw [State.runPurge]
    split
    · exact shut
    · split
      · exact shut
      · split
        · exact shut
        · split
          · exact shut
          · exact ih _ (shut_nextPurge (shut_endPurge shut _))

/-- A held response stands through background work. -/
theorem Worked.held (h : Worked σ s t) {r : Response} (held : s.mgmt.transport = .held r) : t.mgmt.transport = .held r := by
  refine h.carries (P := fun u => u.mgmt.transport = .held r) ?_ held
  intro u v hn hu
  cases hn with
  | reply b r => obtain ⟨f, hf, -⟩ := placeReply_cases u b r; rw [hf]; exact hu
  | finish w =>
    rw [State.finishWork, if_neg (by rw [hu]; nofun)]
    exact hu
  | _ => exact hu

/-- A CLOSE-STREAM of a stream without cues ends at once: its stream is closed, the command in flight is DONE, and the purge is gone where no
saturation purge is owed. -/
theorem startPurge_close_shuts (queue : (s.stream (streamOf a k)).queue = []) (closing : (s.store a).closeWaiting = none) :
    (((s.startPurge a (.close k)).settleFills).stream (streamOf a k)).isOpen = false ∧
    (s.mgmt.transport = .working (.closeStream a) →
      ((s.startPurge a (.close k)).settleFills).mgmt.transport = .held { code := .done, command := 6, fields := [] }) ∧
    ((s.store a).saturationOwed = false → (((s.startPurge a (.close k)).settleFills).store a).purge = none) := by
  have begun : s.beginPurge a (.close k) = s.onStore a (fun st => { st with
      purge := some { kind := .close k, todo := [], current := none, stepStart := s.now, waiting := false } }) := by
    rw [State.beginPurge, State.purgeOrder, State.walkOf, queue]
    rfl
  obtain ⟨x, x_eq⟩ : ∃ x, x = (s.onStore a (fun st => { st with purge := none })).purgeClosed a (.close k) := ⟨_, rfl⟩
  have same : (s.beginPurge a (.close k)).onStore a (fun st => { st with purge := none }) = s.onStore a (fun st => { st with purge := none }) := by
    rw [begun, onStore_onStore]
  have ends : s.startPurge a (.close k) = State.runPurge a 3 ((((x.release a (x.store a).staleWaiting).onStore a (fun st => { st with
      staleWaiting := none })).endTest a).nextPurge a) := by
    rw [startPurge_eq, runPurge_ends (s := s.beginPurge a (.close k)) (by rw [begun, State.onStore_store, if_pos rfl]) rfl rfl rfl (by rintro ⟨⟩),
      endPurge_eq, same, x_eq]
  have x_store : x.store a = { s.store a with purge := none } := by
    rw [x_eq, purgeClosed_frame]
    exact (State.onStore_store ..).trans (if_pos rfl)
  have x_shut : (x.stream (streamOf a k)).isOpen = false := by
    rw [x_eq, State.purgeClosed, finishWork_frame]
    exact congrArg Stream.isOpen ((State.onStream_stream ..).trans (if_pos rfl))
  generalize x_looks : x.release a (x.store a).staleWaiting = y at ends
  have looks : Steady x y := x_looks ▸ Steady.release (.refl x) a _
  have tested : Steady (y.onStore a (fun st => { st with staleWaiting := none })) ((y.onStore a (fun st => { st with staleWaiting := none })).endTest a) :=
    Steady.endTest (.refl _) a
  have worked : Worked none x ((y.onStore a (fun st => { st with staleWaiting := none })).endTest a) := by
    refine Worked.endTest (Worked.store (x_looks ▸ Worked.release .refl a _) a _ ?_) a
    exact fun _ => ⟨rfl, rfl⟩
  generalize (y.onStore a (fun st => { st with staleWaiting := none })).endTest a = z at ends tested worked
  have z_shut : (z.stream (streamOf a k)).isOpen = false := by
    rw [tested.open_, State.onStore_stream, looks.open_, x_shut]
  refine ⟨?_, fun working => ?_, fun owed => ?_⟩
  · rw [(Steady.settleFills (.refl _)).open_, ends]
    exact shut_runPurge 3 _ (shut_nextPurge z_shut)
  · have held : x.mgmt.transport = .held { code := .done, command := 6, fields := [] } := by
      have working' : ((s.onStore a (fun st => { st with purge := none })).onStream (streamOf a k) (fun st => { st with isOpen := false })).mgmt.transport =
        .working (.closeStream a) := working
      rw [x_eq, State.purgeClosed, State.finishWork, if_pos working']
      rfl
    rw [ends]
    exact (Worked.settleFills (Worked.runPurge a 3 (Worked.nextPurge worked a))).held held
  · obtain ⟨-, -, purge, satOwed, close, -⟩ := tested.stores a
    obtain ⟨-, -, purge', satOwed', close', -⟩ := looks.stores a
    rw [State.onStore_store, if_pos rfl] at purge satOwed close
    have z_purge : (z.store a).purge = none := by rw [purge, purge', x_store]
    have z_owed : (z.store a).saturationOwed = false := by rw [satOwed, satOwed', x_store]; exact owed
    have z_close : (z.store a).closeWaiting = none := by rw [close, close', x_store]; exact closing
    obtain ⟨-, -, kept, -⟩ := (Steady.settleFills (.refl (s.startPurge a (.close k)))).stores a
    rw [kept, ends, nextPurge_none z_owed z_close, runPurge_none z_purge, z_purge]

theorem worked_placeInserted (placed : placeCue { c with life := .queued } (s.stream c.stream).queue = l ++ { c with life := .queued } :: m) :
    Worked none (s.inserted a c l m) (s.placeInserted a c) := by
  cases closing : (s.store a).closeWaiting with
  | none =>
    rw [placeInserted_releases placed closing]
    exact Worked.release .refl a none
  | some k =>
    rw [placeInserted_closes placed closing]
    refine Worked.startPurge (Worked.store .refl a _ ?_) a _
    exact fun _ => ⟨rfl, rfl⟩

theorem inserted_distinct (distinct : ∀ i, (seqs (s.stream i).queue).Nodup) (new : c.seq ∉ seqs (s.stream c.stream).queue)
    (lists : (s.stream c.stream).queue = l ++ m) (i : StreamNo) : (seqs ((s.inserted a c l m).stream i).queue).Nodup := by
  by_cases same : i = c.stream
  · subst same
    have parts : seqs (l ++ { c with life := .queued } :: m) = seqs l ++ c.seq :: seqs m := by simp [seqs]
    have before : seqs (s.stream c.stream).queue = seqs l ++ seqs m := by rw [lists]; simp [seqs]
    rw [inserted_queue, parts, List.nodup_middle, List.nodup_cons, ← before]
    exact ⟨new, distinct c.stream⟩
  · rw [inserted_stream same]
    exact distinct i

/-- Settles O35. -/
theorem insertionPlaces : Obligations.InsertionPlaces := by
  refine ⟨placingDue_eq_some, fun a c s due => ?_⟩
  obtain ⟨l, m, lists, last, later, placed⟩ := placeCue_split { c with life := .queued } (s.stream c.stream).queue
  have work : Worked none (s.inserted a c l m) (s.placeInserted a c).settleFills := Worked.settleFills (worked_placeInserted placed)
  obtain ⟨tables, others, links, clock, own, context, sub⟩ := inserted_frame work
  refine ⟨_, exec_insertionPlaces due, tables, others, links, clock, own, context, l, m, lists, last, later, sub, ?_⟩
  intro d u
  have still {v : State} (same : v.links = s.links) (busy : s.ringsBusy) : v.settleFills = v := settleFills_still same busy
  have u_eq : u = s.inserted a c l m := rfl
  refine ⟨fun idle closing busy => ?_, fun releasing below purge closing unmarked busy distinct due_ waits => ?_,
    fun of due_ releasing below purge closing unmarked busy empty one => ?_, fun k closing of => ⟨fun x rest queue busy => ?_, fun empty => ?_⟩⟩
  · rw [placeInserted_releases placed closing, State.release, releases_of_not (by exact idle)]
    exact still rfl busy
  · obtain ⟨-, w, inserting⟩ := (placingDue_eq_some a c s).mp due
    obtain ⟨of, new, -⟩ := distinct.2 a c (by rw [inserting]; rfl)
    have released := inserted_released (inserted_distinct (fun i => (distinct.1 i).1) new lists) of releasing below purge unmarked due_ lists waits
    intro n p
    rw [placeInserted_releases placed closing]
    refine ⟨fun waiting => ?_, fun kind early => ?_⟩
    · rw [released.1 waiting]
      exact still rfl busy
    · rw [released.2 kind early]
      exact (still (beside_captionReleasedIn (s.inserted a c l m) _ l m _).links busy).trans (inserted_captionReleased of)
  · subst of
    have nothing : (s.stream c.stream).queue = [] := (queuesEmpty_iff s _).mp empty c.stream rfl
    obtain ⟨rfl, rfl⟩ := List.append_eq_nil_iff.mp (lists.symm.trans nothing)
    have only : (s.inserted (audOfStream c.stream) c [] []).onlyCue c.stream d :=
      ⟨inserted_queue, fun i ne same => by rw [inserted_stream ne]; exact (queuesEmpty_iff s _).mp empty i same⟩
    have releases : (s.inserted (audOfStream c.stream) c [] []).releases (audOfStream c.stream) = true := releases_of releasing purge below
    rw [placeInserted_releases placed closing, release_cueReleased only releases inserted_still unmarked due_ (.inl rfl) one]
    exact still (beside_cueReleased _ _ d).links busy
  · have started := startPurge_close (s := u.onStore a (fun st => { st with closeWaiting := none })) queue
    rw [placeInserted_closes placed closing, ← u_eq, started, onStore_onStore]
    exact still rfl busy
  · have shuts := startPurge_close_shuts (s := u.onStore a (fun st => { st with closeWaiting := none })) empty
      (by rw [State.onStore_store, if_pos rfl])
    rw [placeInserted_closes placed closing, ← u_eq]
    refine ⟨shuts.1, shuts.2.1, fun owed => shuts.2.2 ?_⟩
    rw [State.onStore_store, if_pos rfl]
    exact owed

end Sys2Proof.Machine
end

section
/-! PROOFS. The law of the cue store, part by part, and the background work that keeps every used count, every request and every cue's cells
accounted for (R88, R90, R91, R92). -/

namespace Sys2Proof.Machine

variable {s t u v w : State} {a b : Aud} {n m : StreamNo} {c d : Cue} {p : Port} {x : Seq} {i : Instr}

/-! ### The commands that cannot touch the cue store -/

theorem Deed.sameCells (h : Deed i s t) (hi : changesCells i = false) : s.sameCells t := by
  have runs : changesRuns i = false := by
    by_contra on
    rw [changesCells_of_runs (by simpa using on)] at hi
    cases hi
  have clocks : changesClocks i = false := by
    by_contra on
    simp [changesCells, show changesClocks i = true by simpa using on] at hi
  cases h with
  | take _ _ _ same => exact same.resolve_left (by rw [hi]; decide)
  | stream n f hf => exact ⟨rfl, rfl, rfl, fun _ => rfl, onStream_queue hf⟩
  | gate a v =>
    refine ⟨rfl, rfl, rfl, fun b => ?_, fun _ => rfl⟩
    rw [State.onSession_session]
    split <;> rfl
  | configured a q w l on => rw [clocks] at on; cases on
  | armed a r on => rw [clocks] at on; cases on
  | disarmed a on => rw [clocks] at on; cases on
  | _ => exact ⟨rfl, rfl, rfl, fun _ => rfl, fun _ => rfl⟩

theorem Done.sameCells (h : Done i s t) (hi : changesCells i = false) : s.sameCells t := by
  induction h with
  | refl => exact .refl s
  | step _ hd ih => exact ih.trans (hd.sameCells hi)

/-! ### The law, part by part -/

/-- What the law says of one auditorium, whatever its session and its purge (R70, R74, R88, R90, R91). -/
structure State.account (s : State) (a : Aud) : Prop where
  used : (s.store a).used = s.cellsOf a
  within : (s.store a).used ≤ (s.store a).quota
  opened : ∀ c owed, (s.intake a).context = .opened c owed → 1 ≤ owed ∧ (s.store a).used + owed ≤ (s.store a).quota
  requests : ∀ q ∈ (s.store a).freeing, 1 ≤ q.cells
  waits : ∀ n, .skip n ∉ (s.intake a).deferred.tail ∧ ((s.intake a).deferred.head? = some (.skip n) → (s.intake a).context.cue = none)

/-- What the law says of the whole part, whatever the sessions and the purges. -/
structure State.ledger (s : State) : Prop where
  quotas : s.quotasWf
  distinct : s.cuesDistinct
  total : (auds.map (fun a => (s.store a).used)).sum + s.freeCells = 8192
  account : ∀ a, s.account a

/-- A saturation purge is owed only while another runs (R93). -/
def State.owesPurge (s : State) (a : Aud) : Prop := (s.store a).saturationOwed = true → (s.store a).purge ≠ none

/-- A DARK auditorium holds what R90, R93 and R101 let it hold. -/
def State.darkHolds (s : State) (a : Aud) : Prop := (s.session a).state = .dark → s.darkCells a

theorem cellsWf_iff (s : State) : s.cellsWf ↔ s.ledger ∧ ∀ a, s.owesPurge a ∧ s.darkHolds a := by
  constructor
  · rintro ⟨quotas, distinct, total, each⟩
    refine ⟨⟨quotas, distinct, total, fun a => ?_⟩, fun a => ?_⟩
    · obtain ⟨used, within, opened, requests, -, waits, -⟩ := each a
      exact ⟨used, within, opened, requests, waits⟩
    · obtain ⟨-, -, -, -, owes, -, dark⟩ := each a
      exact ⟨owes, dark⟩
  · rintro ⟨⟨quotas, distinct, total, account⟩, rest⟩
    refine ⟨quotas, distinct, total, fun a => ?_⟩
    obtain ⟨used, within, opened, requests, waits⟩ := account a
    exact ⟨used, within, opened, requests, (rest a).1, waits, (rest a).2⟩

/-! ### Cells counted -/

/-- The cells of a stream's cues. -/
def State.queueCells (s : State) (n : StreamNo) : Nat := ((s.stream n).queue.map Cue.cells).sum

theorem cellsOf_eq (s : State) (a : Aud) : s.cellsOf a = (slots.map fun k => s.queueCells (streamOf a k)).sum +
    ((s.intake a).context.cue.map Cue.cells).getD 0 + ((s.store a).freeing.map FreeRequest.cells).sum := rfl

/-- A sum over every index where one summand changes. -/
theorem sum_change {k : Nat} {f g : Fin k → Nat} (j : Fin k) (same : ∀ i, i ≠ j → f i = g i) :
    ((List.finRange k).map f).sum + g j = ((List.finRange k).map g).sum + f j := by
  obtain ⟨l, r, split⟩ := List.append_of_mem (List.mem_finRange j)
  have once : (l ++ j :: r).Nodup := split ▸ List.nodup_finRange k
  have notIn : j ∉ l ++ r := (List.nodup_cons.mp (List.nodup_middle.mp once)).1
  have before : l.map f = l.map g := List.map_congr_left fun i mem => same i fun e => notIn (e ▸ List.mem_append_left _ mem)
  have after : r.map f = r.map g := List.map_congr_left fun i mem => same i fun e => notIn (e ▸ List.mem_append_right _ mem)
  rw [split]
  simp only [List.map_append, List.map_cons, List.sum_append, List.sum_cons, before, after]
  omega

/-- The cells of an auditorium's queues where one stream's change. -/
theorem queued_change (others : ∀ i, i ≠ n → t.queueCells i = s.queueCells i) :
    (slots.map fun k => t.queueCells (streamOf (audOfStream n) k)).sum + s.queueCells n =
      (slots.map fun k => s.queueCells (streamOf (audOfStream n) k)).sum + t.queueCells n := by
  have change := sum_change (f := fun k => t.queueCells (streamOf (audOfStream n) k)) (g := fun k => s.queueCells (streamOf (audOfStream n) k))
    (slotOfStream n) fun k ne => others _ (streamOf_ne ne)
  simpa only [streamOf_self, slots] using change

theorem queued_same (others : ∀ i, i ≠ n → t.queueCells i = s.queueCells i) (ne : audOfStream n ≠ a) :
    (slots.map fun k => t.queueCells (streamOf a k)).sum = (slots.map fun k => s.queueCells (streamOf a k)).sum := by
  refine congrArg List.sum (List.map_congr_left fun k _ => others _ fun same => ne ?_)
  rw [← same, audOfStream_streamOf']

/-! ### Background work and the books -/

/-- Every count, request and context of the cue store is in `t` as in `s`, but for cells that went from cues to requests. -/
structure Books (s t : State) : Prop where
  distinct : t.cuesDistinct
  free : t.freeCells = s.freeCells
  quota : ∀ a, (t.store a).quota = (s.store a).quota
  used : ∀ a, (t.store a).used = (s.store a).used
  cells : ∀ a, t.cellsOf a = s.cellsOf a
  requests : ∀ a, (∀ q ∈ (s.store a).freeing, 1 ≤ q.cells) → ∀ q ∈ (t.store a).freeing, 1 ≤ q.cells
  deferred : ∀ a, (t.intake a).deferred = (s.intake a).deferred
  cue : ∀ a, (s.intake a).context.cue = none → (t.intake a).context.cue = none
  opened : ∀ a c k, (t.intake a).context = .opened c k → (s.intake a).context = .opened c k

theorem Books.trans (h : Books s t) (k : Books t u) : Books s u :=
  ⟨k.distinct, k.free.trans h.free, fun a => (k.quota a).trans (h.quota a), fun a => (k.used a).trans (h.used a),
    fun a => (k.cells a).trans (h.cells a), fun a all => k.requests a (h.requests a all), fun a => (k.deferred a).trans (h.deferred a),
    fun a none_ => k.cue a (h.cue a none_), fun a c j open_ => h.opened a c j (k.opened a c j open_)⟩

theorem Books.account (h : Books s t) (l : s.account a) : t.account a := by
  refine ⟨by rw [h.used, h.cells, l.used], by rw [h.used, h.quota]; exact l.within, fun c owed open_ => ?_, h.requests a l.requests, fun n => ?_⟩
  · rw [h.used, h.quota]
    exact l.opened c owed (h.opened a c owed open_)
  · rw [h.deferred]
    exact ⟨(l.waits n).1, fun head => h.cue a ((l.waits n).2 head)⟩

theorem Books.ledger (h : Books s t) (l : s.ledger) : t.ledger := by
  refine ⟨?_, h.distinct, ?_, fun a => h.account (l.account a)⟩
  · have quotas := l.quotas
    simp only [State.quotasWf, State.quotaTotal] at quotas ⊢
    simpa only [h.quota] using quotas
  · simpa only [h.used, h.free] using l.total

/-- Auditorium `a`'s purge, and what it may hold in DARK, are in `t` as in `s`. -/
structure Stands (s t : State) (a : Aud) : Prop where
  purge : (t.store a).purge = (s.store a).purge
  owed : (t.store a).saturationOwed = (s.store a).saturationOwed
  closing : (t.store a).closeWaiting = (s.store a).closeWaiting
  queue : ∀ k, seqs (t.stream (streamOf a k)).queue ⊆ seqs (s.stream (streamOf a k)).queue
  dark : (t.session a).state = .dark → (s.session a).state = .dark

theorem Stands.trans (h : Stands s t a) (k : Stands t u a) : Stands s u a :=
  ⟨k.purge.trans h.purge, k.owed.trans h.owed, k.closing.trans h.closing, fun j => List.Subset.trans (k.queue j) (h.queue j), fun dark => h.dark (k.dark dark)⟩

theorem Stands.owesPurge (h : Stands s t a) (l : s.owesPurge a) : t.owesPurge a := by
  rw [State.owesPurge, h.purge, h.owed]
  exact l

/-- Every cue of an auditorium's queues is named by its purge's walk. -/
def State.walkNames (s : State) (a : Aud) (p : Purge) : Prop :=
  ∀ k, ∀ x ∈ seqs (s.stream (streamOf a k)).queue, (k, x) ∈ p.todo ∨ p.current = some (k, x)

theorem walkNames_iff (s : State) (a : Aud) (p : Purge) : s.walkNames a p ↔
    ∀ k, ∀ c ∈ (s.stream (streamOf a k)).queue, (k, c.seq) ∈ p.todo ∨ p.current = some (k, c.seq) := by
  simp only [State.walkNames, seqs, List.forall_mem_map]

theorem darkCells_iff (s : State) (a : Aud) : s.darkCells a ↔ (s.intake a).context.cue = none ∧ (s.store a).saturationOwed = false ∧
    ((s.store a).purge = none → (s.store a).used = 0) ∧ ∀ p, (s.store a).purge = some p → p.kind = .teardown ∧ s.walkNames a p := by
  rw [State.darkCells]
  simp only [walkNames_iff]
  cases (s.store a).purge with
  | none => simp
  | some p => simp

theorem Stands.darkHolds (h : Stands s t a) (books : Books s t) (l : s.darkHolds a) : t.darkHolds a := by
  intro dark
  obtain ⟨cue, owed, ended, walks⟩ := (darkCells_iff s a).mp (l (h.dark dark))
  refine (darkCells_iff t a).mpr ⟨books.cue a cue, h.owed.trans owed, fun none_ => ?_, fun p running => ?_⟩
  · rw [books.used]
    exact ended (h.purge.symm.trans none_)
  · obtain ⟨kind, names⟩ := walks p (h.purge.symm.trans running)
    exact ⟨kind, fun k x mem => names k x (h.queue k mem)⟩

/-- Background work: the books stand, and so does every auditorium's purge. -/
structure Banks (s t : State) : Prop extends Books s t where
  stands : ∀ a, Stands s t a

namespace Banks

theorem refl (distinct : s.cuesDistinct) : Banks s s :=
  ⟨⟨distinct, rfl, fun _ => rfl, fun _ => rfl, fun _ => rfl, fun _ all => all, fun _ => rfl, fun _ none_ => none_, fun _ _ _ open_ => open_⟩,
    fun _ => ⟨rfl, rfl, rfl, fun _ => List.Subset.refl _, fun dark => dark⟩⟩

theorem trans (h : Banks s t) (k : Banks t u) : Banks s u := ⟨h.toBooks.trans k.toBooks, fun a => (h.stands a).trans (k.stands a)⟩

theorem cellsWf (h : Banks s t) (l : s.cellsWf) : t.cellsWf := by
  rw [cellsWf_iff] at l ⊢
  exact ⟨h.ledger l.1, fun a => ⟨(h.stands a).owesPurge (l.2 a).1, (h.stands a).darkHolds h.toBooks (l.2 a).2⟩⟩

/-! What leaves the cue store alone. -/

theorem distinct_congr (queues : ∀ n, (t.stream n).queue = (s.stream n).queue) (intakes : t.intakes = s.intakes) (distinct : s.cuesDistinct) :
    t.cuesDistinct := by
  simpa only [State.cuesDistinct, State.intake, intakes, queues] using distinct

/-- A change elsewhere than in the cue store. -/
theorem elsewhere (h : Banks s t) (free : u.freeCells = t.freeCells) (stores : u.stores = t.stores) (intakes : u.intakes = t.intakes)
    (queues : ∀ n, (u.stream n).queue = (t.stream n).queue) (dark : ∀ a, (u.session a).state = .dark → (t.session a).state = .dark) : Banks s u := by
  have store : ∀ a, u.store a = t.store a := fun a => by simp only [State.store, stores]
  have intake : ∀ a, u.intake a = t.intake a := fun a => by simp only [State.intake, intakes]
  refine h.trans ⟨⟨distinct_congr queues intakes h.distinct, free, fun a => by rw [store], fun a => by rw [store], fun a => ?_,
    fun a all => by rw [store]; exact all, fun a => by rw [intake], fun a none_ => by rw [intake]; exact none_,
    fun a c k open_ => by rw [← intake]; exact open_⟩,
    fun a => ⟨by rw [store], by rw [store], by rw [store], fun k => by rw [queues]; exact List.Subset.refl _, dark a⟩⟩
  simp only [State.cellsOf, store, intake, queues]

theorem of_sameCells (distinct : s.cuesDistinct) (h : s.sameCells t) : Banks s t :=
  (refl distinct).elsewhere h.free h.stores h.intakes h.queues fun a dark => by rwa [h.sessions] at dark

theorem onCounters (h : Banks s t) (b : Aud) (f : AudCounters → AudCounters) : Banks s (t.onCounters b f) :=
  h.elsewhere rfl rfl rfl (fun _ => rfl) fun _ dark => dark

theorem onLinkCounters (h : Banks s t) (q : Port) (f : LinkCounters → LinkCounters) : Banks s (t.onLinkCounters q f) :=
  h.elsewhere rfl rfl rfl (fun _ => rfl) fun _ dark => dark

theorem onLink (h : Banks s t) (q : Port) (f : LinkPort → LinkPort) : Banks s (t.onLink q f) := h.elsewhere rfl rfl rfl (fun _ => rfl) fun _ dark => dark

theorem onPort (h : Banks s t) (b : Aud) (f : CuePort → CuePort) : Banks s (t.onPort b f) := h.elsewhere rfl rfl rfl (fun _ => rfl) fun _ dark => dark

theorem onClock (h : Banks s t) (b : Aud) (f : Clock → Clock) : Banks s (t.onClock b f) := h.elsewhere rfl rfl rfl (fun _ => rfl) fun _ dark => dark

theorem onRun (h : Banks s t) (b : Aud) (f : ShowRun → ShowRun) : Banks s (t.onRun b f) := h.elsewhere rfl rfl rfl (fun _ => rfl) fun _ dark => dark

theorem onMgmt (h : Banks s t) (f : Mgmt → Mgmt) : Banks s (t.onMgmt f) := h.elsewhere rfl rfl rfl (fun _ => rfl) fun _ dark => dark

theorem onDraws (h : Banks s t) (f : Nat → Nat) : Banks s (t.onDraws f) := h.elsewhere rfl rfl rfl (fun _ => rfl) fun _ dark => dark

theorem raiseAud (h : Banks s t) (b : Aud) (k : Byte) : Banks s (t.raiseAud b k) := h.elsewhere rfl rfl rfl (fun _ => rfl) fun _ dark => dark

theorem raiseLink (h : Banks s t) (q : Port) (k : Byte) : Banks s (t.raiseLink q k) := h.elsewhere rfl rfl rfl (fun _ => rfl) fun _ dark => dark

/-- A session's move into another state than DARK, or a change of it that leaves its state. -/
theorem onSession (h : Banks s t) (b : Aud) (f : Session → Session)
    (dark : (f (t.session b)).state = .dark → (t.session b).state = .dark) : Banks s (t.onSession b f) := by
  refine h.elsewhere rfl rfl rfl (fun _ => rfl) fun a isDark => ?_
  rw [State.onSession_session] at isDark
  split at isDark
  · next same => subst same; exact dark isDark
  · exact isDark

/-- A change of a stream other than in its queue. -/
theorem settings (h : Banks s t) (n : StreamNo) {f : Stream → Stream} (queue : ∀ y, (f y).queue = y.queue := by exact fun _ => rfl) :
    Banks s (t.onStream n f) :=
  h.elsewhere rfl rfl rfl (onStream_queue queue) fun _ dark => dark

/-- A change of a store in what is not of its cells, its purge or what waits behind that. -/
theorem onStore (h : Banks s t) (b : Aud) (f : Store → Store) (hf : ∀ y, (f y).quota = y.quota ∧ (f y).used = y.used ∧ (f y).freeing = y.freeing ∧
    (f y).purge = y.purge ∧ (f y).saturationOwed = y.saturationOwed ∧ (f y).closeWaiting = y.closeWaiting := by
      exact fun _ => ⟨rfl, rfl, rfl, rfl, rfl, rfl⟩) : Banks s (t.onStore b f) := by
  have store (a : Aud) : ((t.onStore b f).store a).quota = (t.store a).quota ∧ ((t.onStore b f).store a).used = (t.store a).used ∧
      ((t.onStore b f).store a).freeing = (t.store a).freeing ∧ ((t.onStore b f).store a).purge = (t.store a).purge ∧
      ((t.onStore b f).store a).saturationOwed = (t.store a).saturationOwed ∧ ((t.onStore b f).store a).closeWaiting = (t.store a).closeWaiting := by
    rw [State.onStore_store]
    split
    · next same => subst same; exact hf _
    · exact ⟨rfl, rfl, rfl, rfl, rfl, rfl⟩
  refine h.trans ⟨⟨h.distinct, rfl, fun a => (store a).1, fun a => (store a).2.1, fun a => ?_, fun a all => by rw [(store a).2.2.1]; exact all,
    fun _ => rfl, fun _ none_ => none_, fun _ _ _ open_ => open_⟩,
    fun a => ⟨(store a).2.2.2.1, (store a).2.2.2.2.1, (store a).2.2.2.2.2, fun k => List.Subset.refl _, fun dark => dark⟩⟩
  rw [State.cellsOf, (store a).2.2.1]
  rfl

end Banks

end Sys2Proof.Machine
end

section
/-! PROOFS. Release, the arbiters and the stale resume as background work on the cue store: what a cue loses, the freeing unit is asked to return
(R91, R92, R114). -/

namespace Sys2Proof.Machine

variable {s t u v w : State} {a b : Aud} {n m : StreamNo} {c d : Cue} {p : Port} {x : Seq}

/-! ### Cells of a queue and of the freeing unit -/

theorem one_le_cells (c : Cue) : 1 ≤ c.cells := Nat.le_add_right 1 _

theorem queueCells_onStream (t : State) (n : StreamNo) (f : Stream → Stream) (i : StreamNo) (ne : i ≠ n) :
    (t.onStream n f).queueCells i = t.queueCells i := by
  rw [State.queueCells, State.onStream_stream, if_neg fun e => ne e.symm]
  rfl

/-- What a change of one queue changes in the cells its auditorium holds. -/
theorem cellsOf_onStream (t : State) (n : StreamNo) (f : Stream → Stream) :
    (t.onStream n f).cellsOf (audOfStream n) + t.queueCells n = t.cellsOf (audOfStream n) + (t.onStream n f).queueCells n := by
  have queues := queued_change (queueCells_onStream t n f)
  have rest : ((t.onStream n f).intake (audOfStream n)).context = (t.intake (audOfStream n)).context ∧
    ((t.onStream n f).store (audOfStream n)).freeing = (t.store (audOfStream n)).freeing := ⟨rfl, rfl⟩
  rw [cellsOf_eq, cellsOf_eq, rest.1, rest.2]
  omega

theorem cellsOf_onStream_other (t : State) (f : Stream → Stream) (ne : audOfStream n ≠ a) : (t.onStream n f).cellsOf a = t.cellsOf a := by
  rw [cellsOf_eq, cellsOf_eq, queued_same (queueCells_onStream t n f) ne]
  rfl

theorem freeing_requestFree (t : State) (b : Aud) (k : Nat) (tag : FreeTag) (a : Aud) : ((t.requestFree b k tag).store a).freeing =
    (t.store a).freeing ++ if b = a then [{ cells := k, tag := tag }] else [] := by
  rw [State.requestFree, State.onStore_store]
  split
  · next same => subst same; rfl
  · exact (List.append_nil _).symm

theorem cellsOf_requestFree (t : State) (b : Aud) (k : Nat) (tag : FreeTag) (a : Aud) :
    (t.requestFree b k tag).cellsOf a = t.cellsOf a + if b = a then k else 0 := by
  rw [cellsOf_eq, cellsOf_eq, freeing_requestFree, List.map_append, List.sum_append]
  have rest : (t.requestFree b k tag).intake a = t.intake a ∧ ∀ i, (t.requestFree b k tag).queueCells i = t.queueCells i := ⟨rfl, fun _ => rfl⟩
  simp only [rest.1, rest.2]
  split
  · simp
    omega
  · simp

theorem requestFree_store (t : State) (b : Aud) (k : Nat) (tag : FreeTag) (a : Aud) :
    ((t.requestFree b k tag).store a).quota = (t.store a).quota ∧ ((t.requestFree b k tag).store a).used = (t.store a).used ∧
    ((t.requestFree b k tag).store a).purge = (t.store a).purge ∧ ((t.requestFree b k tag).store a).saturationOwed = (t.store a).saturationOwed ∧
    ((t.requestFree b k tag).store a).closeWaiting = (t.store a).closeWaiting := by
  rw [State.requestFree, State.onStore_store]
  split
  · next same => subst same; exact ⟨rfl, rfl, rfl, rfl, rfl⟩
  · exact ⟨rfl, rfl, rfl, rfl, rfl⟩

theorem requests_requestFree {k : Nat} {tag : FreeTag} (pos : 1 ≤ k) (all : ∀ q ∈ (t.store a).freeing, 1 ≤ q.cells) :
    ∀ q ∈ ((t.requestFree b k tag).store a).freeing, 1 ≤ q.cells := by
  intro q mem
  rw [freeing_requestFree, List.mem_append] at mem
  rcases mem with old | new
  · exact all q old
  · split at new
    · rw [List.mem_singleton.mp new]
      exact pos
    · cases new

/-! ### A narration block finished with (R114) -/

theorem finishBlock_cells (c : Cue) : c.finishBlock.cells + (if c.blockHeld then 1 else 0) = c.cells := by
  rw [Cue.cells, Cue.cells, heldBodies_eq, heldBodies_eq, Cue.blockHeld, Cue.finishBlock]
  by_cases within : c.cursor < c.bodies.length
  · rw [List.countP_set within, List.getElem?_eq_getElem within, Option.getD_some]
    cases held : (c.bodies[c.cursor]).isSome with
    | false => simp
    | true =>
      have some_held : 0 < c.bodies.countP Option.isSome := List.countP_pos_iff.mpr ⟨_, List.getElem_mem within, held⟩
      simp
      omega
  · rw [List.set_eq_of_length_le (Nat.not_lt.mp within), List.getElem?_eq_none (Nat.not_lt.mp within)]
    rfl

theorem findCue_mem {q : List Cue} (found : Machine.findCue x q = some c) : c ∈ q := List.mem_of_find?_eq_some found

theorem State.cuesDistinct.placed (distinct : s.cuesDistinct) (found : s.findCue n x = some c) : ∃ l r, Placed (s.stream n).queue l c r :=
  exists_placed (findCue_mem found) (distinct.1 n).1

namespace Banks

/-! ### Queues rewritten -/

/-- A queue is rewritten without a change of the cells it holds. -/
theorem rewrites (h : Banks s t) (n : StreamNo) (g : List Cue → List Cue)
    (distinct : (t.onStream n (fun st => { st with queue := g st.queue })).cuesDistinct)
    (sub : seqs (g (t.stream n).queue) ⊆ seqs (t.stream n).queue)
    (sum : ((g (t.stream n).queue).map Cue.cells).sum = ((t.stream n).queue.map Cue.cells).sum) :
    Banks s (t.onStream n (fun st => { st with queue := g st.queue })) := by
  refine h.trans ⟨⟨distinct, rfl, fun _ => rfl, fun _ => rfl, fun a => ?_, fun _ all => all, fun _ => rfl, fun _ none_ => none_, fun _ _ _ open_ => open_⟩,
    fun a => ⟨rfl, rfl, rfl, fun k => ?_, fun dark => dark⟩⟩
  · by_cases same : audOfStream n = a
    · have change := cellsOf_onStream t n (fun st => { st with queue := g st.queue })
      have stands : (t.onStream n (fun st => { st with queue := g st.queue })).queueCells n = t.queueCells n := by
        simp only [State.queueCells, State.onStream_stream, if_true, sum]
      rw [← same]
      omega
    · exact cellsOf_onStream_other t _ same
  · rw [State.onStream_stream]
    split
    · next same => rw [← same]; exact sub
    · exact List.Subset.refl _

/-- Cells that a queue loses are asked of the freeing unit. -/
theorem pays (h : Banks s t) (n : StreamNo) (g : List Cue → List Cue) {k : Nat} (tag : FreeTag) (pos : 1 ≤ k)
    (distinct : (t.onStream n (fun st => { st with queue := g st.queue })).cuesDistinct)
    (sub : seqs (g (t.stream n).queue) ⊆ seqs (t.stream n).queue)
    (sum : ((g (t.stream n).queue).map Cue.cells).sum + k = ((t.stream n).queue.map Cue.cells).sum) :
    Banks s ((t.onStream n (fun st => { st with queue := g st.queue })).requestFree (audOfStream n) k tag) := by
  have store := requestFree_store (t.onStream n (fun st => { st with queue := g st.queue })) (audOfStream n) k tag
  refine h.trans ⟨⟨distinct, rfl, fun a => (store a).1, fun a => (store a).2.1, fun a => ?_,
    fun a all => requests_requestFree pos all, fun _ => rfl, fun _ none_ => none_, fun _ _ _ open_ => open_⟩,
    fun a => ⟨(store a).2.2.1, (store a).2.2.2.1, (store a).2.2.2.2, fun i => ?_, fun dark => dark⟩⟩
  · rw [cellsOf_requestFree]
    split
    · next same =>
      have change := cellsOf_onStream t n (fun st => { st with queue := g st.queue })
      have lost : (t.onStream n (fun st => { st with queue := g st.queue })).queueCells n + k = t.queueCells n := by
        simp only [State.queueCells, State.onStream_stream, if_true, sum]
      rw [← same]
      omega
    · next other => exact cellsOf_onStream_other t _ other
  · change seqs ((t.onStream n _).stream _).queue ⊆ _
    rw [State.onStream_stream]
    split
    · next same => rw [← same]; exact sub
    · exact List.Subset.refl _

/-- A cue is changed in what release writes, its cells standing. -/
theorem onCue (h : Banks s t) (n : StreamNo) (x : Seq) {f : Cue → Cue} (same : ∀ c, (f c).sameCue c) (cells : ∀ c, (f c).cells = c.cells) :
    Banks s (t.onCue n x f) := by
  refine h.rewrites n (changeCue x f) ((Worked.cue (σ := none) .refl n x f same).cuesDistinct h.distinct) ?_ ?_
  · rw [seqs_changeCue x f fun c => (same c).2.1]
    exact List.Subset.refl _
  · refine congrArg List.sum ?_
    simp only [changeCue, List.map_map, List.map_inj_left, Function.comp]
    intro c _
    split
    · exact cells c
    · rfl

theorem catchUpWalk (h : Banks s t) (b : Aud) (n : StreamNo) : Banks s (t.catchUpWalk b n) := by
  have distinct : (t.catchUpWalk b n).cuesDistinct := (Worked.catchUpWalk (σ := none) .refl b n).cuesDistinct h.distinct
  unfold State.catchUpWalk at distinct ⊢
  split
  · next c w inserting =>
    split
    · next walks =>
      simp only [inserting, if_pos walks] at distinct
      have intake (v : Walk) (a : Aud) : ((t.onIntake b (fun i => { i with context := .inserting c v })).intake a).context.cue = (t.intake a).context.cue ∧
          (((t.onIntake b (fun i => { i with context := .inserting c v })).intake a).deferred = (t.intake a).deferred) ∧
          ∀ d k, ((t.onIntake b (fun i => { i with context := .inserting c v })).intake a).context = .opened d k → (t.intake a).context = .opened d k := by
        rw [State.onIntake_intake]
        split
        · next same => subst same; rw [inserting]; exact ⟨rfl, rfl, fun _ _ => nofun⟩
        · exact ⟨rfl, rfl, fun _ _ open_ => open_⟩
      refine h.trans ⟨⟨distinct, rfl, fun _ => rfl, fun _ => rfl, fun a => ?_, fun _ all => all, fun a => (intake _ a).2.1, fun a none_ => ?_,
        fun a => (intake _ a).2.2⟩, fun a => ⟨rfl, rfl, rfl, fun _ => List.Subset.refl _, fun dark => dark⟩⟩
      · rw [cellsOf_eq, cellsOf_eq, (intake _ a).1]
        rfl
      · rw [(intake _ a).1]
        exact none_
    · exact h
  · exact h

theorem catchUpWalk_stream (s : State) (b : Aud) (n m : StreamNo) : (s.catchUpWalk b n).stream m = s.stream m := by
  unfold State.catchUpWalk
  split
  · split <;> rfl
  · rfl

/-- A cue leaves its queue, and its cells are asked of the freeing unit. -/
theorem removes (h : Banks s t) (n : StreamNo) (found : t.findCue n c.seq = some c) (tag : FreeTag) :
    Banks s ((t.leaveQueue n c.seq).requestFree (audOfStream n) c.cells tag) := by
  have walked := h.catchUpWalk (audOfStream n) n
  obtain ⟨l, r, placed⟩ := h.distinct.placed found
  have queue := placed.eq
  rw [← catchUpWalk_stream t (audOfStream n) n n] at placed
  refine walked.pays n (dropCue c.seq) tag (one_le_cells c)
    ((Worked.leaveQueue (σ := none) .refl n c.seq).cuesDistinct h.distinct) ?_ ?_
  · rw [placed.drop, placed.eq]
    simp [seqs, List.map_append]
  · rw [placed.drop, placed.eq]
    simp [List.sum_append]
    omega

/-- A narration block is finished with; its cell, where it is held still, is asked of the freeing unit. -/
theorem spends (h : Banks s t) (n : StreamNo) (found : t.findCue n c.seq = some c) (tag : FreeTag) :
    Banks s (if c.blockHeld then (t.onCue n c.seq Cue.finishBlock).requestFree (audOfStream n) 1 tag else t.onCue n c.seq Cue.finishBlock) := by
  have distinct := (Worked.cue (σ := none) .refl n c.seq Cue.finishBlock (fun _ => ⟨rfl, rfl, rfl, rfl, rfl⟩)).cuesDistinct h.distinct
  have sub : seqs (changeCue c.seq Cue.finishBlock (t.stream n).queue) ⊆ seqs (t.stream n).queue := by
    rw [seqs_changeCue c.seq Cue.finishBlock fun _ => rfl]
    exact List.Subset.refl _
  obtain ⟨l, r, placed⟩ := h.distinct.placed found
  have cells := finishBlock_cells c
  have sum : ((changeCue c.seq Cue.finishBlock (t.stream n).queue).map Cue.cells).sum + (if c.blockHeld then 1 else 0) =
      ((t.stream n).queue.map Cue.cells).sum := by
    rw [placed.change, placed.eq]
    simp only [List.map_append, List.map_cons, List.sum_append, List.sum_cons]
    omega
  split
  · next held => exact h.pays n _ tag (le_refl 1) distinct sub (by rwa [if_pos held] at sum)
  · next gone => exact h.rewrites n _ distinct sub (by rwa [if_neg gone] at sum)

/-! ### The operations of release -/

theorem foldl {α : Type} {f : State → α → State} (one : ∀ t y, Banks s t → Banks s (f t y)) (l : List α) :
    ∀ t, Banks s t → Banks s (l.foldl f t) := by
  induction l with
  | nil => exact fun _ h => h
  | cons y l ih => exact fun t h => ih _ (one t y h)

theorem oweClear (h : Banks s t) (n : StreamNo) : Banks s (t.oweClear n) := by
  rw [oweClear_eq]
  split
  · exact h
  · exact h.settings n

theorem oweClears (h : Banks s t) (b : Aud) : Banks s (t.oweClears b) :=
  foldl (fun t y h => by
    rw [State.oweClearIfCaption]
    split
    · exact h.oweClear _
    · exact h) slots t h

theorem enterEnded (h : Banks s t) (b : Aud) : Banks s (t.enterEnded b) := by
  have ended := (h.onRun b (fun r => r.atEnd (t.captureHold b))).onSession b (fun y => { y with state := .ended }) nofun
  exact (ended.oweClears b).raiseAud b kindEnded

theorem endTest (h : Banks s t) (b : Aud) : Banks s (t.endTest b) := by
  rw [State.endTest]
  split
  · exact h.enterEnded b
  · exact h

theorem freeCue (h : Banks s t) (n : StreamNo) (found : t.findCue n c.seq = some c) (tag : FreeTag) : Banks s (t.freeCue n c tag) :=
  (h.removes n found tag).endTest _

theorem chargePorts (h : Banks s t) (l : List Port) : Banks s (t.chargePorts l) := foldl (fun _ _ h => h.onLinkCounters _ _) l t h

theorem findCue_chargePorts (l : List Port) (t : State) (n : StreamNo) (x : Seq) : (t.chargePorts l).findCue n x = t.findCue n x := by
  induction l generalizing t with
  | nil => rfl
  | cons q l ih => exact ih _

theorem expireCue (h : Banks s t) (n : StreamNo) (found : t.findCue n c.seq = some c) : Banks s (t.expireCue n c) :=
  ((h.onCounters _ _).chargePorts _).freeCue n ((findCue_chargePorts _ _ n c.seq).trans found) .none

theorem takeNumber (h : Banks s t) (n : StreamNo) : Banks s (t.takeNumber n) := h.settings n

theorem takeNumber_queue (t : State) (n : StreamNo) : ((t.takeNumber n).stream n).queue = (t.stream n).queue :=
  onStream_queue (f := fun st => { st with frameSeq := st.frameSeq + 1 }) (fun _ => rfl) n

/-- The life, the due record, the resend mark and the cursor are of no cell. -/
theorem onLife (h : Banks s t) (n : StreamNo) (x : Seq) {f : Cue → Cue}
    (same : ∀ c, (f c).sameCue c ∧ (f c).bodies = c.bodies := by exact fun _ => ⟨⟨rfl, rfl, rfl, rfl, rfl⟩, rfl⟩) : Banks s (t.onCue n x f) :=
  h.onCue n x (fun c => (same c).1) fun c => by rw [Cue.cells, Cue.cells, Cue.heldBodies, Cue.heldBodies, (same c).2]

theorem captionFallsDue (h : Banks s t) (n : StreamNo) (x : Seq) : Banks s (t.captionFallsDue n x) := by
  rw [State.captionFallsDue]
  split
  · exact ((h.onLife n x).takeNumber n).onCounters _ _
  · exact (h.onLife n x).takeNumber n

theorem reRelease (h : Banks s t) (n : StreamNo) (x : Seq) : Banks s (t.reRelease n x) := by
  rw [State.reRelease]
  split
  · exact h
  · exact ((h.onLife n x).takeNumber n).onCounters _ _

theorem finishBlock (h : Banks s t) (n : StreamNo) (found : t.findCue n c.seq = some c) (skipped : Bool) : Banks s (t.finishBlock n c skipped) := by
  have counted : Banks s (if skipped then t.onCounters (audOfStream n) (fun k => { k with skip := bump k.skip }) else t) ∧
      (if skipped then t.onCounters (audOfStream n) (fun k => { k with skip := bump k.skip }) else t).findCue n c.seq = some c := by
    split
    · exact ⟨h.onCounters _ _, found⟩
    · exact ⟨h, found⟩
  rw [State.finishBlock]
  dsimp only
  split
  · exact counted.1.freeCue n counted.2 .none
  · exact counted.1.spends n counted.2 .none

theorem findCue_onCue (distinct : t.cuesDistinct) (found : t.findCue n x = some c) {f : Cue → Cue} (seq : (f c).seq = c.seq) :
    (t.onCue n x f).findCue n (f c).seq = some (f c) := by
  obtain ⟨l, r, placed⟩ := distinct.placed found
  obtain rfl : c.seq = x := findCue_seq found
  rw [onCue_placed placed]
  exact findCue_placed (l := l) (m := r) (by rw [withQueue_stream, if_pos rfl]; exact placed.with seq)

theorem lookAtBlocks (n : StreamNo) (x : Seq) (fuel : Nat) : ∀ t, Banks s t → Banks s (State.lookAtBlocks n x fuel t) := by
  induction fuel with
  | zero => exact fun _ h => h
  | succ fuel ih =>
    intro t h
    rw [State.lookAtBlocks]
    split
    · exact h
    · split
      · exact h
      · next c found =>
        have playing : Banks s (t.onCue n x (fun y => { y with life := .playing })) := h.onLife n x
        have found' := findCue_onCue h.distinct found (f := fun y => { y with life := .playing }) rfl
        dsimp only
        split
        · split
          · exact ih _ (playing.finishBlock n found' true)
          · split
            · refine ih _ (((playing.takeNumber n).onCounters _ _).finishBlock n ?_ false)
              exact (congrArg (Machine.findCue _) (takeNumber_queue _ n)).trans found'
            · exact (playing.onLife n x).takeNumber n
        · exact h

theorem releaseCue (h : Banks s t) (stale : Option Nat) (n : StreamNo) (x : Seq) : Banks s (State.releaseCue stale n t x) := by
  unfold State.releaseCue
  split
  · exact h
  · next c found =>
    obtain rfl : c.seq = x := findCue_seq found
    dsimp only
    split
    · split
      · split
        · exact h.expireCue n found
        · exact h.captionFallsDue n _
      · exact h
    · split
      · split
        · exact h.reRelease n _
        · exact h
      · exact h
    · exact lookAtBlocks n _ _ _ h
    · exact h

theorem staleCue (h : Banks s t) (hold : Nat) (n : StreamNo) (x : Seq) : Banks s (State.staleCue hold n t x) := by
  unfold State.staleCue
  split
  · split
    · exact h.reRelease n _
    · exact h
  · exact h

theorem endCue (h : Banks s t) (n : StreamNo) (x : Seq) : Banks s (State.endCue n t x) := by
  unfold State.endCue
  split
  · exact h
  · next c found =>
    obtain rfl : c.seq = x := findCue_seq found
    dsimp only
    split
    · split
      · exact h.freeCue n found .none
      · exact h
    · split
      · exact h.expireCue n found
      · exact h
    · split
      · split
        · exact lookAtBlocks n _ _ _ ((h.chargePorts _).finishBlock n ((findCue_chargePorts _ _ n c.seq).trans found) _)
        · exact h
      · exact h
    · exact h

theorem eachCueOf (h : Banks s t) (b : Aud) {f : StreamNo → State → Seq → State} (one : ∀ t n x, Banks s t → Banks s (f n t x)) :
    Banks s (t.eachCueOf b f) := foldl (fun _ k h => foldl (fun t y h => one t (streamOf b k) y h) _ _ h) slots t h

theorem release (h : Banks s t) (b : Aud) (stale : Option Nat) : Banks s (t.release b stale) := by
  rw [State.release]
  split
  · exact h.eachCueOf b fun _ n x h => h.releaseCue stale n x
  · exact h

theorem endByPosition (h : Banks s t) (b : Aud) : Banks s (t.endByPosition b) := h.eachCueOf b fun _ n x h => h.endCue n x

theorem handStale (h : Banks s t) (b : Aud) (hold : Nat) : Banks s (t.handStale b hold) := by
  rw [State.handStale]
  split
  · exact h.eachCueOf b fun _ n x h => h.staleCue hold n x
  · exact h.onStore b _

/-! ### The arbiters -/

theorem settleDue (h : Banks s t) (q : Port) (staging : Bool) (n : StreamNo) (x : Seq) : Banks s (t.settleDue q staging n x) := by
  unfold State.settleDue
  split
  · exact h
  · next c found =>
    obtain rfl : c.seq = x := findCue_seq found
    split
    · exact h
    · split
      · dsimp only
        split
        · split
          · exact h.onLife n _
          · exact lookAtBlocks n _ _ _ (h.finishBlock n found _)
        · exact h.onLife n _
      · exact h

theorem portOwesNothing (h : Banks s t) (q : Port) : Banks s (t.portOwesNothing q) :=
  foldl (fun _ n h => foldl (fun _ y h => h.settleDue q false n y) _ _ (h.settings n)) streamNos t h

theorem fill (h : Banks s t) (q : Port) : Banks s (t.fill q) := by
  have started (b : BufNo) (g : Frame) : Banks s (t.startFill q b g) := h.onLink q _
  unfold State.fill
  split
  · exact (started _ _).onLink q _
  · exact (started _ _).settings _
  · split
    · exact h
    · split
      · exact h
      · dsimp only
        refine settleDue ?_ q true _ _
        split
        · exact (started _ _).onCounters _ _
        · exact started _ _
  · exact h

theorem settleFills (h : Banks s t) : Banks s t.settleFills := by
  have rounds (fuel : Nat) : ∀ t, Banks s t → Banks s (State.settleFillsFuel fuel t) := by
    induction fuel with
    | zero => exact fun _ h => h
    | succ fuel ih =>
      intro t h
      rw [State.settleFillsFuel]
      split
      · exact h
      · exact ih _ ((h.onDraws _).fill _)
  exact rounds 4 t h

theorem leaveServing (h : Banks s t) (q : Port) (dest : LinkState) : Banks s (t.leaveServing q dest) :=
  ((h.onLinkCounters q _).onLink q _).portOwesNothing q

/-! ### Replies, flow control and the session -/

theorem transmit (h : Banks s t) (b : Aud) : Banks s (t.transmit b) := by
  obtain ⟨f, same, -⟩ := transmit_cases t b
  rw [same]
  exact h.onPort b f

theorem flow (h : Banks s t) (b : Aud) : Banks s (t.flow b) := by
  unfold State.flow
  split
  · split
    · exact (h.onPort b _).transmit b
    · exact h
  · split
    · dsimp only
      split
      · exact ((h.onPort b _).transmit b).raiseAud b _
      · exact (h.onPort b _).transmit b
    · exact h

theorem placeReply (h : Banks s t) (b : Aud) (r : Reply) : Banks s (t.placeReply b r) := by
  unfold State.placeReply
  split
  · exact (h.onPort b _).transmit b
  · exact h

theorem refuse (h : Banks s t) (b : Aud) (k : Byte) (x : Seq) (r : Reason) : Banks s (t.refuse b k x r) := (h.onCounters b _).placeReply b _

theorem lineFault (h : Banks s t) (b : Aud) : Banks s (t.lineFault b) := (h.onCounters b _).raiseAud b _

theorem finishWork (h : Banks s t) (k : Work) : Banks s (t.finishWork k) := by
  rw [State.finishWork]
  split
  · exact h.onMgmt _
  · exact h

theorem settleSub (h : Banks s t) (b : Aud) : Banks s (t.settleSub b) := by
  rw [State.settleSub]
  split
  · exact h.onClock b _
  · exact h

theorem enterRunning (h : Banks s t) (b : Aud) : Banks s (t.enterRunning b) := by
  have entered := ((h.onRun b (fun r => { r with window := .closed, pauseHold := t.captureHold b, pauseStart := none, staleMark := false })).onClock b
    (fun k => { k with ref := t.now })).onSession b (fun y => { y with state := .running }) nofun
  rw [State.enterRunning]
  split
  · exact entered.handStale b _
  · exact entered

theorem enterPaused (h : Banks s t) (b : Aud) : Banks s (t.enterPaused b) := (h.onRun b _).onSession b (fun y => { y with state := .paused }) nofun

theorem runOrGate (h : Banks s t) (b : Aud) : Banks s (t.runOrGate b) := by
  rw [State.runOrGate]
  split
  · split
    · exact (h.enterRunning b).settleFills
    · exact h
  · split
    · exact h
    · exact h.enterPaused b
  · split
    · exact h
    · exact h.enterPaused b
  all_goals exact h

theorem synthetic (h : Banks s t) (b : Aud) : Banks s (t.synthetic b) := ((h.onClock b _).onRun b _).settleSub b

theorem countStrobe (h : Banks s t) (b : Aud) : Banks s (t.countStrobe b) := by
  have completed (hold : Nat) : Banks s (t.completeWindow b hold) := by
    unfold State.completeWindow
    dsimp only
    split
    · exact h.onClock b _
    · split
      · exact (h.onClock b _).onClock b _
      · exact ((h.onClock b _).onCounters b _).raiseAud b _
  unfold State.countStrobe
  split
  · exact h.onRun b _
  · split
    · exact (completed _).onRun b _
    · exact h.onRun b _

end Banks

end Sys2Proof.Machine
end

section
/-! PROOFS. Purges and the law of the cue store: what a purge may do to the auditorium it runs in, and that a teardown's end leaves a DARK auditorium
without a cell (R90, R93 to R101). -/

namespace Sys2Proof.Machine

variable {s t u v w : State} {a b : Aud} {n m : StreamNo} {c d : Cue} {p : Purge} {x : Seq} {kind : PurgeKind}

/-! ### What the law does not read -/

theorem State.sameCells.flow (s : State) (b : Aud) : s.sameCells (s.flow b) := by
  have sent (u : State) (same : s.sameCells u) : s.sameCells (u.transmit b) := by
    obtain ⟨f, e, -⟩ := transmit_cases u b
    rw [e]
    exact ⟨same.free, same.stores, same.intakes, same.sessions, same.queues⟩
  have placed (f : CuePort → CuePort) : s.sameCells (s.onPort b f) := ⟨rfl, rfl, rfl, fun _ => rfl, fun _ => rfl⟩
  unfold State.flow
  split
  · split
    · exact sent _ (placed _)
    · exact .refl s
  · split
    · dsimp only
      split
      · exact (sent _ (placed _)).trans ⟨rfl, rfl, rfl, fun _ => rfl, fun _ => rfl⟩
      · exact sent _ (placed _)
    · exact .refl s

theorem State.sameCells.onStore (h : s.sameCells t) (b : Aud) (f : Store → Store) : (s.onStore b f).sameCells (t.onStore b f) :=
  ⟨h.free, by simp only [State.onStore, h.stores], h.intakes, h.sessions, h.queues⟩

/-! ### The law but for one auditorium's purge -/

/-- Outside auditorium `a` the cue store is in `t` as in `s`. -/
structure State.alikeBut (s t : State) (a : Aud) : Prop where
  store : ∀ b, b ≠ a → t.store b = s.store b
  intake : ∀ b, b ≠ a → t.intake b = s.intake b
  queue : ∀ n, audOfStream n ≠ a → (t.stream n).queue = (s.stream n).queue
  dark : ∀ b, b ≠ a → (t.session b).state = .dark → (s.session b).state = .dark

/-- The law of the cue store but for what it says of auditorium `a`'s purge and of `a` in DARK. -/
structure State.lawBut (s : State) (a : Aud) : Prop where
  ledger : s.ledger
  others : ∀ b, b ≠ a → s.owesPurge b ∧ s.darkHolds b

theorem lawBut_of_cellsWf (h : s.cellsWf) (a : Aud) : s.lawBut a := ⟨((cellsWf_iff s).mp h).1, fun b _ => ((cellsWf_iff s).mp h).2 b⟩

theorem State.lawBut.cellsWf (h : s.lawBut a) (owes : s.owesPurge a) (dark : s.darkHolds a) : s.cellsWf := by
  refine (cellsWf_iff s).mpr ⟨h.ledger, fun b => ?_⟩
  by_cases same : b = a
  · subst same
    exact ⟨owes, dark⟩
  · exact h.others b same

theorem Banks.lawBut (h : Banks s t) (l : s.lawBut a) : t.lawBut a :=
  ⟨h.ledger l.ledger, fun b ne => ⟨(h.stands b).owesPurge (l.others b ne).1, (h.stands b).darkHolds h.toBooks (l.others b ne).2⟩⟩

theorem cellsOf_congr (store : t.store b = s.store b) (intake : t.intake b = s.intake b)
    (queue : ∀ k, (t.stream (streamOf b k)).queue = (s.stream (streamOf b k)).queue) : t.cellsOf b = s.cellsOf b := by
  simp only [State.cellsOf, store, intake, queue]

/-- A change in one auditorium alone, that keeps its quota and what its cells and the free cells make together. -/
theorem State.lawBut.change (l : s.lawBut a) (distinct : t.cuesDistinct) (others : s.alikeBut t a) (quota : (t.store a).quota = (s.store a).quota)
    (total : (t.store a).used + t.freeCells = (s.store a).used + s.freeCells) (account : t.account a) : t.lawBut a := by
  have queues (b : Aud) (ne : b ≠ a) (k : Slot) : (t.stream (streamOf b k)).queue = (s.stream (streamOf b k)).queue :=
    others.queue _ (by rw [audOfStream_streamOf']; exact ne)
  refine ⟨⟨?_, distinct, ?_, fun b => ?_⟩, fun b ne => ⟨?_, fun dark => ?_⟩⟩
  · have each (b : Aud) : (t.store b).quota = (s.store b).quota := by
      by_cases same : b = a
      · rw [same, quota]
      · rw [others.store b same]
    have quotas := l.ledger.quotas
    simp only [State.quotasWf, State.quotaTotal] at quotas ⊢
    simpa only [each] using quotas
  · have sum : (auds.map (fun b => (t.store b).used)).sum + (s.store a).used = (auds.map (fun b => (s.store b).used)).sum + (t.store a).used :=
      sum_change (f := fun b => (t.store b).used) (g := fun b => (s.store b).used) a fun b ne => by simp only [others.store b ne]
    have before := l.ledger.total
    omega
  · by_cases same : b = a
    · rw [same]
      exact account
    · obtain ⟨used, within, opened, requests, waits⟩ := l.ledger.account b
      have store := others.store b same
      have intake := others.intake b same
      exact ⟨by rw [store, cellsOf_congr store intake (queues b same), used], by rw [store]; exact within,
        by rw [store, intake]; exact opened, by rw [store]; exact requests, by rw [intake]; exact waits⟩
  · rw [State.owesPurge, others.store b ne]
    exact (l.others b ne).1
  · have held := (l.others b ne).2 (others.dark b ne dark)
    simpa only [State.darkCells, others.store b ne, others.intake b ne, queues b ne] using held

theorem alikeBut_onStore (s : State) (a : Aud) (f : Store → Store) : s.alikeBut (s.onStore a f) a :=
  ⟨fun b ne => by rw [State.onStore_store, if_neg fun e => ne e.symm], fun _ _ => rfl, fun _ _ => rfl, fun _ _ dark => dark⟩

/-- What a purge is of no cell. -/
theorem State.lawBut.onPurge (l : s.lawBut a) {f : Store → Store}
    (hf : ∀ y, (f y).quota = y.quota ∧ (f y).used = y.used ∧ (f y).freeing = y.freeing := by exact fun _ => ⟨rfl, rfl, rfl⟩) :
    (s.onStore a f).lawBut a := by
  have store : (s.onStore a f).store a = f (s.store a) := by rw [State.onStore_store, if_pos rfl]
  obtain ⟨quota, used, freeing⟩ := hf (s.store a)
  obtain ⟨counted, within, opened, requests, waits⟩ := l.ledger.account a
  refine l.change l.ledger.distinct (alikeBut_onStore s a f) (by rw [store, quota]) (by rw [store, used]; rfl)
    ⟨?_, by rw [store, used, quota]; exact within, by rw [store, used, quota]; exact opened, by rw [store, freeing]; exact requests, waits⟩
  rw [cellsOf_eq] at counted
  rw [store, used, cellsOf_eq, store, freeing]
  exact counted

/-- The cells of the cue in progress are asked of the freeing unit. -/
theorem State.lawBut.cueToUnit (l : s.lawBut a) (held : (s.intake a).context.cue = some c) (tag : FreeTag) {f : Intake → Intake}
    (gone : (f (s.intake a)).context.cue = none) (waits : ∀ n, .skip n ∉ (f (s.intake a)).deferred.tail) :
    ((s.requestFree a c.cells tag).onIntake a f).lawBut a := by
  have store := requestFree_store s a c.cells tag
  have intake : ((s.requestFree a c.cells tag).onIntake a f).intake a = f (s.intake a) := by rw [State.onIntake_intake, if_pos rfl]; rfl
  have asked := freeing_requestFree s a c.cells tag
  obtain ⟨counted, within, -, requests, -⟩ := l.ledger.account a
  refine l.change ?_ ⟨fun b ne => ?_, fun b ne => ?_, fun _ _ => rfl, fun _ _ dark => dark⟩ (store a).1 ?_ ⟨?_, ?_, fun d owed open_ => ?_,
    requests_requestFree (one_le_cells c) requests, fun n => ⟨by rw [intake]; exact waits n, fun _ => by rw [intake]; exact gone⟩⟩
  · refine ⟨l.ledger.distinct.1, fun b d held_ => ?_⟩
    rw [State.onIntake_intake] at held_
    split at held_
    · next same =>
      subst same
      rw [show (s.requestFree a c.cells tag).intake a = s.intake a from rfl, gone] at held_
      cases held_
    · exact l.ledger.distinct.2 b d held_
  · exact (State.onStore_store ..).trans (if_neg fun e => ne e.symm)
  · exact (State.onIntake_intake ..).trans (if_neg fun e => ne e.symm)
  · rw [show ((s.requestFree a c.cells tag).onIntake a f).store a = (s.requestFree a c.cells tag).store a from rfl, (store a).2.1]
    rfl
  · rw [show ((s.requestFree a c.cells tag).onIntake a f).store a = (s.requestFree a c.cells tag).store a from rfl, (store a).2.1, counted,
      cellsOf_eq, cellsOf_eq, intake, gone, held, show ((s.requestFree a c.cells tag).onIntake a f).store a = (s.requestFree a c.cells tag).store a from rfl,
      asked, if_pos rfl, List.map_append, List.sum_append]
    simp only [show ∀ i, ((s.requestFree a c.cells tag).onIntake a f).queueCells i = s.queueCells i from fun _ => rfl]
    simp
    omega
  · rw [show ((s.requestFree a c.cells tag).onIntake a f).store a = (s.requestFree a c.cells tag).store a from rfl, (store a).2.1, (store a).1]
    exact within
  · rw [intake] at open_
    rw [open_] at gone
    cases gone

/-! ### A purge begins -/

/-- A refusal is of no cell. -/
theorem State.sameCells.refuse (s : State) (b : Aud) (k : Byte) (y : Seq) (r : Reason) : s.sameCells (s.refuse b k y r) := by
  unfold State.refuse State.placeReply
  split
  · obtain ⟨f, e, -⟩ := transmit_cases ((s.onCounters b (fun z => { z with refused := bump z.refused })).onPort b
      (fun q => { q with replies := q.replies ++ [.refuse k y r] })) b
    rw [e]
    exact ⟨rfl, rfl, rfl, fun _ => rfl, fun _ => rfl⟩
  · exact ⟨rfl, rfl, rfl, fun _ => rfl, fun _ => rfl⟩

theorem State.sameCells.onIntake (h : s.sameCells t) (b : Aud) (f : Intake → Intake) : (s.onIntake b f).sameCells (t.onIntake b f) :=
  ⟨h.free, h.stores, by simp only [State.onIntake, h.intakes], h.sessions, h.queues⟩

theorem State.sameCells.lawBut (h : s.sameCells t) (l : s.lawBut a) : t.lawBut a := (Banks.of_sameCells l.ledger.distinct h).lawBut l

theorem State.sameCells.store (h : s.sameCells t) (b : Aud) : t.store b = s.store b := by rw [State.store, State.store, h.stores]

theorem State.sameCells.intake (h : s.sameCells t) (b : Aud) : t.intake b = s.intake b := by rw [State.intake, State.intake, h.intakes]

/-- A cue in progress that is refused, its cells asked of the freeing unit. -/
theorem State.lawBut.refused (l : s.lawBut a) (held : (s.intake a).context.cue = some c) (tag : FreeTag) (k : Byte) (r : Reason) {f : Intake → Intake}
    (gone : (f (s.intake a)).context.cue = none) (waits : ∀ n, .skip n ∉ (f (s.intake a)).deferred.tail) :
    (((s.requestFree a c.cells tag).refuse a k c.seq r).onIntake a f).lawBut a :=
  ((State.sameCells.refuse _ a k c.seq r).onIntake a f).lawBut (l.cueToUnit held tag gone waits)

theorem removeInProgress_frame (s : State) (a : Aud) : ((s.removeInProgress a).store a).purge = (s.store a).purge ∧
    ((s.removeInProgress a).store a).saturationOwed = (s.store a).saturationOwed ∧
    ((s.removeInProgress a).store a).closeWaiting = (s.store a).closeWaiting ∧
    (∀ n, ((s.removeInProgress a).stream n).queue = (s.stream n).queue) ∧ ((s.removeInProgress a).intake a).context.cue = none := by
  have frame (cells : Nat) (seq : Seq) (f : Intake → Intake) (gone : (f (s.intake a)).context.cue = none) :
      let t := ((s.requestFree a cells .purge).refuse a headCode seq .brokenCue).onIntake a f
      (t.store a).purge = (s.store a).purge ∧ (t.store a).saturationOwed = (s.store a).saturationOwed ∧
      (t.store a).closeWaiting = (s.store a).closeWaiting ∧ (∀ n, (t.stream n).queue = (s.stream n).queue) ∧ (t.intake a).context.cue = none := by
    have same := (State.sameCells.refuse (s.requestFree a cells .purge) a headCode seq .brokenCue).onIntake a f
    obtain ⟨-, -, purge, owed, closing⟩ := requestFree_store s a cells .purge a
    refine ⟨?_, ?_, ?_, same.queues, ?_⟩
    · exact (congrArg Store.purge (same.store a)).trans purge
    · exact (congrArg Store.saturationOwed (same.store a)).trans owed
    · exact (congrArg Store.closeWaiting (same.store a)).trans closing
    · rw [same.intake, State.onIntake_intake, if_pos rfl]
      exact gone
  unfold State.removeInProgress
  cases held : (s.intake a).context with
  | opened c owed => exact frame c.cells c.seq _ rfl
  | inserting c walk => exact frame c.cells c.seq _ rfl
  | idle => exact ⟨rfl, rfl, rfl, fun _ => rfl, by rw [held]; rfl⟩
  | skipping k => exact ⟨rfl, rfl, rfl, fun _ => rfl, by rw [held]; rfl⟩

theorem State.lawBut.removeInProgress (l : s.lawBut a) : (s.removeInProgress a).lawBut a := by
  have waits n := ((l.ledger.account a).waits n).1
  unfold State.removeInProgress
  cases held : (s.intake a).context with
  | opened c owed => exact l.refused (by rw [held]; rfl) .purge headCode .brokenCue rfl waits
  | inserting c walk => exact l.refused (by rw [held]; rfl) .purge headCode .brokenCue rfl waits
  | idle => exact l
  | skipping k => exact l

/-- What a purge of kind `kind` does before its walk is laid down (R77, R95, R96). -/
def State.purgeOpening (s : State) (a : Aud) : PurgeKind → State
  | .forward _ | .backward _ => s.oweClears a
  | .saturation | .teardown => s.removeInProgress a
  | .withdraw _ _ | .close _ => s

/-- The purge that begins. -/
def State.purgeBegun (s : State) (a : Aud) (kind : PurgeKind) : Purge :=
  { kind := kind, todo := s.purgeOrder a kind, current := none, stepStart := s.now, waiting := kind.isTotal && s.cueInProgress a }

theorem beginPurge_eq (s : State) (a : Aud) (kind : PurgeKind) :
    s.beginPurge a kind = (s.purgeOpening a kind).onStore a (fun st => { st with purge := some (s.purgeBegun a kind) }) := by
  cases kind <;> rfl

theorem State.lawBut.beginPurge (l : s.lawBut a) (kind : PurgeKind) : (s.beginPurge a kind).lawBut a := by
  have opened : (s.purgeOpening a kind).lawBut a := by
    cases kind with
    | forward _ | backward _ => exact ((Banks.refl l.ledger.distinct).oweClears a).lawBut l
    | saturation | teardown => exact l.removeInProgress
    | withdraw _ _ | close _ => exact l
  rw [beginPurge_eq]
  exact opened.onPurge

theorem purge_beginPurge (s : State) (a : Aud) (kind : PurgeKind) : ((s.beginPurge a kind).store a).purge = some (s.purgeBegun a kind) := by
  rw [beginPurge_eq, State.onStore_store, if_pos rfl]

theorem owesPurge_beginPurge (s : State) (a : Aud) (kind : PurgeKind) : (s.beginPurge a kind).owesPurge a := fun _ => by
  rw [purge_beginPurge]
  exact Option.some_ne_none _

/-! ### A purge ends -/

theorem Banks.purgeClosed (h : Banks s t) (b : Aud) (kind : PurgeKind) : Banks s (t.purgeClosed b kind) := by
  cases kind with
  | close k => exact (h.settings _).finishWork _
  | teardown => exact h.finishWork _
  | _ => exact h

/-- The end of a purge, but for the purge itself, is background work. -/
theorem banks_endPurge (distinct : s.cuesDistinct) (a : Aud) (kind : PurgeKind) :
    Banks (s.onStore a (fun st => { st with purge := none })) (s.endPurge a kind) := by
  rw [endPurge_eq]
  exact ((((Banks.refl (s := s.onStore a (fun st => { st with purge := none })) distinct).purgeClosed a kind).release a _).onStore a _).endTest a

theorem State.lawBut.endPurge (l : s.lawBut a) (kind : PurgeKind) : (s.endPurge a kind).lawBut a :=
  (banks_endPurge l.ledger.distinct a kind).lawBut l.onPurge

theorem endPurge_store (distinct : s.cuesDistinct) (a : Aud) (kind : PurgeKind) : ((s.endPurge a kind).store a).purge = none ∧
    ((s.endPurge a kind).store a).saturationOwed = (s.store a).saturationOwed ∧
    ((s.endPurge a kind).store a).closeWaiting = (s.store a).closeWaiting ∧ ((s.endPurge a kind).store a).used = (s.store a).used := by
  have ended := banks_endPurge distinct a kind
  have store : (s.onStore a (fun st => { st with purge := none })).store a = { s.store a with purge := none } :=
    (State.onStore_store ..).trans (if_pos rfl)
  obtain ⟨purge, owed, closing, -⟩ := ended.stands a
  have used := ended.used a
  rw [store] at purge owed closing used
  exact ⟨purge, owed, closing, used⟩

theorem State.lawBut.nextPurge (l : s.lawBut a) : (s.nextPurge a).lawBut a := by
  unfold State.nextPurge
  split
  · exact l.onPurge.beginPurge .saturation
  · split
    · exact l.onPurge.beginPurge (.close _)
    · exact l

theorem owesPurge_nextPurge (s : State) (a : Aud) : (s.nextPurge a).owesPurge a := by
  unfold State.nextPurge
  split
  · exact owesPurge_beginPurge _ a _
  · next free =>
    split
    · exact owesPurge_beginPurge _ a _
    · exact fun owed => absurd owed free

theorem State.lawBut.runPurge (l : s.lawBut a) (owes : s.owesPurge a) (fuel : Nat) :
    (State.runPurge a fuel s).lawBut a ∧ (State.runPurge a fuel s).owesPurge a := by
  have walking (y : Purge) : (s.onStore a (fun st => { st with purge := some y })).lawBut a ∧
      (s.onStore a (fun st => { st with purge := some y })).owesPurge a :=
    ⟨l.onPurge, fun _ => by rw [State.onStore_store, if_pos rfl]; exact Option.some_ne_none _⟩
  induction fuel generalizing s with
  | zero => exact ⟨l, owes⟩
  | succ fuel ih =>
    rw [State.runPurge]
    split
    · exact ⟨l, owes⟩
    · next y running =>
      split
      · exact ⟨l, owes⟩
      · split
        · exact walking _
        · split
          · exact walking _
          · refine ih (l.endPurge y.kind).nextPurge (owesPurge_nextPurge _ a) fun z => ?_
            exact ⟨(l.endPurge y.kind).nextPurge.onPurge, fun _ => by rw [State.onStore_store, if_pos rfl]; exact Option.some_ne_none _⟩

end Sys2Proof.Machine
end

section
/-! PROOFS. A teardown leaves a DARK auditorium as R90 and R101 say, and every purge keeps the law of the cue store. -/

namespace Sys2Proof.Machine

variable {s t u v w : State} {a b : Aud} {n m : StreamNo} {c d : Cue} {p : Purge} {x y : Slot × Seq} {kind : PurgeKind} {todo rest : List (Slot × Seq)}

/-! ### What a walk names -/

theorem mem_of_nextPlace (next : s.nextPlace a todo = some (x, rest)) (mem : y ∈ todo) (here : s.inQueue a y) : y ∈ rest ∨ y = x := by
  induction todo with
  | nil => cases mem
  | cons z todo ih =>
    rw [State.nextPlace] at next
    split at next
    · cases next
      exact (List.mem_cons.mp mem).symm
    · next gone =>
      rcases List.mem_cons.mp mem with rfl | later
      · exact absurd ((inQueue_iff s a y).mp here) gone
      · exact ih next later

theorem not_inQueue_of_nextPlace (next : s.nextPlace a todo = none) (mem : y ∈ todo) : ¬ s.inQueue a y := by
  induction todo with
  | nil => cases mem
  | cons z todo ih =>
    rw [State.nextPlace] at next
    split at next
    · cases next
    · next gone =>
      rcases List.mem_cons.mp mem with rfl | later
      · exact fun here => gone ((inQueue_iff s a y).mp here)
      · exact ih next later

theorem inQueue_mem (s : State) (a : Aud) (k : Slot) (z : Seq) : s.inQueue a (k, z) ↔ z ∈ seqs (s.stream (streamOf a k)).queue := by
  simp only [State.inQueue, seqs, List.mem_map]

/-! ### An auditorium without a cell -/

theorem queue_empty_of_cells (none_ : s.queueCells n = 0) : (s.stream n).queue = [] := by
  cases queue : (s.stream n).queue with
  | nil => rfl
  | cons c rest =>
    rw [State.queueCells, queue, List.map_cons, List.sum_cons] at none_
    have := one_le_cells c
    omega

/-- An auditorium whose used count is 0 has its six queues and its freeing unit empty. -/
theorem State.account.empty (h : s.account a) (none_ : (s.store a).used = 0) :
    (∀ k, (s.stream (streamOf a k)).queue = []) ∧ (s.store a).freeing = [] := by
  have used := h.used
  rw [none_, cellsOf_eq] at used
  have queues : (slots.map fun k => s.queueCells (streamOf a k)).sum = 0 := by omega
  have requests : ((s.store a).freeing.map FreeRequest.cells).sum = 0 := by omega
  refine ⟨fun k => queue_empty_of_cells (List.sum_eq_zero_iff.mp queues _ (List.mem_map.mpr ⟨k, List.mem_finRange k, rfl⟩)), ?_⟩
  cases freeing : (s.store a).freeing with
  | nil => rfl
  | cons q rest =>
    have positive := h.requests q (by rw [freeing]; exact List.mem_cons_self)
    rw [freeing, List.map_cons, List.sum_cons] at requests
    omega

theorem State.account.used_zero (h : s.account a) (queues : ∀ k, (s.stream (streamOf a k)).queue = []) (cue : (s.intake a).context.cue = none)
    (freeing : (s.store a).freeing = []) : (s.store a).used = 0 := by
  have used := h.used
  rw [used, State.cellsOf, cue, freeing]
  simp [queues]

/-! ### A teardown's walk to its end (R101) -/

/-- The teardown of auditorium `a` runs, nothing of another purge owed, no cue in progress, and its walk names every cue queued. -/
structure State.tearsDown (s : State) (a : Aud) : Prop where
  cue : (s.intake a).context.cue = none
  owed : (s.store a).saturationOwed = false
  purge : ∃ p, (s.store a).purge = some p ∧ p.kind = .teardown ∧ s.walkNames a p

theorem State.tearsDown.darkCells (h : s.tearsDown a) : s.darkCells a := by
  obtain ⟨p, running, kind, names⟩ := h.purge
  refine (darkCells_iff s a).mpr ⟨h.cue, h.owed, fun over_ => ?_, fun q same => ?_⟩
  · rw [over_] at running
    cases running
  · rw [same] at running
    cases running
    exact ⟨kind, names⟩

theorem endPurge_cue (distinct : s.cuesDistinct) (cue : (s.intake a).context.cue = none) (kind : PurgeKind) :
    ((s.endPurge a kind).intake a).context.cue = none := (banks_endPurge distinct a kind).cue a cue

/-- Auditorium `a` holds no cell, nothing of another purge owed. -/
structure State.drained (s : State) (a : Aud) : Prop where
  cue : (s.intake a).context.cue = none
  owed : (s.store a).saturationOwed = false
  used : (s.store a).used = 0

theorem State.drained.darkCells (h : s.drained a) (over_ : (s.store a).purge = none) : s.darkCells a :=
  (darkCells_iff s a).mpr ⟨h.cue, h.owed, fun _ => h.used, fun q running => by rw [over_] at running; cases running⟩

theorem State.drained.endPurge (h : s.drained a) (distinct : s.cuesDistinct) (kind : PurgeKind) : (s.endPurge a kind).drained a := by
  obtain ⟨-, owed, -, used⟩ := endPurge_store distinct a kind
  exact ⟨endPurge_cue distinct h.cue kind, owed.trans h.owed, used.trans h.used⟩

theorem State.drained.beginClose (h : s.drained a) (k : Slot) : (s.beginPurge a (.close k)).drained a := by
  have store : (s.beginPurge a (.close k)).store a = { s.store a with purge := some (s.purgeBegun a (.close k)) } :=
    (State.onStore_store ..).trans (if_pos rfl)
  exact ⟨h.cue, by rw [store]; exact h.owed, by rw [store]; exact h.used⟩

/-- A CLOSE-STREAM in an auditorium without a cell finds nothing to remove. -/
theorem runPurge_close_drained (l : s.lawBut a) (h : s.drained a) (k : Slot) (fuel : Nat) :
    State.runPurge a (fuel + 1) (s.beginPurge a (.close k)) =
      State.runPurge a fuel (((s.beginPurge a (.close k)).endPurge a (.close k)).nextPurge a) := by
  obtain ⟨queues, -⟩ := (l.ledger.account a).empty h.used
  have next : (s.beginPurge a (.close k)).nextPlace a (s.purgeBegun a (.close k)).todo = none := nextPlace_absent fun z _ ⟨c, mem, _⟩ => by
    rw [show ((s.beginPurge a (.close k)).stream (streamOf a z.1)).queue = [] from queues z.1] at mem
    cases mem
  exact runPurge_ends (purge_beginPurge s a (.close k)) rfl rfl next (fun total => by cases total) fuel

/-- What begins when the last purge of an auditorium without a cell has ended ends at once. -/
theorem State.drained.runPurge_nextPurge (l : s.lawBut a) (h : s.drained a) (over_ : (s.store a).purge = none) (fuel : Nat) :
    (State.runPurge a (fuel + 1) (s.nextPurge a)).darkCells a := by
  rw [State.nextPurge, h.owed, if_neg Bool.false_ne_true]
  split
  · have law : (s.onStore a (fun st => { st with closeWaiting := none })).lawBut a := l.onPurge
    have store : (s.onStore a (fun st => { st with closeWaiting := none })).store a = { s.store a with closeWaiting := none } :=
      (State.onStore_store ..).trans (if_pos rfl)
    have drained : (s.onStore a (fun st => { st with closeWaiting := none })).drained a :=
      ⟨h.cue, by rw [store]; exact h.owed, by rw [store]; exact h.used⟩
    rw [runPurge_close_drained law drained]
    next k _ =>
    have begun := law.beginPurge (.close k)
    have ended := (drained.beginClose k).endPurge begun.ledger.distinct (.close k)
    obtain ⟨over_', -, closing, -⟩ := endPurge_store begun.ledger.distinct a (.close k)
    rw [nextPurge_none ended.owed (closing.trans ?_), runPurge_none over_']
    · exact ended.darkCells over_'
    · rw [beginPurge_eq, State.onStore_store, if_pos rfl]
      exact congrArg Store.closeWaiting store
  · rw [runPurge_none over_]
    exact h.darkCells over_

theorem State.tearsDown.runPurge (l : s.lawBut a) (h : s.tearsDown a) (fuel : Nat) : (State.runPurge a (fuel + 2) s).darkCells a := by
  obtain ⟨p, running, kind, names⟩ := h.purge
  have walks (q : Purge) (same : q.kind = .teardown) (named : s.walkNames a q) : (s.onStore a (fun st => { st with purge := some q })).darkCells a := by
    have store : (s.onStore a (fun st => { st with purge := some q })).store a = { s.store a with purge := some q } :=
      (State.onStore_store ..).trans (if_pos rfl)
    exact State.tearsDown.darkCells ⟨h.cue, by rw [store]; exact h.owed, q, by rw [store], same, named⟩
  have none_left (next : s.nextPlace a p.todo = none) (free : p.current = none) (k : Slot) : (s.stream (streamOf a k)).queue = [] := by
    refine (List.map_eq_nil_iff (f := Cue.seq)).mp (List.eq_nil_iff_forall_not_mem.mpr fun z mem => ?_)
    refine not_inQueue_of_nextPlace next ((names k z mem).resolve_right fun current => ?_) ((inQueue_mem s a k z).mpr mem)
    rw [free] at current
    cases current
  rw [State.runPurge]
  simp only [running]
  split
  · exact h.darkCells
  · next still =>
    simp only [Bool.or_eq_true, not_or, Bool.not_eq_true, Option.isSome_eq_false_iff, Option.isNone_iff_eq_none] at still
    split
    · next z rest next =>
      refine walks _ kind fun k y mem => ?_
      have named := (names k y mem).resolve_right fun current => by rw [still.2] at current; cases current
      exact (mem_of_nextPlace next named ((inQueue_mem s a k y).mpr mem)).imp_right fun same => by rw [same]
    · next next =>
      have queues := none_left next still.2
      split
      · exact walks _ kind fun k y mem => by rw [queues k] at mem; cases mem
      · next free =>
        have freeing : (s.store a).freeing = [] := by simpa [kind, PurgeKind.isTotal] using free
        have none_ := (l.ledger.account a).used_zero queues h.cue freeing
        have drained : s.drained a := ⟨h.cue, h.owed, none_⟩
        exact (drained.endPurge l.ledger.distinct p.kind).runPurge_nextPurge (l.endPurge p.kind)
          (endPurge_store l.ledger.distinct a p.kind).1 fuel

/-! ### The law through a purge -/

/-- A purge that goes on keeps the law, a DARK auditorium's being its teardown. -/
theorem State.lawBut.cellsWf_runPurge (l : s.lawBut a) (owes : s.owesPurge a) (dark : (s.session a).state = .dark → s.tearsDown a) :
    (State.runPurge a purgeFuel s).cellsWf := by
  obtain ⟨law, owes'⟩ := l.runPurge owes purgeFuel
  refine law.cellsWf owes' fun isDark => ?_
  exact (dark ((Worked.dark_iff (Worked.runPurge (σ := none) a purgeFuel .refl) a).mp isDark)).runPurge l 2

theorem cellsWf_startPurge (h : s.cellsWf) (lit : (s.session a).state ≠ .dark) (kind : PurgeKind) : (s.startPurge a kind).cellsWf :=
  ((lawBut_of_cellsWf h a).beginPurge kind).cellsWf_runPurge (owesPurge_beginPurge s a kind) fun dark =>
    absurd ((Worked.dark_iff (Worked.beginPurge (σ := none) .refl a kind) a).mp dark) lit

/-- A CLOSE-STREAM's purge may begin in DARK too, where no cell is held. -/
theorem cellsWf_startPurge_close (h : s.cellsWf) (over_ : (s.store a).purge = none) (k : Slot) : (s.startPurge a (.close k)).cellsWf := by
  have l := lawBut_of_cellsWf h a
  obtain ⟨law, owes⟩ := (l.beginPurge (.close k)).runPurge (owesPurge_beginPurge s a (.close k)) purgeFuel
  refine law.cellsWf owes fun dark => ?_
  have begun := Worked.beginPurge (σ := none) (s := s) .refl a (.close k)
  have isDark := (Worked.dark_iff (begun.trans (Worked.runPurge (σ := none) a purgeFuel .refl)) a).mp dark
  obtain ⟨cue, owed, ended, -⟩ := (darkCells_iff s a).mp ((((cellsWf_iff s).mp h).2 a).2 isDark)
  have drained : s.drained a := ⟨cue, owed, ended over_⟩
  rw [show purgeFuel = 3 + 1 from rfl, runPurge_close_drained l drained]
  exact ((drained.beginClose k).endPurge (l.beginPurge (.close k)).ledger.distinct (.close k)).runPurge_nextPurge ((l.beginPurge (.close k)).endPurge _)
    (endPurge_store (l.beginPurge (.close k)).ledger.distinct a (.close k)).1 2

theorem cellsWf_wakePurge (h : s.cellsWf) (tag : FreeTag) : (s.wakePurge a tag).cellsWf := by
  unfold State.wakePurge
  split
  · next p running =>
    split
    · have l := lawBut_of_cellsWf h a
      have store : (s.onStore a (fun st => { st with purge := some { p with waiting := false } })).store a =
        { s.store a with purge := some { p with waiting := false } } := (State.onStore_store ..).trans (if_pos rfl)
      have ran := l.onPurge (f := fun st => { st with purge := some { p with waiting := false } }) |>.cellsWf_runPurge
        (fun _ => by rw [store]; exact Option.some_ne_none _) fun dark => by
          obtain ⟨cue, owed, -, walks⟩ := (darkCells_iff s a).mp ((((cellsWf_iff s).mp h).2 a).2 dark)
          obtain ⟨kind, names⟩ := walks p running
          exact ⟨cue, by rw [store]; exact owed, { p with waiting := false }, by rw [store], kind, names⟩
      exact (Banks.refl ran.2.1).settleFills.cellsWf ran
    · exact h
  · exact h

/-- A position that saturates ends its show (R37). -/
theorem cellsWf_saturatePosition (h : s.cellsWf) : (s.saturatePosition a).cellsWf := by
  have ended := (Banks.refl h.2.1).enterEnded a |>.cellsWf h
  have over_ : ((s.enterEnded a).session a).state ≠ .dark := by
    rw [enterEnded_ended]
    exact nofun
  unfold State.saturatePosition
  generalize s.enterEnded a = u at ended over_
  dsimp only
  split
  · next runs =>
    have store : (u.onStore a (fun st => { st with saturationOwed := true })).store a = { u.store a with saturationOwed := true } :=
      (State.onStore_store ..).trans (if_pos rfl)
    refine (lawBut_of_cellsWf ended a).onPurge.cellsWf (fun _ => ?_) fun dark => absurd dark over_
    rw [store]
    exact Option.isSome_iff_ne_none.mp runs
  · exact cellsWf_startPurge ended over_ .saturation

theorem cellsWf_positionChanged (h : s.cellsWf) : (s.positionChanged a).cellsWf := by
  have passed := (Banks.refl h.2.1).endByPosition a
  rw [State.positionChanged]
  split
  · exact cellsWf_saturatePosition (passed.cellsWf h)
  · exact (passed.release a none).cellsWf h

/-! ### One step of a walk -/

theorem oweClear_queue (s : State) (n m : StreamNo) : ((s.oweClear n).stream m).queue = (s.stream m).queue := by
  rw [oweClear_eq]
  split
  · rfl
  · exact onStream_queue (by intro; rfl) m

theorem freeCue_gone (h : s.cuesDistinct) (found : s.findCue n c.seq = some c) (tag : FreeTag) : c.seq ∉ seqs ((s.freeCue n c tag).stream n).queue := by
  have left : c.seq ∉ seqs (((s.leaveQueue n c.seq).requestFree (audOfStream n) c.cells tag).stream n).queue := by
    change c.seq ∉ seqs (((s.catchUpWalk (audOfStream n) n).onStream n (fun st => { st with queue := dropCue c.seq st.queue })).stream n).queue
    rw [State.onStream_stream, if_pos rfl]
    simp [seqs, dropCue]
  have ended := (Banks.refl ((Banks.refl h).removes n found tag).distinct).endTest (audOfStream n)
  have sub := (ended.stands (audOfStream n)).queue (slotOfStream n)
  rw [streamOf_self] at sub
  exact fun mem => left (sub mem)

/-- A removed cue leaves its queue, and the walk that named it waits for its cells. -/
theorem cellsWf_purgeRemove {k : Slot} (h : s.cellsWf) (running : (s.store a).purge = some p) (found : s.findCue (streamOf a k) c.seq = some c)
    (examined : p.current = some (k, c.seq)) : (s.purgeRemove a (streamOf a k) p.kind c).cellsWf := by
  have refl := Banks.refl h.2.1
  obtain ⟨t, banks, found', e⟩ : ∃ t, Banks s t ∧ t.findCue (streamOf a k) c.seq = some c ∧ s.purgeRemove a (streamOf a k) p.kind c =
      (t.freeCue (streamOf a k) c .purge).onStore a (fun st => { st with purge := st.purge.map fun q => { q with current := none, waiting := true } }) := by
    have owed : Banks s (if p.kind.owesClear c then s.oweClear (streamOf a k) else s) ∧
        (if p.kind.owesClear c then s.oweClear (streamOf a k) else s).findCue (streamOf a k) c.seq = some c := by
      split
      · exact ⟨refl.oweClear _, (congrArg (Machine.findCue c.seq) (oweClear_queue s _ _)).trans found⟩
      · exact ⟨refl, found⟩
    by_cases counts : p.kind.countsExpired = true
    · exact ⟨_, owed.1.onCounters a _, owed.2, by rw [State.purgeRemove, if_pos counts]⟩
    · exact ⟨_, owed.1, owed.2, by rw [State.purgeRemove, if_neg counts]⟩
  have freed := banks.freeCue (streamOf a k) found' .purge
  have wf := freed.cellsWf h
  have gone := freeCue_gone banks.distinct found' .purge
  have purge : ((t.freeCue (streamOf a k) c .purge).store a).purge = some p := (freed.stands a).purge.trans running
  rw [e]
  generalize t.freeCue (streamOf a k) c .purge = u at freed wf gone purge
  have store : (u.onStore a (fun st => { st with purge := st.purge.map fun q => { q with current := none, waiting := true } })).store a =
    { u.store a with purge := some { p with current := none, waiting := true } } := by
      rw [State.onStore_store, if_pos rfl, purge]
      rfl
  refine (lawBut_of_cellsWf wf a).onPurge.cellsWf (fun _ => by rw [store]; exact Option.some_ne_none _) fun dark => ?_
  obtain ⟨cue, owed, -, walks⟩ := (darkCells_iff u a).mp ((((cellsWf_iff u).mp wf).2 a).2 dark)
  obtain ⟨kind, names⟩ := walks p purge
  refine State.tearsDown.darkCells ⟨cue, by rw [store]; exact owed, { p with current := none, waiting := true }, by rw [store], kind, fun i y mem => .inl ?_⟩
  refine (names i y mem).resolve_right fun current => gone ?_
  obtain ⟨rfl, rfl⟩ := Prod.mk.inj (Option.some.inj (examined.symm.trans current))
  exact mem

theorem cellsWf_purgeStep (h : s.cellsWf) (running : (s.store a).purge = some p) (examined : p.current = some x) : (s.purgeStep a p x).cellsWf := by
  have l := lawBut_of_cellsWf h a
  have dark := (((cellsWf_iff s).mp h).2 a).2
  have move (t : State) (todo : List (Slot × Seq)) (banks : Banks s t) (names : (t.session a).state = .dark → p.kind = .teardown →
      s.walkNames a p → t.walkNames a { p with todo := todo, current := none }) :
      (State.runPurge a purgeFuel (t.onStore a (fun st => { st with purge := some { p with todo := todo, current := none } }))).cellsWf := by
    have store : (t.onStore a (fun st => { st with purge := some { p with todo := todo, current := none } })).store a =
      { t.store a with purge := some { p with todo := todo, current := none } } := (State.onStore_store ..).trans (if_pos rfl)
    refine (banks.lawBut l).onPurge.cellsWf_runPurge (fun _ => by rw [store]; exact Option.some_ne_none _) fun isDark => ?_
    obtain ⟨cue, owed, -, walks⟩ := (darkCells_iff s a).mp (dark ((banks.stands a).dark isDark))
    obtain ⟨kind, named⟩ := walks p running
    exact ⟨banks.cue a cue, by rw [store]; exact (banks.stands a).owed.trans owed, { p with todo := todo, current := none }, by rw [store], kind, names isDark kind named⟩
  have refl := Banks.refl h.2.1
  unfold State.purgeStep
  dsimp only
  split
  · next absent =>
    refine move s p.todo refl fun _ _ named k z mem => .inl ((named k z mem).resolve_right fun current => ?_)
    obtain rfl : x = (k, z) := Option.some.inj (examined.symm.trans current)
    have present := (inQueue_iff s a (k, z)).mp ((inQueue_mem s a k z).mpr mem)
    rw [absent] at present
    cases present
  · next c found =>
    split
    · have seq : c.seq = x.2 := findCue_seq found
      rw [← seq] at found
      exact cellsWf_purgeRemove h running found (by rw [examined, seq])
    · next ruled =>
      refine move s _ refl fun _ kind => ?_
      rw [kind] at ruled
      cases ruled
    · next ruled =>
      refine move _ _ (refl.onLife _ _) fun _ kind => ?_
      rw [kind] at ruled
      cases ruled
    · next ruled =>
      refine move _ _ (refl.onLife _ _) fun _ kind => ?_
      rw [kind] at ruled
      cases ruled

end Sys2Proof.Machine
end

section
/-! PROOFS. The intake and the law of the cue store: allocations within the quota, cues broken, and records that wait (R64 to R74, R90, R91). -/

namespace Sys2Proof.Machine

variable {s t u v w : State} {a b : Aud} {n m : StreamNo} {c d : Cue} {tag : FreeTag} {r : Record} {f : HeadFields}

/-! ### Marks and the END -/

theorem Banks.settleFills_cellsWf (h : s.cellsWf) : s.settleFills.cellsWf := (Banks.refl h.2.1).settleFills.cellsWf h

theorem cellsWf_correction (h : s.cellsWf) (k : Nat) : (s.correction a k).cellsWf := by
  have refl := Banks.refl h.2.1
  unfold State.correction
  dsimp only
  split
  · exact h
  · refine Banks.settleFills_cellsWf (cellsWf_positionChanged (Banks.cellsWf (Banks.settleSub ?_ a) h))
    split
    · exact refl.onClock a _
    · exact (refl.onClock a _).onCounters a _

theorem cellsWf_firstMark (h : s.cellsWf) (k : Nat) : (s.firstMark a k).cellsWf := by
  have refl := Banks.refl h.2.1
  unfold State.firstMark
  dsimp only
  refine Banks.settleFills_cellsWf (cellsWf_positionChanged (Banks.cellsWf ?_ h))
  split
  · exact (refl.onClock a _).enterRunning a
  · exact (refl.onClock a _).onSession a (fun y => { y with state := .paused }) nofun

theorem cellsWf_jump (h : s.cellsWf) (lit : (s.session a).state ≠ .dark) (k : Nat) : (s.jump a k).cellsWf := by
  have jumped : Banks s (((((s.onClock a (·.place k)).onCounters a (fun y => { y with jump := bump y.jump })).settleSub a).placeReply a
      (.jumpSeen (s.clock a).base k)).raiseAud a kindJump) :=
    ((((Banks.refl h.2.1).onClock a _).onCounters a _).settleSub a).placeReply a _ |>.raiseAud a _
  unfold State.jump
  dsimp only
  generalize ((((s.onClock a (·.place k)).onCounters a (fun y => { y with jump := bump y.jump })).settleSub a).placeReply a
      (.jumpSeen (s.clock a).base k)).raiseAud a kindJump = u at jumped
  have wf := jumped.cellsWf h
  split
  · exact Banks.settleFills_cellsWf (cellsWf_positionChanged wf)
  · generalize (if (s.clock a).base < k then PurgeKind.forward k else .backward k) = kind
    have begun := (lawBut_of_cellsWf wf a).beginPurge kind
    have passed := (Banks.refl begun.ledger.distinct).endByPosition a
    refine Banks.settleFills_cellsWf ((passed.lawBut begun).cellsWf_runPurge ((passed.stands a).owesPurge (owesPurge_beginPurge u a kind)) fun dark => ?_)
    exact absurd ((jumped.stands a).dark ((Worked.dark_iff (Worked.beginPurge (σ := none) .refl a kind) a).mp ((passed.stands a).dark dark))) lit

theorem cellsWf_refuse (h : s.cellsWf) (k : Byte) (x : Seq) (reason : Reason) : (s.refuse a k x reason).cellsWf :=
  ((Banks.refl h.2.1).refuse a k x reason).cellsWf h

theorem cellsWf_takeMark (h : s.cellsWf) (k : Nat) : (s.takeMark a k).cellsWf := by
  unfold State.takeMark
  cases state : (s.session a).state with
  | dark => exact cellsWf_refuse h ..
  | ended => exact cellsWf_refuse h ..
  | armed =>
    dsimp only
    split
    · exact cellsWf_refuse h ..
    · exact cellsWf_firstMark h k
  | paused | running | coasting =>
    dsimp only
    split
    · exact cellsWf_refuse h ..
    · split
      · exact cellsWf_correction h k
      · exact cellsWf_jump h (by rw [state]; exact nofun) k

theorem cellsWf_takeEnd (h : s.cellsWf) : (s.takeEnd a).cellsWf := by
  unfold State.takeEnd
  split
  · exact cellsWf_refuse h ..
  · exact cellsWf_refuse h ..
  · exact Banks.settleFills_cellsWf (Banks.cellsWf (((Banks.refl h.2.1).onSession a _ fun dark => dark).endTest a) h)

/-! ### The context and what waits -/

/-- No skipping context of a BODY-SIZE waits. -/
def State.skipFree (s : State) (a : Aud) : Prop := ∀ n, .skip n ∉ (s.intake a).deferred

theorem skipFree_of_empty (h : (s.intake a).deferred = []) : s.skipFree a := fun n mem => by rw [h] at mem; cases mem

/-- A change of an intake that keeps the cue in progress, and what it owes. -/
theorem cellsWf_onIntake (h : s.cellsWf) {g : Intake → Intake} (cue : (g (s.intake a)).context.cue = (s.intake a).context.cue)
    (opened : ∀ d k, (g (s.intake a)).context = .opened d k → (s.intake a).context = .opened d k)
    (waits : ∀ n, .skip n ∉ (g (s.intake a)).deferred.tail ∧ ((g (s.intake a)).deferred.head? = some (.skip n) → (g (s.intake a)).context.cue = none)) :
    (s.onIntake a g).cellsWf := by
  have l := lawBut_of_cellsWf h a
  have intake : (s.onIntake a g).intake a = g (s.intake a) := (State.onIntake_intake ..).trans (if_pos rfl)
  obtain ⟨counted, within, open_, requests, -⟩ := l.ledger.account a
  have distinct : (s.onIntake a g).cuesDistinct := by
    refine ⟨h.2.1.1, fun b d held => h.2.1.2 b d ?_⟩
    rw [State.onIntake_intake] at held
    split at held
    · next same => subst same; exact cue.symm.trans held
    · exact held
  refine (l.change distinct ⟨fun _ _ => rfl, fun b ne => ?_, fun _ _ => rfl, fun _ _ dark => dark⟩ rfl rfl
    ⟨?_, within, fun d k o => open_ d k (opened d k (by rwa [intake] at o)), requests, by rw [intake]; exact waits⟩).cellsWf
    (((cellsWf_iff s).mp h).2 a).1 fun dark => ?_
  · exact (State.onIntake_intake ..).trans (if_neg fun e => ne e.symm)
  · rw [cellsOf_eq] at counted
    rw [cellsOf_eq, intake, cue]
    exact counted
  · have held := (((cellsWf_iff s).mp h).2 a).2 dark
    exact ⟨by rw [intake, cue]; exact held.1, held.2.1, held.2.2⟩

/-- A context without a cue makes way for another without one. -/
theorem cellsWf_setContext (h : s.cellsWf) (none_ : (s.intake a).context.cue = none) {x : Context} (hx : x.cue = none) : (s.setContext a x).cellsWf := by
  have waits n := ((lawBut_of_cellsWf h a).ledger.account a).waits n
  exact cellsWf_onIntake h (hx.trans none_.symm) (fun d k e => by rw [show x = .opened d k from e] at hx; cases hx) fun n => ⟨(waits n).1, fun _ => hx⟩

theorem setContext_intake (s : State) (a : Aud) (x : Context) : (s.setContext a x).intake a = { s.intake a with context := x } :=
  (State.onIntake_intake ..).trans (if_pos rfl)

theorem State.sameCells.cellsWf (h : s.sameCells t) (wf : s.cellsWf) : t.cellsWf := (Banks.of_sameCells wf.2.1 h).cellsWf wf

/-- The cells of the cue in progress are asked of the freeing unit, and its context is closed. -/
theorem cellsWf_cueToUnit (h : s.cellsWf) (held : (s.intake a).context.cue = some c) (tag : FreeTag) {g : Intake → Intake}
    (gone : (g (s.intake a)).context.cue = none) (waits : ∀ n, .skip n ∉ (g (s.intake a)).deferred.tail) :
    ((s.requestFree a c.cells tag).onIntake a g).cellsWf := by
  obtain ⟨-, -, purge, owed, -⟩ := requestFree_store s a c.cells tag a
  have holds := ((cellsWf_iff s).mp h).2 a
  refine ((lawBut_of_cellsWf h a).cueToUnit held tag gone waits).cellsWf (fun owes => ?_) fun dark => ?_
  · exact purge ▸ holds.1 (owed ▸ owes)
  · have none_ := (holds.2 dark).1
    rw [held] at none_
    cases none_

/-- A cue in progress is refused, its cells asked of the freeing unit, and its context closed. -/
theorem cellsWf_refused (h : s.cellsWf) (held : (s.intake a).context.cue = some c) (tag : FreeTag) (k : Byte) (reason : Reason) {g : Intake → Intake}
    (gone : (g (s.intake a)).context.cue = none) (waits : ∀ n, .skip n ∉ (g (s.intake a)).deferred.tail) :
    (((s.requestFree a c.cells tag).refuse a k c.seq reason).onIntake a g).cellsWf :=
  ((State.sameCells.refuse _ a k c.seq reason).onIntake a g).cellsWf (cellsWf_cueToUnit h held tag gone waits)

/-! ### Allocation (R71, R73, R90) -/

/-- Where an auditorium is below its quota a cell is free. -/
theorem State.ledger.free_of_room (l : s.ledger) (room : (s.store a).used + 1 ≤ (s.store a).quota) : 1 ≤ s.freeCells := by
  have total := l.total
  have quotas := l.quotas
  have less : (auds.map (fun b => (s.store b).used)).sum < (auds.map (fun b => (s.store b).quota)).sum :=
    List.sum_lt_sum _ _ (fun b _ => (l.account b).within) ⟨a, List.mem_finRange a, room⟩
  simp only [State.quotasWf, State.quotaTotal, Config.cells] at quotas
  omega

/-- A cell is allocated to the cue in progress, within the quota. -/
theorem cellsWf_allocate (h : s.cellsWf) (lit : (s.session a).state ≠ .dark) {x : Context} (cue : x.cue = some c)
    (cells : c.cells = ((s.intake a).context.cue.map Cue.cells).getD 0 + 1) (room : (s.store a).used + 1 ≤ (s.store a).quota)
    (owing : ∀ d k, x = .opened d k → 1 ≤ k ∧ (s.store a).used + 1 + k ≤ (s.store a).quota) (free : s.skipFree a)
    (distinct : ((s.allocate a).setContext a x).cuesDistinct) : ((s.allocate a).setContext a x).cellsWf := by
  have l := lawBut_of_cellsWf h a
  have same : (((s.onStore a (fun st => { st with used := st.used + 1 })).onFree (fun k => k - 1)).onIntake a
      (fun i => { i with context := x })).sameCells ((s.allocate a).setContext a x) := (State.sameCells.flow _ a).onIntake a _
  have store : ((s.allocate a).setContext a x).store a = { s.store a with used := (s.store a).used + 1 } :=
    (same.store a).trans ((State.onStore_store ..).trans (if_pos rfl))
  have intake : ((s.allocate a).setContext a x).intake a = { s.intake a with context := x } :=
    (same.intake a).trans ((State.onIntake_intake ..).trans (if_pos rfl))
  obtain ⟨counted, -, -, requests, -⟩ := l.ledger.account a
  have freeCells : ((s.allocate a).setContext a x).freeCells = s.freeCells - 1 := same.free
  have some_free := l.ledger.free_of_room room
  refine (l.change distinct ⟨fun b ne => (same.store b).trans ?_, fun b ne => (same.intake b).trans ?_, fun n _ => same.queues n, fun b _ dark => ?_⟩
    (by rw [store]) (by rw [store, freeCells]; dsimp only; omega) ⟨?_, by rw [store]; exact room, ?_, by rw [store]; exact requests, fun n => ?_⟩).cellsWf
    (by rw [State.owesPurge, store]; exact (((cellsWf_iff s).mp h).2 a).1) fun dark => absurd (by rw [same.sessions] at dark; exact dark) lit
  · exact (State.onStore_store ..).trans (if_neg fun e => ne e.symm)
  · exact (State.onIntake_intake ..).trans (if_neg fun e => ne e.symm)
  · rw [same.sessions] at dark
    exact dark
  · rw [cellsOf_eq] at counted
    rw [store, cellsOf_eq, intake, store]
    have queues (i : StreamNo) : ((s.allocate a).setContext a x).queueCells i = s.queueCells i := congrArg (fun q => (q.map Cue.cells).sum) (same.queues i)
    simp only [queues, cue, Option.map_some, Option.getD_some, cells]
    omega
  · rw [intake, store]
    exact owing
  · rw [intake]
    exact ⟨fun mem => free n (List.mem_of_mem_tail mem), fun head => absurd (List.mem_of_head? head) (free n)⟩

/-! ### HEAD -/

/-- A HEAD that passes its checks leaves room for its cue (R67, R68, R70). -/
theorem checkHead_room (ok : s.checkHead a f = .ok c) : (s.session a).state ≠ .dark ∧ 1 ≤ f.bodyCount ∧
    (s.store a).used + 1 + f.bodyCount ≤ (s.store a).quota ∧ c.bodies = [] := by
  rw [checkHead_eq] at ok
  cases fails : s.headFails a f with
  | some reason => rw [fails] at ok; cases ok
  | none =>
    rw [fails] at ok
    cases ok
    simp only [State.headFails, Option.map_eq_none_iff, List.find?_eq_none, List.forall_mem_cons, decide_eq_true_eq] at fails
    obtain ⟨lit, -, -, -, range, -, -, -, room, -⟩ := fails
    refine ⟨lit, ?_, by omega, rfl⟩
    cases kind : (s.stream (streamOf a ((slotOf f.slot).getD 0))).kind <;> simp [kind] at range <;> omega

end Sys2Proof.Machine
end

section
/-! PROOFS. Records and entries taken keep the law of the cue store (R50 to R53, R63 to R80, R90, R91). -/

namespace Sys2Proof.Machine

variable {s t u v w : State} {a b : Aud} {n m : StreamNo} {c d : Cue} {tag : FreeTag} {r : Record} {fields : List Byte}

/-! ### HEAD and BODY -/

theorem lit_of_cue (h : s.cellsWf) (held : (s.intake a).context.cue = some c) : (s.session a).state ≠ .dark := fun dark => by
  have none_ := ((((cellsWf_iff s).mp h).2 a).2 dark).1
  rw [held] at none_
  cases none_

theorem cellsWf_takeHead (h : s.cellsWf) (none_ : (s.intake a).context.cue = none) (free : s.skipFree a) : (s.takeHead a fields).cellsWf := by
  have distinct := (Taken.takeHead .refl a fields).cuesDistinct h.2.1
  have refused (x : Seq) (reason : Reason) {y : Context} (hy : y.cue = none) : ((s.refuse a headCode x reason).setContext a y).cellsWf :=
    cellsWf_setContext (cellsWf_refuse h ..) (by rw [refuse_intake]; exact none_) hy
  unfold State.takeHead at distinct ⊢
  cases named : headFields fields with
  | none => exact refused _ _ rfl
  | some f =>
    simp only [named] at distinct ⊢
    cases ok : s.checkHead a f with
    | error reason => exact refused _ _ (skipContext_cue _)
    | ok c =>
      simp only [ok] at distinct ⊢
      obtain ⟨lit, owing, room, bodies⟩ := checkHead_room ok
      refine cellsWf_allocate h lit rfl ?_ (by omega) (fun d k e => ?_) free distinct
      · rw [none_, Cue.cells, Cue.heldBodies, bodies]
        rfl
      · cases e
        exact ⟨owing, room⟩

theorem beginInsertion_cue (s : State) (a : Aud) (c : Cue) : ∃ w, s.beginInsertion a c = s.setContext a (.inserting c w) := ⟨_, rfl⟩

theorem cellsWf_takeOpenBody {owed : Nat} (h : s.cellsWf) (opened : (s.intake a).context = .opened c owed) (free : s.skipFree a) (payload : List Byte) :
    (s.takeOpenBody a c owed payload).cellsWf := by
  have held : (s.intake a).context.cue = some c := by rw [opened]; rfl
  have distinct := (Taken.takeOpenBody .refl a c owed payload held).cuesDistinct h.2.1
  have lit := lit_of_cue h held
  obtain ⟨-, -, owes, -, -⟩ := (lawBut_of_cellsWf h a).ledger.account a
  obtain ⟨positive, room⟩ := owes c owed opened
  have cells : ({ c with bodies := c.bodies ++ [some payload] } : Cue).cells = ((s.intake a).context.cue.map Cue.cells).getD 0 + 1 := by
    rw [held]
    simp [Cue.cells, Cue.heldBodies]
    omega
  unfold State.takeOpenBody at distinct ⊢
  split
  · next range =>
    rw [if_pos range] at distinct
    dsimp only at distinct ⊢
    split
    · next last =>
      rw [if_pos last] at distinct
      obtain ⟨w, e⟩ := beginInsertion_cue (s.allocate a) a { c with bodies := c.bodies ++ [some payload] }
      rw [e] at distinct ⊢
      exact cellsWf_allocate h lit rfl cells (by omega) (fun _ _ => nofun) free distinct
    · next more =>
      rw [if_neg more] at distinct
      exact cellsWf_allocate h lit rfl cells (by omega) (fun d k e => by cases e; omega) free distinct
  · exact cellsWf_refused h held .intake bodyCode .bodySize rfl free

theorem cellsWf_takeBody (h : s.cellsWf) (free : s.skipFree a) (payload : List Byte) : (s.takeBody a payload).cellsWf := by
  unfold State.takeBody
  cases context : (s.intake a).context with
  | idle => exact cellsWf_refuse h ..
  | opened c owed => exact cellsWf_takeOpenBody h context free payload
  | skipping k =>
    cases k with
    | none => exact h
    | some k => exact cellsWf_setContext h (by rw [context]; rfl) (skipContext_cue _)
  | inserting c w => exact h

/-! ### The other records -/

theorem cellsWf_takeWithdraw (h : s.cellsWf) : (s.takeWithdraw a fields).cellsWf := by
  have refused (reason : Reason) : (s.refuse a withdrawCode 0 reason).cellsWf := cellsWf_refuse h ..
  unfold State.takeWithdraw
  split
  · dsimp only
    split
    · exact refused _
    · next lit =>
      split
      · exact refused _
      · split
        · exact refused _
        · split
          · exact refused _
          · split
            · exact refused _
            · exact Banks.settleFills_cellsWf (cellsWf_startPurge h (by simpa using lit) _)
  · exact refused _

theorem cellsWf_discardDamaged (h : s.cellsWf) (kind : Option Byte) : (s.discardDamaged a kind).cellsWf :=
  (((Banks.refl h.2.1).refuse a _ 0 .lineError).lineFault a).cellsWf h

theorem cellsWf_takeOther (h : s.cellsWf) (free : s.skipFree a) (none_ : ∀ k f, r = .framed k f → (s.intake a).context.cue = none) :
    (s.takeOther a r).cellsWf := by
  unfold State.takeOther
  cases r with
  | framed kind fields =>
    dsimp only
    split
    · exact cellsWf_takeHead h (none_ _ _ rfl) free
    · split
      · exact cellsWf_takeWithdraw h
      · split
        · unfold State.takeEndRecord
          split
          · exact cellsWf_takeEnd h
          · exact cellsWf_refuse h ..
        · split
          · unfold State.takeQuery
            split
            · exact ((Banks.refl h.2.1).placeReply a _).cellsWf h
            · exact cellsWf_refuse h ..
          · exact cellsWf_refuse h ..
  | damaged kind => exact cellsWf_discardDamaged h kind
  | truncated kind => exact cellsWf_refuse h ..

/-- A record taken with no skipping context waiting, and, but for a damaged or truncated one, with no insertion in progress. -/
theorem cellsWf_pairRecord (h : s.cellsWf) (free : s.skipFree a) (still : ∀ k f, r = .framed k f → s.insertionRuns a = false) :
    (s.pairRecord a r).cellsWf := by
  have breaks {c : Cue} {owed : Nat} (context : (s.intake a).context = .opened c owed) : (s.breakCue a c r).cellsWf :=
    cellsWf_refused h (by rw [context]; rfl) .intake headCode .brokenCue rfl free
  have skipped {k : Option Nat} (context : (s.intake a).context = .skipping k) : ((s.setContext a .idle).takeOther a r).cellsWf := by
    refine cellsWf_takeOther (cellsWf_setContext h (by rw [context]; rfl) rfl) (fun n => ?_) fun _ _ _ => ?_
    · rw [setContext_intake]
      exact free n
    · rw [setContext_intake]
      rfl
  have paired : (match (s.intake a).context with
      | .opened c _ => s.breakCue a c r
      | .skipping _ => (s.setContext a .idle).takeOther a r
      | .idle | .inserting _ _ => s.takeOther a r).cellsWf := by
    cases context : (s.intake a).context with
    | opened c owed => exact breaks context
    | skipping k => exact skipped context
    | idle => exact cellsWf_takeOther h free fun _ _ _ => by rw [context]; rfl
    | inserting c w =>
      refine cellsWf_takeOther h free fun k f e => ?_
      have none_ := still k f e
      rw [State.insertionRuns, context] at none_
      cases none_
  unfold State.pairRecord
  cases r with
  | framed kind fields =>
    dsimp only
    split
    · unfold State.takeMarkRecord
      split
      · exact cellsWf_takeMark h _
      · exact cellsWf_refuse h ..
    · split
      · exact cellsWf_takeBody h free fields
      · exact paired
  | damaged kind => exact paired
  | truncated kind => exact paired

theorem cellsWf_handRecord (h : s.cellsWf) (still : ∀ k f, r = .framed k f → s.insertionRuns a = false) : (s.handRecord a r).cellsWf := by
  have waits n := ((lawBut_of_cellsWf h a).ledger.account a).waits n
  unfold State.handRecord
  split
  · next none_ => exact cellsWf_pairRecord h (skipFree_of_empty (List.isEmpty_iff.mp none_)) still
  · next some_ =>
    cases deferred : (s.intake a).deferred with
    | nil => rw [deferred] at some_; exact absurd rfl some_
    | cons e rest =>
      refine cellsWf_onIntake h rfl (fun _ _ open_ => open_) fun n => ?_
      obtain ⟨tail, head⟩ := waits n
      rw [deferred] at tail head ⊢
      exact ⟨by simpa using tail, head⟩

theorem insertionRuns_of_storeWalks (h : s.storeWalks a = false) : s.insertionRuns a = false := by
  rw [State.storeWalks, Bool.or_eq_false_iff] at h
  exact h.1

theorem insertionRuns_of_takingWaits (h : s.takingWaits a = false) : s.insertionRuns a = false :=
  insertionRuns_of_storeWalks (Bool.or_eq_false_iff.mp h).1

theorem insertionRuns_of_paused (h : s.paused a = false) : s.insertionRuns a = false := insertionRuns_of_storeWalks (Bool.or_eq_false_iff.mp h).1

theorem cellsWf_runDeferred (fuel : Nat) : ∀ s : State, s.cellsWf → (State.runDeferred a fuel s).cellsWf := by
  induction fuel with
  | zero => exact fun _ h => h
  | succ fuel ih =>
    intro s h
    rw [State.runDeferred]
    split
    · exact h
    · next e rest deferred =>
      split
      · exact h
      · next goes =>
        have waits n := ((lawBut_of_cellsWf h a).ledger.account a).waits n
        simp only [deferred, List.tail_cons, List.head?_cons] at waits
        have popped : (s.onIntake a (fun i => { i with deferred := rest })).cellsWf := by
          refine cellsWf_onIntake h rfl (fun _ _ open_ => open_) fun n => ⟨fun mem => (waits n).1 (List.mem_of_mem_tail mem), fun head => ?_⟩
          exact absurd (List.mem_of_head? head) (waits n).1
        have intake : (s.onIntake a (fun i => { i with deferred := rest })).intake a = { s.intake a with deferred := rest } :=
          (State.onIntake_intake ..).trans (if_pos rfl)
        refine ih _ ?_
        cases e with
        | record r =>
          refine cellsWf_pairRecord popped (fun n mem => (waits n).1 (by rwa [intake] at mem)) fun _ _ _ => ?_
          have still := insertionRuns_of_takingWaits (by simpa using goes)
          rw [State.insertionRuns, intake]
          exact still
        | skip k => exact cellsWf_setContext popped (by rw [intake]; exact (waits k).2 rfl) (skipContext_cue k)

theorem cellsWf_resumeDeferred (h : s.cellsWf) : (s.resumeDeferred a).cellsWf := cellsWf_runDeferred _ s h

/-! ### The assembler -/

theorem cellsWf_onPort (h : s.cellsWf) (f : CuePort → CuePort) : (s.onPort a f).cellsWf := ((Banks.refl h.2.1).onPort a f).cellsWf h

theorem cellsWf_flow (h : s.cellsWf) : (s.flow a).cellsWf := ((Banks.refl h.2.1).flow a).cellsWf h

theorem cellsWf_abandon (h : s.cellsWf) (f : Framing) (damaged : Bool) : (s.abandon a f damaged).cellsWf := by
  unfold State.abandon
  dsimp only
  refine cellsWf_handRecord (cellsWf_onPort h _) fun k l e => ?_
  split at e <;> cases e

theorem cellsWf_takeBreak (h : s.cellsWf) (overrun : Bool) : (s.takeBreak a overrun).cellsWf := by
  unfold State.takeBreak
  split
  · exact cellsWf_onPort h _
  · exact cellsWf_abandon h _ _

theorem cellsWf_actOnGap (h : s.cellsWf) : (s.actOnGap a).cellsWf := by
  unfold State.actOnGap
  split
  · exact h
  · exact cellsWf_abandon h _ _

theorem cellsWf_takeChar (h : s.cellsWf) (still : s.insertionRuns a = false) (v : Byte) (error : Bool) : (s.takeChar a v error).cellsWf := by
  have framed (f : Framing) (bad : Bool) : (s.setFraming a f bad).cellsWf := cellsWf_onPort h _
  have completed (k : Byte) (ok bad : Bool) (l : List Byte) : (s.completeRecord a k ok bad l).cellsWf :=
    cellsWf_handRecord (framed _ _) fun _ _ _ => still
  unfold State.takeChar
  dsimp only
  split
  · exact ((Banks.refl h.2.1).lineFault a).cellsWf h
  · exact framed _ _
  · split
    · exact framed _ _
    · split
      · exact completed ..
      · exact framed _ _
  · split
    · exact completed ..
    · exact framed _ _

theorem cellsWf_takeEntry (h : s.cellsWf) (still : s.insertionRuns a = false) (e : Entry) : (s.takeEntry a e).cellsWf := by
  unfold State.takeEntry
  have taken : (match e.item with
      | .brk => s.takeBreak a e.overrun
      | .char v => s.takeChar a v e.isError).cellsWf := by
    split
    · exact cellsWf_takeBreak h _
    · exact cellsWf_takeChar h still _ _
  dsimp only
  split
  · exact cellsWf_actOnGap taken
  · exact taken

theorem insertionRuns_flow (s : State) (a : Aud) : (s.flow a).insertionRuns a = s.insertionRuns a := by
  rw [State.insertionRuns, (State.sameCells.flow s a).intake]
  rfl

theorem cellsWf_drain (h : s.cellsWf) : (s.drain a).cellsWf := by
  have drained (fuel : Nat) : ∀ s : State, s.cellsWf → (State.drainFuel a fuel s).cellsWf := by
    induction fuel with
    | zero => exact fun _ h => h
    | succ fuel ih =>
      intro s h
      rw [State.drainFuel]
      split
      · exact h
      · next goes =>
        split
        · exact h
        · exact ih _ (cellsWf_takeEntry (cellsWf_flow (cellsWf_onPort h _))
            ((insertionRuns_flow _ a).trans (insertionRuns_of_paused (s := s) (by simpa using goes))) _)
  exact drained _ s h

theorem cellsWf_receive (h : s.cellsWf) (e : Entry) : (s.receive a e).cellsWf := by
  refine cellsWf_drain ?_
  unfold State.appendEntry
  split
  · exact cellsWf_flow (cellsWf_onPort h _)
  · exact (((Banks.refl h.2.1).onPort a _).raiseAud a _).cellsWf h

theorem cellsWf_receives (h : s.cellsWf) (l : List Entry) : (l.foldl (fun t e => t.receive a e) s).cellsWf := by
  induction l generalizing s with
  | nil => exact h
  | cons e l ih => exact ih (cellsWf_receive h e)

theorem cellsWf_recordArrives (h : s.cellsWf) (kind : Byte) (fields : List Byte) : (s.recordArrives a kind fields).cellsWf := by
  unfold State.recordArrives
  split
  · next rest =>
    simp only [State.atRest, Bool.and_eq_true, Bool.not_eq_true'] at rest
    exact cellsWf_handRecord h fun _ _ _ => insertionRuns_of_paused rest.1.2
  · exact cellsWf_receives h _

theorem cellsWf_damagedArrives (h : s.cellsWf) (kind : Option Byte) : (s.damagedArrives a kind).cellsWf := by
  unfold State.damagedArrives
  split
  · exact cellsWf_handRecord h fun _ _ => nofun
  · exact cellsWf_receives h _

theorem cellsWf_completeOnLine (h : s.cellsWf) (v : Byte) (parity stop : Bool) : (s.completeOnLine a v parity stop).cellsWf := by
  have latched : (s.latchIfIdle a).cellsWf := by
    unfold State.latchIfIdle
    split
    · exact cellsWf_onPort h _
    · exact h
  have pinned : ((s.latchIfIdle a).setRxPin a stop).cellsWf := latched
  unfold State.completeOnLine
  dsimp only
  split
  · exact cellsWf_receive (cellsWf_onPort (cellsWf_onPort pinned _) _) _
  · exact cellsWf_receive (cellsWf_onPort (cellsWf_onPort pinned _) _) _

end Sys2Proof.Machine
end

section
/-! PROOFS. The store's events and the commands keep the law of the cue store, and with it every step (R59, R75, R84, R89 to R91, R93, R101). -/

namespace Sys2Proof.Machine

variable {s t u v w : State} {a b : Aud} {n m : StreamNo} {c d : Cue} {p : Port} {i : Instr}

/-! ### A cell returned (R91) -/

theorem cellsWf_returned (h : s.cellsWf) {q : FreeRequest} {rest new : List FreeRequest} (freeing : (s.store a).freeing = q :: rest)
    (sum : (new.map FreeRequest.cells).sum + 1 = ((q :: rest).map FreeRequest.cells).sum) (positive : ∀ y ∈ new, 1 ≤ y.cells) (k : Nat) :
    ((s.returnCell a).onStore a (fun st => { st with freeing := new, cellStart := k })).cellsWf := by
  have l := lawBut_of_cellsWf h a
  have same : (((s.onStore a (fun st => { st with used := st.used - 1 })).onFree (fun k => k + 1)).onStore a
      (fun st => { st with freeing := new, cellStart := k })).sameCells
      ((s.returnCell a).onStore a (fun st => { st with freeing := new, cellStart := k })) := (State.sameCells.flow _ a).onStore a _
  refine same.cellsWf ?_
  have store : (((s.onStore a (fun st => { st with used := st.used - 1 })).onFree (fun k => k + 1)).onStore a
      (fun st => { st with freeing := new, cellStart := k })).store a =
      { s.store a with used := (s.store a).used - 1, freeing := new, cellStart := k } := by
    rw [State.onStore_store, if_pos rfl, State.onFree_store, State.onStore_store, if_pos rfl]
  generalize changed : ((s.onStore a (fun st => { st with used := st.used - 1 })).onFree (fun k => k + 1)).onStore a
      (fun st => { st with freeing := new, cellStart := k }) = t at store
  obtain ⟨counted, within, opened, requests, waits⟩ := l.ledger.account a
  have returned := requests q (by rw [freeing]; exact List.mem_cons_self)
  rw [cellsOf_eq, freeing] at counted
  have others : s.alikeBut t a := by
    rw [← changed]
    exact ⟨fun b ne => by simp [ne.symm], fun _ _ => rfl, fun _ _ => rfl, fun _ _ dark => dark⟩
  obtain ⟨free, intake, queues, sessions⟩ : t.freeCells = s.freeCells + 1 ∧ t.intake a = s.intake a ∧ (∀ i, t.queueCells i = s.queueCells i) ∧
      t.session a = s.session a := by
    rw [← changed]
    exact ⟨rfl, rfl, fun _ => rfl, rfl⟩
  have distinct : t.cuesDistinct := by
    rw [← changed]
    exact h.2.1
  have streams : t.streams = s.streams := by
    rw [← changed]
    rfl
  rw [List.map_cons, List.sum_cons] at counted sum
  refine (l.change distinct others (by rw [store]) (by rw [store, free]; dsimp only; omega) ⟨?_, ?_, fun d k e => ?_, by rw [store]; exact positive, ?_⟩).cellsWf
    (by rw [State.owesPurge, store]; exact (((cellsWf_iff s).mp h).2 a).1) fun dark => ?_
  · rw [store, cellsOf_eq, store, intake]
    simp only [queues]
    omega
  · rw [store]
    dsimp only
    omega
  · rw [intake] at e
    obtain ⟨owes, room⟩ := opened d k e
    rw [store]
    exact ⟨owes, by dsimp only; omega⟩
  · rw [intake]
    exact waits
  · rw [sessions] at dark
    obtain ⟨cue, owed, ended, walks⟩ := (darkCells_iff s a).mp ((((cellsWf_iff s).mp h).2 a).2 dark)
    refine (darkCells_iff t a).mpr ⟨by rw [intake]; exact cue, by rw [store]; exact owed, fun over_ => ?_, fun p running => ?_⟩
    · rw [store] at over_
      have none_ := ended over_
      omega
    · rw [store] at running
      have named := walks p running
      simp only [State.walkNames, State.stream, streams] at named ⊢
      exact named

theorem cellsWf_requestServed (h : s.cellsWf) (tag : FreeTag) : (s.requestServed a tag).cellsWf := by
  refine cellsWf_resumeDeferred (cellsWf_wakePurge ?_ tag)
  split
  · exact ((Banks.refl h.2.1).finishWork _).cellsWf h
  · exact h

theorem cellsWf_freeOneCell (h : s.cellsWf) : (s.freeOneCell a).cellsWf := by
  unfold State.freeOneCell
  split
  · exact h
  · next q rest freeing =>
    have requests := ((lawBut_of_cellsWf h a).ledger.account a).requests
    rw [freeing] at requests
    have one := requests q List.mem_cons_self
    dsimp only
    rw [if_neg (Nat.ne_of_gt one)]
    split
    · refine cellsWf_requestServed (cellsWf_returned h freeing ?_ (fun y mem => requests y (List.mem_cons_of_mem q mem)) s.now) q.tag
      rw [List.map_cons, List.sum_cons]
      omega
    · refine cellsWf_returned h freeing ?_ (fun y mem => ?_) s.now
      · rw [List.map_cons, List.sum_cons, List.map_cons, List.sum_cons]
        dsimp only
        omega
      · rcases List.mem_cons.mp mem with rfl | later
        · dsimp only
          omega
        · exact requests y (List.mem_cons_of_mem q later)

/-! ### The placing (R75) -/

theorem cellsWf_inserted {l r : List Cue} (h : s.cellsWf) {w : Walk} (inserting : (s.intake a).context = .inserting c w)
    (placed : placeCue { c with life := .queued } (s.stream c.stream).queue = l ++ { c with life := .queued } :: r)
    (queue : (s.stream c.stream).queue = l ++ r) : (s.inserted a c l r).cellsWf := by
  have held : (s.intake a).context.cue = some c := by rw [inserting]; rfl
  have own : audOfStream c.stream = a := (h.2.1.2 a c held).1
  have l' := lawBut_of_cellsWf h a
  have distinct : (s.inserted a c l r).cuesDistinct := by
    have taken : Taken s (((s.onStream c.stream (fun st => { st with queue := placeCue { c with life := .queued } st.queue })).onCounters
      a (fun k => { k with accepted := bump k.accepted })).setContext a .idle) := .step .refl (.placed _ _ _ _ held)
    rw [inserted_placed placed] at taken
    exact taken.cuesDistinct h.2.1
  have intake : (s.inserted a c l r).intake a = { s.intake a with context := .idle } := setContext_intake _ a .idle
  obtain ⟨counted, within, -, requests, waits⟩ := l'.ledger.account a
  refine (l'.change distinct ⟨fun _ _ => rfl, fun b ne => ?_, fun n ne => ?_, fun _ _ dark => dark⟩ rfl rfl
    ⟨?_, within, fun d k e => (by rw [intake] at e; cases e), requests, fun n => ?_⟩).cellsWf (((cellsWf_iff s).mp h).2 a).1
    fun dark => absurd dark (lit_of_cue (s := s) h held)
  · exact (State.onIntake_intake ..).trans (if_neg fun e => ne e.symm)
  · rw [inserted_stream fun e => ne (by rw [e, own])]
  · have change := queued_change (s := s) (t := s.inserted a c l r) (n := c.stream) fun i ne => by
      rw [State.queueCells, inserted_stream ne]
      rfl
    rw [own] at change
    have grown : (s.inserted a c l r).queueCells c.stream = s.queueCells c.stream + c.cells := by
      rw [State.queueCells, State.queueCells, inserted_queue, queue]
      simp [List.sum_append, show ({ c with life := .queued } : Cue).cells = c.cells from rfl]
      omega
    rw [cellsOf_eq, held] at counted
    rw [cellsOf_eq, intake, inserted_store]
    simp only [Option.map_some, Option.getD_some] at counted
    simp only [Context.cue, Option.map_none, Option.getD_none]
    omega
  · rw [intake]
    exact ⟨(waits n).1, fun _ => rfl⟩

/-- What waits behind a purge is of no cell. -/
theorem cellsWf_onWaits (h : s.cellsWf) {f : Store → Store} (hf : ∀ y, (f y).quota = y.quota ∧ (f y).used = y.used ∧ (f y).freeing = y.freeing ∧
    (f y).purge = y.purge ∧ (f y).saturationOwed = y.saturationOwed := by exact fun _ => ⟨rfl, rfl, rfl, rfl, rfl⟩) : (s.onStore a f).cellsWf := by
  obtain ⟨quota, used, freeing, purge, owed⟩ := hf (s.store a)
  have store : (s.onStore a f).store a = f (s.store a) := (State.onStore_store ..).trans (if_pos rfl)
  refine ((lawBut_of_cellsWf h a).onPurge fun y => ⟨(hf y).1, (hf y).2.1, (hf y).2.2.1⟩).cellsWf ?_ fun dark => ?_
  · rw [State.owesPurge, store, purge, owed]
    exact (((cellsWf_iff s).mp h).2 a).1
  · obtain ⟨cue, owed', ended, walks⟩ := (darkCells_iff s a).mp ((((cellsWf_iff s).mp h).2 a).2 dark)
    exact (darkCells_iff _ a).mpr ⟨cue, by rw [store, owed]; exact owed', by rw [store, purge, used]; exact ended, by rw [store, purge]; exact walks⟩

theorem cellsWf_placeInserted (h : s.cellsWf) {w : Walk} (inserting : (s.intake a).context = .inserting c w) : (s.placeInserted a c).cellsWf := by
  obtain ⟨l, r, queue, -, -, placed⟩ := placeCue_split { c with life := .queued } (s.stream c.stream).queue
  have wf := cellsWf_inserted h inserting placed queue
  cases closing : (s.store a).closeWaiting with
  | none =>
    rw [placeInserted_releases placed closing]
    exact ((Banks.refl wf.2.1).release a none).cellsWf wf
  | some k =>
    rw [placeInserted_closes placed closing]
    have lit : (((s.inserted a c l r).onStore a (fun st => { st with closeWaiting := none })).session a).state ≠ .dark :=
      lit_of_cue (s := s) (c := c) h (by rw [inserting]; rfl)
    exact cellsWf_startPurge (cellsWf_onWaits wf) lit _

/-! ### The commands -/

theorem cellsWf_resetPort (h : s.cellsWf) : (s.resetPort a).cellsWf := by
  have port := cellsWf_onPort (a := a) h (fun p => p.cleared (s.rxHigh a))
  unfold State.resetPort
  cases context : (s.intake a).context with
  | opened c owed =>
    have asked := cellsWf_cueToUnit (a := a) (c := c) port (g := fun _ => { context := .idle, deferred := [] })
      (by rw [State.onPort_intake, context]; rfl) .resetPort rfl fun n => by simp
    exact (((Banks.refl asked.2.1).flow a).onMgmt _).cellsWf asked
  | skipping k =>
    have closed : ((s.onPort a (fun p => p.cleared (s.rxHigh a))).onIntake a (fun _ => { context := .idle, deferred := [] })).cellsWf :=
      cellsWf_onIntake port (by rw [State.onPort_intake, context]; rfl) (fun _ _ => nofun) fun n => by simp
    exact (((Banks.refl closed.2.1).flow a).onMgmt _).cellsWf closed
  | idle =>
    have closed : ((s.onPort a (fun p => p.cleared (s.rxHigh a))).onIntake a (fun _ => { context := .idle, deferred := [] })).cellsWf :=
      cellsWf_onIntake port (by rw [State.onPort_intake, context]) (fun _ _ => nofun) fun n => by simp
    exact (((Banks.refl closed.2.1).flow a).onMgmt _).cellsWf closed
  | inserting c w =>
    have emptied : ((s.onPort a (fun p => p.cleared (s.rxHigh a))).onIntake a (fun i => { i with deferred := [] })).cellsWf :=
      cellsWf_onIntake port rfl (fun _ _ open_ => open_) fun n => by simp
    exact (((Banks.refl emptied.2.1).flow a).onMgmt _).cellsWf emptied

/-- A DARK auditorium with no purge takes any quota that the others leave (R89). -/
theorem cellsWf_quota {q : Nat} (h : s.cellsWf) (dark : (s.session a).state = .dark) (over_ : (s.store a).purge = none)
    (sum : s.quotaSum a q ≤ Config.cells) : (s.onStore a (fun st => { st with quota := q })).cellsWf := by
  have store (b : Aud) : (s.onStore a (fun st => { st with quota := q })).store b =
      if a = b then { s.store b with quota := q } else s.store b := State.onStore_store ..
  have unread (b : Aud) : ((s.onStore a (fun st => { st with quota := q })).store b).used = (s.store b).used ∧
      ((s.onStore a (fun st => { st with quota := q })).store b).freeing = (s.store b).freeing ∧
      ((s.onStore a (fun st => { st with quota := q })).store b).purge = (s.store b).purge ∧
      ((s.onStore a (fun st => { st with quota := q })).store b).saturationOwed = (s.store b).saturationOwed := by
    rw [store]
    split <;> exact ⟨rfl, rfl, rfl, rfl⟩
  obtain ⟨-, distinct, total, each⟩ := h
  obtain ⟨-, -, -, -, -, -, held⟩ := each a
  obtain ⟨cue, -, ended, -⟩ := (darkCells_iff s a).mp (held dark)
  have none_ := ended over_
  refine ⟨?_, distinct, ?_, fun b => ?_⟩
  · have quota (b : Aud) : ((s.onStore a (fun st => { st with quota := q })).store b).quota = if b = a then q else (s.store b).quota := by
      rw [store]
      by_cases same : a = b
      · rw [if_pos same, if_pos same.symm]
      · rw [if_neg same, if_neg fun e => same e.symm]
    simpa only [State.quotasWf, State.quotaTotal, quota, State.quotaSum] using sum
  · change (auds.map fun b => ((s.onStore a (fun st => { st with quota := q })).store b).used).sum + s.freeCells = 8192
    simpa only [unread] using total
  · obtain ⟨used, freeing, purge, owed⟩ := unread b
    obtain ⟨counted, within, opened, requests, owes, waits, holds⟩ := each b
    have cells : (s.onStore a (fun st => { st with quota := q })).cellsOf b = s.cellsOf b := by
      rw [cellsOf_eq, cellsOf_eq, freeing]
      rfl
    refine ⟨by rw [used, cells, counted], ?_, fun c k open_ => ?_, by rw [freeing]; exact requests, by rw [owed, purge]; exact owes, waits, fun isDark => ?_⟩
    · by_cases same : a = b
      · subst same
        rw [used, none_]
        exact Nat.zero_le _
      · rw [store, if_neg same]
        exact within
    · by_cases same : a = b
      · subst same
        rw [show (s.intake a).context = .opened c k from open_] at cue
        cases cue
      · rw [store, if_neg same]
        exact opened c k open_
    · rw [darkCells_iff, used, purge, owed]
      exact (darkCells_iff s b).mp (holds isDark)

theorem cellsWf_hold (h : s.cellsWf) (command : Byte) (x : Answer) : (s.hold command x).cellsWf := ((Banks.refl h.2.1).onMgmt _).cellsWf h

theorem cellsWf_configure (h : s.cellsWf) (q w l : Nat) : (s.configure a q w l).cellsWf := by
  unfold State.configure
  split
  · exact cellsWf_hold h _ _
  · next dark =>
    split
    · exact cellsWf_hold h _ _
    · next over_ =>
      split
      · exact cellsWf_hold h _ _
      · split
        · exact cellsWf_hold h _ _
        · next room =>
          have wf := cellsWf_quota h (by simpa using dark) (by simpa using over_) (Nat.not_lt.mp room)
          exact ((((Banks.refl wf.2.1).onClock a _).flow a).onMgmt _).cellsWf wf

theorem cellsWf_armSession (h : s.cellsWf) (r : Rate) : (s.armSession a r).cellsWf := by
  have armed := ((Banks.refl h.2.1).onClock a (fun c => { c with rate := some r, period := r.nominal, lastHold := 0, base := 0, sub := 0 })).onRun a
    (fun _ => { window := .closed, subFrozen := true, pauseStart := none, pauseHold := 0, staleMark := false })
  exact ((armed.onSession a (fun x => { x with state := .armed, ending := false }) nofun).flow a).cellsWf h

theorem cellsWf_closeSlot (h : s.cellsWf) (over_ : (s.store a).purge = none) (k : Slot) : (s.closeSlot a k).cellsWf := by
  unfold State.closeSlot
  split
  · exact cellsWf_onWaits h
  · exact Banks.settleFills_cellsWf (cellsWf_startPurge_close h over_ k)

/-- A DISARM takes the session away; the law of its auditorium is then the teardown's (R41, R101). -/
theorem lawBut_clearSession (h : s.cellsWf) : (s.clearSession a).lawBut a ∧ ((s.clearSession a).store a).saturationOwed = false := by
  have l := lawBut_of_cellsWf h a
  have dark : (s.onSession a (fun x => { x with state := .dark, ending := false })).lawBut a := by
    obtain ⟨counted, within, opened, requests, waits⟩ := l.ledger.account a
    refine l.change h.2.1 ⟨fun _ _ => rfl, fun _ _ => rfl, fun _ _ => rfl, fun b ne isDark => ?_⟩ rfl rfl ⟨counted, within, opened, requests, waits⟩
    rwa [State.onSession_session, if_neg fun e => ne e.symm] at isDark
  have cleared := ((Banks.refl dark.ledger.distinct).onClock a (fun c => { c with rate := none, period := 0, lastHold := 0, base := 0, sub := 0 })).onRun a
    (fun _ => { window := .closed, subFrozen := true, pauseStart := none, pauseHold := 0, staleMark := false })
  have law := (Banks.foldl (fun t k h => h.settings (streamOf a k) (f := fun st => { st with clearOwed := [] })) slots _ cleared).lawBut dark
  exact ⟨law.onPurge (f := fun st => { st with saturationOwed := false, staleWaiting := none }),
    congrArg Store.saturationOwed ((State.onStore_store ..).trans (if_pos rfl))⟩

theorem walkNames_beginPurge (s : State) (a : Aud) : (s.beginPurge a .teardown).walkNames a (s.purgeBegun a .teardown) := by
  intro k x mem
  obtain ⟨-, -, -, queues, -⟩ := removeInProgress_frame s a
  refine .inl (List.mem_flatMap.mpr ⟨k, List.mem_finRange k, List.mem_map.mpr ⟨x, ?_, rfl⟩⟩)
  rw [← queues]
  exact mem

theorem State.lawBut.cellsWf_teardown (l : s.lawBut a) (owed : (s.store a).saturationOwed = false) : (s.startPurge a .teardown).cellsWf := by
  obtain ⟨-, owed', -, -, cue⟩ := removeInProgress_frame s a
  refine (l.beginPurge .teardown).cellsWf_runPurge (owesPurge_beginPurge s a _) fun _ => ⟨cue, ?_, _, purge_beginPurge s a _, rfl, walkNames_beginPurge s a⟩
  rw [beginPurge_eq, State.onStore_store, if_pos rfl]
  exact owed'.trans owed

theorem cellsWf_disarmSession (h : s.cellsWf) : (s.disarmSession a).cellsWf := by
  obtain ⟨law, owed⟩ := lawBut_clearSession (a := a) h
  have torn := Banks.foldl (f := State.tearRing a) (fun t q h => (h.onLink q _).onLinkCounters q _) ports _ ((Banks.refl law.ledger.distinct).flow a)
  exact Banks.settleFills_cellsWf ((torn.lawBut law).cellsWf_teardown ((torn.stands a).owed.trans owed))

theorem cellsWf_setGate (h : s.cellsWf) (on : Bool) : (s.setGate a on).cellsWf := by
  unfold State.setGate
  split
  · exact h
  · exact (((Banks.refl h.2.1).onSession a (fun x => { x with gate := on }) fun dark => dark).runOrGate a).cellsWf h

theorem cellsWf_resetLink (h : s.cellsWf) : (s.resetLink p).cellsWf := by
  unfold State.resetLink
  dsimp only
  refine Banks.cellsWf (Banks.onLink ?_ p _) h
  split
  · exact ((Banks.refl h.2.1).leaveServing p _).settleFills
  · exact Banks.refl h.2.1

/-- A command write keeps the law where what it does, once taken, keeps it. -/
theorem cellsWf_write {taken : State → State} (h : s.cellsWf) (keeps : ∀ u : State, u.cellsWf → (taken u).cellsWf) :
    ∃ t, s.write taken = .next t ∧ t.cellsWf := by
  have written (f : Mgmt → Mgmt) : (s.onMgmt f).cellsWf := ((Banks.refl h.2.1).onMgmt f).cellsWf h
  unfold State.write
  split
  · exact ⟨_, rfl, written _⟩
  · exact ⟨_, rfl, keeps _ (written _)⟩
  · exact ⟨_, rfl, keeps _ (written _)⟩

end Sys2Proof.Machine
end

section
/-! PROOFS. Every command, and so every step, keeps the law of the cue store. -/

namespace Sys2Proof.Machine

variable {s t u : State} {a : Aud} {p : Port} {i : Instr}

/-- Command `i` keeps the law of the cue store. -/
def KeepsCells (i : Instr) : Prop := ∀ s : State, s.cellsWf → ∃ t, exec i s = .next t ∧ t.cellsWf

/-- Changes that a command which cannot touch the cue store may make. -/
theorem Done.cellsWf (done : Done i s t) (hi : changesCells i = false) (h : s.cellsWf) : t.cellsWf := (done.sameCells hi).cellsWf h

/-! ### Show clock and session -/

theorem keepsCells_strobe (a : Aud) : KeepsCells (.strobe a) := by
  intro s h
  have refl := Banks.refl h.2.1
  have passes {u : State} (banks : Banks s u) : ((u.positionChanged a).settleFills).cellsWf :=
    Banks.settleFills_cellsWf (cellsWf_positionChanged (banks.cellsWf h))
  have advanced : Banks s (if s.elapsed a < (s.clock a).halfPeriod then s.onClock a (fun c => { c with ref := s.now })
      else (s.onClock a (fun c => { c.advance with ref := s.now })).onRun a (fun r => { r with strobedAt := some s.now })) := by
    split
    · exact refl.onClock a _
    · exact (refl.onClock a _).onRun a _
  have coasted := (advanced.onRun a (fun r => { r with window := .opened 0 s.now, subFrozen := false })).onSession a
    (fun x => { x with state := .running }) nofun
  rw [exec_strobe_eq]
  unfold execStrobe
  split
  case h_5 => exact ⟨_, rfl, passes (((refl.countStrobe a).onClock a _).onRun a _)⟩
  case h_6 => exact ⟨_, rfl, passes coasted⟩
  all_goals exact ⟨_, rfl, (refl.onClock a _).cellsWf h⟩

theorem keepsCells_subStep (a : Aud) : KeepsCells (.subStep a) := by
  intro s h
  rw [exec_subStep_eq, execSubStep]
  split
  · exact ⟨_, rfl, Banks.settleFills_cellsWf (cellsWf_positionChanged (((Banks.refl h.2.1).settleSub a).cellsWf h))⟩
  · exact ⟨_, rfl, h⟩

theorem keepsCells_strobeLoss (a : Aud) : KeepsCells (.strobeLoss a) := by
  intro s h
  rw [exec_strobeLoss_eq, execStrobeLoss]
  split
  · have lost := ((Banks.refl h.2.1).onSession a (fun x => { x with state := .coasting }) nofun).onRun a (fun r => { r with window := .closed })
    exact ⟨_, rfl, Banks.settleFills_cellsWf (cellsWf_positionChanged ((((lost.onCounters a _).raiseAud a _).synthetic a).cellsWf h))⟩
  · exact ⟨_, rfl, h⟩

theorem keepsCells_syntheticStrobe (a : Aud) : KeepsCells (.syntheticStrobe a) := by
  intro s h
  rw [exec_syntheticStrobe_eq, execSyntheticStrobe]
  split
  · exact ⟨_, rfl, Banks.settleFills_cellsWf (cellsWf_positionChanged (((Banks.refl h.2.1).synthetic a).cellsWf h))⟩
  · exact ⟨_, rfl, h⟩

theorem keepsCells_staleEvent (a : Aud) : KeepsCells (.staleEvent a) := by
  intro s h
  rw [exec_staleEvent_eq, execStaleEvent]
  split
  · exact ⟨_, rfl, (((((Banks.refl h.2.1).onRun a _).raiseAud a _).oweClears a).settleFills).cellsWf h⟩
  · exact ⟨_, rfl, h⟩

theorem keepsCells_runChange (a : Aud) (high : Bool) : KeepsCells (.runChange a high) := by
  intro s h
  rw [exec_runChange_eq, execRunChange]
  have pinned : Banks s (s.setRunPin a high) := (Banks.refl h.2.1).elsewhere rfl rfl rfl (fun _ => rfl) fun _ dark => dark
  split
  · exact ⟨_, rfl, h⟩
  · exact ⟨_, rfl, (pinned.runOrGate a).cellsWf h⟩

/-! ### The cue port's lines -/

theorem keepsCells_character (a : Aud) (v : Byte) (parity stop : Bool) : KeepsCells (.character a v parity stop) := by
  intro s h
  rw [exec_character_eq, execCharacter]
  split
  · exact ⟨_, rfl, h⟩
  · exact ⟨_, rfl, cellsWf_completeOnLine h _ _ _⟩

theorem keepsCells_lineBreak (a : Aud) : KeepsCells (.lineBreak a) := by
  intro s h
  rw [exec_lineBreak_eq, execLineBreak]
  split
  · exact ⟨_, rfl, h⟩
  · exact ⟨_, rfl, cellsWf_completeOnLine h _ _ _⟩

theorem keepsCells_gap (a : Aud) : KeepsCells (.gap a) := by
  intro s h
  rw [exec_gap_eq, execGap]
  dsimp only
  split
  · split
    · exact ⟨_, rfl, cellsWf_actOnGap (cellsWf_onPort h _)⟩
    · exact ⟨_, rfl, cellsWf_onPort (cellsWf_onPort h _) _⟩
  · exact ⟨_, rfl, h⟩

theorem keepsCells_assemblerResumes (a : Aud) : KeepsCells (.assemblerResumes a) := by
  intro s h
  rw [exec_assemblerResumes_eq, execAssemblerResumes]
  split
  · exact ⟨_, rfl, cellsWf_drain (cellsWf_resumeDeferred h)⟩
  · exact ⟨_, rfl, h⟩

/-! ### The store -/

theorem keepsCells_insertionPlaces (a : Aud) : KeepsCells (.insertionPlaces a) := by
  intro s h
  rw [exec_insertionPlaces_eq, execInsertionPlaces]
  split
  · next c due =>
    obtain ⟨-, w, inserting⟩ := (placingDue_eq_some a c s).mp due
    exact ⟨_, rfl, Banks.settleFills_cellsWf (cellsWf_placeInserted h inserting)⟩
  · exact ⟨_, rfl, h⟩

theorem keepsCells_cellFreed (a : Aud) : KeepsCells (.cellFreed a) := by
  intro s h
  rw [exec_cellFreed_eq, execCellFreed]
  split
  · exact ⟨_, rfl, cellsWf_freeOneCell h⟩
  · exact ⟨_, rfl, h⟩

theorem keepsCells_purgeStep (a : Aud) : KeepsCells (.purgeStep a) := by
  intro s h
  rw [exec_purgeStep_eq, execPurgeStep]
  split
  · next q x due =>
    obtain ⟨running, examined, -⟩ := stepDue_some.mp due
    exact ⟨_, rfl, cellsWf_resumeDeferred (Banks.settleFills_cellsWf (cellsWf_purgeStep h running examined))⟩
  · exact ⟨_, rfl, h⟩

/-! ### The link ports -/

theorem keepsCells_fillEnds (p : Port) : KeepsCells (.fillEnds p) := by
  intro s h
  rw [exec_fillEnds_eq, execFillEnds]
  split
  · exact ⟨_, rfl, (((Banks.refl h.2.1).onLink p _).settleFills).cellsWf h⟩
  · exact ⟨_, rfl, h⟩

theorem cellsWf_pullServing (h : s.cellsWf) (slot : BitVec 16) (serving : (s.link p).state = .serving) : (s.pullServing p slot).cellsWf :=
  (Done.pullServing (i := .linkQuery p) .refl p slot serving).cellsWf rfl h

theorem keepsCells_pull (p : Port) (slot : BitVec 16) : KeepsCells (.pull p slot) := by
  intro s h
  have refl := Banks.refl h.2.1
  rw [exec_pull_eq]
  unfold execPull
  split
  · exact ⟨_, rfl, ((refl.onLink p _).onLink p _).cellsWf h⟩
  · exact ⟨_, rfl, ((refl.onLink p _).onLink p _).cellsWf h⟩
  · next serving => exact ⟨_, rfl, Banks.settleFills_cellsWf (cellsWf_pullServing h slot serving)⟩
  · exact ⟨_, rfl, Banks.settleFills_cellsWf (cellsWf_pullServing ((refl.onLink p _).cellsWf h) slot (by simp))⟩

theorem Banks.closeExchange (h : Banks s t) (p : Port) : Banks s (t.closeExchange p) := (h.onLink p _).onLink p _

theorem Banks.noFrame (h : Banks s t) (p : Port) : Banks s (t.noFrame p) := ((h.onLinkCounters p _).raiseLink p _).onLink p _

theorem keepsCells_doneSent (p : Port) : KeepsCells (.doneSent p) := by
  intro s h
  have refl := Banks.refl h.2.1
  rw [exec_doneSent_eq]
  unfold execDoneSent
  dsimp only
  split
  · exact ⟨_, rfl, (refl.noFrame p).cellsWf h⟩
  · exact ⟨_, rfl, (refl.closeExchange p).cellsWf h⟩
  · exact ⟨_, rfl, (refl.closeExchange p).cellsWf h⟩
  · refine ⟨_, rfl, Banks.settleFills_cellsWf (Banks.cellsWf (Banks.closeExchange ?_ p) h)⟩
    split
    · exact (refl.onLinkCounters p _).onLink p _
    · exact (refl.onLinkCounters p _).onLink p _

theorem keepsCells_doneAborted (p : Port) : KeepsCells (.doneAborted p) := by
  intro s h
  have refl := Banks.refl h.2.1
  rw [exec_doneAborted_eq]
  unfold execDoneAborted
  dsimp only
  split
  · exact ⟨_, rfl, (refl.noFrame p).cellsWf h⟩
  · exact ⟨_, rfl, (refl.closeExchange p).cellsWf h⟩
  · exact ⟨_, rfl, (refl.closeExchange p).cellsWf h⟩
  · refine ⟨_, rfl, Banks.settleFills_cellsWf (Banks.cellsWf (Banks.closeExchange ?_ p) h)⟩
    split
    · split
      · exact ((refl.onLinkCounters p _).onLink p _).onLinkCounters p _
      · exact (refl.onLinkCounters p _).onLink p _
    · exact refl.onLinkCounters p _

theorem keepsCells_alignStart (p : Port) : KeepsCells (.alignStart p) := by
  intro s h
  have refl := Banks.refl h.2.1
  rw [exec_alignStart_eq, execAlignStart]
  refine ⟨_, rfl, Banks.cellsWf (Banks.onLink (Banks.onLink ?_ p _) p _) h⟩
  split
  · exact (refl.leaveServing p _).settleFills
  · exact refl.onLink p _

theorem keepsCells_alignEndPass (p : Port) : KeepsCells (.alignEndPass p) := by
  intro s h
  have refl := Banks.refl h.2.1
  rw [exec_alignEndPass_eq, execAlignEndPass]
  split
  · split
    · exact ⟨_, rfl, (((refl.onLink p _).onLink p _).settleFills).cellsWf h⟩
    · exact ⟨_, rfl, (refl.onLink p _).cellsWf h⟩
  · exact ⟨_, rfl, (refl.onLink p _).cellsWf h⟩

theorem keepsCells_silenceTimerExpires (p : Port) : KeepsCells (.silenceTimerExpires p) := by
  intro s h
  rw [exec_silenceTimerExpires_eq, execSilenceTimerExpires]
  split
  · exact ⟨_, rfl, ((((Banks.refl h.2.1).leaveServing p _).raiseLink p _).settleFills).cellsWf h⟩
  · exact ⟨_, rfl, h⟩

theorem keepsCells_beaconTimerExpires (p : Port) : KeepsCells (.beaconTimerExpires p) := by
  intro s h
  have reloaded : Banks s (s.onLink p (fun l => { l with beaconDue := some (s.now + l.beaconPeriod * Config.tick), beaconOwed := true })) :=
    (Banks.refl h.2.1).onLink p _
  rw [exec_beaconTimerExpires_eq, execBeaconTimerExpires]
  dsimp only
  split
  · split
    · exact ⟨_, rfl, ((reloaded.onLinkCounters p _).settleFills).cellsWf h⟩
    · exact ⟨_, rfl, reloaded.settleFills.cellsWf h⟩
  · exact ⟨_, rfl, h⟩

/-! ### The management commands -/

theorem keepsCells_configureAuditorium (args : List Byte) : KeepsCells (.configureAuditorium args) := by
  intro s h
  rw [exec_configureAuditorium_eq, execConfigureAuditorium]
  refine cellsWf_write h fun u hu => ?_
  split
  · split
    · exact cellsWf_configure hu _ _ _
    · exact cellsWf_hold hu _ _
  · exact cellsWf_hold hu _ _

theorem keepsCells_arm (args : List Byte) : KeepsCells (.arm args) := by
  intro s h
  rw [exec_arm_eq, execArm]
  refine cellsWf_write h fun u hu => ?_
  split
  · split
    · split
      · exact cellsWf_hold hu _ _
      · split
        · exact cellsWf_hold (cellsWf_armSession hu _) _ _
        · exact cellsWf_hold hu _ _
    · exact cellsWf_hold hu _ _
  · exact cellsWf_hold hu _ _

theorem keepsCells_disarm (args : List Byte) : KeepsCells (.disarm args) := by
  intro s h
  rw [exec_disarm_eq, execDisarm]
  refine cellsWf_write h fun u hu => ?_
  split
  · split
    · split
      · exact cellsWf_hold hu _ _
      · split
        · exact cellsWf_hold hu _ _
        · exact cellsWf_disarmSession (((Banks.refl hu.2.1).onMgmt _).cellsWf hu)
    · exact cellsWf_hold hu _ _
  · exact cellsWf_hold hu _ _

theorem keepsCells_setGate (args : List Byte) : KeepsCells (.setGate args) := by
  intro s h
  rw [exec_setGate_eq, execSetGate]
  refine cellsWf_write h fun u hu => ?_
  split
  · split
    · exact cellsWf_hold (cellsWf_setGate hu _) _ _
    · exact cellsWf_hold hu _ _
  · exact cellsWf_hold hu _ _

theorem keepsCells_closeStream (args : List Byte) : KeepsCells (.closeStream args) := by
  intro s h
  rw [exec_closeStream_eq, execCloseStream]
  refine cellsWf_write h fun u hu => ?_
  split
  · split
    · split
      · exact cellsWf_hold hu _ _
      · next over_ =>
        split
        · exact cellsWf_hold hu _ _
        · exact cellsWf_closeSlot (((Banks.refl hu.2.1).onMgmt _).cellsWf hu) (by simpa using over_) _
    · exact cellsWf_hold hu _ _
  · exact cellsWf_hold hu _ _

theorem keepsCells_resetCuePort (args : List Byte) : KeepsCells (.resetCuePort args) := by
  intro s h
  rw [exec_resetCuePort_eq, execResetCuePort]
  refine cellsWf_write h fun u hu => ?_
  split
  · split
    · exact cellsWf_resetPort hu
    · exact cellsWf_hold hu _ _
  · exact cellsWf_hold hu _ _

theorem keepsCells_resetLinkPort (args : List Byte) : KeepsCells (.resetLinkPort args) := by
  intro s h
  rw [exec_resetLinkPort_eq, execResetLinkPort]
  refine cellsWf_write h fun u hu => ?_
  split
  · split
    · exact cellsWf_hold (cellsWf_resetLink hu) _ _
    · exact cellsWf_hold hu _ _
  · exact cellsWf_hold hu _ _

/-! ### Every command, and every step -/

/-- A record's command hands its record on and does no more. -/
theorem keepsCells_record {kind : Byte} {fields : List Byte} (arrives : ∀ s, exec i s = .next (s.recordArrives a kind fields)) : KeepsCells i := by
  intro s h
  exact ⟨_, arrives s, cellsWf_recordArrives h kind fields⟩

theorem keepsCells (i : Instr) (hi : i ≠ .deviceReset) : KeepsCells i := by
  cases i with
  | deviceReset => exact absurd rfl hi
  | strobe a => exact keepsCells_strobe a
  | subStep a => exact keepsCells_subStep a
  | strobeLoss a => exact keepsCells_strobeLoss a
  | syntheticStrobe a => exact keepsCells_syntheticStrobe a
  | staleEvent a => exact keepsCells_staleEvent a
  | runChange a high => exact keepsCells_runChange a high
  | character a v parity stop => exact keepsCells_character a v parity stop
  | lineBreak a => exact keepsCells_lineBreak a
  | gap a => exact keepsCells_gap a
  | assemblerResumes a => exact keepsCells_assemblerResumes a
  | damagedRecord a kind => exact fun s h => ⟨_, rfl, cellsWf_damagedArrives h kind⟩
  | unknownKind a kind fields => exact keepsCells_record fun _ => rfl
  | mark a fields => exact keepsCells_record fun _ => rfl
  | head a fields => exact keepsCells_record fun _ => rfl
  | body a payload => exact keepsCells_record fun _ => rfl
  | withdraw a fields => exact keepsCells_record fun _ => rfl
  | endRecord a fields => exact keepsCells_record fun _ => rfl
  | query a fields => exact keepsCells_record fun _ => rfl
  | insertionPlaces a => exact keepsCells_insertionPlaces a
  | cellFreed a => exact keepsCells_cellFreed a
  | purgeStep a => exact keepsCells_purgeStep a
  | fillEnds p => exact keepsCells_fillEnds p
  | pull p slot => exact keepsCells_pull p slot
  | doneSent p => exact keepsCells_doneSent p
  | doneAborted p => exact keepsCells_doneAborted p
  | alignStart p => exact keepsCells_alignStart p
  | alignEndPass p => exact keepsCells_alignEndPass p
  | silenceTimerExpires p => exact keepsCells_silenceTimerExpires p
  | beaconTimerExpires p => exact keepsCells_beaconTimerExpires p
  | configureAuditorium args => exact keepsCells_configureAuditorium args
  | arm args => exact keepsCells_arm args
  | disarm args => exact keepsCells_disarm args
  | setGate args => exact keepsCells_setGate args
  | closeStream args => exact keepsCells_closeStream args
  | resetCuePort args => exact keepsCells_resetCuePort args
  | resetLinkPort args => exact keepsCells_resetLinkPort args
  | _ =>
    intro s h
    obtain ⟨t, next, done⟩ := exec_done _ s hi
    exact ⟨t, next, done.cellsWf rfl h⟩

theorem step_keeps_cellsWf (hs : s.cellsWf) (h : step s = .next t) : t.cellsWf :=
  step_keeps (fun _ _ _ _ h => (State.sameCells.mk rfl rfl rfl (fun _ => rfl) fun _ => rfl).cellsWf h)
    (fun _ => (State.sameCells.mk rfl rfl rfl (fun _ => rfl) fun _ => rfl).cellsWf reset_cellsWf)
    (fun i s t hi next hs => by
      obtain ⟨u, answered, kept⟩ := keepsCells i hi s hs
      rw [next] at answered
      cases answered
      exact kept) hs h

/-- Settles O7: quotas and queue lengths change by what each change of a command may do; the law of the cue store is kept by release and the arbiters
as work that moves cells from cues to the freeing unit, by purges with a DARK auditorium's teardown followed to its end, and by each event of the
intake and each command. -/
theorem stepKeepsQuotasAndCueQueues : Obligations.StepKeepsQuotasAndCueQueues :=
  ⟨fun _ _ hs h => step_keeps_quotasWf hs h, fun _ _ hs h => step_keeps_cueQueuesWf hs h, fun _ _ hs h => step_keeps_cellsWf hs h⟩

end Sys2Proof.Machine
end

section
/-! PROOFS. A beacon owed need not begin its fill at once in every state that the model's types allow: a port whose candidate's sequence another cue
of the queue bears too begins no fill, and the four rounds of `settleFills` can be spent on such ports, however the free choice falls. -/

namespace Sys2Proof.Machine

variable {s t u : State} {p q : Port} {able : List Port} {idle : Port → Bool} {k : Nat}

/-! ### The free choice among ports -/

theorem anyOrder_mem {α : Type} (x : α) (l : List α) : ∀ k, x ∈ anyOrder k l ↔ x ∈ l := by
  induction l with
  | nil => exact fun _ => Iff.rfl
  | cons y l ih =>
    intro k
    cases l with
    | nil => exact Iff.rfl
    | cons z l =>
      rw [anyOrder, List.mem_insertIdx (Nat.le_of_lt_succ (Nat.mod_lt _ (Nat.succ_pos _))), ih (k + 1), ← List.mem_cons]

theorem anyOne_of_ne_nil {α : Type} {l : List α} (some_ : l ≠ []) (k : Nat) : ∃ x ∈ l, anyOne k l = some x := by
  cases order : anyOrder k l with
  | nil =>
    obtain ⟨x, mem⟩ := List.exists_mem_of_ne_nil l some_
    have none_ := (anyOrder_mem x l k).mpr mem
    rw [order] at none_
    cases none_
  | cons x rest => exact ⟨x, (anyOrder_mem x l k).mp (by rw [order]; exact List.mem_cons_self), by rw [anyOne, order]; rfl⟩

theorem anyOne_pair {α : Type} (x y : α) (k : Nat) : anyOne k [x, y] = some (if Config.tie k 2 % 2 = 0 then x else y) := by
  rw [anyOne, anyOrder]
  simp only [anyOrder, List.length_singleton]
  have bound : Config.tie k (1 + 1) % (1 + 1) < 2 := Nat.mod_lt _ Nat.two_pos
  rcases bit : Config.tie k (1 + 1) % (1 + 1) with _ | _ | b
  · simp
  · simp
  · omega

theorem anyOne_triple {α : Type} (x y z : α) (k : Nat) : anyOne k [x, y, z] = some x ∨ anyOne k [x, y, z] = anyOne (k + 1) [y, z] := by
  rw [anyOne, anyOne, anyOrder]
  cases Config.tie k ((anyOrder (k + 1) [y, z]).length + 1) % ((anyOrder (k + 1) [y, z]).length + 1) with
  | zero => exact .inl rfl
  | succ i =>
    refine .inr ?_
    cases order : anyOrder (k + 1) [y, z] with
    | nil =>
      have none_ := (anyOrder_mem y [y, z] (k + 1)).mpr List.mem_cons_self
      rw [order] at none_
      cases none_
    | cons w rest => rfl

/-! ### Rounds that begin no fill -/

/-- Port `p` begins no fill though its arbiter may: the cue that `findCue` gives for its candidate owes nobody. -/
def State.stalls (s : State) (p : Port) : Prop := ∃ n x, s.candidate p = some (.item n x) ∧ ∀ c, s.findCue n x = some c → c.due = none

/-- The ports of `able` may begin a fill; those of `idle` do so without effect, and the others owe a beacon. -/
structure State.contest (s : State) (idle : Port → Bool) (able : List Port) : Prop where
  may : ports.filter s.mayFill = able
  stalls : ∀ q, idle q = true → s.stalls q
  owes : ∀ q ∈ able, idle q = false → (s.link q).beaconOwed = true

theorem State.stalls.fill (h : s.stalls p) : s.fill p = s := by
  obtain ⟨n, x, cand, none_⟩ := h
  unfold State.fill
  split
  · next b e => rw [cand] at e; cases e
  · next b m e => rw [cand] at e; cases e
  · next b m y _ e =>
    rw [cand] at e
    cases e
    split
    · rfl
    · next c found => simp only [none_ c found]
  · rfl

/-- A round that falls to an idle port is spent. -/
theorem State.contest.spends (h : s.contest idle able) (drawn : anyOne s.draws able = some q) (still : idle q = true) (fuel : Nat) :
    State.settleFillsFuel (fuel + 1) s = State.settleFillsFuel fuel (s.onDraws (· + drawsOf able)) ∧
    (s.onDraws (· + drawsOf able)).contest idle able := by
  refine ⟨?_, h.may, h.stalls, h.owes⟩
  have same : (s.onDraws (· + drawsOf able)).fill q = s.onDraws (· + drawsOf able) := State.stalls.fill (s := s.onDraws _) (h.stalls q still)
  rw [State.settleFillsFuel]
  simp only [h.may, drawn, same]

theorem mem_able (h : s.contest idle able) : q ∈ able ↔ s.mayFill q = true := by
  rw [← h.may, List.mem_filter]
  exact ⟨fun both => both.2, fun may => ⟨List.mem_finRange q, may⟩⟩

/-- What the arbiter of port `q` reads of a change of another port. -/
theorem mayFill_onLink (ne : p ≠ q) (f : LinkPort → LinkPort) :
    (s.onLink p f).mayFill q = s.mayFill q ∧ (s.onLink p f).candidate q = s.candidate q := by
  have link : (s.onLink p f).link q = s.link q := (State.onLink_link ..).trans (if_neg ne)
  have cand : (s.onLink p f).candidate q = s.candidate q := by
    rw [State.candidate, State.candidate, link]
    rfl
  exact ⟨by rw [State.mayFill, State.mayFill, link, cand], cand⟩

/-- A round that falls to a port which owes a beacon takes it out of the contest. -/
theorem State.contest.fills (h : s.contest idle able) (drawn : anyOne s.draws able = some q) (mem : q ∈ able) (busy : idle q = false) (fuel : Nat) :
    ∃ t, State.settleFillsFuel (fuel + 1) s = State.settleFillsFuel fuel t ∧ t.contest idle (able.filter fun r => !(r == q)) ∧
      t.draws = s.draws + drawsOf able := by
  have owed := h.owes q mem busy
  have may := (mem_able h).mp mem
  simp only [State.mayFill, Bool.and_eq_true] at may
  obtain ⟨b, empty⟩ := Option.isSome_iff_exists.mp may.1.2
  obtain ⟨f, filled, filling⟩ : ∃ f : LinkPort → LinkPort,
      ((s.onDraws (· + drawsOf able)).fill q = (s.onDraws (· + drawsOf able)).onLink q f) ∧ (f (s.link q)).fillingBuffer ≠ none := by
    have cand : (s.onDraws (· + drawsOf able)).candidate q = some .beacon := candidate_beacon owed
    have empty' : ((s.onDraws (· + drawsOf able)).link q).emptyBuffer = some b := empty
    refine ⟨fun l => { l.setBuffer b (.filling (.beacon ((s.onDraws (· + drawsOf able)).beaconEntries q))
      (s.now + Config.fillPerByte * (Frame.beacon ((s.onDraws (· + drawsOf able)).beaconEntries q)).bytes.length)) with beaconOwed := false }, ?_, fun none_ => ?_⟩
    · unfold State.fill
      simp only [empty', cand]
      simp only [State.startFill, State.onLink, change_change]
      rfl
    · exact (fillingBuffer_none _).mp none_ b _ _ ((pick_change ..).trans (if_pos rfl))
  refine ⟨(s.onDraws (· + drawsOf able)).onLink q f, ?_, ⟨?_, fun r still => ?_, fun r mem still => ?_⟩, rfl⟩
  · rw [State.settleFillsFuel]
    simp only [h.may, drawn, filled]
  · have taken : ports.filter ((s.onDraws (· + drawsOf able)).onLink q f).mayFill = (ports.filter s.mayFill).filter fun r => !(r == q) := by
      rw [List.filter_filter]
      refine List.filter_congr fun r _ => ?_
      by_cases same : q = r
      · subst same
        have link : ((s.onDraws (· + drawsOf able)).onLink q f).link q = f (s.link q) := (State.onLink_link ..).trans (if_pos rfl)
        have busy_ : (f (s.link q)).fillingBuffer.isNone = false := Option.isNone_eq_false_iff.mpr (Option.isSome_iff_ne_none.mpr filling)
        rw [State.mayFill, link, busy_]
        simp
      · rw [(mayFill_onLink same f).1, beq_eq_false_iff_ne.mpr (Ne.symm same)]
        exact (Bool.true_and _).symm
    rw [taken, h.may]
  · have ne : q ≠ r := fun e => by rw [e, still] at busy; cases busy
    obtain ⟨n, x, cand, none_⟩ := h.stalls r still
    exact ⟨n, x, (mayFill_onLink ne f).2.trans cand, none_⟩
  · rw [List.mem_filter] at mem
    have ne : q ≠ r := fun e => by simp [e] at mem
    rw [State.onLink_link, if_neg ne]
    exact h.owes r mem.1 still

/-! ### Four rounds spent, however the free choice falls -/

theorem able_without (q : Port) : ∃ x y z, (ports.filter fun r => !(r == q)) = [x, y, z] ∧ x ≠ y ∧ x ≠ z ∧ y ≠ z ∧ q ≠ x ∧ q ≠ y ∧ q ≠ z := by
  revert q
  decide

theorem able_without_both (a b : Port) (ne : a ≠ b) : ∃ x y, ((ports.filter fun r => !(r == a)).filter fun r => !(r == b)) = [x, y] ∧ x ≠ y ∧
    a ≠ x ∧ a ≠ y ∧ b ≠ x ∧ b ≠ y := by
  revert a b
  decide

/-- Of four ports that may begin a fill, those of `idle` without effect, port `p`, which owes a beacon, is passed over in the four rounds from draw `k`
on. -/
def PassedOver (k : Nat) (idle : Port → Bool) (p : Port) : Prop :=
  idle p = false ∧ ∀ s : State, s.contest idle ports → s.draws = k → (s.settleFills.link p).beaconOwed = true

/-- Two ports fill, and the third and fourth rounds both fall to the same of the other two. -/
theorem passedOver_twice (same : Config.tie (k + 5) 2 % 2 = Config.tie (k + 6) 2 % 2) : ∃ idle p, PassedOver k idle p := by
  obtain ⟨a, memA, drawnA⟩ := anyOne_of_ne_nil (l := ports) (by decide) k
  have some_ : (ports.filter fun r => !(r == a)) ≠ [] := by
    obtain ⟨x, y, z, rest, -⟩ := able_without a
    rw [rest]
    exact List.cons_ne_nil _ _
  obtain ⟨b, memB, drawnB⟩ := anyOne_of_ne_nil some_ (k + 3)
  have ab : a ≠ b := fun e => by
    rw [List.mem_filter] at memB
    simp [e] at memB
  obtain ⟨x, y, rest, xy, ax, ay, bx, by_⟩ := able_without_both a b ab
  obtain ⟨w, p, which, takes⟩ : ∃ w p, (w = x ∧ p = y ∨ w = y ∧ p = x) ∧ ∀ m, Config.tie m 2 % 2 = Config.tie (k + 5) 2 % 2 → anyOne m [x, y] = some w := by
    by_cases bit : Config.tie (k + 5) 2 % 2 = 0
    · exact ⟨x, y, .inl ⟨rfl, rfl⟩, fun m e => by rw [anyOne_pair, if_pos (e.trans bit)]⟩
    · exact ⟨y, x, .inr ⟨rfl, rfl⟩, fun m e => by rw [anyOne_pair, if_neg (e ▸ bit)]⟩
  obtain ⟨aw, bw, pw, memP⟩ : a ≠ w ∧ b ≠ w ∧ p ≠ w ∧ p ∈ [x, y] := by
    rcases which with ⟨rfl, rfl⟩ | ⟨rfl, rfl⟩
    · exact ⟨ax, bx, xy.symm, by simp⟩
    · exact ⟨ay, by_, xy, by simp⟩
  have still : (p == w) = false := by simp [pw]
  refine ⟨fun q => q == w, p, still, fun s h draws => ?_⟩
  obtain ⟨t1, e1, h1, d1⟩ := h.fills (by rw [draws]; exact drawnA) memA (by simp [aw]) 3
  have d1' : t1.draws = k + 3 := by rw [d1, draws]; rfl
  have lengthB : drawsOf (ports.filter fun r => !(r == a)) = 2 := by
    obtain ⟨x, y, z, rest, -⟩ := able_without a
    rw [rest]
    rfl
  obtain ⟨t2, e2, h2, d2⟩ := h1.fills (by rw [d1']; exact drawnB) memB (by simp [bw]) 2
  rw [rest] at h2
  have d2' : t2.draws = k + 5 := by rw [d2, d1', lengthB]
  obtain ⟨e3, h3⟩ := h2.spends (by rw [d2']; exact takes _ rfl) (by simp) 1
  obtain ⟨e4, h4⟩ := h3.spends (q := w) (by rw [show (t2.onDraws (· + drawsOf [x, y])).draws = k + 6 from congrArg (· + 1) d2']; exact takes _ same.symm) (by simp) 0
  rw [State.settleFills, e1, e2, e3, e4]
  exact h4.owes p memP still

/-- One port fills, and the other three rounds fall to two of the other three. -/
theorem passedOver_thrice (first : Config.tie (k + 4) 2 % 2 = Config.tie (k + 6) 2 % 2) (second : Config.tie (k + 4) 2 % 2 = Config.tie (k + 8) 2 % 2) :
    ∃ idle p, PassedOver k idle p := by
  obtain ⟨a, memA, drawnA⟩ := anyOne_of_ne_nil (l := ports) (by decide) k
  obtain ⟨x, y, z, rest, xy, xz, yz, ax, ay, az⟩ := able_without a
  obtain ⟨w, p, pair⟩ : ∃ w p, (w = y ∧ p = z ∨ w = z ∧ p = y) ∧ ∀ m, Config.tie m 2 % 2 = Config.tie (k + 4) 2 % 2 → anyOne m [y, z] = some w := by
    by_cases bit : Config.tie (k + 4) 2 % 2 = 0
    · exact ⟨y, z, .inl ⟨rfl, rfl⟩, fun m e => by rw [anyOne_pair, if_pos (e.trans bit)]⟩
    · exact ⟨z, y, .inr ⟨rfl, rfl⟩, fun m e => by rw [anyOne_pair, if_neg (e ▸ bit)]⟩
  obtain ⟨either, takes⟩ := pair
  have drawn (m : Nat) (e : Config.tie (m + 1) 2 % 2 = Config.tie (k + 4) 2 % 2) : ∃ q, anyOne m [x, y, z] = some q ∧ (q = x ∨ q = w) := by
    rcases anyOne_triple x y z m with one | two
    · exact ⟨x, one, .inl rfl⟩
    · exact ⟨w, two.trans (takes _ e), .inr rfl⟩
  have spent (s : State) (m : Nat) (h : s.contest (fun q => q == x || q == w) [x, y, z]) (draws : s.draws = m)
      (e : Config.tie (m + 1) 2 % 2 = Config.tie (k + 4) 2 % 2) (fuel : Nat) : ∃ t : State, State.settleFillsFuel (fuel + 1) s = State.settleFillsFuel fuel t ∧
      t.contest (fun q => q == x || q == w) [x, y, z] ∧ t.draws = m + 2 := by
    obtain ⟨q, one, which⟩ := drawn m e
    obtain ⟨next, after⟩ := h.spends (by rw [draws]; exact one) (by rcases which with rfl | rfl <;> simp) fuel
    exact ⟨_, next, after, by rw [← draws]; rfl⟩
  have apart : p ≠ x ∧ p ≠ w ∧ p ∈ [x, y, z] ∧ a ≠ w := by
    rcases either with ⟨rfl, rfl⟩ | ⟨rfl, rfl⟩
    · exact ⟨xz.symm, yz.symm, by simp, ay⟩
    · exact ⟨xy.symm, yz, by simp, az⟩
  obtain ⟨px, pw, memP, aw⟩ := apart
  have still : (p == x || p == w) = false := by simp [px, pw]
  refine ⟨fun q => q == x || q == w, p, still, fun s h draws => ?_⟩
  obtain ⟨t1, e1, h1, d1⟩ := h.fills (by rw [draws]; exact drawnA) memA (by simp [ax, aw]) 3
  rw [rest] at h1
  have d1' : t1.draws = k + 3 := by rw [d1, draws]; rfl
  obtain ⟨t2, e2, h2, d2⟩ := spent t1 _ h1 d1' rfl 2
  obtain ⟨t3, e3, h3, d3⟩ := spent t2 _ h2 d2 first.symm 1
  obtain ⟨t4, e4, h4, -⟩ := spent t3 _ h3 d3 second.symm 0
  rw [State.settleFills, e1, e2, e3, e4]
  exact h4.owes p memP still

theorem exists_passedOver : ∃ k idle p, PassedOver k idle p := by
  by_contra none_
  have apart (k : Nat) : Config.tie (k + 5) 2 % 2 ≠ Config.tie (k + 6) 2 % 2 := fun same => none_ ⟨k, passedOver_twice same⟩
  have bit (m : Nat) : Config.tie m 2 % 2 < 2 := Nat.mod_lt _ Nat.two_pos
  have zero := apart 0
  have one := apart 1
  have two := apart 2
  have three := apart 3
  simp only [Nat.reduceAdd] at zero one two three
  have five := bit 5
  have six := bit 6
  have seven := bit 7
  have eight := bit 8
  have nine := bit 9
  have first : Config.tie 5 2 % 2 = Config.tie 7 2 % 2 := by omega
  have second : Config.tie 5 2 % 2 = Config.tie 9 2 % 2 := by omega
  exact none_ ⟨1, passedOver_thrice (k := 1) first second⟩

end Sys2Proof.Machine
end

section
/-! PROOFS. Two statements about a beacon's fill fail: their states may hold two cues with one sequence in a queue (which R69 shuts out), and on such a
cue other ports can spend every round in which port `p` should begin its fill. -/

namespace Sys2Proof.Machine

variable {s t : State} {p q : Port} {idle : Port → Bool} {k : Nat}

/-! ### The contested state -/

/-- Two captions with one sequence: the first owes nobody, the second owes the ports of `idle`. -/
def twins (idle : Port → Bool) : List Cue :=
  [{ stream := 0, seq := 0, kind := .caption, start := 0, length := 1, bodyCount := 1, life := .queued },
   { stream := 0, seq := 0, kind := .caption, start := 0, length := 1, bodyCount := 1, life := .due
     due := some { number := 0, pending := ports.filter idle, staged := false } }]

/-- Auditorium 0 RUNNING with the twins in its first stream; port `p` as `l`, the others SERVING with empty rings, those outside `idle` owing a beacon;
`k` free choices drawn. -/
def contested (idle : Port → Bool) (p : Port) (l : LinkPort) (k : Nat) : State :=
  { (State.reset.onSession 0 (fun x => { x with state := .running })).onStream 0 (fun x => { x with queue := twins idle }) with
    draws := k
    links := Vector.ofFn (fun q => if q = p then l else { state := .serving, beaconOwed := !idle q }) }

theorem contested_link (idle : Port → Bool) (p : Port) (l : LinkPort) (k : Nat) (q : Port) :
    (contested idle p l k).link q = if q = p then l else { state := .serving, beaconOwed := !idle q } := by
  simp [contested, State.link, pick]

theorem contested_stream (idle : Port → Bool) (p : Port) (l : LinkPort) (k : Nat) (n : StreamNo) :
    (contested idle p l k).stream n = if 0 = n then { queue := twins idle } else {} := by
  change (State.onStream _ 0 _).stream n = _
  rw [State.onStream_stream]
  split <;> simp

theorem contested_lit (idle : Port → Bool) (p : Port) (l : LinkPort) (k : Nat) : (contested idle p l k).lit 0 = true := by
  have running : ((contested idle p l k).session 0).state = .running := by
    change ((State.reset.onSession 0 (fun x => { x with state := .running })).session 0).state = .running
    rw [State.onSession_session, if_pos rfl]
  rw [State.lit, show audOfStream 0 = 0 from rfl, running]
  rfl

/-- Where every port serves with an empty ring, an idle port's candidate is the second twin, and the fill looks at the first. -/
theorem contest_of_twins {l : LinkPort} (streams : t.streams = (contested idle p l k).streams) (sessions : t.sessions = (contested idle p l k).sessions)
    (links : ∀ q, (t.link q).state = .serving ∧ (t.link q).buffers = Vector.replicate 3 .empty ∧ (t.link q).beaconOwed = !idle q) :
    t.contest idle ports := by
  have stream (n : StreamNo) : t.stream n = if 0 = n then { queue := twins idle } else {} := by
    rw [← contested_stream idle p l k n, State.stream, State.stream, streams]
  have lit : t.lit 0 = true := by
    rw [← contested_lit idle p l k]
    simp only [State.lit, State.session, sessions]
  have noClear : ∀ q, t.clearsOwedTo q = [] := fun q => List.filter_eq_nil_iff.mpr fun n _ => by
    rw [stream]
    split <;> simp
  have noNarration : ∀ q, t.owing q .narration .playing = [] := fun q => List.flatMap_eq_nil_iff.mpr fun n _ => by
    rw [stream]
    split <;> simp [twins]
  have owing (q : Port) (x : StreamNo × Cue) (mem : x ∈ t.owing q .caption .due) : x.1 = 0 ∧ x.2.seq = 0 := by
    obtain ⟨n, -, named⟩ := List.mem_flatMap.mp mem
    obtain ⟨c, held, rfl⟩ := List.mem_map.mp named
    rw [stream] at held
    split at held
    · next zero =>
      have twin := List.mem_of_mem_filter held
      simp only [twins, List.mem_cons, List.not_mem_nil, or_false] at twin
      rcases twin with rfl | rfl <;> exact ⟨zero.symm, rfl⟩
    · cases held
  have some_ (q : Port) (still : idle q = true) : t.owing q .caption .due ≠ [] := by
    have second : (twins idle)[1]'(Nat.lt_succ_self 1) ∈ (t.stream 0).queue := by
      rw [stream, if_pos rfl]
      exact List.getElem_mem _
    have owes : ((twins idle)[1]'(Nat.lt_succ_self 1)).owedTo q = true := by simp [twins, Cue.owedTo, Cue.outstanding, still, ports]
    have inContest : ((0 : StreamNo), (twins idle)[1]'(Nat.lt_succ_self 1)) ∈ t.owing q .caption .due :=
      List.mem_flatMap.mpr ⟨0, List.mem_filter.mpr ⟨List.mem_finRange _, lit⟩,
        List.mem_map.mpr ⟨_, List.mem_filter.mpr ⟨second, by rw [owes]; rfl⟩, rfl⟩⟩
    exact List.ne_nil_of_mem inContest
  have candidate (q : Port) (still : idle q = true) : t.candidate q = some (.item 0 0) := by
    have notOwed : (t.link q).beaconOwed = false := by rw [(links q).2.2, still]; rfl
    rw [State.candidate, notOwed, noClear, noNarration]
    cases least : leastBy (fun x => x.2.start) (t.owing q .caption .due) with
    | none => exact absurd (leastBy_none least) (some_ q still)
    | some x =>
      obtain ⟨n, seq⟩ := owing q x (leastBy_mem least)
      simp [leastBy, n, seq]
  have may (q : Port) : t.mayFill q = true := by
    obtain ⟨serving, empty, owed⟩ := links q
    obtain ⟨x, cand⟩ : ∃ x, t.candidate q = some x := by
      cases still : idle q with
      | false => exact ⟨_, candidate_beacon (by rw [owed, still]; rfl)⟩
      | true => exact ⟨_, candidate q still⟩
    have first : (t.link q).emptyBuffer = some 0 := by
      rw [LinkPort.emptyBuffer, empty]
      decide
    exact mayFill_of serving (fun c g x => by rw [empty]; simp [pick]) first cand
  refine ⟨List.filter_eq_self.mpr fun q _ => may q, fun q still => ⟨0, 0, candidate q still, fun c found => ?_⟩, fun q _ still => ?_⟩
  · rw [State.findCue, stream, if_pos rfl] at found
    cases found
    rfl
  · rw [(links q).2.2, still]
    rfl

/-! ### The beacon that a port owes on entering SERVING, and at its timer's end -/

/-- A port in ALIGNING, its probe ring balanced. -/
def alignedPort : LinkPort := { state := .aligning, probe := { writeCount := 1 } }

/-- A SERVING port whose beacon timer has run down. -/
def timedPort : LinkPort := { state := .serving, beaconDue := some 0 }

/-- Refutes O48: on entering SERVING port `p` owes a beacon, but the four rounds of fills are spent on ports whose candidate bears the sequence of
another cue of its queue, or on other ports' beacons, as the free choice falls; `p` still owes it. -/
theorem not_alignEnd : ¬ Obligations.AlignEnd := by
  intro h
  obtain ⟨k, idle, p, busy, passed⟩ := exists_passedOver
  have link (q : Port) := contested_link idle p alignedPort k q
  have own : (contested idle p alignedPort k).link p = alignedPort := (link p).trans (if_pos rfl)
  obtain ⟨-, both⟩ := h p (contested idle p alignedPort k)
  obtain ⟨-, pass⟩ := both (by rw [own]; rfl) (by rw [own]; exact ⟨le_refl 1, rfl⟩)
  obtain ⟨t, es, next, -, -, -, owed, -⟩ := pass fun q => by
    rw [link]
    split <;> simp [alignedPort, pick, Buffer.isSending]
  have answered : exec (.alignEndPass p) (contested idle p alignedPort k) =
      .next (((contested idle p alignedPort k).enterServing p).answer p answerTaken).settleFills := by
    rw [exec_alignEndPass_eq, execAlignEndPass, own]
    rfl
  have still := passed (((contested idle p alignedPort k).enterServing p).answer p answerTaken)
    (contest_of_twins (p := p) (k := k) (l := alignedPort) rfl rfl fun q => ?_) rfl
  · rw [Host.Outcome.next.inj (answered.symm.trans next), owed] at still
    cases still
  · simp only [State.answer, State.enterServing, State.onLink_link, link]
    by_cases same : p = q
    · subst same
      simp [busy, alignedPort]
    · simp [same, Ne.symm same]

/-- Refutes O49: the beacon timer's end leaves port `p` with a beacon owed and an EMPTY buffer, and the rounds of fills pass it over in the same way. -/
theorem not_beaconTimer : ¬ Obligations.BeaconTimer := by
  intro h
  obtain ⟨k, idle, p, busy, passed⟩ := exists_passedOver
  have link (q : Port) := contested_link idle p timedPort k q
  have own : (contested idle p timedPort k).link p = timedPort := (link p).trans (if_pos rfl)
  have due : (contested idle p timedPort k).beaconDue p = true := by
    rw [State.beaconDue, own]
    rfl
  obtain ⟨t, next, -, -, -, -, -, begins⟩ := h p (contested idle p timedPort k) (congrArg some due)
  obtain ⟨owed, -⟩ := begins 0 (fun c f x => by rw [own]; simp [timedPort, pick]) (by rw [own]; simp [timedPort, pick])
    fun c lt => absurd lt (Nat.not_lt_zero _)
  obtain ⟨u, reloaded⟩ : ∃ u, u = (contested idle p timedPort k).onLink p (fun l =>
      { l with beaconDue := some ((contested idle p timedPort k).now + l.beaconPeriod * Config.tick), beaconOwed := true }) := ⟨_, rfl⟩
  have answered : exec (.beaconTimerExpires p) (contested idle p timedPort k) = .next u.settleFills := by
    rw [exec_beaconTimerExpires_eq, execBeaconTimerExpires, if_pos due, own, reloaded]
    rfl
  have still := passed u (contest_of_twins (p := p) (k := k) (l := timedPort) (by rw [reloaded]; rfl) (by rw [reloaded]; rfl) fun q => ?_)
    (by rw [reloaded]; rfl)
  · rw [Host.Outcome.next.inj (answered.symm.trans next), owed] at still
    cases still
  · rw [reloaded]
    simp only [State.onLink_link, link]
    by_cases same : p = q
    · subst same
      simp [busy, timedPort]
    · simp [same, Ne.symm same]

end Sys2Proof.Machine
end
